-- ==== Sys2Proof/Word.lean ====
section
/-!
DEFINITION. The widths the manual counts in: data bytes, 16-bit cells and fields, the four-bit rolling counter
(00 Conventions, R9, R21), and milliseconds.
-/

namespace Sys2Proof

/-- A data byte of a frame (00 Conventions, Frames). -/
abbrev Byte := BitVec 8

/-- A 16-bit value: a cell of a plane, a half of a check pair, a two-byte field (00 Conventions). -/
abbrev Word := BitVec 16

/-- The rolling counter, 0 to 15 (R9, R21, R179). -/
abbrev Counter := BitVec 4

/-- A time or a period in milliseconds (00 Conventions, Units and ranges). -/
abbrev Millis := Nat

end Sys2Proof
end

