-- ==== Sys2Proof/Syntax.lean ====
section
/-!
DEFINITION. The commands of the part, one constructor of `Instr` per row of spec/opcode_table.json, with what each event
brings from outside. A management request's arguments are the bytes of the request at the head of the request queue
(R152, R153), so the takings of requests have none of their own.
-/

namespace Sys2Proof

/-- The two CAN ports (00, Where the part sits). -/
inductive Port where
  | upstream
  | actuator
deriving DecidableEq, Repr

/-- The port on the other side of the part, into whose queue a frame is forwarded (R4). -/
def Port.other : Port → Port
  | .upstream => .actuator
  | .actuator => .upstream

/-- An identifier with its format: 11 bits standard, 29 bits extended (R1). -/
inductive FrameId where
  | std (id : BitVec 11)
  | ext (id : BitVec 29)
deriving DecidableEq, Repr

/-- Data or remote frame (R1). -/
inductive FrameKind where
  | data
  | remote
deriving DecidableEq, Repr

/-- A frame as a segment delivers it: identifier and format, type, data length code, data bytes (R1). -/
structure RxFrame where
  id   : FrameId
  kind : FrameKind
  dlc  : BitVec 4
  data : List Byte
deriving DecidableEq, Repr

/-- What a port's bus controller reports about a send (01 opening). -/
inductive TxReport where
  | complete
  | error
deriving DecidableEq, Repr

/-- How the header of a slot reads back at the end of a store's header phase (R170). -/
inductive HeaderReadBack where
  | asWritten
  | differently
deriving DecidableEq, Repr

/-- The three blocks that take a pass completion (R54). -/
inductive CompletionBlock where
  | controlStateUnit
  | mapBanks
  | scrubUnit
deriving DecidableEq, Repr

/-- The order in which the three blocks take a completion; the manual allows each of the six (R54, R106, R112, R147). -/
inductive TakeOrder where
  | controlBanksScrub
  | controlScrubBanks
  | banksControlScrub
  | banksScrubControl
  | scrubControlBanks
  | scrubBanksControl
deriving DecidableEq, Repr

/-- The order written out. -/
def TakeOrder.blocks : TakeOrder → List CompletionBlock
  | .controlBanksScrub => [.controlStateUnit, .mapBanks, .scrubUnit]
  | .controlScrubBanks => [.controlStateUnit, .scrubUnit, .mapBanks]
  | .banksControlScrub => [.mapBanks, .controlStateUnit, .scrubUnit]
  | .banksScrubControl => [.mapBanks, .scrubUnit, .controlStateUnit]
  | .scrubControlBanks => [.scrubUnit, .controlStateUnit, .mapBanks]
  | .scrubBanksControl => [.scrubUnit, .mapBanks, .controlStateUnit]

/-- The commands. `t` is the time of the event, given where the manual starts a timer from it or asks whether a
deadline has come (log 3). -/
inductive Instr where
  /-- FRAME_RECEIVE (R1). -/
  | frameReceive (port : Port) (frame : RxFrame) (t : Millis)
  /-- TRANSMIT_COMPLETE (R15). -/
  | transmitComplete (port : Port) (t : Millis)
  /-- TRANSMIT_ERROR (R16). -/
  | transmitError (port : Port)
  /-- STALE_TRANSMIT_REPORT (R17). -/
  | staleTransmitReport (port : Port) (report : TxReport)
  /-- PASS_COMPLETION (R52), with the order in which the three blocks take it (R54, log 6). -/
  | passCompletion (order : TakeOrder)
  /-- HOLD_TIMER_EXPIRY (R27). -/
  | holdTimerExpiry (t : Millis)
  /-- LOST_TIMER_EXPIRY (R28). -/
  | lostTimerExpiry (t : Millis)
  /-- WHEEL_TIMEOUT (R33). -/
  | wheelTimeout (t : Millis)
  /-- BRAKE_TIMER_EXPIRY (R35). -/
  | brakeTimerExpiry (t : Millis)
  /-- ACK_DEADLINE_EXPIRY (R97) of the record with this counter. -/
  | ackDeadlineExpiry (counter : Counter) (t : Millis)
  /-- STATUS_TIMER_EXPIRY (R116). -/
  | statusTimerExpiry (t : Millis)
  /-- STORE_PLANE_PHASE_COMPLETE (R169); `misprogrammed` lists the cells the slot did not take as programmed, each with
  what it took instead (log 7). -/
  | storePlanePhaseComplete (misprogrammed : List (Nat × Word))
  /-- STORE_HEADER_PHASE_COMPLETE (R170), with how the header reads back (log 7). -/
  | storeHeaderPhaseComplete (readBack : HeaderReadBack)
  /-- POWER_ON (R174), with the reading of the strap pins (R150). -/
  | powerOn (straps : BitVec 2)
  /-- RESET_LINE (R174), with the reading of the strap pins (R150). -/
  | resetLine (straps : BitVec 2)
  /-- BOOT_BUILD_COMPLETE (R175). -/
  | bootBuildComplete (t : Millis)
  /-- IDENTIFY (R156). -/
  | identify
  /-- READ_STATUS (R157). -/
  | readStatus
  /-- ENABLE_NOTICES (R162). -/
  | enableNotices
  /-- DISABLE_NOTICES (R162). -/
  | disableNotices
  /-- CLEAR_CONDITIONS (R163). -/
  | clearConditions
  /-- CLEAR_RESET_CAUSE (R164). -/
  | clearResetCause
  /-- ENTER_ROLLER (R108). -/
  | enterRoller
  /-- LEAVE_ROLLER (R109). -/
  | leaveRoller
  /-- RESTART (R159). -/
  | restart (t : Millis)
  /-- OPEN_WINDOW (R122). -/
  | openWindow
  /-- LOAD_DATA (R124). -/
  | loadData
  /-- RESUME_WINDOW (R128). -/
  | resumeWindow
  /-- READ_DATA (R130). -/
  | readData
  /-- FILL_WINDOW (R129). -/
  | fillWindow
  /-- COMMIT_PLANE (R131). -/
  | commitPlane
  /-- STAGE_COPY (R134). -/
  | stageCopy
  /-- ACTIVATE (R135). -/
  | activate
  /-- CANCEL_ACTIVATION (R140). -/
  | cancelActivation
  /-- STORE_IMAGE (R168). -/
  | storeImage
  /-- LOAD_IMAGE (R173). -/
  | loadImage
  /-- SELECT_BOOT_SLOT (R167). -/
  | selectBootSlot
  /-- UNKNOWN_REQUEST (R153). -/
  | unknownRequest
deriving DecidableEq, Repr

end Sys2Proof
end

