-- ==== Sys2Proof/Decode.lean ====
section
/-!
DEFINITION. The command a word spells. The rows of spec/opcode_table.json give no bits (their "fields" are empty and they
have no "fixed"), so no word spells a command: the part takes events, not coded instructions.
-/

namespace Sys2Proof

/-- The command spelled by the word `w` of `nbits` bits: none, since no row of the table gives bits. -/
def decodeTableWord (_nbits _w : Nat) : Option Instr := none

end Sys2Proof
end

