-- ==== Sys2Proof/Config.lean ====
section
/-!
DEFINITION. What the part fixes as constants, and the one value its manual leaves open.
-/

namespace Sys2Proof.Config

/-- Places of a transmit queue (R9). -/
def queuePlaces : Nat := 16

/-- PLAIN entries a transmit queue admits at most (R9, R12). -/
def plainPlaces : Nat := 14

/-- Transmit errors after which an entry is removed (R16). -/
def maxAttempts : Nat := 8

/-- Requests the request queue holds at most (R151). -/
def requestPlaces : Nat := 4

/-- Records the ack wait list holds at most (R92). -/
def ackPlaces : Nat := 4

/-- The value the miss count stays at (R98). -/
def maxMissCount : Nat := 15

/-- The fixed limp ceiling in N·m (R73, R87). -/
def limpCeiling : Nat := 80

/-- First and last identifier of the management range (R2, R67). -/
def managementFirst : Nat := 0x6C0

/-- See `managementFirst`. -/
def managementLast : Nat := 0x6CF

/-- Base of the request, response, notice and status identifiers, to which the node number is added (R150). -/
def requestBase : Nat := 0x6C0

/-- See `requestBase`. -/
def responseBase : Nat := 0x6C4

/-- See `requestBase`. -/
def noticeBase : Nat := 0x6C8

/-- See `requestBase`. -/
def statusBase : Nat := 0x6CC

/-- What Identify answers (R156, 11.4). -/
def vendorCode : Byte := 0x2C

/-- See `vendorCode`. -/
def partCode : Word := 0x0740

/-- See `vendorCode`. -/
def revision : Nat := 3

/-- FREE VALUE (log 5). A power-on or reset line that interrupts the programming of a plane leaves it "partly old and
partly new" (R172), and the manual does not say which cells are which. `programmedBefore n i`: at the n-th such
interruption cell `i` had already been programmed. It has no body, so nothing can be proved of its value. -/
opaque programmedBefore : Nat → Nat → Bool

end Sys2Proof.Config
end

