-- ==== Sys2Proof/Machine/State.lean ====
section
/-!
DEFINITION. The state of the part as plain data, block by block as the manual holds it (00, Block overview), and the state
right after power-on of a part that leaves the factory blank. INVENTORY.md lists every piece with its rule.
-/

namespace Sys2Proof.Machine

/-! ### Frames and transmit queues (01) -/

/-- A frame as the part holds it (R1, R9). -/
structure Frame where
  id   : FrameId
  kind : FrameKind
  len  : Nat
  data : List Byte
deriving DecidableEq, Repr

/-- What a reduced torque entry carries for the acknowledgement monitor (R9, R88). -/
structure ForwardedTorque where
  torque  : Int
  counter : Counter
deriving DecidableEq, Repr

/-- A complete frame content of an entry or of its follow-on (R9). `awaitedPart` marks the awaited part of the response
in progress, whose events the upstream port reports to the management unit (R155; log 13). -/
structure Content where
  frame       : Frame
  reduced     : Option ForwardedTorque
  awaitedPart : Bool
deriving DecidableEq, Repr

/-- How an entry came to be queued (R9). -/
inductive Origin where
  | plain
  | controlled
  | part
deriving DecidableEq, Repr

/-- A transmit queue entry (R9). `offered` is true while it is in offer; its place in the queue's list is its admission
order. -/
structure Entry where
  content  : Content
  origin   : Origin
  coalesce : Bool
  attempts : Nat
  offered  : Bool
  followOn : Option Content
deriving DecidableEq, Repr

/-! ### Sensor record unit (02) -/

/-- The lean source (R24). -/
inductive LeanSource where
  | live
  | held
  | lost
  | recovering
deriving DecidableEq, Repr

/-- The last-counter field of each of the six kinds (R21). -/
structure LastCounters where
  imu           : Option Counter
  wheel         : Option Counter
  brakeDemand   : Option Counter
  torqueRequest : Option Counter
  rideMode      : Option Counter
  loadState     : Option Counter
deriving DecidableEq, Repr

/-- The sensor record unit (02). A timer is stopped (`none`) or runs to a deadline; the wheel timer is expired when it is
stopped (R32), and the brake-demand record is fresh while its timer runs (R35). -/
structure Sensors where
  imuLean       : Int
  imuPitch      : Int
  source        : LeanSource
  recoveryCount : Nat
  holdTimer     : Option Millis
  lostTimer     : Option Millis
  vf            : Nat
  vr            : Nat
  wheelTimer    : Option Millis
  brakeFront    : Nat
  brakeRear     : Nat
  brakeTimer    : Option Millis
  torqueRequest : Int
  lastCounters  : LastCounters
deriving DecidableEq, Repr

/-! ### Evaluation unit (03) -/

/-- The control state (06). -/
inductive CtlState where
  | start
  | active
  | passive
  | roller
  | limp
deriving DecidableEq, Repr

/-- Ride modes 0 to 3 (00 Conventions, Names). -/
inductive RideMode where
  | rain
  | road
  | tour
  | dynamic
deriving DecidableEq, Repr

/-- Load states 0 to 3 (00 Conventions, Names). -/
inductive LoadState where
  | solo
  | soloLuggage
  | pair
  | pairLuggage
deriving DecidableEq, Repr

/-- The inputs a pass captures at its wheel arrival (R41, first group). -/
structure PassInputs where
  vf     : Nat
  vr     : Nat
  lean   : Int
  pitch  : Int
  dFront : Nat
  dRear  : Nat
  q      : Int
deriving DecidableEq, Repr

/-- A pass in flight: its captured inputs and what it read at its start (R41, second group). The planes of the active
bank, which it also reads, stand still while it is in flight (R41, R59; log 10). -/
structure Pass where
  inputs  : PassInputs
  ctl     : CtlState
  mode    : RideMode
  load    : LoadState
  vref    : Nat
  cut     : Nat
  relief  : Nat
  marker  : Bool
deriving DecidableEq, Repr

/-- The limit record (R52). -/
structure LimitRecord where
  passNo   : Nat
  lean     : Int
  a        : Nat
  column   : Nat
  slipTarget    : Nat
  torqueLimit   : Nat
  brakeFront    : Nat
  brakeRear     : Nat
  vfc      : Nat
  vrc      : Nat
  vref     : Nat
  slip     : Int
  cut      : Nat
  relief   : Nat
  ceiling  : Nat
  belowControlSpeed : Bool
deriving DecidableEq, Repr

/-- The evaluation unit (03). `cut` is C and `relief` is F. -/
structure Eval where
  inFlight  : Option Pass
  waiting   : Option PassInputs
  vref      : Nat
  cut       : Nat
  relief    : Nat
  marker    : Bool
  passCount : Nat
  record    : LimitRecord
deriving DecidableEq, Repr

/-! ### Acknowledgement monitor (05) -/

/-- A record of the ack wait list (R92). -/
structure AckRecord where
  counter  : Counter
  torque   : Int
  deadline : Millis
deriving DecidableEq, Repr

/-- The acknowledgement monitor (R92); the list is ordered oldest first. -/
structure AckMonitor where
  records   : List AckRecord
  missCount : Nat
  fault     : Bool
deriving DecidableEq, Repr

/-! ### Control state unit (06) -/

/-- The wheel liveness (R104). -/
inductive Liveness where
  | running
  | expired
deriving DecidableEq, Repr

/-- The control state unit (06). The lamp indications follow their sources at every event (R115) and are computed from
them where they are read (log 11). -/
structure Control where
  state       : CtlState
  liveness    : Liveness
  mode        : RideMode
  load        : LoadState
  pendingMode : Option RideMode
  pendingLoad : Option LoadState
  statusTimer : Option Millis
deriving DecidableEq, Repr

/-! ### Map banks (04, 07) -/

/-- The eight planes of a bank, numbered 0 to 7 (04 chapter table). -/
inductive PlaneId where
  | slipTarget
  | torqueCeiling
  | brakeFront
  | brakeRear
  | radius
  | columnSelect
  | parameter
  | action
deriving DecidableEq, Repr

/-- One value per plane. -/
structure PerPlane (α : Type) where
  slipTarget    : α
  torqueCeiling : α
  brakeFront    : α
  brakeRear     : α
  radius        : α
  columnSelect  : α
  parameter     : α
  action        : α
deriving DecidableEq, Repr

/-- A check pair (00 Conventions, Check pair). -/
structure CheckPair where
  S : Word
  W : Word
deriving DecidableEq, Repr

/-- A plane state; the check pair is present exactly while the plane is VERIFIED (R119). -/
inductive PlaneStatus where
  | empty
  | loading
  | verified (pair : CheckPair)
  | faulty
deriving DecidableEq, Repr

/-- A plane: its cells in index order, and its state with its check pair (R119). -/
structure Plane where
  cells  : List Word
  status : PlaneStatus
deriving DecidableEq, Repr

/-- A bank of eight planes (04). -/
abbrev Bank := PerPlane Plane

/-- Which bank a window names (R121). -/
inductive BankSel where
  | staging
  | active
deriving DecidableEq, Repr

/-- The order of a window (R121, R123). -/
inductive WindowOrder where
  | rowFirst
  | columnFirst
deriving DecidableEq, Repr

/-- The kind of a window and of an open run (R121). -/
inductive WindowKind where
  | load
  | read
deriving DecidableEq, Repr

/-- The window record (R121). -/
structure Window where
  bank     : BankSel
  plane    : PlaneId
  firstRow : Nat
  lastRow  : Nat
  firstCol : Nat
  lastCol  : Nat
  order    : WindowOrder
  kind     : WindowKind
  openRun  : Option WindowKind
  position : Nat
  expected : Byte
deriving DecidableEq, Repr

/-- The map banks (07). -/
structure Banks where
  active            : Bank
  staging           : Bank
  activationPending : Bool
  window            : Option Window
deriving DecidableEq, Repr

/-- The scrub unit (08): its position and running sums. -/
structure Scrub where
  plane : PlaneId
  row   : Nat
  sums  : CheckPair
deriving DecidableEq, Repr

/-! ### Management unit (09) -/

/-- The fifteen conditions (09 section 9.6, codes in 11.5). -/
inductive Condition where
  | imuLost
  | wheelTimeout
  | ackFault
  | ackOverrun
  | checkFail
  | forwardDrop
  | txAbandoned
  | scrubCorrected
  | planeFaulty
  | rollerExit
  | swapDone
  | storeDone
  | storeFailed
  | bootDegraded
  | requestDrop
deriving DecidableEq, Repr

/-- A subset of the conditions, as the 16-place list of 11.3 without its sixteenth place: bit n stands for the condition
of code n. -/
abbrev CondSet := BitVec 15

/-- The thirteen result codes (R154). -/
inductive Result where
  | ok
  | busyStore
  | pendingActivation
  | notStationary
  | badArgument
  | noWindow
  | sequenceGap
  | windowFull
  | checkLocated
  | checkUnlocatable
  | range
  | notReady
  | slotInvalid
deriving DecidableEq, Repr

/-- A request as it arrived: all its data bytes; its length is their number (R151). -/
abbrev Request := List Byte

/-- One part of a response (R154). -/
structure RespPart where
  code   : Byte
  seq    : Byte
  result : Result
  number : Nat
  last   : Bool
  data   : List Byte
deriving DecidableEq, Repr

/-- A response in progress: the number of the part awaited and the parts not yet placed (R155). -/
structure ResponseInProgress where
  awaited   : Nat
  remaining : List RespPart
deriving DecidableEq, Repr

/-- The reset cause set (R164). -/
structure ResetCauses where
  powerOn   : Bool
  resetLine : Bool
  restart   : Bool
deriving DecidableEq, Repr

/-- The management unit (09). -/
structure Mgmt where
  node       : BitVec 2
  requests   : List Request
  inHand     : Option Request
  response   : Option ResponseInProgress
  conditions : CondSet
  enabled    : CondSet
  causes     : ResetCauses
deriving DecidableEq, Repr

/-! ### Map store (10) -/

/-- The four image slots (10). -/
inductive SlotId where
  | slot0
  | slot1
  | slot2
  | slot3
deriving DecidableEq, Repr

/-- An image slot: plane cells, and a header of eight pairs and a validity mark (R166). -/
structure Slot where
  cells    : PerPlane (List Word)
  pairs    : PerPlane CheckPair
  complete : Bool
deriving DecidableEq, Repr

/-- The four slots. -/
structure Slots where
  slot0 : Slot
  slot1 : Slot
  slot2 : Slot
  slot3 : Slot
deriving DecidableEq, Repr

/-- The phase of a store (R169). -/
inductive StorePhase where
  | plane (p : PlaneId)
  | header
deriving DecidableEq, Repr

/-- The store state (R168, R169). -/
inductive StoreState where
  | idle
  | inProgress (slot : SlotId) (phase : StorePhase)
deriving DecidableEq, Repr

/-- The map store (10). -/
structure Store where
  slots        : Slots
  bootSelector : SlotId
  state        : StoreState
deriving DecidableEq, Repr

/-! ### The part -/

/-- Whether the map store is still building the active bank, the ports taking no part in their segments (R174), or the
part is running. -/
inductive Phase where
  | building
  | running
deriving DecidableEq, Repr

/-- The whole part, with the queue of commands that wait (the row's interface) and the counter that picks a fresh free
value (log 5). -/
structure State where
  pending   : List Instr
  phase     : Phase
  upstream  : List Entry
  actuator  : List Entry
  sensors   : Sensors
  eval      : Eval
  ack       : AckMonitor
  ctl       : Control
  banks     : Banks
  scrub     : Scrub
  mgmt      : Mgmt
  store     : Store
  freeCount : Nat
deriving DecidableEq, Repr

/-- The part never stops on a command: the manual describes no fault, and every error it names is a condition, a result
code, a plane state or a control state. So no constructor: no meaning can raise a fault. -/
inductive Fault where
deriving DecidableEq, Repr

/-- Why a command has no meaning. -/
inductive Refusal where
  /-- Raised by an arm of exec whose command has no meaning yet; safe, since nothing is claimed of it. No arm raises it. -/
  | notModelled (mnemonic : String)
deriving DecidableEq, Repr

/-! ### After power-on of a blank part -/

/-- The cells of every plane at 0 (R119, R166). -/
def zeroCells : PerPlane (List Word) :=
  { slipTarget := List.replicate 272 0, torqueCeiling := List.replicate 272 0,
    brakeFront := List.replicate 272 0, brakeRear := List.replicate 272 0,
    radius := List.replicate 66 0, columnSelect := List.replicate 16 0,
    parameter := List.replicate 21 0, action := List.replicate 64 0 }

/-- A header with the validity mark erased: each pair reads as (0, 0) (R166). -/
def erasedPairs : PerPlane CheckPair := ⟨⟨0, 0⟩, ⟨0, 0⟩, ⟨0, 0⟩, ⟨0, 0⟩, ⟨0, 0⟩, ⟨0, 0⟩, ⟨0, 0⟩, ⟨0, 0⟩⟩

/-- A slot as the part leaves the factory: every cell 0, INVALID (R166). -/
def blankSlot : Slot := { cells := zeroCells, pairs := erasedPairs, complete := false }

/-- The staging bank after power-on and the reset line: every plane EMPTY with all cells 0 (R119, R141). -/
def emptyBank : Bank :=
  { slipTarget := ⟨zeroCells.slipTarget, .empty⟩, torqueCeiling := ⟨zeroCells.torqueCeiling, .empty⟩,
    brakeFront := ⟨zeroCells.brakeFront, .empty⟩, brakeRear := ⟨zeroCells.brakeRear, .empty⟩,
    radius := ⟨zeroCells.radius, .empty⟩, columnSelect := ⟨zeroCells.columnSelect, .empty⟩,
    parameter := ⟨zeroCells.parameter, .empty⟩, action := ⟨zeroCells.action, .empty⟩ }

/-- The cells of the built-in ACTION plane (R76). -/
def builtInActionCells : List Word :=
  [372, 3, 0, 0,  418, 4, 1, 0,  198, 5, 0, 0,  199, 6, 1, 0,
   228, 7, 0, 0,  945, 8, 0, 0,  949, 9, 0, 0] ++ List.replicate 36 0

/-- The cells of the built-in PARAMETER plane (R77). -/
def builtInParameterCells : List Word :=
  [500, 300, 40, 24, 3, 80, 16, 2, 60, 80, 32, 30, 100, 40, 50, 450, 30, 5, 3, 1000, 100]

/-- The built-in ACTION plane, VERIFIED with its check pair (R76). -/
def builtInAction : Plane := ⟨builtInActionCells, .verified ⟨3353, 54999⟩⟩

/-- The built-in PARAMETER plane, VERIFIED with its check pair (R77). -/
def builtInParameter : Plane := ⟨builtInParameterCells, .verified ⟨2945, 36558⟩⟩

/-- The active bank of a blank part (R176): the built-in planes VERIFIED, the other six FAULTY with cells 0. -/
def blankBank : Bank :=
  { slipTarget := ⟨zeroCells.slipTarget, .faulty⟩, torqueCeiling := ⟨zeroCells.torqueCeiling, .faulty⟩,
    brakeFront := ⟨zeroCells.brakeFront, .faulty⟩, brakeRear := ⟨zeroCells.brakeRear, .faulty⟩,
    radius := ⟨zeroCells.radius, .faulty⟩, columnSelect := ⟨zeroCells.columnSelect, .faulty⟩,
    parameter := builtInParameter, action := builtInAction }

/-- The limit record of a blank part: pass number 0, the assumed lean of 450, and the values of FAULTY planes (R58, R73,
R74; 12.5). -/
def blankRecord : LimitRecord :=
  { passNo := 0, lean := 450, a := 450, column := 0, slipTarget := 0, torqueLimit := 80, brakeFront := 2000,
    brakeRear := 2000, vfc := 0, vrc := 0, vref := 0, slip := 0, cut := 0, relief := 0, ceiling := 80,
    belowControlSpeed := true }

/-- No last counter known (R21). -/
def noCounters : LastCounters := ⟨none, none, none, none, none, none⟩

/-- The sensor record unit after any reset (R38); its wheel timer is started when the build completes (R174) or, at a
Restart, at once. -/
def resetSensors : Sensors :=
  { imuLean := 0, imuPitch := 0, source := .lost, recoveryCount := 0, holdTimer := none, lostTimer := none, vf := 0,
    vr := 0, wheelTimer := none, brakeFront := 0, brakeRear := 0, brakeTimer := none, torqueRequest := 0,
    lastCounters := noCounters }

/-- The evaluation unit after any reset (R58), with the limit record built at it. -/
def resetEval (r : LimitRecord) : Eval :=
  { inFlight := none, waiting := none, vref := 0, cut := 0, relief := 0, marker := true, passCount := 0, record := r }

/-- The acknowledgement monitor after any reset (R92). -/
def resetAck : AckMonitor := { records := [], missCount := 0, fault := false }

/-- The scrub unit after any reset (R142). -/
def resetScrub : Scrub := { plane := .slipTarget, row := 0, sums := ⟨0, 0⟩ }

/-- The part right after power-on from the factory: POWER_ON has been taken (R165, R174), the four slots are blank and the
boot selector is 0 (R166), the straps read 0, and the map store is building the active bank. Until BOOT_BUILD_COMPLETE
the items built from that bank hold what a blank part's build will give them, the two timers that start with the build
are not running (R174), and nothing can observe them (log 4). -/
def State.reset : State :=
  { pending := [], phase := .building, upstream := [], actuator := [],
    sensors := resetSensors, eval := resetEval blankRecord, ack := resetAck,
    ctl := { state := .limp, liveness := .running, mode := .road, load := .solo, pendingMode := none,
             pendingLoad := none, statusTimer := none },
    banks := { active := blankBank, staging := emptyBank, activationPending := false, window := none },
    scrub := resetScrub,
    mgmt := { node := 0, requests := [], inHand := none, response := none, conditions := 0, enabled := 0,
              causes := ⟨true, false, false⟩ },
    store := { slots := ⟨blankSlot, blankSlot, blankSlot, blankSlot⟩, bootSelector := .slot0, state := .idle },
    freeCount := 0 }

end Sys2Proof.Machine
end

