-- ==== Sys2Proof/WellFormed.lean ====
section
/-!
DEFINITION. Which commands are well formed: a received frame carries the bytes its length code announces, a remote frame
carries none (R1), and a store's read-back names cells that a plane can have (04 chapter table).
-/

namespace Sys2Proof

/-- The data length a received frame is taken with: a code of 9 to 15 counts as 8 (R1). -/
def RxFrame.length (f : RxFrame) : Nat := min f.dlc.toNat 8

/-- A frame taken complete: a data frame has as many bytes as its length says, a remote frame has none (R1). -/
def RxFrame.complete (f : RxFrame) : Bool :=
  match f.kind with
  | .data   => f.data.length == f.length
  | .remote => f.data.isEmpty

/-- The index of every misprogrammed cell lies within the largest plane (272 cells, 04 chapter table). -/
def cellsInPlane (l : List (Nat × Word)) : Bool := l.all fun c => decide (c.1 < 272)

/-- No cell is listed twice. -/
def cellsDistinct (l : List (Nat × Word)) : Bool := decide ((l.map Prod.fst).Nodup)

/-- A well-formed command. -/
def Instr.wellFormed : Instr → Bool
  | .frameReceive _ f _ => f.complete
  | .transmitComplete _ _ => true
  | .transmitError _ => true
  | .staleTransmitReport _ _ => true
  | .passCompletion _ => true
  | .holdTimerExpiry _ => true
  | .lostTimerExpiry _ => true
  | .wheelTimeout _ => true
  | .brakeTimerExpiry _ => true
  | .ackDeadlineExpiry _ _ => true
  | .statusTimerExpiry _ => true
  | .storePlanePhaseComplete l => cellsInPlane l && cellsDistinct l
  | .storeHeaderPhaseComplete _ => true
  | .powerOn _ => true
  | .resetLine _ => true
  | .bootBuildComplete _ => true
  | .identify => true
  | .readStatus => true
  | .enableNotices => true
  | .disableNotices => true
  | .clearConditions => true
  | .clearResetCause => true
  | .enterRoller => true
  | .leaveRoller => true
  | .restart _ => true
  | .openWindow => true
  | .loadData => true
  | .resumeWindow => true
  | .readData => true
  | .fillWindow => true
  | .commitPlane => true
  | .stageCopy => true
  | .activate => true
  | .cancelActivation => true
  | .storeImage => true
  | .loadImage => true
  | .selectBootSlot => true
  | .unknownRequest => true

end Sys2Proof
end

