-- ==== Sys2Proof/Machine/Operands.lean ====
section
/-!
DEFINITION. Reading and writing the fields of frames and requests (11): bytes, two-byte fields most significant byte
first, the rolling counter, the check byte, the layouts of the received kinds, and the codes of 11.5.
-/

namespace Sys2Proof.Machine

/-! ### Bytes and fields -/

/-- Byte `i` of the data. -/
def byteAt (d : List Byte) (i : Nat) : Byte := d.getD i 0

/-- The two-byte field at byte `i`, most significant byte first (00 Conventions, Frames). -/
def fieldAt (d : List Byte) (i : Nat) : Word := byteAt d i ++ byteAt d (i + 1)

/-- An unsigned two-byte field. -/
def unsignedAt (d : List Byte) (i : Nat) : Nat := (fieldAt d i).toNat

/-- A signed two-byte field, two's complement (11). -/
def signedAt (d : List Byte) (i : Nat) : Int := (fieldAt d i).toInt

/-- A 16-bit value as two bytes, most significant first. -/
def wordBytes (w : Word) : List Byte := [w.extractLsb' 8 8, w.extractLsb' 0 8]

/-- An unsigned value sent as 16 bits. -/
def natBytes (n : Nat) : List Byte := wordBytes (BitVec.ofNat 16 n)

/-- A signed value sent as 16 bits. -/
def intBytes (n : Int) : List Byte := wordBytes (BitVec.ofInt 16 n)

/-- The rolling counter: the low four bits of the byte that holds it, whatever its upper bits (R179). -/
def counterAt (d : List Byte) (i : Nat) : Counter := (byteAt d i).extractLsb' 0 4

/-- `lo` to `hi`: a value above is taken as `hi`, one below as `lo`. -/
def saturate (lo hi x : Int) : Int := max lo (min hi x)

/-! ### The check byte (00 Conventions, R6, R7) -/

/-- The sum of bytes, mod 256. -/
def byteSum (d : List Byte) : Byte := d.foldl (· + ·) 0

/-- The check byte over the other data bytes: 255 minus their sum, mod 256. -/
def checkByte (d : List Byte) : Byte := 255 - byteSum d

/-- The data with its check byte after it (R7). -/
def withCheck (d : List Byte) : List Byte := d ++ [checkByte d]

/-- The data with its last byte computed anew over the others (R7, R90). -/
def recheck (d : List Byte) : List Byte := withCheck d.dropLast

/-- The check of a frame of a kind whose layout has `n` bytes is right: the length is not 0 and is the layout's, and the
last byte is the check byte of the others (R6). -/
def checkRight (n : Nat) (d : List Byte) : Bool :=
  d.length != 0 && d.length == n && d.getLast? == some (checkByte d.dropLast)

/-! ### Received frames -/

/-- The frame as the part takes it: a length code of 9 to 15 counts as 8 (R1). -/
def takenFrame (f : RxFrame) : Frame := { id := f.id, kind := f.kind, len := f.length, data := f.data }

/-- A standard data frame of the part's own, or a rewritten one. -/
def dataFrame (id : BitVec 11) (d : List Byte) : Frame := { id := .std id, kind := .data, len := d.length, data := d }

/-- The IMU, WHEEL and BRAKE_DEMAND layouts have 6 bytes, the torque kinds 4, ride mode and load state 3 (11.2). -/
def sensorLength : Nat := 6

/-- See `sensorLength`. -/
def torqueLength : Nat := 4

/-- See `sensorLength`. -/
def valueLength : Nat := 3

/-! ### Codes (11.5, 00 Conventions) -/

/-- Code of a control state (11.5). -/
def CtlState.code : CtlState → Nat
  | .start => 0
  | .active => 1
  | .passive => 2
  | .roller => 3
  | .limp => 4

/-- Code of a lean source (11.5). -/
def LeanSource.code : LeanSource → Nat
  | .live => 0
  | .held => 1
  | .lost => 2
  | .recovering => 3

/-- Code of a plane state (11.5). -/
def PlaneStatus.code : PlaneStatus → Nat
  | .empty => 0
  | .loading => 1
  | .verified _ => 2
  | .faulty => 3

/-- Code of a result (11.5). -/
def Result.code : Result → Nat
  | .ok => 0
  | .busyStore => 1
  | .pendingActivation => 2
  | .notStationary => 3
  | .badArgument => 4
  | .noWindow => 5
  | .sequenceGap => 6
  | .windowFull => 7
  | .checkLocated => 8
  | .checkUnlocatable => 9
  | .range => 10
  | .notReady => 11
  | .slotInvalid => 12

/-- Code of a condition (11.5). -/
def Condition.code : Condition → Nat
  | .imuLost => 0
  | .wheelTimeout => 1
  | .ackFault => 2
  | .ackOverrun => 3
  | .checkFail => 4
  | .forwardDrop => 5
  | .txAbandoned => 6
  | .scrubCorrected => 7
  | .planeFaulty => 8
  | .rollerExit => 9
  | .swapDone => 10
  | .storeDone => 11
  | .storeFailed => 12
  | .bootDegraded => 13
  | .requestDrop => 14

/-- Number of a ride mode (00 Conventions, Names). -/
def RideMode.code : RideMode → Nat
  | .rain => 0
  | .road => 1
  | .tour => 2
  | .dynamic => 3

/-- The ride mode of a number, none above 3 (R37). -/
def rideModeOf : Nat → Option RideMode
  | 0 => some .rain
  | 1 => some .road
  | 2 => some .tour
  | 3 => some .dynamic
  | _ => none

/-- Number of a load state (00 Conventions, Names). -/
def LoadState.code : LoadState → Nat
  | .solo => 0
  | .soloLuggage => 1
  | .pair => 2
  | .pairLuggage => 3

/-- The load state of a number, none above 3 (R37). -/
def loadStateOf : Nat → Option LoadState
  | 0 => some .solo
  | 1 => some .soloLuggage
  | 2 => some .pair
  | 3 => some .pairLuggage
  | _ => none

/-- Number of a slot. -/
def SlotId.code : SlotId → Nat
  | .slot0 => 0
  | .slot1 => 1
  | .slot2 => 2
  | .slot3 => 3

/-- The slot of a number, none above 3 (R167, R168, R173). -/
def slotOf : Nat → Option SlotId
  | 0 => some .slot0
  | 1 => some .slot1
  | 2 => some .slot2
  | 3 => some .slot3
  | _ => none

/-! ### Management requests (11.3) -/

/-- The 21 requests of the manual (R153, 11.3). -/
inductive RequestCode where
  | identify
  | readStatus
  | enableNotices
  | disableNotices
  | clearConditions
  | clearResetCause
  | enterRoller
  | leaveRoller
  | restart
  | openWindow
  | loadData
  | resumeWindow
  | readData
  | fillWindow
  | commitPlane
  | stageCopy
  | activate
  | cancelActivation
  | storeImage
  | loadImage
  | selectBootSlot
deriving DecidableEq, Repr

/-- The request of a code byte; every other code is unknown (11.3). -/
def requestCodeOf (b : Byte) : Option RequestCode :=
  if b = 0x01 then some .identify
  else if b = 0x02 then some .readStatus
  else if b = 0x03 then some .enableNotices
  else if b = 0x04 then some .disableNotices
  else if b = 0x05 then some .clearConditions
  else if b = 0x06 then some .clearResetCause
  else if b = 0x07 then some .enterRoller
  else if b = 0x08 then some .leaveRoller
  else if b = 0x09 then some .restart
  else if b = 0x10 then some .openWindow
  else if b = 0x11 then some .loadData
  else if b = 0x12 then some .resumeWindow
  else if b = 0x13 then some .readData
  else if b = 0x14 then some .fillWindow
  else if b = 0x15 then some .commitPlane
  else if b = 0x16 then some .stageCopy
  else if b = 0x17 then some .activate
  else if b = 0x18 then some .cancelActivation
  else if b = 0x20 then some .storeImage
  else if b = 0x21 then some .loadImage
  else if b = 0x22 then some .selectBootSlot
  else none

/-- The request a taken frame makes: none for a length of 0 or 1 and for an unknown code (R153, steps 1 and 2). -/
def requestCode (r : Request) : Option RequestCode :=
  if r.length < 2 then none else requestCodeOf (byteAt r 0)

/-- The sequence byte (R153). -/
def requestSeq (r : Request) : Byte := byteAt r 1

/-- A byte argument as a number. -/
def requestArg (r : Request) (i : Nat) : Nat := (byteAt r i).toNat

/-- The condition list of a request: none when its sixteenth place is named (R162, R163, 11.3). -/
def requestConditions (r : Request) : Option CondSet :=
  let w := fieldAt r 2
  if w.getLsbD 15 then none else some (w.setWidth 15)

/-- The bank field of Open Window, bits 1 to 0 of byte 2 (11.3). -/
def requestBank (r : Request) : Option BankSel :=
  match ((byteAt r 2).extractLsb' 0 2).toNat with
  | 0 => some .staging
  | 1 => some .active
  | _ => none

/-- The window kind field of Open Window, bits 3 to 2 of byte 2 (11.3). -/
def requestKind (r : Request) : Option WindowKind :=
  match ((byteAt r 2).extractLsb' 2 2).toNat with
  | 0 => some .load
  | 1 => some .read
  | _ => none

/-- The order field of Open Window, bits 5 to 4 of byte 2 (11.3). -/
def requestOrder (r : Request) : Option WindowOrder :=
  match ((byteAt r 2).extractLsb' 4 2).toNat with
  | 0 => some .rowFirst
  | 1 => some .columnFirst
  | _ => none

/-- The 16-bit values of a Load Data request, in the order they stand (R124). -/
def requestValues : List Byte → List Word
  | hi :: lo :: rest => (hi ++ lo) :: requestValues rest
  | _ => []

end Sys2Proof.Machine
end

