-- ==== Sys2Proof/Machine/Planes.lean ====
section
/-!
DEFINITION. The planes as tables (04, 07): shapes, the check pair, the checks a committed plane must pass, the search for a
single changed cell, and how a reader of the active bank reads a cell or a parameter.
-/

namespace Sys2Proof.Machine

/-! ### Planes of a bank -/

/-- The eight planes in the order of their numbers (04). -/
def allPlanes : List PlaneId :=
  [.slipTarget, .torqueCeiling, .brakeFront, .brakeRear, .radius, .columnSelect, .parameter, .action]

/-- The number of a plane (04). -/
def PlaneId.number : PlaneId → Nat
  | .slipTarget => 0
  | .torqueCeiling => 1
  | .brakeFront => 2
  | .brakeRear => 3
  | .radius => 4
  | .columnSelect => 5
  | .parameter => 6
  | .action => 7

/-- The plane of a number, none above 7 (R120). -/
def planeOf : Nat → Option PlaneId
  | 0 => some .slipTarget
  | 1 => some .torqueCeiling
  | 2 => some .brakeFront
  | 3 => some .brakeRear
  | 4 => some .radius
  | 5 => some .columnSelect
  | 6 => some .parameter
  | 7 => some .action
  | _ => none

/-- The next plane in the order 0, 1, … 7, 0 (R143). -/
def PlaneId.next : PlaneId → PlaneId
  | .slipTarget => .torqueCeiling
  | .torqueCeiling => .brakeFront
  | .brakeFront => .brakeRear
  | .brakeRear => .radius
  | .radius => .columnSelect
  | .columnSelect => .parameter
  | .parameter => .action
  | .action => .slipTarget

/-- The value of one plane. -/
def PerPlane.get {α : Type} (b : PerPlane α) : PlaneId → α
  | .slipTarget => b.slipTarget
  | .torqueCeiling => b.torqueCeiling
  | .brakeFront => b.brakeFront
  | .brakeRear => b.brakeRear
  | .radius => b.radius
  | .columnSelect => b.columnSelect
  | .parameter => b.parameter
  | .action => b.action

/-- The value of one plane replaced. -/
def PerPlane.set {α : Type} (b : PerPlane α) (p : PlaneId) (x : α) : PerPlane α :=
  match p with
  | .slipTarget => { b with slipTarget := x }
  | .torqueCeiling => { b with torqueCeiling := x }
  | .brakeFront => { b with brakeFront := x }
  | .brakeRear => { b with brakeRear := x }
  | .radius => { b with radius := x }
  | .columnSelect => { b with columnSelect := x }
  | .parameter => { b with parameter := x }
  | .action => { b with action := x }

/-- One value computed for each plane. -/
def PerPlane.build {α : Type} (f : PlaneId → α) : PerPlane α :=
  ⟨f .slipTarget, f .torqueCeiling, f .brakeFront, f .brakeRear, f .radius, f .columnSelect, f .parameter, f .action⟩

/-- The rows of a plane (04). -/
def PlaneId.rows : PlaneId → Nat
  | .slipTarget => 17
  | .torqueCeiling => 17
  | .brakeFront => 17
  | .brakeRear => 17
  | .radius => 33
  | .columnSelect => 4
  | .parameter => 1
  | .action => 16

/-- The columns of a plane (04). -/
def PlaneId.cols : PlaneId → Nat
  | .slipTarget => 16
  | .torqueCeiling => 16
  | .brakeFront => 16
  | .brakeRear => 16
  | .radius => 2
  | .columnSelect => 4
  | .parameter => 21
  | .action => 4

/-- N, the number of cells of a plane (04). -/
def PlaneId.size (p : PlaneId) : Nat := p.rows * p.cols

/-- The stored value of cell `i`. -/
def cellAt (cells : List Word) (i : Nat) : Nat := (cells.getD i 0).toNat

/-- The plane is VERIFIED. -/
def Plane.isVerified (p : Plane) : Bool :=
  match p.status with
  | .verified _ => true
  | .empty => false
  | .loading => false
  | .faulty => false

/-- The plane is FAULTY. -/
def Plane.isFaulty (p : Plane) : Bool := p.status == .faulty

/-- The recorded check pair, present exactly while VERIFIED (R119). -/
def Plane.pair? (p : Plane) : Option CheckPair :=
  match p.status with
  | .verified c => some c
  | .empty => none
  | .loading => none
  | .faulty => none

/-- Every plane of the bank is VERIFIED (R135, R137, R168). -/
def allVerified (b : Bank) : Bool := allPlanes.all fun p => (b.get p).isVerified

/-- The LIMP condition: SLIP_TARGET, TORQUE_CEILING, PARAMETER or ACTION is FAULTY (R111). -/
def limpCondition (b : Bank) : Bool :=
  b.slipTarget.isFaulty || b.torqueCeiling.isFaulty || b.parameter.isFaulty || b.action.isFaulty

/-- Whether a plane is one of the four LIMP planes (R111). -/
def PlaneId.isLimpPlane : PlaneId → Bool
  | .slipTarget => true
  | .torqueCeiling => true
  | .brakeFront => false
  | .brakeRear => false
  | .radius => false
  | .columnSelect => false
  | .parameter => true
  | .action => true

/-- Some plane of the bank is FAULTY (R115). -/
def anyFaulty (b : Bank) : Bool := allPlanes.any fun p => (b.get p).isFaulty

/-- A plane list: bit p stands for plane p (11.3). -/
def planeList (f : PlaneId → Bool) : Byte :=
  allPlanes.foldl (fun b p => if f p then b ||| (1#8 <<< p.number) else b) 0

/-! ### The check pair (00 Conventions) -/

/-- The sums over `cells`, the first of which has index `i`, added to `acc`; both mod 65536. -/
def addCells (acc : CheckPair) (i : Nat) : List Word → CheckPair
  | [] => acc
  | c :: cs => addCells ⟨acc.S + c, acc.W + BitVec.ofNat 16 (i + 1) * c⟩ (i + 1) cs

/-- The check pair of a plane's cells. -/
def pairOf (cells : List Word) : CheckPair := addCells ⟨0, 0⟩ 0 cells

/-- The search for a single changed cell (R133, R144): the index of the only cell whose excess dS would explain dW, when
dS is not 0 and exactly one of the N cells does. -/
def locate (n : Nat) (dS dW : Word) : Option Nat :=
  if dS = 0 then none
  else match (List.range n).filter fun i => BitVec.ofNat 16 (i + 1) * dS == dW with
    | [i] => some i
    | _ => none

/-! ### Parameters (R64) -/

/-- The 21 entries of the PARAMETER plane (R64). -/
inductive Param where
  | ctrlMinSpeed
  | stationarySpeed
  | refFallLimit
  | cutGain
  | cutRecovery
  | dragSlip
  | dragGain
  | dragRecovery
  | dragMax
  | liftPitch
  | liftGain
  | imuHoldMs
  | imuLostMs
  | wheelTimeoutMs
  | swapLean
  | assumedLean
  | ackTimeoutMs
  | ackTolerance
  | ackMissLimit
  | rollerExitSpeed
  | statusPeriodMs
deriving DecidableEq, Repr

/-- Entry number, default and permitted range of a parameter. -/
structure ParamEntry where
  index   : Nat
  default : Nat
  low     : Nat
  high    : Nat
deriving DecidableEq, Repr

/-- The table of R64. -/
def Param.entry : Param → ParamEntry
  | .ctrlMinSpeed    => ⟨0, 500, 100, 3000⟩
  | .stationarySpeed => ⟨1, 300, 50, 1000⟩
  | .refFallLimit    => ⟨2, 40, 1, 200⟩
  | .cutGain         => ⟨3, 24, 1, 255⟩
  | .cutRecovery     => ⟨4, 3, 1, 50⟩
  | .dragSlip        => ⟨5, 80, 10, 500⟩
  | .dragGain        => ⟨6, 16, 1, 255⟩
  | .dragRecovery    => ⟨7, 2, 1, 50⟩
  | .dragMax         => ⟨8, 60, 0, 150⟩
  | .liftPitch       => ⟨9, 80, 20, 300⟩
  | .liftGain        => ⟨10, 32, 0, 255⟩
  | .imuHoldMs       => ⟨11, 30, 10, 500⟩
  | .imuLostMs       => ⟨12, 100, 20, 1000⟩
  | .wheelTimeoutMs  => ⟨13, 40, 10, 500⟩
  | .swapLean        => ⟨14, 50, 0, 200⟩
  | .assumedLean     => ⟨15, 450, 0, 640⟩
  | .ackTimeoutMs    => ⟨16, 30, 5, 200⟩
  | .ackTolerance    => ⟨17, 5, 0, 50⟩
  | .ackMissLimit    => ⟨18, 3, 1, 15⟩
  | .rollerExitSpeed => ⟨19, 1000, 300, 3000⟩
  | .statusPeriodMs  => ⟨20, 100, 20, 1000⟩

/-- The entries in index order. -/
def allParams : List Param :=
  [.ctrlMinSpeed, .stationarySpeed, .refFallLimit, .cutGain, .cutRecovery, .dragSlip, .dragGain, .dragRecovery, .dragMax,
   .liftPitch, .liftGain, .imuHoldMs, .imuLostMs, .wheelTimeoutMs, .swapLean, .assumedLean, .ackTimeoutMs, .ackTolerance,
   .ackMissLimit, .rollerExitSpeed, .statusPeriodMs]

/-- A parameter as every block reads it: as stored when it lies within its permitted range and as its built-in default
otherwise, in a FAULTY plane (R42, R65) and in a VERIFIED one (R60) alike. -/
def param (b : Bank) (p : Param) : Nat :=
  let v := cellAt b.parameter.cells p.entry.index
  if p.entry.low ≤ v ∧ v ≤ p.entry.high then v else p.entry.default

/-! ### The checks of a committed plane (R132) -/

/-- Range of the cells of a plane that has one range for all of them (R61 to R63); PARAMETER and ACTION have their own
checks. -/
def PlaneId.range : PlaneId → Nat × Nat
  | .slipTarget => (0, 400)
  | .torqueCeiling => (0, 400)
  | .brakeFront => (0, 2000)
  | .brakeRear => (0, 2000)
  | .radius => (3600, 4096)
  | .columnSelect => (0, 15)
  | .parameter => (0, 65535)
  | .action => (0, 65535)

/-- A PARAMETER cell offends: its entry is out of range, or it is entry 12 and IMU_LOST_MS is not above IMU_HOLD_MS
(R64). -/
def offendsParameter (cells : List Word) (i : Nat) : Bool :=
  (allParams.any fun p => p.entry.index == i && !(p.entry.low ≤ cellAt cells i && cellAt cells i ≤ p.entry.high))
    || (i == 12 && !(cellAt cells 11 < cellAt cells 12))

/-- A row of an ACTION plane as stored: identifier, kind, arrival port, coalesce (R66). -/
structure ActionRow where
  id       : Nat
  kind     : Nat
  port     : Nat
  coalesce : Nat
deriving DecidableEq, Repr

/-- Row `k` of an ACTION plane (R66). -/
def actionRow (cells : List Word) (k : Nat) : ActionRow :=
  ⟨cellAt cells (4 * k), cellAt cells (4 * k + 1), cellAt cells (4 * k + 2), cellAt cells (4 * k + 3)⟩

/-- A row is used when its kind is not 0 (R66). -/
def ActionRow.used (r : ActionRow) : Bool := r.kind != 0

/-- Kinds 3 to 9, which have a fixed port and may appear once (R67). -/
def ActionRow.special (r : ActionRow) : Bool := 3 ≤ r.kind && r.kind ≤ 9

/-- The code of the fixed port of kinds 3 to 9: WHEEL and TORQUE_ACK arrive at the actuator port (R5, R67). -/
def fixedPortCode (kind : Nat) : Nat := if kind = 4 ∨ kind = 6 then 1 else 0

/-- An ACTION cell offends: column ranges (R66) and the four consistency conditions of the used rows (R67). -/
def offendsAction (cells : List Word) (i : Nat) : Bool :=
  let k := i / 4
  let r := actionRow cells k
  let earlier := (List.range k).map (actionRow cells)
  match i % 4 with
  | 0 => r.id > 2047
      || (r.used && earlier.any fun e => e.used && e.id == r.id && e.port == r.port)
      || (r.used && Config.managementFirst ≤ r.id && r.id ≤ Config.managementLast)
  | 1 => r.kind > 9 || (r.special && earlier.any fun e => e.kind == r.kind)
  | 2 => r.port > 1 || (r.special && r.port != fixedPortCode r.kind)
  | _ => r.coalesce > 1

/-- Cell `i` offends some check of the plane (R132). -/
def offends (p : PlaneId) (cells : List Word) (i : Nat) : Bool :=
  match p with
  | .parameter => offendsParameter cells i
  | .action => offendsAction cells i
  | p => !(p.range.1 ≤ cellAt cells i && cellAt cells i ≤ p.range.2)

/-- The first offending cell: the lowest index among all offending cells of all failures (R132). -/
def firstOffending (p : PlaneId) (cells : List Word) : Option Nat := (List.range p.size).find? (offends p cells)

/-- The plane's cells pass every check (R132). -/
def passesChecks (p : PlaneId) (cells : List Word) : Bool := (firstOffending p cells).isNone

/-! ### Reading the active bank (R60) -/

/-- A cell of a VERIFIED grip or RADIUS plane as a reader uses it: within the plane's range, the bound beyond it (R60). -/
def usedCell (p : PlaneId) (pl : Plane) (i : Nat) : Nat := max p.range.1 (min p.range.2 (cellAt pl.cells i))

end Sys2Proof.Machine
end

