-- ==== Sys2Proof/Machine/Ops.lean ====
section
/-!
DEFINITION. The transmit queues (01): admission R10 to R13, the offer R14, and the placing of a frame into a port's queue.
-/

namespace Sys2Proof.Machine

/-! ### Lists with one element changed -/

/-- The last element that satisfies `p` replaced by `g` of it. -/
def mapLast {α : Type} (p : α → Bool) (g : α → α) : List α → List α
  | [] => []
  | e :: es => if es.any p then e :: mapLast p g es else if p e then g e :: es else e :: es

/-- The first element that satisfies `p` replaced by `g` of it. -/
def mapFirst {α : Type} (p : α → Bool) (g : α → α) : List α → List α
  | [] => []
  | e :: es => if p e then g e :: es else e :: mapFirst p g es

/-- The last element that satisfies `p` taken out. -/
def eraseLast {α : Type} (p : α → Bool) : List α → List α
  | [] => []
  | e :: es => if es.any p then e :: eraseLast p es else if p e then es else e :: es

/-- The last element that satisfies `p`. -/
def findLast? {α : Type} (p : α → Bool) : List α → Option α
  | [] => none
  | e :: es => if es.any p then findLast? p es else if p e then some e else none

/-! ### Admission (R10 to R13) -/

/-- An entry of the same identifier and origin as the arriving frame; a standard data frame is compared only with
standard data entries (R10). -/
def Entry.sameStream (f : Frame) (o : Origin) (e : Entry) : Bool :=
  e.content.frame.id == f.id && e.content.frame.kind == f.kind && e.origin == o

/-- An entry that waits (01 section 1.4). -/
def Entry.waiting (e : Entry) : Bool := !e.offered

/-- A new waiting entry (R12, R13). -/
def newEntry (c : Content) (o : Origin) (coalesce : Bool) : Entry :=
  { content := c, origin := o, coalesce := coalesce, attempts := 0, offered := false, followOn := none }

/-- Number of PLAIN entries, the one in offer included (R12). -/
def plainCount (q : List Entry) : Nat := q.countP fun e => e.origin == .plain

/-- What an admission costs: nothing, the arriving PLAIN frame (R12), or an entry displaced by it (R13). -/
inductive Loss where
  | nothing
  | dropped
  | displaced (e : Entry)
deriving DecidableEq, Repr

/-- A waiting PLAIN entry (R13). -/
def Entry.waitingPlain (e : Entry) : Bool := e.waiting && e.origin == .plain

/-- The entry a full queue gives up for a CONTROLLED or PART frame, and the queue without it: the newest waiting PLAIN
entry or, where none waits, the oldest waiting entry of any origin; never the entry in offer (R13). -/
def displace (q : List Entry) : Option Entry × List Entry :=
  if q.any Entry.waitingPlain then (findLast? Entry.waitingPlain q, eraseLast Entry.waitingPlain q)
  else (q.find? Entry.waiting, q.eraseP Entry.waiting)

/-- A frame placed into a queue: the replacement of R10, the follow-on of R11, or the admission of R12 and R13. -/
def queueFrame (c : Content) (o : Origin) (coalesce : Bool) (q : List Entry) : List Entry × Loss :=
  let same := Entry.sameStream c.frame o
  if coalesce && q.any (fun e => same e && e.waiting) then
    (mapLast (fun e => same e && e.waiting) (fun e => { e with content := c, attempts := 0 }) q, .nothing)
  else if coalesce && q.any same then
    (mapLast same (fun e => { e with followOn := some c }) q, .nothing)
  else match o with
    | .plain =>
      if plainCount q < Config.plainPlaces ∧ q.length < Config.queuePlaces then (q ++ [newEntry c o coalesce], .nothing)
      else (q, .dropped)
    | .controlled | .part =>
      if q.length < Config.queuePlaces then (q ++ [newEntry c o coalesce], .nothing)
      else match displace q with
        | (some e, rest) => (rest ++ [newEntry c o coalesce], .displaced e)
        | (none, rest) => (rest ++ [newEntry c o coalesce], .nothing)

/-! ### Offer (R14) -/

/-- The offer key: the 11-bit identifier against an extended frame's first 11 bits, standard first on equality, then the
rest of an extended identifier, then data before remote (R14). -/
def offerKey (f : Frame) : Nat :=
  let kind := match f.kind with
    | .data => 0
    | .remote => 1
  match f.id with
  | .std id => id.toNat * 2 ^ 20 + kind
  | .ext id => (id.toNat / 2 ^ 18) * 2 ^ 20 + 2 ^ 19 + (id.toNat % 2 ^ 18) * 2 + kind

/-- The lowest key among the waiting entries. -/
def lowestKey (q : List Entry) : Option Nat :=
  ((q.filter Entry.waiting).map fun e => offerKey e.content.frame).min?

/-- The port offers the waiting entry with the lowest key, the oldest among equals, when none is in offer (R14). -/
def offer (q : List Entry) : List Entry :=
  if q.any (·.offered) then q
  else match lowestKey q with
    | none => q
    | some k => mapFirst (fun e => e.waiting && offerKey e.content.frame == k) (fun e => { e with offered := true }) q

/-! ### Placing a frame -/

/-- The queue in front of a port. -/
def State.queue (s : State) : Port → List Entry
  | .upstream => s.upstream
  | .actuator => s.actuator

/-- The queue in front of a port replaced. -/
def State.setQueue (s : State) (p : Port) (q : List Entry) : State :=
  match p with
  | .upstream => { s with upstream := q }
  | .actuator => { s with actuator := q }

/-- The port offers if it has nothing in offer (R14). -/
def State.offerAt (s : State) (p : Port) : State := s.setQueue p (offer (s.queue p))

/-- The response in progress is discarded without its remaining parts (R155). -/
def State.discardResponse (s : State) : State := { s with mgmt := { s.mgmt with response := none } }

/-- The loss of a content that was the awaited part of a response discards the response in progress (R155). -/
def State.partLost (s : State) (c : Content) : State := if c.awaitedPart then s.discardResponse else s

/-- A frame is placed into a port's queue and the port offers (R10 to R14). The flag says that FORWARD_DROP is to be
raised: the frame was dropped or an entry displaced (R18). -/
def placeFrame (p : Port) (c : Content) (o : Origin) (coalesce : Bool) (s : State) : State × Bool :=
  match queueFrame c o coalesce (s.queue p) with
  | (q, .nothing) => (s.setQueue p (offer q), false)
  | (q, .dropped) => (s.setQueue p (offer q), true)
  | (q, .displaced e) => ((s.setQueue p (offer q)).partLost e.content, true)

/-- A content with nothing but its frame. -/
def plainContent (f : Frame) : Content := { frame := f, reduced := none, awaitedPart := false }

end Sys2Proof.Machine
end

