-- ==== Sys2Proof/Machine/Flags.lean ====
section
/-!
DEFINITION. Conditions and notices (09 section 9.6), placing a frame with its FORWARD_DROP, the test of stationary (R105)
and the rider's indications (R115).
-/

namespace Sys2Proof.Machine

/-! ### The condition set -/

/-- The bit of a condition in a condition list (11.3). -/
def Condition.bit (c : Condition) : CondSet := 1#15 <<< c.code

/-- The condition is a member of the set. -/
def CondSet.has (cs : CondSet) (c : Condition) : Bool := cs.getLsbD c.code

/-- The set as it is sent: 16 places, bit 15 always 0 (11.3). -/
def condBytes (cs : CondSet) : List Byte := wordBytes (cs.setWidth 16)

/-- One of the part's four identifiers: a base plus the node number (R150). -/
def State.nodeId (s : State) (base : Nat) : BitVec 11 := BitVec.ofNat 11 (base + s.mgmt.node.toNat)

/-- The notice frame: the code of the entering condition and the set just after its entry (R161, 11.4). -/
def noticeFrame (s : State) (c : Condition) : Frame :=
  dataFrame (s.nodeId Config.noticeBase) (withCheck (BitVec.ofNat 8 c.code :: condBytes s.mgmt.conditions))

/-- The condition enters the set and, when its notice is enabled at that moment, the notice is queued (R160, R161). The
flag says that the notice's admission displaced an entry. -/
def enterCondition (c : Condition) (s : State) : State × Bool :=
  let s1 := { s with mgmt := { s.mgmt with conditions := s.mgmt.conditions ||| c.bit } }
  if CondSet.has s.mgmt.enabled c then placeFrame .upstream (plainContent (noticeFrame s1 c)) .part true s1
  else (s1, false)

/-- A block raises a condition (R160). One already in the set changes nothing. A notice that displaces an entry raises
FORWARD_DROP in turn (R18); the notice of that one replaces the first or follows it on, so it displaces nothing more. -/
def raiseCondition (c : Condition) (s : State) : State :=
  if CondSet.has s.mgmt.conditions c then s
  else match enterCondition c s with
    | (s1, lost) =>
      if lost && !CondSet.has s1.mgmt.conditions .forwardDrop then (enterCondition .forwardDrop s1).1 else s1

/-- A frame is placed into a port's queue; FORWARD_DROP is raised when it is dropped or displaces an entry, once the frame
has its place (R12, R13, R18; log 8). -/
def place (p : Port) (c : Content) (o : Origin) (coalesce : Bool) (s : State) : State :=
  match placeFrame p c o coalesce s with
  | (s1, lost) => if lost then raiseCondition .forwardDrop s1 else s1

/-! ### Standstill (R105) -/

/-- The vehicle is stationary: the wheel liveness is running, the limit record holds a pass, and its v_ref is below the
active bank's STATIONARY_SPEED (R105). -/
def State.stationary (s : State) : Bool :=
  s.ctl.liveness == .running && s.eval.record.passNo != 0
    && s.eval.record.vref < param s.banks.active .stationarySpeed

/-! ### Lean in use (R24) -/

/-- λ_used: the IMU record's lean in LIVE and HELD, the assumed lean in LOST and RECOVERING (R24). -/
def State.leanUsed (s : State) : Int :=
  match s.sensors.source with
  | .live => s.sensors.imuLean
  | .held => s.sensors.imuLean
  | .lost => param s.banks.active .assumedLean
  | .recovering => param s.banks.active .assumedLean

/-- θ_used: the IMU record's pitch in LIVE and HELD, 0 in LOST and RECOVERING (R24). -/
def State.pitchUsed (s : State) : Int :=
  match s.sensors.source with
  | .live => s.sensors.imuPitch
  | .held => s.sensors.imuPitch
  | .lost => 0
  | .recovering => 0

/-! ### Indications (R115) -/

/-- The intervention indication is lit. -/
def State.interventionLit (s : State) : Bool := s.eval.record.cut > 0 || s.eval.record.relief > 0

/-- The fault indication is lit. -/
def State.faultLit (s : State) : Bool :=
  s.ctl.state == .limp || s.sensors.source == .lost || s.sensors.source == .recovering || s.ack.fault
    || anyFaulty s.banks.active

/-- The off indication is lit. -/
def State.offLit (s : State) : Bool := s.ctl.state == .roller

/-- A flag as bit `n` of a byte. -/
def flagBit (b : Bool) (n : Nat) : Byte := if b then 1#8 <<< n else 0

/-! ### Timers -/

/-- A timer's deadline has come: it runs, and its deadline is at or before the time of the event (log 3). -/
def timerDue (timer : Option Millis) (t : Millis) : Bool :=
  match timer with
  | none => false
  | some d => d ≤ t

end Sys2Proof.Machine
end

