-- ==== Sys2Proof/Machine/Limiting.lean ====
section
/-!
DEFINITION. The limiter (05 section 5.2) and the acknowledgement monitor (05 section 5.3).
-/

namespace Sys2Proof.Machine

/-! ### Limiter (R86 to R91) -/

/-- The forwarded torque for the saturated request `q` (R87). -/
def limitedTorque (ctl : CtlState) (r : LimitRecord) (q : Int) : Int :=
  if q > 0 then
    match ctl with
    | .active => min q r.ceiling
    | .start => min q r.torqueLimit
    | .passive => min q r.torqueLimit
    | .roller => min q r.torqueLimit
    | .limp => min q Config.limpCeiling
  else
    match ctl with
    | .active => min (q + r.relief) 0
    | .start => q
    | .passive => q
    | .roller => q
    | .limp => q

/-- The frame leaves with its original bytes when nothing differs, and with the differing fields replaced and a new check
byte otherwise (R90). -/
def rewriteField (d : List Byte) (i : Nat) (w : Word) : List Byte :=
  d.take i ++ wordBytes w ++ d.drop (i + 2)

/-- The saturated request of a torque-request frame (R87). -/
def requestedTorque (d : List Byte) : Int := saturate (-200) 400 (signedAt d 0)

/-- The bytes of a torque request forwarded with the value `out` (R90). -/
def torqueBytes (d : List Byte) (out : Int) : List Byte :=
  if out = signedAt d 0 then d else recheck (rewriteField d 0 (BitVec.ofInt 16 out))

/-- The content the limiter produces for a torque request: reduced when the forwarded value is below the saturated
request (R87, R88, R90). -/
def limitTorque (ctl : CtlState) (r : LimitRecord) (f : Frame) : Content :=
  let q := requestedTorque f.data
  let out := limitedTorque ctl r q
  { frame := { f with data := torqueBytes f.data out },
    reduced := if out < q then some { torque := out, counter := counterAt f.data 2 } else none,
    awaitedPart := false }

/-- The forwarded demand of one wheel: saturated and limited to the record's ceiling while its brake plane is VERIFIED, as
it arrived while it is FAULTY (R89). -/
def limitedDemand (pl : Plane) (ceiling d : Nat) : Nat := if pl.isFaulty then d else min (min d 2000) ceiling

/-- The bytes of a brake demand forwarded with the two values (R90). -/
def brakeBytes (d : List Byte) (front rear : Nat) : List Byte :=
  if front = unsignedAt d 0 ∧ rear = unsignedAt d 2 then d
  else recheck (rewriteField (rewriteField d 0 (BitVec.ofNat 16 front)) 2 (BitVec.ofNat 16 rear))

/-- The content the limiter produces for a brake demand (R89, R90). -/
def limitBrake (b : Bank) (r : LimitRecord) (f : Frame) : Content :=
  let front := limitedDemand b.brakeFront r.brakeFront (unsignedAt f.data 0)
  let rear := limitedDemand b.brakeRear r.brakeRear (unsignedAt f.data 2)
  plainContent { f with data := brakeBytes f.data front rear }

/-! ### Acknowledgement monitor (R92 to R99) -/

/-- The monitor's part of the state replaced. -/
def State.withAck (s : State) (a : AckMonitor) : State := { s with ack := a }

/-- The list made ready for a new record: the one of the same counter removed, then, if four remain, the oldest (R94). -/
def makeRoom (c : Counter) (l : List AckRecord) : List AckRecord :=
  let l1 := l.filter fun r => r.counter != c
  if l1.length ≥ Config.ackPlaces then l1.drop 1 else l1

/-- A record opens for a reduced content whose transmission has completed at time `t` (R93, R94). -/
def openAckRecord (ft : ForwardedTorque) (t : Millis) (s : State) : State :=
  let r := { counter := ft.counter, torque := ft.torque, deadline := t + param s.banks.active .ackTimeoutMs : AckRecord }
  s.withAck { s.ack with records := makeRoom ft.counter s.ack.records ++ [r] }

/-- A miss: the count rises by 1 to at most 15, and at or above ACK_MISS_LIMIT the flag is set and ACK_FAULT raised
(R98). -/
def ackMiss (s : State) : State :=
  let n := min Config.maxMissCount (s.ack.missCount + 1)
  if param s.banks.active .ackMissLimit ≤ n then
    raiseCondition .ackFault (s.withAck { s.ack with missCount := n, fault := true })
  else s.withAck { s.ack with missCount := n }

/-- The record of a counter is taken out of the list. -/
def removeRecord (c : Counter) (s : State) : State :=
  s.withAck { s.ack with records := s.ack.records.filter fun r => r.counter != c }

/-- The record of a counter; no two share one (R92). -/
def findRecord (c : Counter) (s : State) : Option AckRecord := s.ack.records.find? fun r => r.counter == c

/-- The verdict of a matched record against the applied torque (R96). Where an overrun also brings the count to
ACK_MISS_LIMIT, ACK_OVERRUN is raised before ACK_FAULT, which makes the notice of ACK_FAULT the newer (R160): DEDUCED, unsafe
(log 22), from the order of R96's words; no rule states the order. -/
def ackVerdict (r : AckRecord) (applied : Int) (s : State) : State :=
  if applied ≤ r.torque + param s.banks.active .ackTolerance then
    s.withAck { s.ack with missCount := 0, fault := false }
  else ackMiss (raiseCondition .ackOverrun s)

/-- TORQUE_ACK_ARRIVAL: with a right check the record of the echoed counter is removed and gets its verdict; any other
acknowledgement is ignored (R95). -/
def ackArrival (d : List Byte) (s : State) : State :=
  if checkRight torqueLength d then
    match findRecord (counterAt d 2) s with
    | none => s
    | some r => ackVerdict r (signedAt d 0) (removeRecord (counterAt d 2) s)
  else s

/-- ACK_DEADLINE_EXPIRY: the record of this counter, when its deadline has come, is removed and counts as a miss (R97; log
1, log 3). -/
def execAckDeadlineExpiry (c : Counter) (t : Millis) (s : State) : Host.Outcome State Fault Refusal :=
  .next (match findRecord c s with
    | none => s
    | some r => if r.deadline ≤ t then ackMiss (removeRecord c s) else s)

end Sys2Proof.Machine
end

