-- ==== Sys2Proof/Machine/Management.lean ====
section
/-!
DEFINITION. The management unit's shared operations (09): the request queue, responses in one or more parts, and the taking
of the request at the head of the queue.
-/

namespace Sys2Proof.Machine

/-- The management unit's part of the state replaced. -/
def State.withMgmt (s : State) (m : Mgmt) : State := { s with mgmt := m }

/-- The map banks' part of the state replaced. -/
def State.withBanks (s : State) (b : Banks) : State := { s with banks := b }

/-! ### The request queue (R151) -/

/-- A management request joins the queue, or is dropped with REQUEST_DROP when the queue holds four (R151). -/
def requestArrival (r : Request) (s : State) : State :=
  if s.mgmt.requests.length < Config.requestPlaces then s.withMgmt { s.mgmt with requests := s.mgmt.requests ++ [r] }
  else raiseCondition .requestDrop s

/-! ### Responses (R154, R155, R180) -/

/-- Response data divided into parts of four bytes, only the last shorter (R154, R180). -/
def divideData : List Byte → List (List Byte)
  | a :: b :: c :: d :: e :: rest => [a, b, c, d] :: divideData (e :: rest)
  | ds => [ds]

/-- The divided data numbered from `n` as response parts, the last one marked (R154). -/
def numberParts (code seq : Byte) (res : Result) : Nat → List (List Byte) → List RespPart
  | _, [] => []
  | n, [d] => [{ code := code, seq := seq, result := res, number := n, last := true, data := d }]
  | n, d :: ds =>
    { code := code, seq := seq, result := res, number := n, last := false, data := d } :: numberParts code seq res (n + 1) ds

/-- Byte 2 of a response: result code in bits 3 to 0, part number in bits 5 to 4, last-part mark in bit 6 (11.4). -/
def partControl (p : RespPart) : Byte :=
  BitVec.ofNat 8 p.result.code ||| (BitVec.ofNat 8 p.number <<< 4) ||| flagBit p.last 6

/-- The frame of a response part (11.4). -/
def partFrame (s : State) (p : RespPart) : Frame :=
  dataFrame (s.nodeId Config.responseBase) (withCheck (p.code :: p.seq :: partControl p :: p.data))

/-- A response part placed into the upstream queue (R155); `awaited` marks the awaited part of a response of two or more
parts. -/
def placePart (p : RespPart) (awaited : Bool) (s : State) : State :=
  place .upstream { frame := partFrame s p, reduced := none, awaitedPart := awaited } .part true s

/-- The response of a request: one part is placed and forgotten; of several, part 0 is placed and the rest become the
response in progress (R155). -/
def placeResponse (parts : List RespPart) (s : State) : State :=
  match parts with
  | [] => s
  | [p] => placePart p false s
  | p :: rest =>
    placePart p true (s.withMgmt { s.mgmt with response := some { awaited := 0, remaining := rest } })

/-- The response to request `r` with a result and its data (R154). -/
def respond (r : Request) (res : Result) (d : List Byte) (s : State) : State :=
  placeResponse (numberParts (byteAt r 0) (requestSeq r) res 0 (divideData d)) s

/-- Transmit-complete of the awaited part: the next part is placed and becomes the part awaited, or the response in
progress is over (R155). -/
def nextPart (s : State) : State :=
  match s.mgmt.response with
  | none => s
  | some r =>
    match r.remaining with
    | [] => s.discardResponse
    | p :: rest =>
      placePart p true (s.withMgmt { s.mgmt with response := some { awaited := r.awaited + 1, remaining := rest } })

/-! ### Taking a request (R152, R153) -/

/-- A request may be taken: the part is running, no request is in hand and no response is in progress (R152, R174). -/
def State.mayTake (s : State) : Bool :=
  s.phase == .running && s.mgmt.inHand.isNone && s.mgmt.response.isNone

/-- An open run ends; the window record stays with its position and expected sequence (R127). -/
def endRun (s : State) : State :=
  s.withBanks { s.banks with window := s.banks.window.map fun w => { w with openRun := none } }

/-- The oldest request leaves the queue and becomes the request in hand (R152). -/
def takeHead (r : Request) (rest : List Request) (s : State) : State :=
  s.withMgmt { s.mgmt with requests := rest, inHand := some r }

/-- The request has been taken whole: none is in hand (R152). -/
def handDone (s : State) : State := s.withMgmt { s.mgmt with inHand := none }

/-- The taking of the oldest request when it is one of code `code` (none: of length 0 or 1 or of an unknown code): it is
taken whole by `answer`. With another request, or none, at the head, or when none may be taken, nothing is taken and the
state is unchanged (R152, R153; log 1). -/
def takeRequest (code : Option RequestCode) (answer : Request → State → State) (s : State) : State :=
  if s.mayTake then
    match s.mgmt.requests with
    | [] => s
    | r :: rest => if requestCode r = code then handDone (answer r (takeHead r rest s)) else s
  else s

/-- A request other than Load Data, Read Data and Read Status ends an open run, and one whose length is not the allowed
one is answered BAD_ARGUMENT and changes nothing more (R127, R153). -/
def withLength (n : Nat) (body : Request → State → State) (r : Request) (s : State) : State :=
  let s1 := endRun s
  if r.length = n then body r s1 else respond r .badArgument [] s1

end Sys2Proof.Machine
end

