-- ==== Sys2Proof/Machine/Evaluation.lean ====
section
/-!
DEFINITION. The evaluation unit (03, 04, 05 section 5.1): the grip lookup and its refresh, the start of a pass, and the
seven stages that give the limit record.
-/

namespace Sys2Proof.Machine

/-! ### Interpolation and lookup (04) -/

/-- `lo + ((hi − lo) × f) / n`, the division truncating toward zero (R44, R69). -/
def interpolate (lo hi f n : Nat) : Nat := ((lo : Int) + (((hi : Int) - (lo : Int)) * (f : Int)).tdiv (n : Int)).toNat

/-- The grip column for a mode and load: the COLUMN_SELECT cell of index m × 4 + l, 0 where its value is above 15 or the
plane is FAULTY (R68). -/
def gripColumn (b : Bank) (m : RideMode) (l : LoadState) : Nat :=
  if b.columnSelect.isFaulty then 0
  else
    let v := cellAt b.columnSelect.cells (m.code * 4 + l.code)
    if v ≤ 15 then v else 0

/-- A grip plane's limit at lean index `a` and column `c` (R69), by the row r = a div 40 and the fraction f = a mod 40. -/
def gripValue (p : PlaneId) (pl : Plane) (a c : Nat) : Nat :=
  let r := a / 40
  let f := a % 40
  let v0 := usedCell p pl (r * 16 + c)
  let v1 := usedCell p pl (r * 16 + 16 + c)
  if f = 0 then v0 else interpolate v0 v1 f 40

/-- What a grip plane's lookup gives: the interpolated limit, or the fixed value of a FAULTY plane, of which no cell is
read (R69, R73, R74). -/
def gripLimit (p : PlaneId) (pl : Plane) (whenFaulty a c : Nat) : Nat :=
  if pl.isFaulty then whenFaulty else gripValue p pl a c

/-- The results of one grip lookup (R69). -/
structure GripLimits where
  column      : Nat
  slipTarget  : Nat
  torqueLimit : Nat
  brakeFront  : Nat
  brakeRear   : Nat
deriving DecidableEq, Repr

/-- Column selection and grip lookup at a lean index, for a mode and load (R68, R69, R73, R74). -/
def gripLookup (b : Bank) (m : RideMode) (l : LoadState) (a : Nat) : GripLimits :=
  let c := gripColumn b m l
  { column := c,
    slipTarget := gripLimit .slipTarget b.slipTarget 0 a c,
    torqueLimit := gripLimit .torqueCeiling b.torqueCeiling Config.limpCeiling a c,
    brakeFront := gripLimit .brakeFront b.brakeFront 2000 a c,
    brakeRear := gripLimit .brakeRear b.brakeRear 2000 a c }

/-! ### Lookup refresh (R71, R72) -/

/-- The limit record with its lookup fields written from a lookup at lean `lam` (R72). -/
def refreshedRecord (r : LimitRecord) (lam : Int) (g : GripLimits) : LimitRecord :=
  { r with lean := lam, a := lam.natAbs, column := g.column, slipTarget := g.slipTarget, torqueLimit := g.torqueLimit,
           brakeFront := g.brakeFront, brakeRear := g.brakeRear, ceiling := g.torqueLimit - r.cut }

/-- A notice of a valid IMU arrival or of a change of lean source: in START and PASSIVE the lookup is made again at the
present lean and written into the limit record; in the other states nothing is done (R71, R72). -/
def lookupRefresh (s : State) : State :=
  if s.ctl.state = .start ∨ s.ctl.state = .passive then
    let lam := s.leanUsed
    let g := gripLookup s.banks.active s.ctl.mode s.ctl.load lam.natAbs
    { s with eval := { s.eval with record := refreshedRecord s.eval.record lam g } }
  else s

/-- The limit record built at a reset from the assumed lean of the bank then active (R58, R78). -/
def resetRecord (b : Bank) (m : RideMode) (l : LoadState) : LimitRecord :=
  let a := param b .assumedLean
  let g := gripLookup b m l a
  { passNo := 0, lean := a, a := a, column := g.column, slipTarget := g.slipTarget, torqueLimit := g.torqueLimit,
    brakeFront := g.brakeFront, brakeRear := g.brakeRear, vfc := 0, vrc := 0, vref := 0, slip := 0, cut := 0, relief := 0,
    ceiling := g.torqueLimit, belowControlSpeed := true }

/-! ### Starting a pass (R39 to R41) -/

/-- The inputs a wheel arrival captures (R32, R41). -/
def captureInputs (s : State) : PassInputs :=
  { vf := s.sensors.vf, vr := s.sensors.vr, lean := s.leanUsed, pitch := s.pitchUsed, dFront := s.sensors.brakeFront,
    dRear := s.sensors.brakeRear, q := s.sensors.torqueRequest }

/-- A pass begins: it reads the state of R41 (R39). -/
def beginPass (i : PassInputs) (s : State) : State :=
  { s with eval := { s.eval with
      inFlight := some { inputs := i, ctl := s.ctl.state, mode := s.ctl.mode, load := s.ctl.load, vref := s.eval.vref,
                         cut := s.eval.cut, relief := s.eval.relief, marker := s.eval.marker } } }

/-- A pass is asked for: it begins at once, or is held as the waiting request in place of any earlier one (R39, R40). -/
def requestPass (s : State) : State :=
  match s.eval.inFlight with
  | none => beginPass (captureInputs s) s
  | some _ => { s with eval := { s.eval with waiting := some (captureInputs s) } }

/-! ### Stages 1 to 6 -/

/-- A wheel's multiplier at lean index `a`, `w` 0 for the front and 1 for the rear: the row r = a div 20 and the fraction
f = a mod 20; 4096 while RADIUS is FAULTY (R44, R45, R62). -/
def radiusMultiplier (b : Bank) (a w : Nat) : Nat :=
  if b.radius.isFaulty then 4096
  else
    let r := a / 20
    let f := a % 20
    let m0 := usedCell .radius b.radius (2 * r + w)
    let m1 := usedCell .radius b.radius (2 * r + 2 + w)
    if f = 0 then m0 else interpolate m0 m1 f 20

/-- A corrected speed (R45). -/
def correctedSpeed (v m : Nat) : Nat := (v * m + 2048) / 4096

/-- The candidate of stage 3: the front wheel, or under braking the faster of the two (R46). -/
def speedCandidate (i : PassInputs) (vfc vrc : Nat) : Nat :=
  if i.dFront > 0 ∨ i.dRear > 0 then max vfc vrc else vfc

/-- The reference speed: the candidate when the marker is set or the candidate does not fall, otherwise at most
REF_FALL_LIMIT below the running one (R47, R48). -/
def referenceSpeed (marker : Bool) (candidate previous fall : Nat) : Nat :=
  if marker then candidate
  else if previous ≤ candidate then candidate
  else max candidate (previous - fall)

/-- Rear slip at or above control speed, truncated toward zero and limited to +2000 (R50). -/
def rearSlip (vrc vref : Nat) : Int := min 2000 ((((vrc : Int) - (vref : Int)) * 1000).tdiv (vref : Int))

/-- The lift excess p (R79). -/
def liftExcess (pitch : Int) (liftPitch : Nat) : Int := if pitch > liftPitch then pitch - liftPitch else 0

/-- The new cut C: it grows in ACTIVE at or above control speed on a slip or lift excess (R80) and recovers otherwise
(R81). -/
def newCut (b : Bank) (ctl : CtlState) (below : Bool) (e p : Int) (cut : Nat) : Nat :=
  if below = false ∧ ctl = .active ∧ (e > 0 ∨ p > 0) then
    min 400 (cut + (((param b .cutGain : Int) * max e 0 + (param b .liftGain : Int) * p + 63) / 64).toNat)
  else cut - param b .cutRecovery

/-- The new relief F: it grows in ACTIVE at or above control speed on a closed throttle with slip below −DRAG_SLIP (R82)
and recovers otherwise (R83). -/
def newRelief (b : Bank) (ctl : CtlState) (below : Bool) (q slip : Int) (relief : Nat) : Nat :=
  if ctl = .active ∧ below = false ∧ q ≤ 0 ∧ slip < -(param b .dragSlip : Int) then
    min (param b .dragMax)
      (relief + (((param b .dragGain : Int) * (-(param b .dragSlip : Int) - slip) + 63) / 64).toNat)
  else min (param b .dragMax) (relief - param b .dragRecovery)

/-- The limit record of a pass, from its captured inputs, what it read at its start, the bank it read, its number, and
whether the control state in force at the completion is ROLLER (R43 to R53, R79 to R85). -/
def passRecord (b : Bank) (p : Pass) (number : Nat) (rollerAtCompletion : Bool) : LimitRecord :=
  let a := p.inputs.lean.natAbs
  let vfc := correctedSpeed p.inputs.vf (radiusMultiplier b a 0)
  let vrc := correctedSpeed p.inputs.vr (radiusMultiplier b a 1)
  let vref := referenceSpeed p.marker (speedCandidate p.inputs vfc vrc) p.vref (param b .refFallLimit)
  let below := decide (vref < param b .ctrlMinSpeed)
  let slip := if below then 0 else rearSlip vrc vref
  let g := gripLookup b p.mode p.load a
  let e := slip - g.slipTarget
  let lift := liftExcess p.inputs.pitch (param b .liftPitch)
  let cut := if rollerAtCompletion then 0 else newCut b p.ctl below e lift p.cut
  let relief := if rollerAtCompletion then 0 else newRelief b p.ctl below p.inputs.q slip p.relief
  { passNo := number, lean := p.inputs.lean, a := a, column := g.column, slipTarget := g.slipTarget,
    torqueLimit := g.torqueLimit, brakeFront := g.brakeFront, brakeRear := g.brakeRear, vfc := vfc, vrc := vrc,
    vref := vref, slip := slip, cut := cut, relief := relief, ceiling := g.torqueLimit - cut,
    belowControlSpeed := below }

/-- The pass count raised by 1; from 65535 it steps to 1 (R53). -/
def nextPassCount (n : Nat) : Nat := if n ≥ 65535 then 1 else n + 1

/-- The evaluation unit's own part of a completion: the record replaced whole and the running state updated (R52, R53);
the pass is no longer in flight. -/
def recordPass (p : Pass) (s : State) : State :=
  let n := nextPassCount s.eval.passCount
  let r := passRecord s.banks.active p n (s.ctl.state == .roller)
  { s with eval := { s.eval with inFlight := none, vref := r.vref, cut := r.cut, relief := r.relief, marker := false,
                                 passCount := n, record := r } }

/-- The waiting request begins as a pass once the completion has been taken (R40, R54). -/
def beginWaiting (s : State) : State :=
  match s.eval.waiting with
  | none => s
  | some i => beginPass i { s with eval := { s.eval with waiting := none } }

/-- What an entry into PASSIVE does to the evaluation unit: marker set, C and F set to 0 in the running state and the
record, K set to T_l (R47, R55, R103, R107). -/
def passiveEntryEval (e : Eval) : Eval :=
  { e with marker := true, cut := 0, relief := 0,
           record := { e.record with cut := 0, relief := 0, ceiling := e.record.torqueLimit } }

end Sys2Proof.Machine
end

