-- ==== Sys2Proof/Machine/Sensors.lean ====
section
/-!
DEFINITION. The sensor record unit (02): validation and effect of the six kinds of frame, the lean source, and its four
timers' expiries.
-/

namespace Sys2Proof.Machine

/-! ### Lean source (02 section 2.2) -/

/-- The sensor record unit's part of the state replaced. -/
def State.withSensors (s : State) (x : Sensors) : State := { s with sensors := x }

/-- The lean source's answer to a valid IMU arrival at time `t` with the present IMU_HOLD_MS and IMU_LOST_MS (R25). -/
def sourceOnValid (hold lost : Nat) (t : Millis) (x : Sensors) : Sensors :=
  match x.source with
  | .live => { x with holdTimer := some (t + hold), lostTimer := some (t + lost) }
  | .held => { x with source := .live, holdTimer := some (t + hold), lostTimer := some (t + lost) }
  | .lost => { x with source := .recovering, recoveryCount := 1, holdTimer := some (t + hold) }
  | .recovering =>
    if x.recoveryCount < 3 then { x with recoveryCount := x.recoveryCount + 1, holdTimer := some (t + hold) }
    else { x with source := .live, recoveryCount := 0, holdTimer := some (t + hold), lostTimer := some (t + lost) }

/-- The lean source's answer to an invalid IMU arrival (R26). -/
def sourceOnInvalid (x : Sensors) : Sensors :=
  match x.source with
  | .recovering => { x with recoveryCount := 0 }
  | .live => x
  | .held => x
  | .lost => x

/-! ### IMU (R21 to R26) -/

/-- An IMU frame with a right check is valid: flag set, no counter repeat, lean of magnitude at most 900 (R22). -/
def imuValid (d : List Byte) (last : Option Counter) : Bool :=
  (byteAt d 4).getLsbD 7 && last != some (counterAt d 4) && decide ((signedAt d 0).natAbs ≤ 900)

/-- A valid IMU arrival: the record takes the saturated lean and pitch, the lean source moves, and the evaluation unit is
told (R22, R23, R25, R29). A change of lean source and the arrival each give it a notice; both write the same values
(R71). -/
def imuAccept (d : List Byte) (t : Millis) (s : State) : State :=
  let hold := param s.banks.active .imuHoldMs
  let lost := param s.banks.active .imuLostMs
  let x := { s.sensors with imuLean := saturate (-640) 640 (signedAt d 0), imuPitch := saturate (-900) 900 (signedAt d 2) }
  lookupRefresh (s.withSensors (sourceOnValid hold lost t x))

/-- The last counter of the IMU kind (R21). -/
def Sensors.noteImu (x : Sensors) (c : Counter) : Sensors := { x with lastCounters := { x.lastCounters with imu := some c } }

/-- IMU_ARRIVAL: the frame is validated; its counter is kept whenever its check is right (R21, R22, R23, R26). -/
def imuArrival (d : List Byte) (t : Millis) (s : State) : State :=
  if checkRight sensorLength d then
    let s1 := s.withSensors (s.sensors.noteImu (counterAt d 4))
    if imuValid d s.sensors.lastCounters.imu then imuAccept d t s1
    else s1.withSensors (sourceOnInvalid s1.sensors)
  else s.withSensors (sourceOnInvalid s.sensors)

/-! ### Wheel (R31, R32) -/

/-- A wheel frame with a right check is valid: no counter repeat, both flags set, no speed of 65535 (R31). -/
def wheelValid (d : List Byte) (last : Option Counter) : Bool :=
  last != some (counterAt d 4) && (byteAt d 4).getLsbD 7 && (byteAt d 4).getLsbD 6
    && unsignedAt d 0 != 65535 && unsignedAt d 2 != 65535

/-- A valid wheel arrival: the record, the wheel timer, the wheel liveness, and the asking for a pass (R32, R39, R104). -/
def wheelAccept (d : List Byte) (t : Millis) (s : State) : State :=
  let x := { s.sensors with vf := min (unsignedAt d 0) 65000, vr := min (unsignedAt d 2) 65000,
                            wheelTimer := some (t + param s.banks.active .wheelTimeoutMs) }
  requestPass { s with sensors := x, ctl := { s.ctl with liveness := .running } }

/-- The last counter of the WHEEL kind (R21). -/
def Sensors.noteWheel (x : Sensors) (c : Counter) : Sensors :=
  { x with lastCounters := { x.lastCounters with wheel := some c } }

/-- WHEEL_ARRIVAL (R21, R31, R32). -/
def wheelArrival (d : List Byte) (t : Millis) (s : State) : State :=
  if checkRight sensorLength d then
    let s1 := s.withSensors (s.sensors.noteWheel (counterAt d 4))
    if wheelValid d s.sensors.lastCounters.wheel then wheelAccept d t s1 else s1
  else s

/-! ### Brake demand and torque request (R34, R36) -/

/-- The last counter of the BRAKE_DEMAND kind (R21). -/
def Sensors.noteBrake (x : Sensors) (c : Counter) : Sensors :=
  { x with lastCounters := { x.lastCounters with brakeDemand := some c } }

/-- BRAKE_DEMAND_ARRIVAL of a frame with a right check: unless it is a counter repeat the record takes the saturated
demands and the brake timer is started with WHEEL_TIMEOUT_MS (R21, R34). -/
def brakeArrival (d : List Byte) (t : Millis) (s : State) : State :=
  let c := counterAt d 4
  let x := s.sensors.noteBrake c
  if s.sensors.lastCounters.brakeDemand = some c then s.withSensors x
  else s.withSensors { x with brakeFront := min (unsignedAt d 0) 2000, brakeRear := min (unsignedAt d 2) 2000,
                              brakeTimer := some (t + param s.banks.active .wheelTimeoutMs) }

/-- The last counter of the TORQUE_REQUEST kind (R21). -/
def Sensors.noteTorque (x : Sensors) (c : Counter) : Sensors :=
  { x with lastCounters := { x.lastCounters with torqueRequest := some c } }

/-- TORQUE_REQUEST_ARRIVAL of a frame with a right check: unless it is a counter repeat the record takes the request
saturated to −200…+400 (R21, R36). -/
def torqueArrival (d : List Byte) (s : State) : State :=
  let c := counterAt d 2
  let x := s.sensors.noteTorque c
  if s.sensors.lastCounters.torqueRequest = some c then s.withSensors x
  else s.withSensors { x with torqueRequest := saturate (-200) 400 (signedAt d 0) }

/-! ### Ride mode and load state (R37, R113) -/

/-- The last counter of the RIDE_MODE kind (R21). -/
def Sensors.noteRideMode (x : Sensors) (c : Counter) : Sensors :=
  { x with lastCounters := { x.lastCounters with rideMode := some c } }

/-- The last counter of the LOAD_STATE kind (R21). -/
def Sensors.noteLoadState (x : Sensors) (c : Counter) : Sensors :=
  { x with lastCounters := { x.lastCounters with loadState := some c } }

/-- A ride-mode value handed on becomes the pending ride mode; none leaves it as it was (R113). -/
def State.handRideMode (s : State) (m : Option RideMode) : State :=
  match m with
  | some m => { s with ctl := { s.ctl with pendingMode := some m } }
  | none => s

/-- A load value handed on becomes the pending load; none leaves it as it was (R113). -/
def State.handLoadState (s : State) (l : Option LoadState) : State :=
  match l with
  | some l => { s with ctl := { s.ctl with pendingLoad := some l } }
  | none => s

/-- RIDE_MODE_ARRIVAL: a valid frame with a value of 0 to 3 hands it on as the pending ride mode (R21, R37). -/
def rideModeArrival (d : List Byte) (s : State) : State :=
  if checkRight valueLength d then
    let c := counterAt d 1
    let s1 := s.withSensors (s.sensors.noteRideMode c)
    if s.sensors.lastCounters.rideMode = some c then s1 else s1.handRideMode (rideModeOf (byteAt d 0).toNat)
  else s

/-- LOAD_STATE_ARRIVAL, as the ride mode (R21, R37). -/
def loadStateArrival (d : List Byte) (s : State) : State :=
  if checkRight valueLength d then
    let c := counterAt d 1
    let s1 := s.withSensors (s.sensors.noteLoadState c)
    if s.sensors.lastCounters.loadState = some c then s1 else s1.handLoadState (loadStateOf (byteAt d 0).toNat)
  else s

/-! ### Expiries (R27, R28, R35) -/

/-- Entry into LOST from another state: the recovery count is 0, the evaluation unit is told, IMU_LOST is raised (R27 to
R29). -/
def enterLost (s : State) : State :=
  raiseCondition .imuLost
    (lookupRefresh (s.withSensors { s.sensors with source := .lost, recoveryCount := 0, holdTimer := none, lostTimer := none }))

/-- Expiry of the hold timer: LIVE goes to HELD, RECOVERING to LOST; the timer stops (R27). It runs in no other state. -/
def holdExpiry (s : State) : State :=
  match s.sensors.source with
  | .live => lookupRefresh (s.withSensors { s.sensors with source := .held, holdTimer := none })
  | .recovering => enterLost s
  | .held => s.withSensors { s.sensors with holdTimer := none }
  | .lost => s.withSensors { s.sensors with holdTimer := none }

/-- Expiry of the lost timer: LIVE and HELD go to LOST and both timers are stopped (R28). It runs in no other state. -/
def lostExpiry (s : State) : State :=
  match s.sensors.source with
  | .live => enterLost s
  | .held => enterLost s
  | .recovering => s.withSensors { s.sensors with lostTimer := none }
  | .lost => s.withSensors { s.sensors with lostTimer := none }

/-- Expiry of the brake timer: both demands become 0 and the timer stops (R35). -/
def brakeExpiry (s : State) : State :=
  s.withSensors { s.sensors with brakeFront := 0, brakeRear := 0, brakeTimer := none }

/-- HOLD_TIMER_EXPIRY (R27), taken when the hold timer is due (log 1, log 3). -/
def execHoldTimerExpiry (t : Millis) (s : State) : Host.Outcome State Fault Refusal :=
  .next (if timerDue s.sensors.holdTimer t then holdExpiry s else s)

/-- LOST_TIMER_EXPIRY (R28), taken when the lost timer is due (log 1, log 3). -/
def execLostTimerExpiry (t : Millis) (s : State) : Host.Outcome State Fault Refusal :=
  .next (if timerDue s.sensors.lostTimer t then lostExpiry s else s)

/-- BRAKE_TIMER_EXPIRY (R35), taken when the brake timer is due (log 1, log 3). -/
def execBrakeTimerExpiry (t : Millis) (s : State) : Host.Outcome State Fault Refusal :=
  .next (if timerDue s.sensors.brakeTimer t then brakeExpiry s else s)

end Sys2Proof.Machine
end

