-- ==== Sys2Proof/Machine/FramePaths.lean ====
section
/-!
DEFINITION. The frame paths (01): classification of a received frame by the active ACTION plane, its handing on and
forwarding, and what a port does with its transmit reports.
-/

namespace Sys2Proof.Machine

/-! ### Classification (R2 to R5) -/

/-- What a used ACTION row tells the classifier to do with a frame (R4). -/
inductive FrameAction where
  | pass
  | block
  | imu
  | wheel
  | torqueRequest
  | torqueAck
  | brakeDemand
  | rideMode
  | loadState
deriving DecidableEq, Repr

/-- The action of a kind code; a code above 9 is taken as PASS (R3, R66). -/
def frameAction : Nat → FrameAction
  | 2 => .block
  | 3 => .imu
  | 4 => .wheel
  | 5 => .torqueRequest
  | 6 => .torqueAck
  | 7 => .brakeDemand
  | 8 => .rideMode
  | 9 => .loadState
  | _ => .pass

/-- The port at which a kind arrives (R5); PASS and BLOCK act at either. -/
def FrameAction.fixedPort : FrameAction → Option Port
  | .pass => none
  | .block => none
  | .imu => some .upstream
  | .wheel => some .actuator
  | .torqueRequest => some .upstream
  | .torqueAck => some .actuator
  | .brakeDemand => some .upstream
  | .rideMode => some .upstream
  | .loadState => some .upstream

/-- The code of a port in an ACTION row (R3). -/
def portCode : Port → Nat
  | .upstream => 0
  | .actuator => 1

/-- An action with the coalesce flag a forwarded frame takes from its row (R4). -/
structure Verdict where
  action   : FrameAction
  coalesce : Bool
deriving DecidableEq, Repr

/-- What every frame gets that no row governs: PASS with the coalesce flag clear (R2, R3, R5). -/
def plainVerdict : Verdict := ⟨.pass, false⟩

/-- A row matches: used, same identifier, arrival port of the receiving port (R3). -/
def ActionRow.matchesFrame (r : ActionRow) (id : BitVec 11) (p : Port) : Bool :=
  r.used && r.id == id.toNat && r.port == portCode p

/-- What a matching row says; a row of a fixed-port kind that names the other port is acted on as PASS (R5). -/
def rowVerdict (r : ActionRow) (p : Port) : Verdict :=
  let a := frameAction r.kind
  let flag := r.coalesce != 0
  match a.fixedPort with
  | none => ⟨a, flag⟩
  | some q => if q = p then ⟨a, flag⟩ else ⟨.pass, flag⟩

/-- The rows of the ACTION plane in order (R3). -/
def actionRows (cells : List Word) : List ActionRow := (List.range 16).map (actionRow cells)

/-- A standard identifier of the management range (R2). -/
def inManagementRange (id : BitVec 11) : Bool :=
  decide (Config.managementFirst ≤ id.toNat) && decide (id.toNat ≤ Config.managementLast)

/-- The classifier's decision for a frame that is no management request (R2, R3, R5). -/
def classify (b : Bank) (p : Port) (f : Frame) : Verdict :=
  match f.kind, f.id with
  | .data, .std id =>
    if inManagementRange id then plainVerdict
    else match (actionRows b.action.cells).find? fun r => r.matchesFrame id p with
      | some r => rowVerdict r p
      | none => plainVerdict
  | .data, .ext _ => plainVerdict
  | .remote, _ => plainVerdict

/-- A management request: a standard data frame at the request identifier on the upstream port (R2). -/
def isRequest (s : State) (p : Port) (f : Frame) : Bool :=
  p == .upstream && f.kind == .data && f.id == .std (s.nodeId Config.requestBase)

/-! ### Acting on the decision (R4, R8) -/

/-- The frame goes on unchanged to the other port as PLAIN (R4). -/
def forwardPlain (p : Port) (f : Frame) (coalesce : Bool) (s : State) : State :=
  place p.other (plainContent f) .plain coalesce s

/-- A controlled frame with a bad check is forwarded untouched as CONTROLLED, and CHECK_FAIL is raised (R8). -/
def forwardBadCheck (p : Port) (f : Frame) (s : State) : State :=
  raiseCondition .checkFail (place p.other (plainContent f) .controlled true s)

/-- A torque request: limited and placed as CONTROLLED, and taken for the torque-request record (R4, R86). -/
def torqueRequestFrame (p : Port) (f : Frame) (s : State) : State :=
  if checkRight torqueLength f.data then
    torqueArrival f.data (place p.other (limitTorque s.ctl.state s.eval.record f) .controlled true s)
  else forwardBadCheck p f s

/-- A brake demand: limited and placed as CONTROLLED, and taken for the brake-demand record (R4, R86). -/
def brakeDemandFrame (p : Port) (f : Frame) (t : Millis) (s : State) : State :=
  if checkRight sensorLength f.data then
    brakeArrival f.data t (place p.other (limitBrake s.banks.active s.eval.record f) .controlled true s)
  else forwardBadCheck p f s

/-- The classifier acts on its decision; a frame that is read and forwarded has gone on its way before the unit that reads
it acts (R4; log 9). -/
def actOn (v : Verdict) (p : Port) (f : Frame) (t : Millis) (s : State) : State :=
  match v.action with
  | .pass => forwardPlain p f v.coalesce s
  | .block => s
  | .imu => imuArrival f.data t (forwardPlain p f v.coalesce s)
  | .wheel => wheelArrival f.data t (forwardPlain p f v.coalesce s)
  | .rideMode => rideModeArrival f.data (forwardPlain p f v.coalesce s)
  | .loadState => loadStateArrival f.data (forwardPlain p f v.coalesce s)
  | .torqueAck => ackArrival f.data (forwardPlain p f v.coalesce s)
  | .torqueRequest => torqueRequestFrame p f s
  | .brakeDemand => brakeDemandFrame p f t s

/-- A frame taken by a port: a management request goes to the request queue, every other frame to the classifier (R1 to
R4). -/
def receive (p : Port) (f : Frame) (t : Millis) (s : State) : State :=
  if isRequest s p f then requestArrival f.data s else actOn (classify s.banks.active p f) p f t s

/-- FRAME_RECEIVE (R1): a frame is received when it is complete and the ports take part in their segments (R174; log 1, log
16). -/
def execFrameReceive (p : Port) (f : RxFrame) (t : Millis) (s : State) : Host.Outcome State Fault Refusal :=
  .next (if s.phase = .running ∧ f.complete = true then receive p (takenFrame f) t s else s)

/-! ### Transmit reports (R15 to R17) -/

/-- The entry in offer. -/
def offeredEntry (q : List Entry) : Option Entry := q.find? (·.offered)

/-- An entry whose content has given way to another: it waits with attempts 0 at its place (R11, R15, R16). -/
def Entry.succeeded (e : Entry) (c : Content) : Entry :=
  { e with content := c, attempts := 0, offered := false, followOn := none }

/-- The queue after the entry in offer has been sent: the entry removed, or its follow-on in its place (R15). -/
def queueSent (e : Entry) (q : List Entry) : List Entry :=
  match e.followOn with
  | none => q.eraseP (·.offered)
  | some c => mapFirst (·.offered) (fun e => e.succeeded c) q

/-- A reduced torque content that has been sent opens its record (R15, R93). -/
def reducedSent (c : Content) (t : Millis) (s : State) : State :=
  match c.reduced with
  | some ft => openAckRecord ft t s
  | none => s

/-- The awaited part of a response that has been sent brings the next part (R15, R155). -/
def partSent (c : Content) (s : State) : State := if c.awaitedPart then nextPart s else s

/-- The entry in offer has been sent (R15). -/
def sendDone (p : Port) (e : Entry) (t : Millis) (s : State) : State :=
  let s1 := reducedSent e.content t s
  let s2 := s1.setQueue p (queueSent e (s1.queue p))
  (partSent e.content s2).offerAt p

/-- TRANSMIT_COMPLETE (R15); a report that finds no entry in offer is ignored (R17). -/
def execTransmitComplete (p : Port) (t : Millis) (s : State) : Host.Outcome State Fault Refusal :=
  .next (match offeredEntry (s.queue p) with
    | none => s
    | some e => sendDone p e t s)

/-- The attempt to send the entry in offer has failed (R16): its follow-on takes its place, or it is removed at its eighth
error with TX_ABANDONED, or it waits again. -/
def sendFailed (p : Port) (e : Entry) (s : State) : State :=
  match e.followOn with
  | some c => (s.setQueue p (mapFirst (·.offered) (fun e => e.succeeded c) (s.queue p))).offerAt p
  | none =>
    if e.attempts + 1 ≥ Config.maxAttempts then
      let s1 := s.setQueue p ((s.queue p).eraseP (·.offered))
      (raiseCondition .txAbandoned (s1.partLost e.content)).offerAt p
    else
      (s.setQueue p (mapFirst (·.offered) (fun e => { e with attempts := e.attempts + 1, offered := false })
        (s.queue p))).offerAt p

/-- TRANSMIT_ERROR (R16); a report that finds no entry in offer is ignored (R17). -/
def execTransmitError (p : Port) (s : State) : Host.Outcome State Fault Refusal :=
  .next (match offeredEntry (s.queue p) with
    | none => s
    | some e => sendFailed p e s)

/-- STALE_TRANSMIT_REPORT (R17): a report for a frame that is no longer in offer changes nothing, a Restart response queued
meanwhile included (log 12). -/
def execStaleTransmitReport (_p : Port) (_r : TxReport) (s : State) : Host.Outcome State Fault Refusal := .next s

end Sys2Proof.Machine
end

