-- ==== Sys2Proof/Machine/ControlState.lean ====
section
/-!
DEFINITION. The control state unit (06): what it does at a pass completion and at a wheel timeout, the status frame, and
the Enter Roller and Leave Roller requests.
-/

namespace Sys2Proof.Machine

/-- The control state replaced. -/
def State.withCtl (s : State) (c : CtlState) : State := { s with ctl := { s.ctl with state := c } }

/-! ### Pass completion (R106, R110, R114) -/

/-- The transition a pass completion causes in the control state in force (R106, R110). -/
def controlTransition (s : State) : State :=
  match s.ctl.state with
  | .start => s.withCtl .active
  | .passive => s.withCtl .active
  | .active => s
  | .roller =>
    if s.eval.record.vfc > param s.banks.active .rollerExitSpeed then raiseCondition .rollerExit (s.withCtl .active) else s
  | .limp => s

/-- Each pending value that is present becomes the value in force and then absent (R114). -/
def Control.applyPending (c : Control) : Control :=
  { c with mode := c.pendingMode.getD c.mode, load := c.pendingLoad.getD c.load, pendingMode := none, pendingLoad := none }

/-- The pending values are applied when the captured request of the pass is at or below 0 or the vehicle is stationary
(R114). -/
def applyPending (q : Int) (s : State) : State :=
  if q ≤ 0 ∨ s.stationary = true then { s with ctl := s.ctl.applyPending } else s

/-- The control state unit takes a completion (R106, R110, R114). -/
def controlTakes (q : Int) (s : State) : State := applyPending q (controlTransition s)

/-! ### Wheel timeout (R33, R107) -/

/-- Entry into PASSIVE with its effects on the evaluation unit (R103, R107). -/
def enterPassive (s : State) : State := { s.withCtl .passive with eval := passiveEntryEval s.eval }

/-- The wheel timer expires: it stops, the liveness becomes expired, and the control state unit acts (R33, R104, R107). In
PASSIVE, where the manual says it does not arise, nothing more happens (log 14). -/
def wheelExpiry (s : State) : State :=
  let s1 := { s with sensors := { s.sensors with wheelTimer := none }, ctl := { s.ctl with liveness := .expired } }
  match s.ctl.state with
  | .start => enterPassive s1
  | .active => raiseCondition .wheelTimeout (enterPassive s1)
  | .roller => raiseCondition .wheelTimeout (enterPassive s1)
  | .passive => s1
  | .limp => raiseCondition .wheelTimeout s1

/-- WHEEL_TIMEOUT (R33, R107), taken when the wheel timer is due (log 1, log 3). -/
def execWheelTimeout (t : Millis) (s : State) : Host.Outcome State Fault Refusal :=
  .next (if timerDue s.sensors.wheelTimer t then wheelExpiry s else s)

/-! ### The status frame (R116, R117) -/

/-- The seven bytes of the status frame before its check (R117, 11.4). -/
def statusData (s : State) : List Byte :=
  [BitVec.ofNat 8 s.ctl.state.code ||| (BitVec.ofNat 8 s.sensors.source.code <<< 4),
   flagBit s.interventionLit 0 ||| flagBit s.faultLit 1 ||| flagBit s.offLit 2 ||| flagBit s.ctl.pendingMode.isSome 4
     ||| flagBit s.ctl.pendingLoad.isSome 5]
  ++ natBytes s.eval.record.cut
  ++ [BitVec.ofNat 8 s.eval.record.relief, BitVec.ofNat 8 s.eval.record.column, BitVec.ofInt 8 (s.leanUsed.tdiv 10)]

/-- The status frame (R116, R117). -/
def statusFrame (s : State) : Frame := dataFrame (s.nodeId Config.statusBase) (withCheck (statusData s))

/-- The status timer is started at time `t` with the STATUS_PERIOD_MS of the active bank (R116). -/
def startStatusTimer (t : Millis) (s : State) : State :=
  { s with ctl := { s.ctl with statusTimer := some (t + param s.banks.active .statusPeriodMs) } }

/-- STATUS_TIMER_EXPIRY: a status frame is built and queued, and the timer is started again (R116), when the timer is due
(log 1, log 3). -/
def execStatusTimerExpiry (t : Millis) (s : State) : Host.Outcome State Fault Refusal :=
  .next (if timerDue s.ctl.statusTimer t then
      startStatusTimer t (place .upstream (plainContent (statusFrame s)) .part true s)
    else s)

/-! ### Roller requests (R108, R109) -/

/-- Enter Roller in the state in force (R108). -/
def answerEnterRoller (r : Request) (s : State) : State :=
  match s.ctl.state with
  | .active => if s.stationary then respond r .ok [] (s.withCtl .roller) else respond r .notStationary [] s
  | .passive => if s.stationary then respond r .ok [] (s.withCtl .roller) else respond r .notStationary [] s
  | .roller => respond r .ok [] s
  | .start => respond r .notStationary [] s
  | .limp => respond r .notReady [] s

/-- Leave Roller in the state in force (R109). -/
def answerLeaveRoller (r : Request) (s : State) : State :=
  match s.ctl.state with
  | .roller => respond r .ok [] (s.withCtl .active)
  | .start => respond r .ok [] s
  | .active => respond r .ok [] s
  | .passive => respond r .ok [] s
  | .limp => respond r .ok [] s

/-- ENTER_ROLLER (R108, R153). -/
def execEnterRoller (s : State) : Host.Outcome State Fault Refusal :=
  .next (takeRequest (some .enterRoller) (withLength 2 answerEnterRoller) s)

/-- LEAVE_ROLLER (R109, R153). -/
def execLeaveRoller (s : State) : Host.Outcome State Fault Refusal :=
  .next (takeRequest (some .leaveRoller) (withLength 2 answerLeaveRoller) s)

end Sys2Proof.Machine
end

