-- ==== Sys2Proof/Machine/Scrubbing.lean ====
section
/-!
DEFINITION. The scrub unit (08): one row of the active bank at each pass completion.
-/

namespace Sys2Proof.Machine

/-- The active bank replaced. -/
def State.withActive (s : State) (b : Bank) : State := s.withBanks { s.banks with active := b }

/-- The scrub unit's part of the state replaced. -/
def State.withScrub (s : State) (x : Scrub) : State := { s with scrub := x }

/-- The planes in the order in which a step looks for the next one, beginning after `p` (R143). -/
def planesAfter (p : PlaneId) : List PlaneId :=
  [p.next, p.next.next, p.next.next.next, p.next.next.next.next, p.next.next.next.next.next,
   p.next.next.next.next.next.next, p.next.next.next.next.next.next.next]

/-- Step 1 of R143: a VERIFIED scrub plane is kept with its row and sums; otherwise the position moves to row 0 of the
next VERIFIED plane with its sums cleared; none when no plane of the bank is VERIFIED. -/
def findScrubPlane (b : Bank) (x : Scrub) : Option Scrub :=
  if (b.get x.plane).isVerified then some x
  else match (planesAfter x.plane).find? fun p => (b.get p).isVerified with
    | some p => some { plane := p, row := 0, sums := ⟨0, 0⟩ }
    | none => none

/-- The cells of row `r` of a plane, as stored (R143). -/
def rowCells (p : PlaneId) (pl : Plane) (r : Nat) : List Word := (pl.cells.drop (r * p.cols)).take p.cols

/-- Step 2 of R143: the sums with one row added, its weights the plane's. -/
def sumRow (b : Bank) (x : Scrub) : CheckPair := addCells x.sums (x.row * x.plane.cols) (rowCells x.plane (b.get x.plane) x.row)

/-- An unlocatable mismatch: the plane becomes FAULTY without its pair, PLANE_FAULTY is raised, and a LIMP plane brings
LIMP (R111, R146). -/
def markFaulty (p : PlaneId) (s : State) : State :=
  let s1 := s.withActive (s.banks.active.set p { s.banks.active.get p with status := .faulty })
  raiseCondition .planeFaulty (if p.isLimpPlane then s1.withCtl .limp else s1)

/-- A located cell is written back to its intended value and SCRUB_CORRECTED is raised; the plane stays VERIFIED (R145). -/
def correctCell (p : PlaneId) (i : Nat) (dS : Word) (s : State) : State :=
  let pl := s.banks.active.get p
  raiseCondition .scrubCorrected
    (s.withActive (s.banks.active.set p { pl with cells := pl.cells.set i (pl.cells.getD i 0 - dS) }))

/-- The comparison at a plane's end: equal sums change nothing; a mismatch is located and corrected, or marks the plane
FAULTY (R144 to R146). -/
def comparePlane (p : PlaneId) (sums : CheckPair) (s : State) : State :=
  match (s.banks.active.get p).pair? with
  | none => s
  | some c =>
    if sums = c then s
    else match locate p.size (sums.S - c.S) (sums.W - c.W) with
      | some i => correctCell p i (sums.S - c.S) s
      | none => markFaulty p s

/-- The scrub unit takes a completion as one step (R143). -/
def scrubTakes (s : State) : State :=
  match findScrubPlane s.banks.active s.scrub with
  | none => s
  | some x =>
    let sums := sumRow s.banks.active x
    if x.row + 1 < x.plane.rows then s.withScrub { x with row := x.row + 1, sums := sums }
    else comparePlane x.plane sums (s.withScrub { plane := x.plane.next, row := 0, sums := ⟨0, 0⟩ })

end Sys2Proof.Machine
end

