-- ==== Sys2Proof/Machine/Staging.lean ====
section
/-!
DEFINITION. The map banks (07): the window record and its runs, Commit Plane, Stage Copy, activation, the swap point and
the bank exchange.
-/

namespace Sys2Proof.Machine

/-! ### Tests shared by the requests (R120) -/

/-- A store is in progress (R169). -/
def State.storeBusy (s : State) : Bool :=
  match s.store.state with
  | .idle => false
  | .inProgress _ _ => true

/-- The tests of R120 against a store in progress and a pending activation, in this order. -/
def stagingRefusal (s : State) : Option Result :=
  if s.storeBusy then some .busyStore
  else if s.banks.activationPending then some .pendingActivation
  else none

/-! ### Windows (R121, R123) -/

/-- Columns of a window. -/
def Window.width (w : Window) : Nat := w.lastCol - w.firstCol + 1

/-- Rows of a window. -/
def Window.height (w : Window) : Nat := w.lastRow - w.firstRow + 1

/-- The window size (R121). -/
def Window.size (w : Window) : Nat := w.width * w.height

/-- The index in the plane of the cell at position `p` (R123). -/
def Window.cellIndex (w : Window) (p : Nat) : Nat :=
  match w.order with
  | .rowFirst => (w.firstRow + p / w.width) * w.plane.cols + (w.firstCol + p % w.width)
  | .columnFirst => (w.firstRow + p % w.height) * w.plane.cols + (w.firstCol + p / w.height)

/-- The window record set. -/
def State.withWindow (s : State) (w : Option Window) : State := s.withBanks { s.banks with window := w }

/-- The staging bank set. -/
def State.withStaging (s : State) (b : Bank) : State := s.withBanks { s.banks with staging := b }

/-- Open Window after its field tests (R122, steps 3 and 4): the window with its last row and column taken within the
plane, none when the first lies above the last. -/
def windowOf (bank : BankSel) (kind : WindowKind) (order : WindowOrder) (p : PlaneId) (r0 r1 c0 c1 : Nat) (seq : Byte) :
    Option Window :=
  let lastRow := min r1 (p.rows - 1)
  let lastCol := min c1 (p.cols - 1)
  if r0 > lastRow ∨ c0 > lastCol then none
  else some { bank := bank, plane := p, firstRow := r0, lastRow := lastRow, firstCol := c0, lastCol := lastCol,
              order := order, kind := kind, openRun := some kind, position := 0, expected := seq + 1 }

/-- The store and pending tests of R120 for a request on a window of a bank: made on the staging bank only. -/
def bankRefusal (bank : BankSel) (s : State) : Option Result :=
  match bank with
  | .staging => stagingRefusal s
  | .active => none

/-- Open Window (R120, R122). -/
def answerOpenWindow (r : Request) (s : State) : State :=
  match requestBank r with
  | none => respond r .badArgument [] s
  | some bank =>
    match bankRefusal bank s with
    | some res => respond r res [] s
    | none =>
      match planeOf (requestArg r 3), requestKind r, requestOrder r with
      | some p, some kind, some order =>
        if kind = .load ∧ bank = .active then respond r .badArgument [] s
        else match windowOf bank kind order p (requestArg r 4) (requestArg r 5) (requestArg r 6) (requestArg r 7)
            (requestSeq r) with
          | none => respond r .badArgument [] s
          | some w => respond r .ok (natBytes w.size) (s.withWindow (some w))
      | _, _, _ => respond r .badArgument [] s

/-! ### Load runs (R124 to R126) -/

/-- Values written at a window's position onward, those that fit, and their number (R124, R126). -/
def writeValues (w : Window) : Nat → List Word → List Word → List Word × Nat
  | _, cells, [] => (cells, 0)
  | p, cells, v :: vs =>
    if p < w.size then
      let (cells', n) := writeValues w (p + 1) (cells.set (w.cellIndex p) v) vs
      (cells', n + 1)
    else (cells, 0)

/-- A plane with cells written: LOADING without a check pair as soon as one value is written (R124, R126). -/
def writtenPlane (pl : Plane) (cells : List Word) (n : Nat) : Plane :=
  if n = 0 then pl else { cells := cells, status := .loading }

/-- Load Data on an open LOAD run in sequence: writes what fits and answers OK, or WINDOW_FULL when values were left over
(R124, R126). -/
def loadValues (r : Request) (w : Window) (s : State) : State :=
  let vs := requestValues (r.drop 2)
  let pl := s.banks.staging.get w.plane
  let (cells, n) := writeValues w w.position pl.cells vs
  let s1 := s.withStaging (s.banks.staging.set w.plane (writtenPlane pl cells n))
  let s2 := s1.withWindow (some { w with position := w.position + n, expected := w.expected + 1 })
  respond r (if n = vs.length then .ok else .windowFull) [BitVec.ofNat 8 n] s2

/-- Load Data (R120, R124 to R127): a refusal ends an open run and changes nothing else. -/
def answerLoadData (r : Request) (s : State) : State :=
  match stagingRefusal s with
  | some res => respond r res [] (endRun s)
  | none =>
    match s.banks.window with
    | none => respond r .noWindow [] s
    | some w =>
      if w.openRun ≠ some .load then respond r .noWindow [] (endRun s)
      else if r.length % 2 = 1 ∨ r.length = 2 then respond r .badArgument [] (endRun s)
      else if requestSeq r ≠ w.expected then respond r .sequenceGap [w.expected] (endRun s)
      else loadValues r w s

/-! ### Resume, fill, read (R128 to R130) -/

/-- Resume Window (R128). -/
def answerResumeWindow (r : Request) (s : State) : State :=
  match s.banks.window with
  | none => respond r .noWindow [] s
  | some w =>
    match bankRefusal w.bank s with
    | some res => respond r res [] s
    | none =>
      respond r .ok (natBytes w.position)
        (s.withWindow (some { w with openRun := some w.kind, expected := requestSeq r + 1 }))

/-- One value written into every cell of a window (R129). -/
def fillCells (w : Window) (v : Word) (cells : List Word) : List Word :=
  (List.range w.size).foldl (fun cs p => cs.set (w.cellIndex p) v) cells

/-- Fill Window (R129). -/
def answerFillWindow (r : Request) (s : State) : State :=
  match s.banks.window with
  | none => respond r .noWindow [] s
  | some w =>
    match w.bank with
    | .active => respond r .badArgument [] s
    | .staging =>
      match stagingRefusal s with
      | some res => respond r res [] s
      | none =>
        let pl := s.banks.staging.get w.plane
        let s1 := s.withStaging
          (s.banks.staging.set w.plane { cells := fillCells w (fieldAt r 2) pl.cells, status := .loading })
        respond r .ok (natBytes w.size) (s1.withWindow (some { w with position := w.size, openRun := none }))

/-- The bank a window names (R121). -/
def windowBank (w : Window) (s : State) : Bank :=
  match w.bank with
  | .staging => s.banks.staging
  | .active => s.banks.active

/-- The cells from the window's position on, up to `n` and within the window, as stored (R130). -/
def readCells (w : Window) (cells : List Word) (n : Nat) : List Word :=
  (List.range (min n (w.size - w.position))).map fun i => cells.getD (w.cellIndex (w.position + i)) 0

/-- Read Data on an open READ run in sequence (R130). -/
def readValues (r : Request) (w : Window) (s : State) : State :=
  let vs := readCells w ((windowBank w s).get w.plane).cells 3
  respond r (if vs.length = 3 then .ok else .windowFull) (vs.flatMap wordBytes)
    (s.withWindow (some { w with position := w.position + vs.length, expected := w.expected + 1 }))

/-- Read Data (R127, R130): a refusal, for its length too, ends an open run. -/
def answerReadData (r : Request) (s : State) : State :=
  if r.length ≠ 2 then respond r .badArgument [] (endRun s)
  else match s.banks.window with
    | none => respond r .noWindow [] s
    | some w =>
      if w.openRun ≠ some .read then respond r .noWindow [] (endRun s)
      else if requestSeq r ≠ w.expected then respond r .sequenceGap [w.expected] (endRun s)
      else readValues r w s

/-! ### Commit Plane (R131 to R133) -/

/-- The result of a commit of a plane against an expected pair, with the data it reports, and the plane after it (R131 to
R133). -/
def commitResult (p : PlaneId) (pl : Plane) (expected : CheckPair) : Result × List Byte × Plane :=
  if pl.status = .empty then (.notReady, [], pl)
  else
    let c := pairOf pl.cells
    if c = expected then
      match firstOffending p pl.cells with
      | none => (.ok, [], { pl with status := .verified c })
      | some i => (.range, natBytes i, pl)
    else
      match locate p.size (c.S - expected.S) (c.W - expected.W) with
      | some i => (.checkLocated, natBytes i ++ wordBytes (c.S - expected.S), pl)
      | none => (.checkUnlocatable, [], pl)

/-- Commit Plane (R120, R131). -/
def answerCommitPlane (r : Request) (s : State) : State :=
  match stagingRefusal s with
  | some res => respond r res [] s
  | none =>
    match planeOf (requestArg r 2) with
    | none => respond r .badArgument [] s
    | some p =>
      match commitResult p (s.banks.staging.get p) ⟨fieldAt r 3, fieldAt r 5⟩ with
      | (res, d, pl) => respond r res d (s.withStaging (s.banks.staging.set p pl))

/-! ### Stage Copy (R134) -/

/-- A plane as it comes into the staging bank: a FAULTY one becomes LOADING without a check pair, its cells as stored
(R134, R138). -/
def stagedPlane (pl : Plane) : Plane := if pl.isFaulty then { pl with status := .loading } else pl

/-- A bank as it comes into staging (R134, R138). -/
def stagedBank (b : Bank) : Bank := PerPlane.build fun p => stagedPlane (b.get p)

/-- Stage Copy (R120, R134). -/
def answerStageCopy (r : Request) (s : State) : State :=
  match stagingRefusal s with
  | some res => respond r res [] s
  | none =>
    respond r .ok [] (s.withBanks { s.banks with staging := stagedBank s.banks.active, window := none })

/-! ### Activation (R135, R140) -/

/-- A staging plane after Activate's recomputation: VERIFIED only while its cells still give its recorded pair, otherwise
LOADING without it (R135, step 3). -/
def recheckedPlane (pl : Plane) : Plane :=
  match pl.status with
  | .verified c => if pairOf pl.cells = c then pl else { pl with status := .loading }
  | .empty => pl
  | .loading => pl
  | .faulty => pl

/-- The staging bank after Activate's recomputation (R135, step 3). -/
def recheckedBank (b : Bank) : Bank := PerPlane.build fun p => recheckedPlane (b.get p)

/-- Activate (R135). -/
def answerActivate (r : Request) (s : State) : State :=
  if s.banks.activationPending then respond r .ok [] s
  else if s.storeBusy then respond r .busyStore [] s
  else
    let b := recheckedBank s.banks.staging
    let s1 := s.withStaging b
    if allVerified b then respond r .ok [] (s1.withBanks { s1.banks with activationPending := true })
    else respond r .notReady [planeList fun p => !(b.get p).isVerified] s1

/-- Cancel Activation (R140). -/
def answerCancelActivation (r : Request) (s : State) : State :=
  respond r .ok [] (s.withBanks { s.banks with activationPending := false })

/-! ### The swap point and the bank exchange (R137 to R139) -/

/-- The swap point is reached: upright and unloaded by the record just written, or stationary (R137). -/
def State.swapPoint (s : State) : Bool :=
  (s.eval.record.lean.natAbs ≤ param s.banks.active .swapLean && s.eval.record.cut == 0 && s.eval.record.relief == 0)
    || s.stationary

/-- The banks change roles whole, with every effect of R139 but SWAP_DONE (R112, R138, R139, R147). -/
def swapBanks (s : State) : State :=
  let fresh := s.banks.staging
  let limit := param fresh .dragMax
  { s with
    banks := { active := fresh, staging := stagedBank s.banks.active, activationPending := false, window := none },
    eval := { s.eval with relief := min s.eval.relief limit,
                          record := { s.eval.record with relief := min s.eval.record.relief limit } },
    scrub := resetScrub,
    ctl := if s.ctl.state = .limp then { s.ctl with state := .active } else s.ctl }

/-- The bank exchange (R138, R139). -/
def exchangeBanks (s : State) : State := raiseCondition .swapDone (swapBanks s)

/-- The map banks take a completion: while an activation is pending and no store is in progress they test the swap point,
and exchange the banks there, all eight staging planes being VERIFIED (R136, R137). -/
def banksTake (s : State) : State :=
  if s.banks.activationPending && !s.storeBusy && s.swapPoint && allVerified s.banks.staging then exchangeBanks s else s

/-! ### The takings -/

/-- OPEN_WINDOW (R122, R153). -/
def execOpenWindow (s : State) : Host.Outcome State Fault Refusal :=
  .next (takeRequest (some .openWindow) (withLength 8 answerOpenWindow) s)

/-- LOAD_DATA (R124, R153): every length from 2 to 8 goes to the tests of R125. -/
def execLoadData (s : State) : Host.Outcome State Fault Refusal :=
  .next (takeRequest (some .loadData) answerLoadData s)

/-- RESUME_WINDOW (R128, R153). -/
def execResumeWindow (s : State) : Host.Outcome State Fault Refusal :=
  .next (takeRequest (some .resumeWindow) (withLength 2 answerResumeWindow) s)

/-- READ_DATA (R130, R153). -/
def execReadData (s : State) : Host.Outcome State Fault Refusal :=
  .next (takeRequest (some .readData) answerReadData s)

/-- FILL_WINDOW (R129, R153). -/
def execFillWindow (s : State) : Host.Outcome State Fault Refusal :=
  .next (takeRequest (some .fillWindow) (withLength 4 answerFillWindow) s)

/-- COMMIT_PLANE (R131, R153). -/
def execCommitPlane (s : State) : Host.Outcome State Fault Refusal :=
  .next (takeRequest (some .commitPlane) (withLength 7 answerCommitPlane) s)

/-- STAGE_COPY (R134, R153). -/
def execStageCopy (s : State) : Host.Outcome State Fault Refusal :=
  .next (takeRequest (some .stageCopy) (withLength 2 answerStageCopy) s)

/-- ACTIVATE (R135, R153). -/
def execActivate (s : State) : Host.Outcome State Fault Refusal :=
  .next (takeRequest (some .activate) (withLength 2 answerActivate) s)

/-- CANCEL_ACTIVATION (R140, R153). -/
def execCancelActivation (s : State) : Host.Outcome State Fault Refusal :=
  .next (takeRequest (some .cancelActivation) (withLength 2 answerCancelActivation) s)

end Sys2Proof.Machine
end

