-- ==== Sys2Proof/Machine/Passes.lean ====
section
/-!
DEFINITION. The completion of a pass (R52 to R54): the limit record, the three blocks in the order the world gives, and
the start of the waiting request's pass.
-/

namespace Sys2Proof.Machine

/-- One of the three blocks takes a completion of a pass whose captured request is `q` (R54). -/
def blockTakes (q : Int) (s : State) : CompletionBlock → State
  | .controlStateUnit => controlTakes q s
  | .mapBanks => banksTake s
  | .scrubUnit => scrubTakes s

/-- The three blocks take the completion in an order (R54; log 6). -/
def blocksTake (order : TakeOrder) (q : Int) (s : State) : State := order.blocks.foldl (blockTakes q) s

/-- PASS_COMPLETION (R52 to R54, R40): without a pass in flight there is none to complete (log 1). -/
def execPassCompletion (order : TakeOrder) (s : State) : Host.Outcome State Fault Refusal :=
  .next (match s.eval.inFlight with
    | none => s
    | some p => beginWaiting (blocksTake order p.inputs.q (recordPass p s)))

end Sys2Proof.Machine
end

