-- ==== Sys2Proof/Machine/MapStore.lean ====
section
/-!
DEFINITION. The map store (10): the slots and the boot selector, a store and its phases, Load Image, and the building of
the active bank.
-/

namespace Sys2Proof.Machine

/-- The slot of an id. -/
def Slots.get (x : Slots) : SlotId → Slot
  | .slot0 => x.slot0
  | .slot1 => x.slot1
  | .slot2 => x.slot2
  | .slot3 => x.slot3

/-- The slot of an id replaced. -/
def Slots.set (x : Slots) (i : SlotId) (y : Slot) : Slots :=
  match i with
  | .slot0 => { x with slot0 := y }
  | .slot1 => { x with slot1 := y }
  | .slot2 => { x with slot2 := y }
  | .slot3 => { x with slot3 := y }

/-- The map store's part of the state replaced. -/
def State.withStore (s : State) (x : Store) : State := { s with store := x }

/-- A slot with its header erased: the mark erased, each pair (0, 0), the cells left (R166). -/
def Slot.erased (x : Slot) : Slot := { x with pairs := erasedPairs, complete := false }

/-- The pair recorded for a plane, (0, 0) for a plane that has none. -/
def recordedPair (pl : Plane) : CheckPair := pl.pair?.getD ⟨0, 0⟩

/-! ### Requests -/

/-- Select Boot Slot (R167). -/
def answerSelectBootSlot (r : Request) (s : State) : State :=
  if s.storeBusy then respond r .busyStore [] s
  else match slotOf (requestArg r 2) with
    | none => respond r .badArgument [] s
    | some i => respond r .ok [] (s.withStore { s.store with bootSelector := i })

/-- Store Image (R168): at acceptance the slot's header is erased and the store is in progress on plane 0. -/
def answerStoreImage (r : Request) (s : State) : State :=
  if s.storeBusy then respond r .busyStore [] s
  else match slotOf (requestArg r 2) with
    | none => respond r .badArgument [] s
    | some i =>
      if allVerified s.banks.staging then
        respond r .ok [] (s.withStore { s.store with
          slots := s.store.slots.set i (s.store.slots.get i).erased,
          state := .inProgress i (.plane .slipTarget) })
      else respond r .notReady [] s

/-- A plane built from a slot's cells against the header's pair: VERIFIED with it when the pair matches and the checks of
R132 pass, none otherwise (R173, R175). -/
def verifiedFrom (x : Slot) (p : PlaneId) : Option Plane :=
  if pairOf (x.cells.get p) = x.pairs.get p ∧ passesChecks p (x.cells.get p) = true then
    some { cells := x.cells.get p, status := .verified (x.pairs.get p) }
  else none

/-- A plane copied into staging by Load Image (R173). -/
def loadedPlane (x : Slot) (p : PlaneId) : Plane :=
  (verifiedFrom x p).getD { cells := x.cells.get p, status := .loading }

/-- Load Image (R173). -/
def answerLoadImage (r : Request) (s : State) : State :=
  match stagingRefusal s with
  | some res => respond r res [] s
  | none =>
    match slotOf (requestArg r 2) with
    | none => respond r .badArgument [] s
    | some i =>
      let x := s.store.slots.get i
      if x.complete then
        respond r .ok [planeList fun p => (verifiedFrom x p).isNone]
          (s.withBanks { s.banks with staging := PerPlane.build (loadedPlane x), window := none })
      else respond r .slotInvalid [] s

/-! ### Store phases (R169, R170) -/

/-- The cells a slot took of a programmed plane: the staging cells, but for those it did not take as programmed
(R169; log 7). -/
def takenCells (cells : List Word) (misprogrammed : List (Nat × Word)) : List Word :=
  misprogrammed.foldl (fun cs c => cs.set c.1 c.2) cells

/-- The phase after plane p's: plane p + 1, or the header after plane 7 (R169). -/
def phaseAfter : PlaneId → StorePhase
  | .action => .header
  | p => .plane p.next

/-- A store ends in failure: the header erased, the store idle, STORE_FAILED raised (R170). -/
def failStore (i : SlotId) (s : State) : State :=
  raiseCondition .storeFailed
    (s.withStore { s.store with slots := s.store.slots.set i (s.store.slots.get i).erased, state := .idle })

/-- The phase of plane `p` completes: the slot's plane holds what it took, is read back, and the store goes on or fails
(R169, R170). -/
def planePhaseDone (i : SlotId) (p : PlaneId) (misprogrammed : List (Nat × Word)) (s : State) : State :=
  let x := s.store.slots.get i
  let pl := s.banks.staging.get p
  let cells := takenCells pl.cells misprogrammed
  let s1 := s.withStore { s.store with slots := s.store.slots.set i { x with cells := x.cells.set p cells } }
  if pl.pair? = some (pairOf cells) then s1.withStore { s1.store with state := .inProgress i (phaseAfter p) }
  else failStore i s1

/-- STORE_PLANE_PHASE_COMPLETE (R169), when a store is in a plane phase (log 1). -/
def execStorePlanePhaseComplete (misprogrammed : List (Nat × Word)) (s : State) : Host.Outcome State Fault Refusal :=
  .next (match s.store.state with
    | .inProgress i (.plane p) => planePhaseDone i p misprogrammed s
    | .inProgress _ .header => s
    | .idle => s)

/-- The header phase completes (R170). -/
def headerPhaseDone (i : SlotId) (readBack : HeaderReadBack) (s : State) : State :=
  match readBack with
  | .asWritten =>
    let x := s.store.slots.get i
    let pairs := PerPlane.build fun p => recordedPair (s.banks.staging.get p)
    raiseCondition .storeDone
      (s.withStore { s.store with slots := s.store.slots.set i { x with pairs := pairs, complete := true }, state := .idle })
  | .differently => failStore i s

/-- STORE_HEADER_PHASE_COMPLETE (R170), when a store is in its header phase (log 1). -/
def execStoreHeaderPhaseComplete (readBack : HeaderReadBack) (s : State) : Host.Outcome State Fault Refusal :=
  .next (match s.store.state with
    | .inProgress i .header => headerPhaseDone i readBack s
    | .inProgress _ (.plane _) => s
    | .idle => s)

/-! ### Building the active bank (R175, R176) -/

/-- A plane whose slot is INVALID or which failed: the built-in plane for ACTION and PARAMETER, otherwise FAULTY with the
slot's cells (R175, R176). -/
def replacedPlane (x : Slot) : PlaneId → Plane
  | .action => builtInAction
  | .parameter => builtInParameter
  | p => { cells := x.cells.get p, status := .faulty }

/-- An active plane built at boot (R175, R176). -/
def bootPlane (x : Slot) (p : PlaneId) : Plane :=
  if x.complete then (verifiedFrom x p).getD (replacedPlane x p) else replacedPlane x p

/-- The active bank built at boot (R175, R176). -/
def bootBank (x : Slot) : Bank := PerPlane.build (bootPlane x)

/-- The boot is degraded: some plane was replaced by a built-in plane or made FAULTY (R177). -/
def bootDegraded (x : Slot) : Bool := !x.complete || allPlanes.any fun p => (verifiedFrom x p).isNone

/-- A plane whose programming was interrupted: partly old and partly new, which cells being a free value (R172; log 5). -/
def mixedCells (n : Nat) (old new : List Word) : List Word :=
  (List.range old.length).map fun i => if Config.programmedBefore n i then new.getD i 0 else old.getD i 0

/-- The map store as a power-on or reset line leaves it: a store in progress is abandoned, its slot INVALID with a plane in
programming partly old and partly new (R172). -/
def abandonStore (n : Nat) (staging : Bank) (x : Store) : Store :=
  match x.state with
  | .idle => x
  | .inProgress _ .header => { x with state := .idle }
  | .inProgress i (.plane p) =>
    let y := x.slots.get i
    let cells := mixedCells n (y.cells.get p) (staging.get p).cells
    { x with slots := x.slots.set i { y with cells := y.cells.set p cells }, state := .idle }

/-! ### The takings -/

/-- STORE_IMAGE (R168, R153). -/
def execStoreImage (s : State) : Host.Outcome State Fault Refusal :=
  .next (takeRequest (some .storeImage) (withLength 3 answerStoreImage) s)

/-- LOAD_IMAGE (R173, R153). -/
def execLoadImage (s : State) : Host.Outcome State Fault Refusal :=
  .next (takeRequest (some .loadImage) (withLength 3 answerLoadImage) s)

/-- SELECT_BOOT_SLOT (R167, R153). -/
def execSelectBootSlot (s : State) : Host.Outcome State Fault Refusal :=
  .next (takeRequest (some .selectBootSlot) (withLength 3 answerSelectBootSlot) s)

end Sys2Proof.Machine
end

