-- ==== Sys2Proof/Machine/Requests.lean ====
section
/-!
DEFINITION. The requests the management unit answers itself (09 sections 9.5 to 9.7): Identify, Read Status, the notice,
condition and reset-cause requests, and requests of no known code.
-/

namespace Sys2Proof.Machine

/-! ### Identify (R156) -/

/-- Identify (R156, 11.4). -/
def answerIdentify (r : Request) (s : State) : State :=
  respond r .ok
    ([Config.vendorCode] ++ wordBytes Config.partCode
      ++ [(BitVec.ofNat 8 Config.revision <<< 4) ||| s.mgmt.node.setWidth 8]) s

/-- IDENTIFY (R156, R153). -/
def execIdentify (s : State) : Host.Outcome State Fault Refusal :=
  .next (takeRequest (some .identify) (withLength 2 answerIdentify) s)

/-! ### Read Status (R157, 11.4) -/

/-- Four plane states in one byte, two bits each, the lower plane number in the higher bits (11.4). -/
def statesByte (b : Bank) (p0 p1 p2 p3 : PlaneId) : Byte :=
  BitVec.ofNat 8 ((b.get p0).status.code * 64 + (b.get p1).status.code * 16 + (b.get p2).status.code * 4
    + (b.get p3).status.code)

/-- The plane states of a bank: planes 0 to 3, planes 4 to 7 (11.4). -/
def bankStates (b : Bank) : List Byte :=
  [statesByte b .slipTarget .torqueCeiling .brakeFront .brakeRear,
   statesByte b .radius .columnSelect .parameter .action]

/-- Two bits of a value in bits 5 to 4 (11.4). -/
def highPair (n : Nat) : Byte := BitVec.ofNat 8 n <<< 4

/-- The pending byte: presence in bits 7 and 3, the values in bits 5 to 4 and 1 to 0, 0 when absent (11.4). -/
def pendingByte (c : Control) : Byte :=
  flagBit c.pendingMode.isSome 7 ||| highPair ((c.pendingMode.map RideMode.code).getD 0)
    ||| flagBit c.pendingLoad.isSome 3 ||| BitVec.ofNat 8 ((c.pendingLoad.map LoadState.code).getD 0)

/-- The reset cause byte (11.4). -/
def causeByte (c : ResetCauses) : Byte := flagBit c.powerOn 0 ||| flagBit c.resetLine 1 ||| flagBit c.restart 2

/-- The boot selector and slot validities (11.4). -/
def slotByte (x : Store) : Byte :=
  BitVec.ofNat 8 x.bootSelector.code ||| flagBit x.slots.slot0.complete 4 ||| flagBit x.slots.slot1.complete 5
    ||| flagBit x.slots.slot2.complete 6 ||| flagBit x.slots.slot3.complete 7

/-- The store byte: bit 7 in progress, bits 1 to 0 its slot (11.4). -/
def storeByte (x : StoreState) : Byte :=
  match x with
  | .idle => 0
  | .inProgress i _ => flagBit true 7 ||| BitVec.ofNat 8 i.code

/-- The values of Read Status by selector, as they stand at the taking; none for a selector above 4 (R157, 11.4). DESIGN
CHOICE, unsafe (log 21): the text under R115 says that selector 0 reads the three indications, while R157 and 11.4 give it no
value, byte or bit for them; the model sends what R157 and 11.4 lay out, and the status frame alone carries the indications. -/
def statusValues (s : State) : Nat → Option (List Byte)
  | 0 => some (
      [BitVec.ofNat 8 s.ctl.state.code, BitVec.ofNat 8 s.sensors.source.code] ++ intBytes s.leanUsed
      ++ intBytes s.pitchUsed ++ [highPair s.ctl.mode.code ||| BitVec.ofNat 8 s.ctl.load.code, pendingByte s.ctl]
      ++ [flagBit s.ack.fault 7 ||| BitVec.ofNat 8 s.ack.records.length, BitVec.ofNat 8 s.ack.missCount]
      ++ natBytes s.eval.passCount
      ++ natBytes s.sensors.vf ++ natBytes s.sensors.vr)
  | 1 => some (condBytes s.mgmt.conditions ++ condBytes s.mgmt.enabled)
  | 2 => some (
      bankStates s.banks.active ++ bankStates s.banks.staging
      ++ [BitVec.ofNat 8 s.scrub.plane.number, BitVec.ofNat 8 s.scrub.row,
          flagBit s.banks.activationPending 0 ||| flagBit s.storeBusy 1])
  | 3 => some [causeByte s.mgmt.causes, slotByte s.store, storeByte s.store.state]
  | 4 => some (
      natBytes (s.eval.record.a + if s.eval.record.belowControlSpeed then 32768 else 0)
      ++ natBytes s.eval.record.slipTarget ++ natBytes s.eval.record.torqueLimit ++ natBytes s.eval.record.ceiling
      ++ natBytes s.eval.record.brakeFront ++ natBytes s.eval.record.brakeRear ++ natBytes s.eval.record.vrc
      ++ intBytes s.eval.record.slip)
  | _ => none

/-- Read Status: it leaves an open run open, whatever its result (R127, R153, R157). -/
def answerReadStatus (r : Request) (s : State) : State :=
  if r.length ≠ 3 then respond r .badArgument [] s
  else match statusValues s (requestArg r 2) with
    | some d => respond r .ok d s
    | none => respond r .badArgument [] s

/-- READ_STATUS (R157, R153). -/
def execReadStatus (s : State) : Host.Outcome State Fault Refusal :=
  .next (takeRequest (some .readStatus) answerReadStatus s)

/-! ### Notices, conditions, reset causes (R162 to R164) -/

/-- Enable Notices (R162). -/
def answerEnableNotices (r : Request) (s : State) : State :=
  match requestConditions r with
  | none => respond r .badArgument [] s
  | some l => respond r .ok [] (s.withMgmt { s.mgmt with enabled := s.mgmt.enabled ||| l })

/-- Disable Notices (R162). -/
def answerDisableNotices (r : Request) (s : State) : State :=
  match requestConditions r with
  | none => respond r .badArgument [] s
  | some l => respond r .ok [] (s.withMgmt { s.mgmt with enabled := s.mgmt.enabled &&& ~~~l })

/-- Clear Conditions (R163). -/
def answerClearConditions (r : Request) (s : State) : State :=
  match requestConditions r with
  | none => respond r .badArgument [] s
  | some l => respond r .ok [] (s.withMgmt { s.mgmt with conditions := s.mgmt.conditions &&& ~~~l })

/-- Clear Reset Cause (R164). -/
def answerClearResetCause (r : Request) (s : State) : State :=
  respond r .ok [] (s.withMgmt { s.mgmt with causes := ⟨false, false, false⟩ })

/-- ENABLE_NOTICES (R162, R153). -/
def execEnableNotices (s : State) : Host.Outcome State Fault Refusal :=
  .next (takeRequest (some .enableNotices) (withLength 4 answerEnableNotices) s)

/-- DISABLE_NOTICES (R162, R153). -/
def execDisableNotices (s : State) : Host.Outcome State Fault Refusal :=
  .next (takeRequest (some .disableNotices) (withLength 4 answerDisableNotices) s)

/-- CLEAR_CONDITIONS (R163, R153). -/
def execClearConditions (s : State) : Host.Outcome State Fault Refusal :=
  .next (takeRequest (some .clearConditions) (withLength 4 answerClearConditions) s)

/-- CLEAR_RESET_CAUSE (R164, R153). -/
def execClearResetCause (s : State) : Host.Outcome State Fault Refusal :=
  .next (takeRequest (some .clearResetCause) (withLength 2 answerClearResetCause) s)

/-! ### Unknown requests (R153, steps 1 and 2) -/

/-- UNKNOWN_REQUEST: a taken request of length 0 or 1 or of an unknown code gets no response and ends any open run
(R153). -/
def execUnknownRequest (s : State) : Host.Outcome State Fault Refusal :=
  .next (takeRequest none (fun _ s => endRun s) s)

end Sys2Proof.Machine
end

