-- ==== Sys2Proof/Machine/Resets.lean ====
section
/-!
DEFINITION. The three kinds of reset and the completion of the boot build (10 sections 10.4 and 10.5, and each chapter's
values after reset).
-/

namespace Sys2Proof.Machine

/-- What a power-on and the reset line leave: everything held in the part goes to its reset value, a store in progress is
abandoned, the slots and the boot selector stay, the node number is read from the straps, and the map store begins to build
the active bank (R19, R38, R58, R92, R118, R141, R142, R165, R172, R174). What is built from that bank, and the timers that
start with it, wait for BOOT_BUILD_COMPLETE (log 4). -/
def hardReset (straps : BitVec 2) (causes : ResetCauses) (s : State) : State :=
  { State.reset with
    pending := s.pending,
    mgmt := { State.reset.mgmt with node := straps, causes := causes },
    store := abandonStore s.freeCount s.banks.staging s.store,
    freeCount := s.freeCount + 1 }

/-- POWER_ON (R164, R174): the reset cause set becomes POWER_ON alone. -/
def execPowerOn (straps : BitVec 2) (s : State) : Host.Outcome State Fault Refusal :=
  .next (hardReset straps ⟨true, false, false⟩ s)

/-- RESET_LINE (R164, R174): RESET_LINE is added to the reset cause set. -/
def execResetLine (straps : BitVec 2) (s : State) : Host.Outcome State Fault Refusal :=
  .next (hardReset straps { s.mgmt.causes with resetLine := true } s)

/-- The control state after a reset: LIMP if the active bank holds the LIMP condition, START otherwise (R118). -/
def stateAfterReset (b : Bank) : CtlState := if limpCondition b then .limp else .start

/-- The active bank has been built from the boot slot: what depends on it takes its reset value, the wheel and status
timers start, the ports take part, and a degraded boot raises BOOT_DEGRADED (R58, R118, R174 to R177). -/
def buildDone (t : Millis) (s : State) : State :=
  let x := s.store.slots.get s.store.bootSelector
  let b := bootBank x
  let s1 := { s with
    phase := .running,
    banks := { active := b, staging := emptyBank, activationPending := false, window := none },
    sensors := { s.sensors with wheelTimer := some (t + param b .wheelTimeoutMs) },
    eval := { s.eval with record := resetRecord b s.ctl.mode s.ctl.load },
    ctl := { s.ctl with state := stateAfterReset b, statusTimer := some (t + param b .statusPeriodMs) } }
  if bootDegraded x then raiseCondition .bootDegraded s1 else s1

/-- BOOT_BUILD_COMPLETE (R174, R175), while the map store is building (log 1). -/
def execBootBuildComplete (t : Millis) (s : State) : Host.Outcome State Fault Refusal :=
  .next (if s.phase = .building then buildDone t s else s)

/-- The Restart reset at time `t`: the dynamic state starts afresh, while the banks, the slots, the node number, the mode and
load in force, the condition set and the notice enable set are kept, and RESTART is added to the reset cause set (R19, R38,
R58, R92, R118, R141, R142, R159, R164, R165, R178). -/
def restartReset (t : Millis) (s : State) : State :=
  let b := s.banks.active
  { s with
    upstream := [], actuator := [],
    sensors := { resetSensors with wheelTimer := some (t + param b .wheelTimeoutMs) },
    eval := resetEval (resetRecord b s.ctl.mode s.ctl.load),
    ack := resetAck,
    ctl := { s.ctl with state := stateAfterReset b, liveness := .running, pendingMode := none, pendingLoad := none,
                        statusTimer := some (t + param b .statusPeriodMs) },
    banks := { s.banks with activationPending := false, window := none },
    scrub := resetScrub,
    mgmt := { s.mgmt with requests := [], response := none, causes := { s.mgmt.causes with restart := true } },
    store := { s.store with state := .idle } }

/-- Restart (R159): refused while a store is in progress or the vehicle is not stationary; otherwise the reset, and its
response as the first entry of the emptied upstream queue (R19). -/
def answerRestart (t : Millis) (r : Request) (s : State) : State :=
  if s.storeBusy then respond r .busyStore [] s
  else if s.stationary then respond r .ok [] (restartReset t s)
  else respond r .notStationary [] s

/-- RESTART (R159, R153). -/
def execRestart (t : Millis) (s : State) : Host.Outcome State Fault Refusal :=
  .next (takeRequest (some .restart) (withLength 2 (answerRestart t)) s)

end Sys2Proof.Machine
end

