-- ==== Sys2Proof/Machine/Dispatch.lean ====
section
/-! DEFINITION. Every command and the meaning it calls. -/

namespace Sys2Proof.Machine

def exec (i : Instr) (s : State) : Host.Outcome State Fault Refusal :=
  match i with
  | .frameReceive p f t => Sys2Proof.Machine.execFrameReceive p f t s
  | .transmitComplete p t => Sys2Proof.Machine.execTransmitComplete p t s
  | .transmitError p => Sys2Proof.Machine.execTransmitError p s
  | .staleTransmitReport p r => Sys2Proof.Machine.execStaleTransmitReport p r s
  | .passCompletion o => Sys2Proof.Machine.execPassCompletion o s
  | .holdTimerExpiry t => Sys2Proof.Machine.execHoldTimerExpiry t s
  | .lostTimerExpiry t => Sys2Proof.Machine.execLostTimerExpiry t s
  | .wheelTimeout t => Sys2Proof.Machine.execWheelTimeout t s
  | .brakeTimerExpiry t => Sys2Proof.Machine.execBrakeTimerExpiry t s
  | .ackDeadlineExpiry c t => Sys2Proof.Machine.execAckDeadlineExpiry c t s
  | .statusTimerExpiry t => Sys2Proof.Machine.execStatusTimerExpiry t s
  | .storePlanePhaseComplete l => Sys2Proof.Machine.execStorePlanePhaseComplete l s
  | .storeHeaderPhaseComplete r => Sys2Proof.Machine.execStoreHeaderPhaseComplete r s
  | .powerOn n => Sys2Proof.Machine.execPowerOn n s
  | .resetLine n => Sys2Proof.Machine.execResetLine n s
  | .bootBuildComplete t => Sys2Proof.Machine.execBootBuildComplete t s
  | .identify => Sys2Proof.Machine.execIdentify s
  | .readStatus => Sys2Proof.Machine.execReadStatus s
  | .enableNotices => Sys2Proof.Machine.execEnableNotices s
  | .disableNotices => Sys2Proof.Machine.execDisableNotices s
  | .clearConditions => Sys2Proof.Machine.execClearConditions s
  | .clearResetCause => Sys2Proof.Machine.execClearResetCause s
  | .enterRoller => Sys2Proof.Machine.execEnterRoller s
  | .leaveRoller => Sys2Proof.Machine.execLeaveRoller s
  | .restart t => Sys2Proof.Machine.execRestart t s
  | .openWindow => Sys2Proof.Machine.execOpenWindow s
  | .loadData => Sys2Proof.Machine.execLoadData s
  | .resumeWindow => Sys2Proof.Machine.execResumeWindow s
  | .readData => Sys2Proof.Machine.execReadData s
  | .fillWindow => Sys2Proof.Machine.execFillWindow s
  | .commitPlane => Sys2Proof.Machine.execCommitPlane s
  | .stageCopy => Sys2Proof.Machine.execStageCopy s
  | .activate => Sys2Proof.Machine.execActivate s
  | .cancelActivation => Sys2Proof.Machine.execCancelActivation s
  | .storeImage => Sys2Proof.Machine.execStoreImage s
  | .loadImage => Sys2Proof.Machine.execLoadImage s
  | .selectBootSlot => Sys2Proof.Machine.execSelectBootSlot s
  | .unknownRequest => Sys2Proof.Machine.execUnknownRequest s

end Sys2Proof.Machine
end

