-- ==== Sys2Proof/Safety.lean ====
section
/-!
DEFINITION. What a legal state of the part is, in the terms the statements use: one predicate per block, taken from the
manual's own words about what always holds. Each is kept by every step; what a response leaves in the upstream queue is
said here too.
-/

namespace Sys2Proof.Machine

/-! ### Transmit queues (R9, R11, R14) -/

/-- The torque a reduced content carries lies within 0 to 399, and only a CONTROLLED entry carries one (R9, R92). -/
def contentLegal (o : Origin) (c : Content) : Prop :=
  c.frame.len ≤ 8 ∧ c.frame.data.length ≤ 8 ∧
    ∀ ft, c.reduced = some ft → o = .controlled ∧ 0 ≤ ft.torque ∧ ft.torque < 400

/-- A content of the part's own kind: a standard data frame, as every CONTROLLED and PART frame is (R4, R150). -/
def standardData (c : Content) : Prop := c.frame.kind = .data ∧ ∃ id, c.frame.id = .std id

/-- One entry of a queue whose part-originated or controlled entries are of origin `own` (R9, R11, R16). -/
structure EntryLegal (own : Origin) (e : Entry) : Prop where
  origin   : e.origin = .plain ∨ e.origin = own
  flag     : e.origin = own → e.coalesce = true ∧ standardData e.content
  attempts : e.attempts < Config.maxAttempts
  content  : contentLegal e.origin e.content
  follower : ∀ c, e.followOn = some c →
    e.offered = true ∧ contentLegal e.origin c ∧ c.frame.id = e.content.frame.id ∧ c.frame.kind = e.content.frame.kind

/-- The limits of R9: at most 16 entries, at most 14 of them PLAIN, at most one per identifier among the others, at most
one in offer. -/
structure QueueWithin (own : Origin) (q : List Entry) : Prop where
  total    : q.length ≤ Config.queuePlaces
  plain    : plainCount q ≤ Config.plainPlaces
  entries  : ∀ e ∈ q, EntryLegal own e
  distinct : ((q.filter fun e => e.origin == own).map fun e => e.content.frame.id).Nodup
  oneOffer : (q.countP fun e => e.offered) ≤ 1

/-- A port with entries has one of them in offer (R14). -/
def offering (q : List Entry) : Prop := q ≠ [] → ∃ e ∈ q, e.offered = true

/-- The response in progress and its awaited part (R152, R155): a content marked as an awaited part stands in the upstream
queue only while a response is in progress, as a PART frame of the response identifier; nothing follows it on; and a
response in progress has its awaited part there, so it cannot wait for ever. -/
structure PartsLegal (s : State) : Prop where
  marked  : ∀ e ∈ s.upstream, ∀ c, e.content = c ∨ e.followOn = some c → c.awaitedPart = true →
    s.mgmt.response ≠ none ∧ e.origin = .part ∧ c.frame.id = .std (s.nodeId Config.responseBase)
  last    : ∀ e ∈ s.upstream, e.content.awaitedPart = true → e.followOn = none
  present : s.mgmt.response ≠ none →
    ∃ e ∈ s.upstream, e.content.awaitedPart = true ∨ ∃ c, e.followOn = some c ∧ c.awaitedPart = true
  actuator : ∀ e ∈ s.actuator, ∀ c, e.content = c ∨ e.followOn = some c → c.awaitedPart = false

/-- Both queues: PART entries in the upstream queue alone, CONTROLLED entries in the actuator queue alone (R5, R9). -/
structure QueuesLegal (s : State) : Prop where
  upstream  : QueueWithin .part s.upstream
  upOffer   : offering s.upstream
  actuator  : QueueWithin .controlled s.actuator
  actOffer  : offering s.actuator
  parts     : PartsLegal s

/-! ### Tables (04, R166) -/

/-- Every table has the cells of its plane's shape. -/
def shaped (x : PerPlane (List Word)) : Prop := ∀ p, (x.get p).length = p.size

/-- Every plane of a bank has the cells of its shape. -/
def bankShaped (b : Bank) : Prop := ∀ p, ((b.get p).cells).length = p.size

/-- The two banks and the four slots have the shapes of the chapter table (04, R166). -/
structure TablesShaped (s : State) : Prop where
  active  : bankShaped s.banks.active
  staging : bankShaped s.banks.staging
  slots   : ∀ i, shaped (s.store.slots.get i).cells

/-! ### Plane states (R119, R135, R168) -/

/-- Every active plane is VERIFIED or FAULTY, no staging plane is FAULTY, and while an activation is pending or a store is
in progress every staging plane is VERIFIED (R119, R135, R169). -/
structure PlanesLegal (s : State) : Prop where
  active  : ∀ p, (s.banks.active.get p).isVerified = true ∨ (s.banks.active.get p).isFaulty = true
  staging : ∀ p, (s.banks.staging.get p).isFaulty = false
  pending : s.banks.activationPending = true → allVerified s.banks.staging = true
  storing : s.storeBusy = true → allVerified s.banks.staging = true

/-- The control state is LIMP exactly while one of the four LIMP planes of the active bank is FAULTY (R111, R112). -/
def LimpLegal (s : State) : Prop := s.ctl.state = .limp ↔ limpCondition s.banks.active = true

/-! ### Sensor records (02) -/

/-- The ranges of the records (R22, R31, R34, R36). -/
structure RecordsInRange (x : Sensors) : Prop where
  lean   : -640 ≤ x.imuLean ∧ x.imuLean ≤ 640
  pitch  : -900 ≤ x.imuPitch ∧ x.imuPitch ≤ 900
  speeds : x.vf ≤ 65000 ∧ x.vr ≤ 65000
  brakes : x.brakeFront ≤ 2000 ∧ x.brakeRear ≤ 2000
  torque : -200 ≤ x.torqueRequest ∧ x.torqueRequest ≤ 400

/-- Which timers run in which lean source state, and where the recovery count is held at 0 (02 section 2.2, R25 to R28). -/
def leanTimersLegal (x : Sensors) : Prop :=
  match x.source with
  | .live => x.holdTimer ≠ none ∧ x.lostTimer ≠ none ∧ x.recoveryCount = 0
  | .held => x.holdTimer = none ∧ x.lostTimer ≠ none ∧ x.recoveryCount = 0
  | .lost => x.holdTimer = none ∧ x.lostTimer = none ∧ x.recoveryCount = 0
  | .recovering => x.holdTimer ≠ none ∧ x.lostTimer = none ∧ x.recoveryCount ≤ 3

/-- The lean timers, and an expired brake-demand record that reads as zero demand (R35). -/
structure TimersLegal (s : State) : Prop where
  lean  : leanTimersLegal s.sensors
  brake : s.sensors.brakeTimer = none → s.sensors.brakeFront = 0 ∧ s.sensors.brakeRear = 0

/-- While the part runs, the wheel liveness agrees with the wheel timer (R104) and the status timer runs (R116). -/
structure LivenessLegal (s : State) : Prop where
  wheel  : s.phase = .running → (s.ctl.liveness = .running ↔ s.sensors.wheelTimer ≠ none)
  status : s.phase = .running → s.ctl.statusTimer ≠ none

/-! ### Evaluation (03, 05) -/

/-- The ranges of captured inputs (R41). -/
structure InputsInRange (i : PassInputs) : Prop where
  speeds : i.vf ≤ 65000 ∧ i.vr ≤ 65000
  lean   : -640 ≤ i.lean ∧ i.lean ≤ 640
  pitch  : -900 ≤ i.pitch ∧ i.pitch ≤ 900
  brakes : i.dFront ≤ 2000 ∧ i.dRear ≤ 2000
  torque : -200 ≤ i.q ∧ i.q ≤ 400

/-- The ranges of the limit record (R52), with K the lean-dependent limit less the cut (R85). -/
structure RecordInRange (r : LimitRecord) : Prop where
  passNo  : r.passNo ≤ 65535
  lean    : -640 ≤ r.lean ∧ r.lean ≤ 640
  index   : r.a = r.lean.natAbs
  column  : r.column ≤ 15
  slipTarget  : r.slipTarget ≤ 400
  torqueLimit : r.torqueLimit ≤ 400
  brakes  : r.brakeFront ≤ 2000 ∧ r.brakeRear ≤ 2000
  speeds  : r.vfc ≤ 65000 ∧ r.vrc ≤ 65000 ∧ r.vref ≤ 65000
  slip    : -1000 ≤ r.slip ∧ r.slip ≤ 2000
  below   : r.belowControlSpeed = true → r.slip = 0
  cut     : r.cut ≤ 400
  relief  : r.relief ≤ 150
  ceiling : r.ceiling = r.torqueLimit - r.cut

/-- The evaluation unit and the records it works from are in range, and the running state is that of the record (R52, R53,
R84). -/
structure EvalLegal (s : State) : Prop where
  sensors : RecordsInRange s.sensors
  record  : RecordInRange s.eval.record
  running : s.eval.cut = s.eval.record.cut ∧ s.eval.relief = s.eval.record.relief ∧ s.eval.vref = s.eval.record.vref
  count   : s.eval.record.passNo = s.eval.passCount
  flight  : ∀ p, s.eval.inFlight = some p →
    InputsInRange p.inputs ∧ p.vref ≤ 65000 ∧ p.cut ≤ 400 ∧ p.relief ≤ 150
  waiting : ∀ i, s.eval.waiting = some i → InputsInRange i

/-- The drag relief, in the running state and in the record, lies within the DRAG_MAX of the bank in force (R84). -/
structure ReliefLegal (s : State) : Prop where
  running : s.eval.relief ≤ param s.banks.active .dragMax
  record  : s.eval.record.relief ≤ param s.banks.active .dragMax

/-- In START and in PASSIVE the reinitialise marker is set and no cut and no relief stand (R47, R106, R107); a request waits
only behind a pass in flight (R40). -/
structure StandbyLegal (s : State) : Prop where
  standby : s.ctl.state = .start ∨ s.ctl.state = .passive →
    s.eval.marker = true ∧ s.eval.cut = 0 ∧ s.eval.relief = 0 ∧ s.eval.record.cut = 0 ∧ s.eval.record.relief = 0
  waiting : s.eval.inFlight = none → s.eval.waiting = none

/-! ### Acknowledgement monitor (R92) -/

/-- At most 4 records, no two of one counter, torques within 0 to 399, a miss count of at most 15 (R92). -/
structure AckLegal (s : State) : Prop where
  length   : s.ack.records.length ≤ Config.ackPlaces
  counters : (s.ack.records.map fun r => r.counter).Nodup
  torques  : ∀ r ∈ s.ack.records, 0 ≤ r.torque ∧ r.torque < 400
  misses   : s.ack.missCount ≤ Config.maxMissCount

/-! ### Windows (R121, R123) and the scrub position (R142) -/

/-- A window lies inside its plane, its position is at most its size, a LOAD window is on the staging bank, and an open run
is of the window's kind (R121). -/
structure WindowLegal (w : Window) : Prop where
  rows     : w.firstRow ≤ w.lastRow ∧ w.lastRow < w.plane.rows
  cols     : w.firstCol ≤ w.lastCol ∧ w.lastCol < w.plane.cols
  position : w.position ≤ w.size
  load     : w.kind = .load → w.bank = .staging
  run      : w.openRun = none ∨ w.openRun = some w.kind

/-- The window record and the scrub row are legal (R121, R142). -/
structure PositionsLegal (s : State) : Prop where
  window : ∀ w, s.banks.window = some w → WindowLegal w
  scrub  : s.scrub.row < s.scrub.plane.rows

/-! ### Management (R151, R152, R155) -/

/-- At most four requests of at most eight bytes wait, none is in hand between commands, and what is left of a response
fits its four parts (R151, R152, R154). -/
structure ManagementLegal (s : State) : Prop where
  requests : s.mgmt.requests.length ≤ Config.requestPlaces
  lengths  : ∀ r ∈ s.mgmt.requests, r.length ≤ 8
  inHand   : s.mgmt.inHand = none
  response : ∀ x, s.mgmt.response = some x →
    x.awaited + x.remaining.length ≤ 3 ∧ ∀ p ∈ x.remaining, p.data.length ≤ 4

/-! ### Map store (R166 to R170) -/

/-- The planes a store in this phase has programmed and read back (R169). -/
def programmed : StorePhase → PlaneId → Bool
  | .plane p, q => decide (q.number < p.number)
  | .header, _ => true

/-- A slot is VALID only with the pairs of the cells it holds, an INVALID slot's header reads as erased, and a store in
progress has read back every plane it has passed against the pair recorded in staging (R166, R169, R170). -/
structure StoreLegal (s : State) : Prop where
  valid   : ∀ i, (s.store.slots.get i).complete = true →
    ∀ p, pairOf ((s.store.slots.get i).cells.get p) = (s.store.slots.get i).pairs.get p
  erased  : ∀ i, (s.store.slots.get i).complete = false → (s.store.slots.get i).pairs = erasedPairs
  storing : ∀ i ph, s.store.state = .inProgress i ph →
    (s.store.slots.get i).complete = false ∧ allVerified s.banks.staging = true ∧
      ∀ p, programmed ph p = true →
        (s.banks.staging.get p).pair? = some (pairOf ((s.store.slots.get i).cells.get p))

/-! ### Intact banks (R119, R144) -/

/-- Every VERIFIED plane of the bank still gives its recorded pair (R119). -/
def bankIntact (b : Bank) : Prop := ∀ p c, (b.get p).pair? = some c → pairOf (b.get p).cells = c

/-- No cell has changed since its plane was verified, and the scrub's sums are those of the rows it has passed in a
VERIFIED plane (R143, R144). -/
structure BanksIntact (s : State) : Prop where
  active  : bankIntact s.banks.active
  staging : bankIntact s.banks.staging
  sums    : (s.banks.active.get s.scrub.plane).isVerified = true →
    s.scrub.sums = pairOf ((s.banks.active.get s.scrub.plane).cells.take (s.scrub.row * s.scrub.plane.cols))

/-! ### Requests and responses (R152 to R155) -/

/-- Requests are being taken and `l` waits: the part runs, none is in hand, no response is in progress (R152). -/
structure Ready (s : State) (l : List Request) : Prop where
  running  : s.phase = .running
  inHand   : s.mgmt.inHand = none
  response : s.mgmt.response = none
  requests : s.mgmt.requests = l

/-- The window record with its run ended (R127). -/
def closedWindow (w : Option Window) : Option Window := w.map fun w => { w with openRun := none }

/-- The state with the oldest request gone, `rest` waiting, and an open run ended, as every request but Load Data, Read
Data and Read Status leaves it whatever else it does (R127, R152). -/
def taken (s : State) (rest : List Request) : State :=
  { s with mgmt := { s.mgmt with requests := rest, inHand := none },
           banks := { s.banks with window := closedWindow s.banks.window } }

/-- The state with the oldest request gone and an open run left open (R127, R152). -/
def takenOpen (s : State) (rest : List Request) : State :=
  { s with mgmt := { s.mgmt with requests := rest, inHand := none } }

/-- A queue holds a content for sending: as an entry's content or as its follow-on. -/
def holds (q : List Entry) (c : Content) : Prop := ∃ e ∈ q, e.content = c ∨ e.followOn = some c

/-- The response to a request with code `code` and sequence byte `seq` has been placed over state `s`, giving `t`: its
other parts are the response in progress and its first part has been placed in the upstream queue as every PART frame is, so
that the rest of that queue is what `place` leaves of it. Nothing else differs from `s` but, where an entry was displaced,
FORWARD_DROP in the condition set (R13, R18, R154, R155). -/
def Answered (s t : State) (code seq : Byte) (res : Result) (d : List Byte) : Prop :=
  match numberParts code seq res 0 (divideData d) with
  | [] => False
  | p :: rest =>
    let c : Content := { frame := partFrame s p, reduced := none, awaitedPart := !rest.isEmpty }
    let response := if rest.isEmpty then none else some { awaited := 0, remaining := rest }
    t = place .upstream c .part true { s with mgmt := { s.mgmt with response := response } } ∧
      holds t.upstream c ∧
      (t.mgmt.conditions = s.mgmt.conditions ∨ t.mgmt.conditions = s.mgmt.conditions ||| Condition.forwardDrop.bit) ∧
      t = { s with upstream := t.upstream,
                   mgmt := { s.mgmt with response := response, conditions := t.mgmt.conditions } }

/-! ### Conditions and placed frames (R10 to R13, R18, R160, R161) -/

/-- From `s` to `t` nothing has changed but transmit queues, the condition set (which has only grown) and a response in
progress that the loss of its awaited part has discarded: all that placing frames and raising conditions can do. -/
structure OnlySent (s t : State) : Prop where
  frame    : t = { s with upstream := t.upstream, actuator := t.actuator,
                          mgmt := { s.mgmt with response := t.mgmt.response, conditions := t.mgmt.conditions } }
  grown    : s.mgmt.conditions &&& t.mgmt.conditions = s.mgmt.conditions
  response : t.mgmt.response = s.mgmt.response ∨ t.mgmt.response = none

/-! ### What the statements are about -/

/-- Every step from a state with `Inv` leads to a state with `Inv`. -/
def Kept (Inv : State → Prop) : Prop := ∀ s t : State, Inv s → step s = .next t → Inv t

/-- Every step from a state with `Inv` that also has `Also` leads to a state with `Inv`; `Also` is kept in its own right. -/
def KeptUnder (Also Inv : State → Prop) : Prop := ∀ s t : State, Also s → Inv s → step s = .next t → Inv t

/-- The map store is building the active bank, and everything stands at its value after reset but the node number, the
reset cause set, the slots and the boot selector: what POWER_ON and RESET_LINE leave (R172, R174). -/
structure Building (s : State) : Prop where
  phase : s.phase = .building
  rest  : s = { State.reset with
    pending := s.pending,
    mgmt := { State.reset.mgmt with node := s.mgmt.node, causes := s.mgmt.causes },
    store := { State.reset.store with slots := s.store.slots, bootSelector := s.store.bootSelector },
    freeCount := s.freeCount }

/-- A part that is building has nothing else going on. -/
def Settled (s : State) : Prop := s.phase = .building → Building s

/-- The requests of one allowed length, with their code and that length (R153, 11.3); Load Data has its own tests and Read
Status leaves a run open. -/
def fixedLength : Instr → Option (Byte × Nat)
  | .identify => some (0x01, 2)
  | .enableNotices => some (0x03, 4)
  | .disableNotices => some (0x04, 4)
  | .clearConditions => some (0x05, 4)
  | .clearResetCause => some (0x06, 2)
  | .enterRoller => some (0x07, 2)
  | .leaveRoller => some (0x08, 2)
  | .restart _ => some (0x09, 2)
  | .openWindow => some (0x10, 8)
  | .resumeWindow => some (0x12, 2)
  | .readData => some (0x13, 2)
  | .fillWindow => some (0x14, 4)
  | .commitPlane => some (0x15, 7)
  | .stageCopy => some (0x16, 2)
  | .activate => some (0x17, 2)
  | .cancelActivation => some (0x18, 2)
  | .storeImage => some (0x20, 3)
  | .loadImage => some (0x21, 3)
  | .selectBootSlot => some (0x22, 3)
  | .frameReceive _ _ _ => none
  | .transmitComplete _ _ => none
  | .transmitError _ => none
  | .staleTransmitReport _ _ => none
  | .passCompletion _ => none
  | .holdTimerExpiry _ => none
  | .lostTimerExpiry _ => none
  | .wheelTimeout _ => none
  | .brakeTimerExpiry _ => none
  | .ackDeadlineExpiry _ _ => none
  | .statusTimerExpiry _ => none
  | .storePlanePhaseComplete _ => none
  | .storeHeaderPhaseComplete _ => none
  | .powerOn _ => none
  | .resetLine _ => none
  | .bootBuildComplete _ => none
  | .readStatus => none
  | .loadData => none
  | .unknownRequest => none

/-- A frame reaches the classifier of port `p` and is decided to be of this action and flag: the port takes part, the frame
is complete and no management request, and the ACTION plane says so (R1 to R5, R174). -/
structure Classified (s : State) (p : Port) (f : RxFrame) (v : Verdict) : Prop where
  running  : s.phase = .running
  complete : f.complete = true
  request  : isRequest s p (takenFrame f) = false
  verdict  : classify s.banks.active p (takenFrame f) = v

end Sys2Proof.Machine
end

