-- ==== Sys2Proof/Certificates/Slice0/Obligations.lean ====
section
/-! DEFINITION. The statements for the provers; OBLIGATIONS.json lists them with the rules they come from. -/

section

open Sys2Proof Sys2Proof.Machine

/-! ### The machine -/

/-- The model's choices (log 1, log 2): a step executes the command at the front of the queue, with the queue's rest; on an
empty queue the part idles. -/
def Obligations.StepRunsTheFrontCommand : Prop :=
  (∀ (c : Instr) (rest : List Instr) (s : State),
     step { s with pending := c :: rest } = exec c { s with pending := rest }) ∧
  (∀ s : State, s.pending = [] → step s = .next s)

/-- No command faults and none is refused, in any state, and none touches the queue of commands behind it. That a command
completes in every state, one whose event has not arisen or whose timer is not due included, is the model's choice (log 1),
as are the queue of commands and its order (log 2); so is what a command does in a state that no run reaches (log 20). -/
def Obligations.EveryCommandCompletes : Prop :=
  ∀ (c : Instr) (s : State), ∃ t, exec c s = .next t ∧ t.pending = s.pending

/-- The values the manual gives for a blank part after power-on, while its active bank is being built (R19, R38, R58, R92,
R118, R141, R142, R165, R166, R174); the values the model chose (log 4) are left out. -/
def Obligations.ResetHoldsTheManualsValues : Prop :=
  let s := State.reset
  s.phase = .building ∧ s.upstream = [] ∧ s.actuator = [] ∧
    s.sensors = { imuLean := 0, imuPitch := 0, source := .lost, recoveryCount := 0, holdTimer := none, lostTimer := none,
                  vf := 0, vr := 0, wheelTimer := none, brakeFront := 0, brakeRear := 0, brakeTimer := none,
                  torqueRequest := 0, lastCounters := ⟨none, none, none, none, none, none⟩ } ∧
    s.eval.inFlight = none ∧ s.eval.waiting = none ∧ s.eval.vref = 0 ∧ s.eval.cut = 0 ∧ s.eval.relief = 0 ∧
    s.eval.marker = true ∧ s.eval.passCount = 0 ∧ s.eval.record.passNo = 0 ∧
    s.ack = { records := [], missCount := 0, fault := false } ∧
    s.ctl.liveness = .running ∧ s.ctl.mode = .road ∧ s.ctl.load = .solo ∧ s.ctl.pendingMode = none ∧
    s.ctl.pendingLoad = none ∧
    (∀ p, s.banks.staging.get p = { cells := List.replicate p.size 0, status := .empty }) ∧
    s.banks.activationPending = false ∧ s.banks.window = none ∧
    s.scrub = { plane := .slipTarget, row := 0, sums := ⟨0, 0⟩ } ∧
    s.mgmt.requests = [] ∧ s.mgmt.inHand = none ∧ s.mgmt.response = none ∧ s.mgmt.conditions = 0 ∧
    s.mgmt.enabled = 0 ∧ s.mgmt.causes = ⟨true, false, false⟩ ∧
    (∀ i p, (s.store.slots.get i).cells.get p = List.replicate p.size 0 ∧ (s.store.slots.get i).pairs.get p = ⟨0, 0⟩ ∧
      (s.store.slots.get i).complete = false) ∧
    s.store.bootSelector = .slot0 ∧ s.store.state = .idle

/-- The state after reset meets every invariant stated below. What it holds while its bank is being built is the model's
choice (log 4). -/
def Obligations.ResetIsLegal : Prop :=
  QueuesLegal State.reset ∧ TablesShaped State.reset ∧ PlanesLegal State.reset ∧ LimpLegal State.reset ∧
    EvalLegal State.reset ∧ ReliefLegal State.reset ∧ TimersLegal State.reset ∧ LivenessLegal State.reset ∧
    StandbyLegal State.reset ∧ AckLegal State.reset ∧ PositionsLegal State.reset ∧ ManagementLegal State.reset ∧ StoreLegal State.reset ∧
    BanksIntact State.reset ∧ Building State.reset

/-! ### Invariants that every step keeps -/

/-- R9, R11, R14: the limits of the transmit queues, with at most one entry per identifier among CONTROLLED and PART entries,
and a port with entries has one in offer; beside them the limits of the management unit (R151, R152, R154). The mark of an
awaited part is the model's own (log 13). -/
def Obligations.QueuesStayWithinTheirLimits : Prop :=
  Kept fun s => QueuesLegal s ∧ ManagementLegal s

/-- R92: at most four records, no two of one counter, torques within 0 to 399, a miss count of at most 15; the torques come
from the queues' reduced contents. -/
def Obligations.AckListStaysWithinItsLimits : Prop :=
  KeptUnder (fun s => QueuesLegal s ∧ ManagementLegal s) AckLegal

/-- The planes of both banks and of the four slots keep their shapes (04, R166). R121, R123, R142: the window stays inside
its plane, and the scrub row inside its plane's rows. -/
def Obligations.TablesAndPositionsKeepTheirShapes : Prop :=
  Kept TablesShaped ∧ Kept PositionsLegal

/-- R119, R135, R169: the legal plane states of each bank, and a staging bank that stays VERIFIED while an activation is
pending or a store is in progress. R111, R112, R118: the control state is LIMP exactly while a LIMP plane of the active bank
is FAULTY. -/
def Obligations.PlaneStatesStayLegal : Prop :=
  KeptUnder Settled PlanesLegal ∧ Kept LimpLegal

/-- R22, R31, R34, R36, R41, R52, R84, R85: the records, the captured inputs and the limit record stay in their ranges. R84:
the drag relief stays within the DRAG_MAX of the bank in force, across a bank exchange too; no cell of that bank changes of
itself (log 17). -/
def Obligations.RecordsStayInRange : Prop :=
  KeptUnder Settled EvalLegal ∧
    KeptUnder (fun s => Settled s ∧ TablesShaped s ∧ PositionsLegal s ∧ BanksIntact s) ReliefLegal

/-- R24 to R28, R35: which timers run in which lean source state, and the expired brake record reads as zero demand. R104,
R116, R174: the wheel liveness agrees with the wheel timer, and the status timer runs. -/
def Obligations.TimersAgreeWithTheirRecords : Prop :=
  Kept TimersLegal ∧ KeptUnder Settled LivenessLegal

/-- R47, R106, R107: START and PASSIVE hold the marker set and no cut and no relief; R40: a request waits only behind a pass
in flight. -/
def Obligations.StandbyHoldsNoCut : Prop := KeptUnder Settled StandbyLegal

/-- R166, R169, R170: a slot is VALID only with the pairs of the cells it holds; an INVALID header reads as erased; a store
has read back every plane it has passed. -/
def Obligations.SlotsAreValidOnlyWithTheirPairs : Prop := KeptUnder Settled StoreLegal

/-- R119, R143, R144: no command of the part changes a cell of a VERIFIED plane without its pair, the scrub's own writes
included. A cell that changes of itself is no command (log 17). -/
def Obligations.BanksStayIntact : Prop :=
  KeptUnder (fun s => Settled s ∧ TablesShaped s ∧ PositionsLegal s) BanksIntact

/-- R174: during the build only POWER_ON, RESET_LINE and BOOT_BUILD_COMPLETE change anything, and only the last ends it; and
a part that is building never has anything else going on. What a building part holds is the model's choice (log 4). -/
def Obligations.DuringTheBuildNothingElseMoves : Prop :=
  (∀ (c : Instr) (s : State), Building s →
    (match c with
     | .powerOn _ => True
     | .resetLine _ => True
     | .bootBuildComplete _ => True
     | _ => exec c s = .next s) ∧
    ∀ t, exec c s = .next t → Building t ∨ (∃ n, c = .bootBuildComplete n) ∧ t.phase = .running) ∧
  Kept Settled

/-! ### Frame paths (01) -/

/-- R2, R3, R5: extended frames, remote frames, frames of the management range and frames that no row matches are plain; for
the others the first row that matches decides, and a row of a fixed-port kind naming the other port is acted on as PASS. -/
def Obligations.FirstMatchingRowDecides : Prop :=
  ∀ (b : Bank) (p : Port) (f : Frame),
    let rows := (List.range 16).map (actionRow b.action.cells)
    let hit := fun (id : BitVec 11) (r : ActionRow) =>
      r.kind ≠ 0 ∧ r.id = id.toNat ∧ r.port = (match p with | .upstream => 0 | .actuator => 1)
    (f.kind = .remote → classify b p f = ⟨.pass, false⟩) ∧
      (∀ id, f.id = .ext id → classify b p f = ⟨.pass, false⟩) ∧
      ∀ id, f.kind = .data → f.id = .std id →
        (0x6C0 ≤ id.toNat ∧ id.toNat ≤ 0x6CF → classify b p f = ⟨.pass, false⟩) ∧
        ((id.toNat < 0x6C0 ∨ 0x6CF < id.toNat) →
          ((∀ r ∈ rows, ¬ hit id r) → classify b p f = ⟨.pass, false⟩) ∧
          ∀ pre r post, rows = pre ++ r :: post → (∀ r' ∈ pre, ¬ hit id r') → hit id r →
            classify b p f =
              ⟨match r.kind, p with
                | 2, _ => .block
                | 3, .upstream => .imu
                | 4, .actuator => .wheel
                | 5, .upstream => .torqueRequest
                | 6, .actuator => .torqueAck
                | 7, .upstream => .brakeDemand
                | 8, .upstream => .rideMode
                | 9, .upstream => .loadState
                | _, _ => .pass, r.coalesce != 0⟩)

/-- R4: a PASS frame goes on unchanged into the other port's queue as PLAIN with its row's flag, a BLOCK frame goes no
further; R6, R8: a controlled frame whose check is bad goes on untouched as CONTROLLED, and CHECK_FAIL is raised. That the
frame is placed before the condition is raised is the model's reading (log 9). -/
def Obligations.ForwardingFollowsTheRow : Prop :=
  (∀ (p : Port) (f : RxFrame) (t : Millis) (s : State) (k : Bool),
     (Classified s p f ⟨.pass, k⟩ →
       exec (.frameReceive p f t) s = .next (place p.other (plainContent (takenFrame f)) .plain k s)) ∧
     (Classified s p f ⟨.block, k⟩ → exec (.frameReceive p f t) s = .next s)) ∧
  (∀ (p : Port) (f : RxFrame) (t : Millis) (s : State) (k : Bool) (a : FrameAction) (n : Nat),
     Classified s p f ⟨a, k⟩ → (a = .torqueRequest ∧ n = 4 ∨ a = .brakeDemand ∧ n = 6) →
     (f.data.length ≠ n ∨ f.data.getLast? ≠ some (255 - f.data.dropLast.foldl (· + ·) 0)) →
     exec (.frameReceive p f t) s =
       .next (raiseCondition .checkFail (place p.other (plainContent (takenFrame f)) .controlled true s)))

/-- R10 to R14, R18. A PLAIN frame that replaces nothing joins the end of the queue while it holds fewer than 14 PLAIN
entries and fewer than 16 in all, and the port offers; otherwise the queue keeps its entries and FORWARD_DROP is raised. A
CONTROLLED or PART frame that replaces nothing is always admitted at the end, and the port offers; a full queue first gives
up its newest waiting PLAIN entry or, with none waiting, its oldest waiting entry, and never the entry in offer, and
FORWARD_DROP is raised; an awaited part given up takes its response with it (R155). A coalescing frame replaces the content
of the newest waiting entry of its identifier and origin, which keeps its place with attempts 0; with none waiting it becomes
the follow-on of the one in offer; no place is taken and nothing is raised. That a frame has its place before FORWARD_DROP is
raised is the model's reading (log 8), and so is that the entry whose content is replaced keeps its own coalesce flag
(log 15); the mark of an awaited part is the model's own (log 13). -/
def Obligations.AdmissionKeepsTheQueuesRules : Prop :=
  (∀ (p : Port) (c : Content) (k : Bool) (s : State),
     (k = true → ∀ e ∈ s.queue p, Entry.sameStream c.frame .plain e = false) →
     let q := s.queue p
     (plainCount q < 14 ∧ q.length < 16 →
       place p c .plain k s = s.setQueue p (offer
         (q ++ [{ content := c, origin := .plain, coalesce := k, attempts := 0, offered := false, followOn := none }]))) ∧
     (14 ≤ plainCount q ∨ 16 ≤ q.length →
       place p c .plain k s = raiseCondition .forwardDrop (s.setQueue p (offer q)))) ∧
  (∀ (p : Port) (c : Content) (o : Origin) (s : State), o ≠ .plain →
     (∀ e ∈ s.queue p, Entry.sameStream c.frame o e = false) →
     let q := s.queue p
     let e' : Entry := { content := c, origin := o, coalesce := true, attempts := 0, offered := false, followOn := none }
     (q.length < 16 → queueFrame c o true q = (q ++ [e'], .nothing) ∧
       place p c o true s = s.setQueue p (offer (q ++ [e']))) ∧
     ∀ pre e post, 16 ≤ q.length → q = pre ++ e :: post → e.offered = false →
       (e.origin = .plain ∧ (∀ x ∈ post, x.origin = .plain → x.offered = true) ∨
         (∀ x ∈ q, x.origin = .plain → x.offered = true) ∧ (∀ x ∈ pre, x.offered = true)) →
       let t := s.setQueue p (offer (pre ++ post ++ [e']))
       queueFrame c o true q = (pre ++ post ++ [e'], .displaced e) ∧
         place p c o true s = raiseCondition .forwardDrop
           (if e.content.awaitedPart then { t with mgmt := { t.mgmt with response := none } } else t)) ∧
  (∀ (p : Port) (c : Content) (o : Origin) (pre post : List Entry) (e : Entry) (s : State),
     s.queue p = pre ++ e :: post → Entry.sameStream c.frame o e = true →
     (e.offered = false → (∀ x ∈ post, x.offered = false → Entry.sameStream c.frame o x = false) →
       place p c o true s = s.setQueue p (offer (pre ++ { e with content := c, attempts := 0 } :: post))) ∧
     (e.offered = true → (∀ x ∈ pre ++ post, Entry.sameStream c.frame o x = false) →
       place p c o true s = s.setQueue p (pre ++ { e with followOn := some c } :: post)))

/-- R14: with nothing in offer and an entry waiting, the port offers the entry of the lowest key, the oldest among equals,
and changes nothing else; with an entry in offer it offers no other. For standard data frames the lowest key is the lowest
identifier. -/
def Obligations.OfferTakesTheLowestKey : Prop :=
  (∀ q : List Entry, (∃ e ∈ q, e.offered = true) → offer q = q) ∧
  (∀ q : List Entry, q ≠ [] → (∀ e ∈ q, e.offered = false) →
    ∃ pre e post, q = pre ++ e :: post ∧ offer q = pre ++ { e with offered := true } :: post ∧
      (∀ x ∈ q, offerKey e.content.frame ≤ offerKey x.content.frame) ∧
      ∀ x ∈ pre, offerKey e.content.frame < offerKey x.content.frame) ∧
  (∀ f g : Frame, ∀ a b : BitVec 11, f.id = .std a → g.id = .std b → f.kind = .data → g.kind = .data →
    (offerKey f < offerKey g ↔ a.toNat < b.toNat)) ∧
  (∀ f g : Frame, ∀ (a : BitVec 11) (b : BitVec 29), f.id = .std a → g.id = .ext b →
    (offerKey f < offerKey g ↔ a.toNat ≤ b.toNat / 2 ^ 18)) ∧
  (∀ f g : Frame, ∀ a b : BitVec 29, f.id = .ext a → g.id = .ext b → f.kind = g.kind →
    (offerKey f < offerKey g ↔ a.toNat < b.toNat)) ∧
  (∀ f g : Frame, f.id = g.id → f.kind = .data → g.kind = .remote → offerKey f < offerKey g)

/-- R15, R93, R94: the entry in offer has been sent. It leaves the queue, or its follow-on waits at its place; a reduced
content opens its record, after the one of its counter and, from a list still of four, the oldest have gone; the port offers
again. R155: where it was the awaited part of a response, the next part joins the end of the queue and is awaited, or the
response in progress is over; nothing else changes. The mark of an awaited part is the model's own (log 13), and so is the
time of the report (log 3). -/
def Obligations.TransmitCompleteSendsTheEntryInOffer : Prop :=
  (∀ (p : Port) (t : Millis) (s : State) (pre post : List Entry) (e : Entry),
     s.queue p = pre ++ e :: post → e.offered = true → (∀ x ∈ pre, x.offered = false) → e.content.awaitedPart = false →
     let s1 := match e.content.reduced with
       | none => s
       | some ft =>
         let l := s.ack.records.filter fun (r : AckRecord) => r.counter != ft.counter
         let r : AckRecord := ⟨ft.counter, ft.torque, t + param s.banks.active .ackTimeoutMs⟩
         { s with ack := { s.ack with records := (if 4 ≤ l.length then l.drop 1 else l) ++ [r] } }
     exec (.transmitComplete p t) s = .next (s1.setQueue p (offer (match e.followOn with
       | none => pre ++ post
       | some c => pre ++ { e with content := c, attempts := 0, offered := false, followOn := none } :: post)))) ∧
  (∀ (t : Millis) (s : State) (pre post : List Entry) (e : Entry) (x : ResponseInProgress),
     QueuesLegal s → s.upstream = pre ++ e :: post → e.offered = true → e.content.awaitedPart = true →
     s.mgmt.response = some x →
     (x.remaining = [] → exec (.transmitComplete .upstream t) s =
       .next { s with upstream := offer (pre ++ post), mgmt := { s.mgmt with response := none } }) ∧
     ∀ part rest, x.remaining = part :: rest →
       let c : Content := { frame := partFrame s part, reduced := none, awaitedPart := true }
       exec (.transmitComplete .upstream t) s = .next { s with
         upstream := offer (pre ++ post ++
           [{ content := c, origin := .part, coalesce := true, attempts := 0, offered := false, followOn := none }]),
         mgmt := { s.mgmt with response := some { awaited := x.awaited + 1, remaining := rest } } })

/-- R16: the attempt to send the entry in offer has failed. Its follow-on takes its place; below eight errors it waits again;
at the eighth it leaves the queue with TX_ABANDONED, and with it a response whose awaited part it was (R155). R17: a report
that finds no entry in offer, or for a frame that is no longer the one in offer, changes nothing. That a stale report changes
nothing whatever is in offer is the model's reading (log 12). -/
def Obligations.TransmitErrorRetriesOrAbandons : Prop :=
  (∀ (p : Port) (s : State) (pre post : List Entry) (e : Entry),
     s.queue p = pre ++ e :: post → e.offered = true → (∀ x ∈ pre, x.offered = false) →
     (∀ c, e.followOn = some c → exec (.transmitError p) s = .next (s.setQueue p (offer
       (pre ++ { e with content := c, attempts := 0, offered := false, followOn := none } :: post)))) ∧
     (e.followOn = none → e.attempts + 1 < 8 → exec (.transmitError p) s = .next (s.setQueue p (offer
       (pre ++ { e with attempts := e.attempts + 1, offered := false } :: post)))) ∧
     (e.followOn = none → 8 ≤ e.attempts + 1 → exec (.transmitError p) s = .next (State.offerAt
       (raiseCondition .txAbandoned
         (if e.content.awaitedPart then { s.setQueue p (pre ++ post) with mgmt := { s.mgmt with response := none } }
          else s.setQueue p (pre ++ post))) p))) ∧
  (∀ (p : Port) (r : TxReport) (t : Millis) (s : State),
     exec (.staleTransmitReport p r) s = .next s ∧
     ((∀ e ∈ s.queue p, e.offered = false) →
       exec (.transmitComplete p t) s = .next s ∧ exec (.transmitError p) s = .next s))

/-- R2, R151: a management request joins the end of the request queue unforwarded, or is dropped with REQUEST_DROP when the
queue holds four. -/
def Obligations.RequestsJoinTheirQueue : Prop :=
  ∀ (d : List Byte) (dlc : BitVec 4) (t : Millis) (s : State),
    s.phase = .running → d.length = min dlc.toNat 8 →
    let f : RxFrame := { id := .std (BitVec.ofNat 11 (0x6C0 + s.mgmt.node.toNat)), kind := .data, dlc := dlc, data := d }
    (s.mgmt.requests.length < 4 → exec (.frameReceive .upstream f t) s =
      .next { s with mgmt := { s.mgmt with requests := s.mgmt.requests ++ [d] } }) ∧
    (4 ≤ s.mgmt.requests.length → exec (.frameReceive .upstream f t) s = .next (raiseCondition .requestDrop s))

/-! ### Conditions (09) -/

/-- R160, R161, R18: raising a condition already in the set changes nothing; otherwise it enters the set, without a notice
while its notice is not enabled; with it enabled its notice, carrying its code and the set, is placed in the upstream queue
as every PART frame is, and nothing else is done: so an upstream queue with a place free gives up no entry for it. The
actuator queue stays; nothing but the upstream queue, the set and a response whose awaited part is lost can change. -/
def Obligations.RaisingEntersTheSetOnce : Prop :=
  ∀ (c : Condition) (s : State),
    (s.mgmt.conditions.getLsbD c.code = true → raiseCondition c s = s) ∧
    (s.mgmt.conditions.getLsbD c.code = false →
      let set := s.mgmt.conditions ||| (1#15 <<< c.code)
      let entered := { s with mgmt := { s.mgmt with conditions := set } }
      let notice := plainContent (dataFrame (BitVec.ofNat 11 (0x6C8 + s.mgmt.node.toNat))
        (withCheck (BitVec.ofNat 8 c.code :: wordBytes (set.setWidth 16))))
      (s.mgmt.enabled.getLsbD c.code = false → raiseCondition c s = entered) ∧
      (s.mgmt.enabled.getLsbD c.code = true → raiseCondition c s = place .upstream notice .part true entered) ∧
      (s.mgmt.enabled.getLsbD c.code = true → s.upstream.length < 16 →
        ∃ q, raiseCondition c s = { s with upstream := q, mgmt := { s.mgmt with conditions := set } } ∧
          holds q notice)) ∧
    OnlySent s (raiseCondition c s) ∧ (raiseCondition c s).actuator = s.actuator ∧
    (raiseCondition c s).mgmt.conditions.getLsbD c.code = true

/-! ### Sensor records and lean source (02) -/

/-- R24: the lean and pitch in use by lean source. R71, R72: in START and PASSIVE a refresh writes lean, index, column, the
four limits and K from the present lean; in the other states nothing is done. -/
def Obligations.RefreshWritesOnlyTheLookup : Prop :=
  (∀ s : State,
     s.leanUsed = (match s.sensors.source with
       | .live | .held => s.sensors.imuLean
       | .lost | .recovering => (param s.banks.active .assumedLean : Int)) ∧
     s.pitchUsed = (match s.sensors.source with
       | .live | .held => s.sensors.imuPitch
       | .lost | .recovering => 0) ∧
     (RecordsInRange s.sensors → s.leanUsed.natAbs ≤ 640)) ∧
  (∀ s : State,
     let a := s.leanUsed.natAbs
     let g := gripLookup s.banks.active s.ctl.mode s.ctl.load a
     ((s.ctl.state = .start ∨ s.ctl.state = .passive) → lookupRefresh s = { s with eval := { s.eval with record :=
       { s.eval.record with lean := s.leanUsed, a := a, column := g.column, slipTarget := g.slipTarget,
                            torqueLimit := g.torqueLimit, brakeFront := g.brakeFront, brakeRear := g.brakeRear,
                            ceiling := g.torqueLimit - s.eval.record.cut } } }) ∧
     ((s.ctl.state = .active ∨ s.ctl.state = .roller ∨ s.ctl.state = .limp) → lookupRefresh s = s))

/-- R21 to R23, R25, R29: a valid IMU frame. The record takes the saturated lean and pitch, the lean source moves and its
timers start as R25's table says, and the lookup is refreshed. R26: an invalid one, with a right check or without, is
forwarded all the same, takes the run of recovery back to 0 in RECOVERING, and changes nothing else but the last counter of a
frame whose check is right. That the frame goes on before the unit acts is the model's reading (log 9). -/
def Obligations.ImuFramesMoveTheLeanSource : Prop :=
  (∀ (p : Port) (f : RxFrame) (t : Millis) (s : State) (k : Bool),
     Classified s p f ⟨.imu, k⟩ → checkRight 6 f.data = true → (byteAt f.data 4).getLsbD 7 = true →
     s.sensors.lastCounters.imu ≠ some (counterAt f.data 4) → (signedAt f.data 0).natAbs ≤ 900 →
     let x := s.sensors
     let hold := t + param s.banks.active .imuHoldMs
     let lost := t + param s.banks.active .imuLostMs
     let y := { x with imuLean := max (-640) (min 640 (signedAt f.data 0)),
                       imuPitch := max (-900) (min 900 (signedAt f.data 2)),
                       holdTimer := some hold,
                       lastCounters := { x.lastCounters with imu := some (counterAt f.data 4) } }
     exec (.frameReceive p f t) s = .next (lookupRefresh
       { (place p.other (plainContent (takenFrame f)) .plain k s) with
         sensors := match x.source with
           | .live => { y with lostTimer := some lost }
           | .held => { y with source := .live, lostTimer := some lost }
           | .lost => { y with source := .recovering, recoveryCount := 1 }
           | .recovering => if x.recoveryCount < 3 then { y with recoveryCount := x.recoveryCount + 1 }
               else { y with source := .live, recoveryCount := 0, lostTimer := some lost } })) ∧
  (∀ (p : Port) (f : RxFrame) (t : Millis) (s : State) (k : Bool),
     Classified s p f ⟨.imu, k⟩ →
     (checkRight 6 f.data = false ∨ (byteAt f.data 4).getLsbD 7 = false ∨
       s.sensors.lastCounters.imu = some (counterAt f.data 4) ∨ 900 < (signedAt f.data 0).natAbs) →
     exec (.frameReceive p f t) s = .next
       { (place p.other (plainContent (takenFrame f)) .plain k s) with
         sensors := { s.sensors with
           recoveryCount := if s.sensors.source = .recovering then 0 else s.sensors.recoveryCount,
           lastCounters := if checkRight 6 f.data then
               { s.sensors.lastCounters with imu := some (counterAt f.data 4) }
             else s.sensors.lastCounters } })

/-- R31, R32, R39, R40, R41, R104: a valid wheel frame. It replaces the wheel record, starts the wheel timer, makes the wheel
liveness running, and begins a pass, or waits as the one waiting request while a pass is in flight. An invalid one starts no
pass and leaves record and timer; it is forwarded all the same (R21, R31). That the frame goes on before the unit acts is the
model's reading (log 9). -/
def Obligations.WheelFramesAskForAPass : Prop :=
  (∀ (p : Port) (f : RxFrame) (t : Millis) (s : State) (k : Bool),
     Classified s p f ⟨.wheel, k⟩ → checkRight 6 f.data = true →
     s.sensors.lastCounters.wheel ≠ some (counterAt f.data 4) →
     (byteAt f.data 4).getLsbD 7 = true → (byteAt f.data 4).getLsbD 6 = true →
     unsignedAt f.data 0 ≠ 65535 → unsignedAt f.data 2 ≠ 65535 →
     let inputs : PassInputs :=
       { vf := min (unsignedAt f.data 0) 65000, vr := min (unsignedAt f.data 2) 65000, lean := s.leanUsed,
         pitch := s.pitchUsed, dFront := s.sensors.brakeFront, dRear := s.sensors.brakeRear,
         q := s.sensors.torqueRequest }
     let pass : Pass :=
       { inputs := inputs, ctl := s.ctl.state, mode := s.ctl.mode, load := s.ctl.load, vref := s.eval.vref,
         cut := s.eval.cut, relief := s.eval.relief, marker := s.eval.marker }
     exec (.frameReceive p f t) s = .next
       { (place p.other (plainContent (takenFrame f)) .plain k s) with
         sensors := { s.sensors with vf := inputs.vf, vr := inputs.vr,
                                     wheelTimer := some (t + param s.banks.active .wheelTimeoutMs),
                                     lastCounters := { s.sensors.lastCounters with wheel := some (counterAt f.data 4) } },
         ctl := { s.ctl with liveness := .running },
         eval := match s.eval.inFlight with
           | none => { s.eval with inFlight := some pass }
           | some _ => { s.eval with waiting := some inputs } }) ∧
  (∀ (p : Port) (f : RxFrame) (t : Millis) (s : State) (k : Bool),
     Classified s p f ⟨.wheel, k⟩ →
     (checkRight 6 f.data = false ∨ s.sensors.lastCounters.wheel = some (counterAt f.data 4) ∨
       (byteAt f.data 4).getLsbD 7 = false ∨ (byteAt f.data 4).getLsbD 6 = false ∨
       unsignedAt f.data 0 = 65535 ∨ unsignedAt f.data 2 = 65535) →
     exec (.frameReceive p f t) s = .next
       { (place p.other (plainContent (takenFrame f)) .plain k s) with
         sensors := { s.sensors with lastCounters := if checkRight 6 f.data then
             { s.sensors.lastCounters with wheel := some (counterAt f.data 4) } else s.sensors.lastCounters } })

/-- R21, R37, R113: a valid ride-mode or load-state frame with a value of 0 to 3 sets the pending value; a value above 3 or a
counter repeat hands nothing on, and a bad check leaves even the last counter. That the frame goes on before the unit acts is
the model's reading (log 9). -/
def Obligations.RideModeAndLoadArePending : Prop :=
  ∀ (p : Port) (f : RxFrame) (t : Millis) (s : State) (k : Bool),
    let c := counterAt f.data 1
    let sent := place p.other (plainContent (takenFrame f)) .plain k s
    (Classified s p f ⟨.rideMode, k⟩ → exec (.frameReceive p f t) s = .next
      (if checkRight 3 f.data then
        { sent with
          sensors := { s.sensors with lastCounters := { s.sensors.lastCounters with rideMode := some c } },
          ctl := if s.sensors.lastCounters.rideMode = some c then s.ctl
            else { s.ctl with pendingMode := match (byteAt f.data 0).toNat with
              | 0 => some .rain | 1 => some .road | 2 => some .tour | 3 => some .dynamic | _ => s.ctl.pendingMode } }
       else sent)) ∧
    (Classified s p f ⟨.loadState, k⟩ → exec (.frameReceive p f t) s = .next
      (if checkRight 3 f.data then
        { sent with
          sensors := { s.sensors with lastCounters := { s.sensors.lastCounters with loadState := some c } },
          ctl := if s.sensors.lastCounters.loadState = some c then s.ctl
            else { s.ctl with pendingLoad := match (byteAt f.data 0).toNat with
              | 0 => some .solo | 1 => some .soloLuggage | 2 => some .pair | 3 => some .pairLuggage
              | _ => s.ctl.pendingLoad } }
       else sent))

/-- R27, R28, R29: the lean timers expire, at or after their deadlines and not before. R35: the brake timer expires; both
demands read zero and the timer stops. That nothing is taken before a deadline is the model's choice (log 1, log 3). -/
def Obligations.SensorTimersExpire : Prop :=
  (∀ (t d : Millis) (s : State),
     let gone := { s.sensors with source := .lost, recoveryCount := 0, holdTimer := none, lostTimer := none }
     (s.sensors.holdTimer = some d → d ≤ t →
       (s.sensors.source = .live → exec (.holdTimerExpiry t) s =
         .next (lookupRefresh { s with sensors := { s.sensors with source := .held, holdTimer := none } })) ∧
       (s.sensors.source = .recovering → exec (.holdTimerExpiry t) s =
         .next (raiseCondition .imuLost (lookupRefresh { s with sensors := gone })))) ∧
     (s.sensors.lostTimer = some d → d ≤ t → (s.sensors.source = .live ∨ s.sensors.source = .held) →
       exec (.lostTimerExpiry t) s = .next (raiseCondition .imuLost (lookupRefresh { s with sensors := gone }))) ∧
     ((s.sensors.holdTimer = none ∨ s.sensors.holdTimer = some d ∧ t < d) → exec (.holdTimerExpiry t) s = .next s) ∧
     ((s.sensors.lostTimer = none ∨ s.sensors.lostTimer = some d ∧ t < d) → exec (.lostTimerExpiry t) s = .next s)) ∧
  (∀ (t d : Millis) (s : State), s.sensors.brakeTimer = some d →
     (d ≤ t → exec (.brakeTimerExpiry t) s =
       .next { s with sensors := { s.sensors with brakeFront := 0, brakeRear := 0, brakeTimer := none } }) ∧
     (t < d → exec (.brakeTimerExpiry t) s = .next s))

/-! ### The evaluation pass (03, 04) -/

/-- R80, R81: the cut grows in ACTIVE at or above control speed on a slip or lift excess, rounded up and at most 400, and
recovers at every other pass. R82, R83: the drag relief grows in ACTIVE at or above control speed on a closed throttle with
slip below −DRAG_SLIP, and recovers at every other pass; DRAG_MAX bounds both. -/
def Obligations.CutAndReliefGrowOrRecover : Prop :=
  (∀ (b : Bank) (ctl : CtlState) (below : Bool) (e p : Int) (cut : Nat), 0 ≤ p →
     (below = false ∧ ctl = .active ∧ (0 < e ∨ 0 < p) →
       (newCut b ctl below e p cut : Int) =
         min 400 ((cut : Int) + ((param b .cutGain : Int) * max e 0 + (param b .liftGain : Int) * p + 63) / 64) ∧
       (0 < e → cut < 400 → cut < newCut b ctl below e p cut) ∧ (cut ≤ 400 → cut ≤ newCut b ctl below e p cut)) ∧
     (below = true ∨ ctl ≠ .active ∨ (e ≤ 0 ∧ p ≤ 0) →
       (newCut b ctl below e p cut : Int) = max 0 ((cut : Int) - (param b .cutRecovery : Int)))) ∧
  (∀ (b : Bank) (ctl : CtlState) (below : Bool) (q slip : Int) (relief : Nat),
     let f := newRelief b ctl below q slip relief
     f ≤ param b .dragMax ∧
     (ctl = .active ∧ below = false ∧ q ≤ 0 ∧ slip < -(param b .dragSlip : Int) →
       (f : Int) = min (param b .dragMax : Int)
         ((relief : Int) + ((param b .dragGain : Int) * (-(param b .dragSlip : Int) - slip) + 63) / 64)) ∧
     (ctl ≠ .active ∨ below = true ∨ 0 < q ∨ -(param b .dragSlip : Int) ≤ slip →
       (f : Int) = min (param b .dragMax : Int) (max 0 ((relief : Int) - (param b .dragRecovery : Int)))))

/-- R42, R60, R64, R65: a parameter is read as stored within its permitted range and as its default outside it, so what is
read is always within the range; the 21 entries with their defaults and ranges. R70: an interpolation lies between its two
cells, ends included, on the lower row's side of the straight line, and is the lower row's value at fraction 0. R60, R68,
R69, R73, R74: what the grip lookup gives, plane by plane, VERIFIED or FAULTY: the column; and each limit from the cells of
its two rows, each used within the plane's range, at the fraction of the lean index. -/
def Obligations.ReadsOfTheActiveBankStayInRange : Prop :=
  (∀ (b : Bank) (p : Param),
     p.entry.low ≤ param b p ∧ param b p ≤ p.entry.high ∧
       (p.entry.low ≤ cellAt b.parameter.cells p.entry.index → cellAt b.parameter.cells p.entry.index ≤ p.entry.high →
         param b p = cellAt b.parameter.cells p.entry.index) ∧
       (cellAt b.parameter.cells p.entry.index < p.entry.low ∨ p.entry.high < cellAt b.parameter.cells p.entry.index →
         param b p = p.entry.default)) ∧
  (([.ctrlMinSpeed, .stationarySpeed, .refFallLimit, .cutGain, .cutRecovery, .dragSlip, .dragGain, .dragRecovery, .dragMax,
      .liftPitch, .liftGain, .imuHoldMs, .imuLostMs, .wheelTimeoutMs, .swapLean, .assumedLean, .ackTimeoutMs,
      .ackTolerance, .ackMissLimit, .rollerExitSpeed, .statusPeriodMs] : List Param).map Param.entry =
    [⟨0, 500, 100, 3000⟩, ⟨1, 300, 50, 1000⟩, ⟨2, 40, 1, 200⟩, ⟨3, 24, 1, 255⟩, ⟨4, 3, 1, 50⟩, ⟨5, 80, 10, 500⟩,
     ⟨6, 16, 1, 255⟩, ⟨7, 2, 1, 50⟩, ⟨8, 60, 0, 150⟩, ⟨9, 80, 20, 300⟩, ⟨10, 32, 0, 255⟩, ⟨11, 30, 10, 500⟩,
     ⟨12, 100, 20, 1000⟩, ⟨13, 40, 10, 500⟩, ⟨14, 50, 0, 200⟩, ⟨15, 450, 0, 640⟩, ⟨16, 30, 5, 200⟩, ⟨17, 5, 0, 50⟩,
     ⟨18, 3, 1, 15⟩, ⟨19, 1000, 300, 3000⟩, ⟨20, 100, 20, 1000⟩]) ∧
  (∀ lo hi f n : Nat, f < n →
     (interpolate lo hi f n : Int) = (lo : Int) + (((hi : Int) - (lo : Int)) * (f : Int)).tdiv (n : Int) ∧
     min lo hi ≤ interpolate lo hi f n ∧ interpolate lo hi f n ≤ max lo hi ∧
     (f = 0 → interpolate lo hi f n = lo) ∧
     (hi ≤ lo → lo * n - (lo - hi) * f ≤ interpolate lo hi f n * n) ∧
     (lo ≤ hi → interpolate lo hi f n * n ≤ lo * n + (hi - lo) * f)) ∧
  (∀ (b : Bank) (m : RideMode) (l : LoadState) (a : Nat),
     let g := gripLookup b m l a
     let chosen := cellAt b.columnSelect.cells (m.code * 4 + l.code)
     let cell := fun (pl : Plane) (top r : Nat) => min top (cellAt pl.cells (r * 16 + g.column))
     let limit := fun (pl : Plane) (top : Nat) =>
       if a % 40 = 0 then cell pl top (a / 40)
       else interpolate (cell pl top (a / 40)) (cell pl top (a / 40 + 1)) (a % 40) 40
     g.column ≤ 15 ∧ g.slipTarget ≤ 400 ∧ g.torqueLimit ≤ 400 ∧ g.brakeFront ≤ 2000 ∧ g.brakeRear ≤ 2000 ∧
       (b.columnSelect.isFaulty = true → g.column = 0) ∧
       (b.columnSelect.isFaulty = false → g.column = if chosen ≤ 15 then chosen else 0) ∧
       (b.slipTarget.isFaulty = true → g.slipTarget = 0) ∧ (b.torqueCeiling.isFaulty = true → g.torqueLimit = 80) ∧
       (b.brakeFront.isFaulty = true → g.brakeFront = 2000) ∧ (b.brakeRear.isFaulty = true → g.brakeRear = 2000) ∧
       (b.slipTarget.isFaulty = false → g.slipTarget = limit b.slipTarget 400) ∧
       (b.torqueCeiling.isFaulty = false → g.torqueLimit = limit b.torqueCeiling 400) ∧
       (b.brakeFront.isFaulty = false → g.brakeFront = limit b.brakeFront 2000) ∧
       (b.brakeRear.isFaulty = false → g.brakeRear = limit b.brakeRear 2000) ∧
       (∀ r, a = 40 * r → b.torqueCeiling.isFaulty = false → cellAt b.torqueCeiling.cells (r * 16 + g.column) ≤ 400 →
         g.torqueLimit = cellAt b.torqueCeiling.cells (r * 16 + g.column)))

/-- R40, R52 to R54: the completion of a pass. The record is replaced whole by the pass, worked from its own inputs under the
bank, with C and F written as 0 in ROLLER; the running state follows it, the count rises and the marker is cleared; then the
control state unit, the map banks and the scrub unit take the completion once each, and a waiting request begins its own pass
in the state they have left. While no activation is pending, what of this the rest of the part sees. The order of the blocks
is an operand (log 6), what a pass reads is the model's reading (log 10), and a completion without a pass in flight, which
changes nothing, is the model's choice (log 1). -/
def Obligations.PassCompletionReplacesTheRecord : Prop :=
  (∀ (o : TakeOrder) (s : State) (p : Pass), s.eval.inFlight = some p →
    let n := if s.eval.passCount ≥ 65535 then 1 else s.eval.passCount + 1
    let r := passRecord s.banks.active p n (s.ctl.state == .roller)
    let recorded := { s with eval := { s.eval with
      inFlight := none, vref := r.vref, cut := r.cut, relief := r.relief, marker := false, passCount := n, record := r } }
    let u := o.blocks.foldl (fun v block => match block with
      | .controlStateUnit => controlTakes p.inputs.q v
      | .mapBanks => banksTake v
      | .scrubUnit => scrubTakes v) recorded
    exec (.passCompletion o) s = .next (match s.eval.waiting with
      | none => u
      | some i => { u with eval := { u.eval with
          waiting := none,
          inFlight := some { inputs := i, ctl := u.ctl.state, mode := u.ctl.mode, load := u.ctl.load, vref := u.eval.vref,
                             cut := u.eval.cut, relief := u.eval.relief, marker := u.eval.marker } } })) ∧
  (∀ o : TakeOrder, o.blocks.Perm [.controlStateUnit, .mapBanks, .scrubUnit]) ∧
  (∀ (o : TakeOrder) (s : State), s.eval.inFlight = none → exec (.passCompletion o) s = .next s) ∧
  ∀ (o : TakeOrder) (s : State) (p : Pass), s.eval.inFlight = some p → s.banks.activationPending = false →
    let n := if s.eval.passCount ≥ 65535 then 1 else s.eval.passCount + 1
    let r := passRecord s.banks.active p n (s.ctl.state == .roller)
    ∃ t, exec (.passCompletion o) s = .next t ∧
      t.eval = { inFlight := s.eval.waiting.map fun i =>
                   { inputs := i, ctl := t.ctl.state, mode := t.ctl.mode, load := t.ctl.load, vref := r.vref, cut := r.cut,
                     relief := r.relief, marker := false },
                 waiting := none, vref := r.vref, cut := r.cut, relief := r.relief, marker := false, passCount := n,
                 record := r } ∧
      (s.ctl.state = .roller → r.cut = 0 ∧ r.relief = 0 ∧ r.ceiling = r.torqueLimit) ∧
      (s.ctl.state = .start ∨ s.ctl.state = .passive → t.ctl.state = .active ∨ t.ctl.state = .limp) ∧
      t.phase = s.phase ∧ t.sensors = s.sensors ∧ t.ack = s.ack ∧ t.store = s.store ∧
      t.banks.staging = s.banks.staging ∧ t.banks.window = s.banks.window ∧ t.banks.activationPending = false ∧
      t.ctl.liveness = s.ctl.liveness ∧ t.ctl.statusTimer = s.ctl.statusTimer ∧
      t.mgmt.requests = s.mgmt.requests ∧ t.mgmt.enabled = s.mgmt.enabled ∧ t.mgmt.causes = s.mgmt.causes

/-- R43 to R53: the fields of a pass's record, stage by stage. R44, R45: the corrected speed is the rounded product, never
above the speed it corrects, and the speed itself while RADIUS is FAULTY; its multiplier comes from the cells of two rows of
RADIUS at the fraction of the lean index, each used within the plane's range (R60, R62). R46, R47, R48: the reference speed.
R50: rear slip, truncated toward zero, at most +2000, at least −1000, and −1000 exactly when the rear stands. -/
def Obligations.PassWorksItsStages : Prop :=
  (∀ (b : Bank) (p : Pass) (n : Nat) (roller : Bool),
     let r := passRecord b p n roller
     let g := gripLookup b p.mode p.load p.inputs.lean.natAbs
     r.passNo = n ∧ r.lean = p.inputs.lean ∧ r.a = p.inputs.lean.natAbs ∧
       r.vfc = (p.inputs.vf * radiusMultiplier b r.a 0 + 2048) / 4096 ∧
       r.vrc = (p.inputs.vr * radiusMultiplier b r.a 1 + 2048) / 4096 ∧
       r.vref = referenceSpeed p.marker (speedCandidate p.inputs r.vfc r.vrc) p.vref (param b .refFallLimit) ∧
       (r.vref < param b .ctrlMinSpeed → r.belowControlSpeed = true ∧ r.slip = 0) ∧
       (param b .ctrlMinSpeed ≤ r.vref → r.belowControlSpeed = false ∧ r.slip = rearSlip r.vrc r.vref) ∧
       r.column = g.column ∧ r.slipTarget = g.slipTarget ∧ r.torqueLimit = g.torqueLimit ∧ r.brakeFront = g.brakeFront ∧
       r.brakeRear = g.brakeRear ∧
       (roller = true → r.cut = 0 ∧ r.relief = 0) ∧
       (roller = false →
         r.cut = newCut b p.ctl r.belowControlSpeed (r.slip - (r.slipTarget : Int))
           (max 0 (p.inputs.pitch - (param b .liftPitch : Int))) p.cut ∧
         r.relief = newRelief b p.ctl r.belowControlSpeed p.inputs.q r.slip p.relief) ∧
       (r.ceiling : Int) = max 0 ((r.torqueLimit : Int) - (r.cut : Int))) ∧
  ((∀ (b : Bank) (a w v : Nat),
      let m := radiusMultiplier b a w
      let cell := fun r => max 3600 (min 4096 (cellAt b.radius.cells (2 * r + w)))
      (b.radius.isFaulty = true → m = 4096) ∧
        (b.radius.isFaulty = false → m = if a % 20 = 0 then cell (a / 20)
          else interpolate (cell (a / 20)) (cell (a / 20 + 1)) (a % 20) 20) ∧
        3600 ≤ m ∧ m ≤ 4096 ∧ correctedSpeed v m = (v * m + 2048) / 4096 ∧ correctedSpeed v m ≤ v ∧
        4096 * correctedSpeed v m ≤ v * m + 2048 ∧ v * m < 4096 * correctedSpeed v m + 2048 ∧
        (b.radius.isFaulty = true → correctedSpeed v m = v)) ∧
   (∀ (i : PassInputs) (vfc vrc prev fall : Nat),
      let candidate := speedCandidate i vfc vrc
      let v := referenceSpeed false candidate prev fall
      (0 < i.dFront ∨ 0 < i.dRear → candidate = max vfc vrc) ∧ (i.dFront = 0 ∧ i.dRear = 0 → candidate = vfc) ∧
        referenceSpeed true candidate prev fall = candidate ∧
        (prev ≤ candidate → v = candidate) ∧
        (candidate < prev → (v : Int) = max (candidate : Int) ((prev : Int) - (fall : Int))) ∧
        candidate ≤ v ∧ v ≤ max candidate prev ∧ prev ≤ v + fall) ∧
   (∀ vrc vref : Nat, 0 < vref →
      rearSlip vrc vref = min 2000 ((((vrc : Int) - vref) * 1000).tdiv vref) ∧
        -1000 ≤ rearSlip vrc vref ∧ rearSlip vrc vref ≤ 2000 ∧ (rearSlip vrc vref = -1000 ↔ vrc = 0) ∧
        ((((vrc : Int) - vref) * 1000).natAbs < vref → rearSlip vrc vref = 0) ∧ (vrc ≤ vref → rearSlip vrc vref ≤ 0)))

/-- R106, R110, R111, R114: what the control state unit does at a completion, in each state. -/
def Obligations.ControlUnitTakesACompletion : Prop :=
  ∀ (q : Int) (s : State),
    let applied := fun (u : State) => if q ≤ 0 ∨ s.stationary = true then
        { u with ctl := { u.ctl with mode := s.ctl.pendingMode.getD s.ctl.mode, load := s.ctl.pendingLoad.getD s.ctl.load,
                                     pendingMode := none, pendingLoad := none } }
      else u
    ((s.ctl.state = .start ∨ s.ctl.state = .passive) →
      controlTakes q s = applied { s with ctl := { s.ctl with state := .active } }) ∧
    ((s.ctl.state = .active ∨ s.ctl.state = .limp) → controlTakes q s = applied s) ∧
    (s.ctl.state = .roller → s.eval.record.vfc ≤ param s.banks.active .rollerExitSpeed →
      controlTakes q s = applied s) ∧
    (s.ctl.state = .roller → param s.banks.active .rollerExitSpeed < s.eval.record.vfc →
      controlTakes q s = applied (raiseCondition .rollerExit { s with ctl := { s.ctl with state := .active } }))

/-- R112, R136 to R139, R147: what the map banks do at a completion. Only at the swap point, with an activation pending, no
store in progress and all eight staging planes VERIFIED, the banks change roles whole, with every effect the manual lists. -/
def Obligations.BanksExchangeAtTheSwapPoint : Prop :=
  ∀ s : State,
    let r := s.eval.record
    let upright := r.lean.natAbs ≤ param s.banks.active .swapLean ∧ r.cut = 0 ∧ r.relief = 0
    let due := s.banks.activationPending = true ∧ s.store.state = .idle ∧ allVerified s.banks.staging = true ∧
      (upright ∨ s.stationary = true)
    let f := min s.eval.relief (param s.banks.staging .dragMax)
    (¬ due → banksTake s = s) ∧
    (due → banksTake s = raiseCondition .swapDone { s with
      banks := { active := s.banks.staging,
                 staging := PerPlane.build fun p =>
                   if (s.banks.active.get p).isFaulty then { s.banks.active.get p with status := .loading }
                   else s.banks.active.get p,
                 activationPending := false, window := none },
      eval := { s.eval with relief := f,
                            record := { r with relief := min r.relief (param s.banks.staging .dragMax) } },
      scrub := { plane := .slipTarget, row := 0, sums := ⟨0, 0⟩ },
      ctl := { s.ctl with state := if s.ctl.state = .limp then .active else s.ctl.state } })

/-- R143 to R146: what the scrub does at a completion. With no VERIFIED plane in the bank it does nothing; from a scrub plane
that is not VERIFIED it goes over to row 0 of the next VERIFIED plane with its sums cleared, and the step goes on there. From
a VERIFIED one it adds one row to its sums; at the last row it compares, and corrects the one cell the difference gives away
or marks the plane FAULTY. -/
def Obligations.ScrubSumsOneRowAndCompares : Prop :=
  (∀ s : State, (∀ p, (s.banks.active.get p).isVerified = false) → scrubTakes s = s) ∧
  (∀ (s : State) (k : Nat) (p : PlaneId),
    let n := s.scrub.plane.number
    (s.banks.active.get s.scrub.plane).isVerified = false → k < 8 → p.number = (n + k) % 8 →
    (s.banks.active.get p).isVerified = true →
    (∀ j q, j < k → q.number = (n + j) % 8 → (s.banks.active.get q).isVerified = false) →
    scrubTakes s = scrubTakes { s with scrub := { plane := p, row := 0, sums := ⟨0, 0⟩ } }) ∧
  ∀ (s : State) (c : CheckPair),
    let x := s.scrub
    let pl := s.banks.active.get x.plane
    let sums := addCells x.sums (x.row * x.plane.cols) ((pl.cells.drop (x.row * x.plane.cols)).take x.plane.cols)
    let moved := { s with scrub := { plane := x.plane.next, row := 0, sums := ⟨0, 0⟩ } }
    pl.status = .verified c →
    (x.row + 1 < x.plane.rows → scrubTakes s = { s with scrub := { x with row := x.row + 1, sums := sums } }) ∧
    (x.plane.rows ≤ x.row + 1 →
      (sums = c → scrubTakes s = moved) ∧
      (sums ≠ c →
        (∀ i, locate x.plane.size (sums.S - c.S) (sums.W - c.W) = some i →
          scrubTakes s = raiseCondition .scrubCorrected { moved with banks := { s.banks with
            active := s.banks.active.set x.plane
              { pl with cells := pl.cells.set i (pl.cells.getD i 0 - (sums.S - c.S)) } } }) ∧
        (locate x.plane.size (sums.S - c.S) (sums.W - c.W) = none →
          scrubTakes s = raiseCondition .planeFaulty { moved with
            banks := { s.banks with active := s.banks.active.set x.plane { pl with status := .faulty } },
            ctl := { s.ctl with state :=
              if x.plane = .slipTarget ∨ x.plane = .torqueCeiling ∨ x.plane = .parameter ∨ x.plane = .action then .limp
              else s.ctl.state } })))

/-- R54: without an activation pending, and with no cell changed since its plane was verified, the three blocks leave the
same state in whatever order they take a completion. The order is an operand (log 6). -/
def Obligations.TheThreeBlocksTakeNoOrder : Prop :=
  ∀ (o o' : TakeOrder) (s : State), TablesShaped s → PositionsLegal s → BanksIntact s →
    s.banks.activationPending = false → exec (.passCompletion o) s = exec (.passCompletion o') s

/-! ### Limiting and acknowledgements (05) -/

/-- R4, R86, R87, R90, R36, R21: a torque request with a right check. The forwarded value is that of R87's table; the frame
leaves untouched where it equals the field and rewritten with a new check byte where it does not; a reduced one carries its
value and counter; and the record takes the saturated request unless the counter repeats. R88: the forwarded torque lies
between the saturated request and 0, and is below the request only where the request is positive. That the frame goes on
before its record is taken is the model's reading (log 9). -/
def Obligations.TorqueRequestsAreLimited : Prop :=
  (∀ (p : Port) (f : RxFrame) (t : Millis) (s : State) (k : Bool) (b0 b1 b2 b3 : Byte),
     Classified s p f ⟨.torqueRequest, k⟩ → f.data = [b0, b1, b2, b3] → b3 = 255 - (b0 + b1 + b2) →
     let r := s.eval.record
     let field : Int := (b0 ++ b1 : BitVec 16).toInt
     let q := max (-200) (min 400 field)
     let out : Int := match s.ctl.state with
       | .active => if 0 < q then min q r.ceiling else min (q + r.relief) 0
       | .limp => if 0 < q then min q 80 else q
       | .start | .passive | .roller => if 0 < q then min q r.torqueLimit else q
     let w := BitVec.ofInt 16 out
     let h := w.extractLsb' 8 8
     let l := w.extractLsb' 0 8
     let c : Counter := b2.extractLsb' 0 4
     exec (.frameReceive p f t) s = .next
       { (place .actuator
           { frame := { takenFrame f with data := if out = field then f.data else [h, l, b2, 255 - (h + l + b2)] },
             reduced := if out < q then some { torque := out, counter := c } else none, awaitedPart := false }
           .controlled true s) with
         sensors := { s.sensors with
           torqueRequest := if s.sensors.lastCounters.torqueRequest = some c then s.sensors.torqueRequest else q,
           lastCounters := { s.sensors.lastCounters with torqueRequest := some c } } }) ∧
  (∀ (ctl : CtlState) (r : LimitRecord) (field : Int),
     let q := max (-200) (min 400 field)
     let out := limitedTorque ctl r q
     (0 < q → 0 ≤ out ∧ out ≤ q) ∧ (q ≤ 0 → q ≤ out ∧ out ≤ 0) ∧ (out < q → 0 < q ∧ 0 ≤ out ∧ out < 400))

/-- R4, R34, R86, R89, R90, R21: a brake demand with a right check. Each wheel's demand is saturated and limited while its
plane is VERIFIED and left as it arrived while it is FAULTY; the record takes the demands and its timer starts, unless the
counter repeats. That the frame goes on before its record is taken is the model's reading (log 9). -/
def Obligations.BrakeDemandsAreLimited : Prop :=
  ∀ (p : Port) (f : RxFrame) (t : Millis) (s : State) (k : Bool) (b0 b1 b2 b3 b4 b5 : Byte),
    Classified s p f ⟨.brakeDemand, k⟩ → f.data = [b0, b1, b2, b3, b4, b5] → b5 = 255 - (b0 + b1 + b2 + b3 + b4) →
    let r := s.eval.record
    let df := (b0 ++ b1 : BitVec 16).toNat
    let dr := (b2 ++ b3 : BitVec 16).toNat
    let out := fun (pl : Plane) (limit d : Nat) => if pl.isFaulty then d else min (min d 2000) limit
    let outF := out s.banks.active.brakeFront r.brakeFront df
    let outR := out s.banks.active.brakeRear r.brakeRear dr
    let wf := wordBytes (BitVec.ofNat 16 outF)
    let wr := wordBytes (BitVec.ofNat 16 outR)
    let c : Counter := b4.extractLsb' 0 4
    let fresh := { s.sensors with brakeFront := min df 2000, brakeRear := min dr 2000,
                                  brakeTimer := some (t + param s.banks.active .wheelTimeoutMs) }
    exec (.frameReceive p f t) s = .next
      { (place .actuator (plainContent { takenFrame f with data :=
          if outF = df ∧ outR = dr then f.data else withCheck (wf ++ wr ++ [b4]) }) .controlled true s) with
        sensors := { (if s.sensors.lastCounters.brakeDemand = some c then s.sensors else fresh) with
          lastCounters := { s.sensors.lastCounters with brakeDemand := some c } } }

/-- R4, R95, R96, R98: a torque acknowledgement. Without a right check or without a record of its counter it is only
forwarded; otherwise the record goes, and its torque plus ACK_TOLERANCE decides: satisfied clears the miss count and the
flag, an overrun raises ACK_OVERRUN and counts as a miss. R97, R99: at or after a record's deadline it goes and counts as a
miss; before it, or with no record of the counter, nothing is taken. What comes of an expiry that is not due, that the
frame goes on first, and that an overrun which reaches the limit raises ACK_OVERRUN before ACK_FAULT, are the model's (log
1, log 3, log 9, log 22). -/
def Obligations.AcknowledgementsGetTheirVerdict : Prop :=
  (∀ (p : Port) (f : RxFrame) (t : Millis) (s : State) (k : Bool),
     Classified s p f ⟨.torqueAck, k⟩ →
     let sent := place p.other (plainContent (takenFrame f)) .plain k s
     let c := counterAt f.data 2
     let applied := signedAt f.data 0
     let rest := s.ack.records.filter fun r => r.counter != c
     let n := min 15 (s.ack.missCount + 1)
     ((checkRight 4 f.data = false ∨ ∀ r ∈ s.ack.records, r.counter ≠ c) → exec (.frameReceive p f t) s = .next sent) ∧
     ∀ r, checkRight 4 f.data = true → (s.ack.records.find? fun r => r.counter == c) = some r →
       (applied ≤ r.torque + (param s.banks.active .ackTolerance : Int) → exec (.frameReceive p f t) s =
         .next { sent with ack := { records := rest, missCount := 0, fault := false } }) ∧
       (r.torque + (param s.banks.active .ackTolerance : Int) < applied → exec (.frameReceive p f t) s =
         .next (if param s.banks.active .ackMissLimit ≤ n then
             raiseCondition .ackFault
               { (raiseCondition .ackOverrun { sent with ack := { s.ack with records := rest } }) with
                 ack := { records := rest, missCount := n, fault := true } }
           else
             { (raiseCondition .ackOverrun { sent with ack := { s.ack with records := rest } }) with
               ack := { records := rest, missCount := n, fault := s.ack.fault } }))) ∧
  (∀ (c : Counter) (t : Millis) (s : State),
     let rest := s.ack.records.filter fun r => r.counter != c
     let n := min 15 (s.ack.missCount + 1)
     ((∀ r ∈ s.ack.records, r.counter = c → t < r.deadline) → exec (.ackDeadlineExpiry c t) s = .next s) ∧
     ∀ r, (s.ack.records.find? fun r => r.counter == c) = some r → r.deadline ≤ t →
       (n < param s.banks.active .ackMissLimit → exec (.ackDeadlineExpiry c t) s =
         .next { s with ack := { records := rest, missCount := n, fault := s.ack.fault } }) ∧
       (param s.banks.active .ackMissLimit ≤ n → exec (.ackDeadlineExpiry c t) s =
         .next (raiseCondition .ackFault { s with ack := { records := rest, missCount := n, fault := true } })))

/-! ### Control states (06) -/

/-- R33, R104, R107, R55: the wheel timer expires. Liveness becomes expired; START, ACTIVE and ROLLER go to PASSIVE with the
marker set, C and F 0 and K at T_l; LIMP stays; WHEEL_TIMEOUT is raised but from START. Before the deadline nothing is taken.
That nothing is taken before the deadline is the model's choice (log 1, log 3). -/
def Obligations.WheelTimeoutBringsPassive : Prop :=
  ∀ (t d : Millis) (s : State), s.sensors.wheelTimer = some d →
    let r := s.eval.record
    let stopped := { s with sensors := { s.sensors with wheelTimer := none },
                            ctl := { s.ctl with liveness := .expired } }
    let passive := { stopped with
      ctl := { s.ctl with liveness := .expired, state := .passive },
      eval := { s.eval with marker := true, cut := 0, relief := 0,
                            record := { r with cut := 0, relief := 0, ceiling := r.torqueLimit } } }
    (t < d → exec (.wheelTimeout t) s = .next s) ∧
    (d ≤ t →
      (s.ctl.state = .start → exec (.wheelTimeout t) s = .next passive) ∧
      ((s.ctl.state = .active ∨ s.ctl.state = .roller) →
        exec (.wheelTimeout t) s = .next (raiseCondition .wheelTimeout passive)) ∧
      (s.ctl.state = .limp → exec (.wheelTimeout t) s = .next (raiseCondition .wheelTimeout stopped)))

/-- R115, R116, R117: the status timer expires. The status frame carries the values of the moment, bit by bit as 11.4 lays
them out, and the timer starts again with STATUS_PERIOD_MS. The time it starts from is that of the expiry, and nothing is
taken before the deadline: the model's choices (log 1, log 3). -/
def Obligations.StatusFrameIsQueued : Prop :=
  ∀ (t d : Millis) (s : State), s.ctl.statusTimer = some d →
    let r := s.eval.record
    let bit := fun (b : Bool) (n : Nat) => if b then 1#8 <<< n else 0
    let lost := s.sensors.source == .lost || s.sensors.source == .recovering
    let data : List Byte :=
      [BitVec.ofNat 8 (s.ctl.state.code + 16 * s.sensors.source.code),
       bit (decide (0 < r.cut ∨ 0 < r.relief)) 0
         ||| bit (s.ctl.state == .limp || lost || s.ack.fault || allPlanes.any fun p => (s.banks.active.get p).status == .faulty) 1
         ||| bit (s.ctl.state == .roller) 2 ||| bit s.ctl.pendingMode.isSome 4 ||| bit s.ctl.pendingLoad.isSome 5,
       (BitVec.ofNat 16 r.cut).extractLsb' 8 8, (BitVec.ofNat 16 r.cut).extractLsb' 0 8,
       BitVec.ofNat 8 r.relief, BitVec.ofNat 8 r.column, BitVec.ofInt 8 (s.leanUsed.tdiv 10)]
    let frame := dataFrame (BitVec.ofNat 11 (0x6CC + s.mgmt.node.toNat)) (withCheck data)
    let sent := place .upstream (plainContent frame) .part true s
    (d ≤ t → exec (.statusTimerExpiry t) s =
      .next { sent with ctl := { s.ctl with statusTimer := some (t + param s.banks.active .statusPeriodMs) } }) ∧
    (t < d → exec (.statusTimerExpiry t) s = .next s)

/-- R108, R105, R120, R153, R154: Enter Roller. R109: Leave Roller. -/
def Obligations.RollerIsEnteredAtStandstillOnly : Prop :=
  (∀ (s : State) (seq : Byte) (rest : List Request), Ready s ([0x07, seq] :: rest) → QueuesLegal s →
     ∃ t, exec .enterRoller s = .next t ∧
       (match s.ctl.state with
        | .active | .passive =>
          if s.ctl.liveness = .running ∧ s.eval.record.passNo ≠ 0 ∧
              s.eval.record.vref < param s.banks.active .stationarySpeed then
            Answered { taken s rest with ctl := { s.ctl with state := .roller } } t 0x07 seq .ok []
          else Answered (taken s rest) t 0x07 seq .notStationary []
        | .roller => Answered (taken s rest) t 0x07 seq .ok []
        | .start => Answered (taken s rest) t 0x07 seq .notStationary []
        | .limp => Answered (taken s rest) t 0x07 seq .notReady [])) ∧
  (∀ (s : State) (seq : Byte) (rest : List Request), Ready s ([0x08, seq] :: rest) → QueuesLegal s →
     ∃ t, exec .leaveRoller s = .next t ∧
       Answered { taken s rest with ctl := { s.ctl with
         state := if s.ctl.state = .roller then .active else s.ctl.state } } t 0x08 seq .ok [])

/-! ### Staging, load runs and activation (07) -/

/-- R120, R171: while a store is in progress or, without one, an activation is pending, the requests that write or address
staging are answered BUSY_STORE or PENDING_ACTIVATION, and nothing but an open run's end comes of them. -/
def Obligations.StagingIsGuarded : Prop :=
  ∀ (s : State) (c : Instr) (r : Request) (rest : List Request) (res : Result),
    Ready s (r :: rest) → QueuesLegal s →
    (s.storeBusy = true ∧ res = .busyStore ∨
      s.storeBusy = false ∧ s.banks.activationPending = true ∧ res = .pendingActivation) →
    ((c = .openWindow ∧ byteAt r 0 = 0x10 ∧ r.length = 8 ∧ (byteAt r 2).extractLsb' 0 2 = 0) ∨
      (c = .loadData ∧ byteAt r 0 = 0x11 ∧ 2 ≤ r.length) ∨
      (c = .resumeWindow ∧ byteAt r 0 = 0x12 ∧ r.length = 2 ∧ ∃ w, s.banks.window = some w ∧ w.bank = .staging) ∨
      (c = .fillWindow ∧ byteAt r 0 = 0x14 ∧ r.length = 4 ∧ ∃ w, s.banks.window = some w ∧ w.bank = .staging) ∨
      (c = .commitPlane ∧ byteAt r 0 = 0x15 ∧ r.length = 7) ∨
      (c = .stageCopy ∧ byteAt r 0 = 0x16 ∧ r.length = 2) ∨
      (c = .loadImage ∧ byteAt r 0 = 0x21 ∧ r.length = 3)) →
    ∃ t, exec c s = .next t ∧ Answered (taken s rest) t (byteAt r 0) (byteAt r 1) res []

/-- R120 to R122: Open Window. A bank field of 2 or 3 is BAD_ARGUMENT, during a store or a pending activation too. The last
row and column are taken within the plane; a window that is empty then, a bad field or a LOAD window on the active bank is
BAD_ARGUMENT; otherwise the window stands at position 0 with its run open, and its size is reported. R128: Resume Window
reopens the run at its remembered position with a new sequence. -/
def Obligations.WindowsAreOpenedAndResumed : Prop :=
  (∀ r : Request,
     let fields := (byteAt r 2).toNat
     requestBank r = (match fields % 4 with | 0 => some .staging | 1 => some .active | _ => none) ∧
     requestKind r = (match fields / 4 % 4 with | 0 => some .load | 1 => some .read | _ => none) ∧
     requestOrder r = (match fields / 16 % 4 with | 0 => some .rowFirst | 1 => some .columnFirst | _ => none)) ∧
  (∀ (s : State) (seq b2 b3 r0 r1 c0 c1 : Byte) (rest : List Request),
     Ready s ([0x10, seq, b2, b3, r0, r1, c0, c1] :: rest) → QueuesLegal s → 2 ≤ b2.toNat % 4 →
     ∃ t, exec .openWindow s = .next t ∧ Answered (taken s rest) t 0x10 seq .badArgument []) ∧
  (∀ (s : State) (seq b2 b3 r0 r1 c0 c1 : Byte) (rest : List Request) (bank : BankSel),
     let r : Request := [0x10, seq, b2, b3, r0, r1, c0, c1]
     Ready s (r :: rest) → QueuesLegal s → requestBank r = some bank →
     (bank = .staging → s.storeBusy = false ∧ s.banks.activationPending = false) →
     ∃ t, exec .openWindow s = .next t ∧
       (∀ p kind order, planeOf b3.toNat = some p → requestKind r = some kind → requestOrder r = some order →
         let lastRow := min r1.toNat (p.rows - 1)
         let lastCol := min c1.toNat (p.cols - 1)
         let w : Window := ⟨bank, p, r0.toNat, lastRow, c0.toNat, lastCol, order, kind, some kind, 0, seq + 1⟩
         (r0.toNat ≤ lastRow ∧ c0.toNat ≤ lastCol ∧ (kind = .load → bank = .staging) →
           Answered { taken s rest with banks := { s.banks with window := some w } } t 0x10 seq .ok
             (natBytes ((lastCol - c0.toNat + 1) * (lastRow - r0.toNat + 1)))) ∧
         (lastRow < r0.toNat ∨ lastCol < c0.toNat ∨ kind = .load ∧ bank = .active →
           Answered (taken s rest) t 0x10 seq .badArgument [])) ∧
       ((planeOf b3.toNat = none ∨ requestKind r = none ∨ requestOrder r = none) →
         Answered (taken s rest) t 0x10 seq .badArgument [])) ∧
  (∀ (s : State) (seq : Byte) (rest : List Request), Ready s ([0x12, seq] :: rest) → QueuesLegal s →
     ∃ t, exec .resumeWindow s = .next t ∧
       (s.banks.window = none → Answered (taken s rest) t 0x12 seq .noWindow []) ∧
       ∀ w, s.banks.window = some w →
         (w.bank = .staging → s.storeBusy = false ∧ s.banks.activationPending = false) →
         let w' : Window := { w with openRun := some w.kind, expected := seq + 1 }
         Answered { taken s rest with banks := { s.banks with window := some w' } } t 0x12 seq .ok (natBytes w.position))

/-- R123: the cell a position names, in both orders, lies inside the window, and no two positions name one cell. -/
def Obligations.PositionsVisitEachCellOnce : Prop :=
  ∀ (w : Window) (p q : Nat), WindowLegal w → p < w.size → q < w.size →
    w.cellIndex p < w.plane.size ∧ (w.cellIndex p = w.cellIndex q → p = q) ∧
      (w.order = .rowFirst →
        w.cellIndex p = (w.firstRow + p / w.width) * w.plane.cols + (w.firstCol + p % w.width)) ∧
      (w.order = .columnFirst →
        w.cellIndex p = (w.firstRow + p % w.height) * w.plane.cols + (w.firstCol + p / w.height))

/-- R124, R126: a Load Data in sequence on an open LOAD run, with one to three values. Those that fit are written at the
window's positions in order and make the plane LOADING; position and expected sequence move on; what did not fit is
answered WINDOW_FULL. R125, R127: the refusals, in their order: no open LOAD run, an odd length or no value, a wrong sequence
byte; nothing is written and an open run ends. -/
def Obligations.LoadDataWritesAtTheWindow : Prop :=
  (∀ (s : State) (seq : Byte) (vs : List Word) (rest : List Request) (w : Window),
     1 ≤ vs.length → vs.length ≤ 3 →
     Ready s ((0x11 :: seq :: vs.flatMap wordBytes) :: rest) → QueuesLegal s → TablesShaped s → WindowLegal w →
     s.storeBusy = false → s.banks.activationPending = false → s.banks.window = some w → w.openRun = some .load →
     w.expected = seq →
     let n := min vs.length (w.size - w.position)
     let pl := s.banks.staging.get w.plane
     ∃ t pl', exec .loadData s = .next t ∧
       Answered { takenOpen s rest with banks := { s.banks with
           staging := s.banks.staging.set w.plane pl',
           window := some { w with position := w.position + n, expected := seq + 1 } } }
         t 0x11 seq (if n = vs.length then .ok else .windowFull) [BitVec.ofNat 8 n] ∧
       pl'.cells.length = pl.cells.length ∧ pl'.status = (if n = 0 then pl.status else .loading) ∧
       (∀ i, i < n → pl'.cells.getD (w.cellIndex (w.position + i)) 0 = vs.getD i 0) ∧
       ∀ j, (∀ i, i < n → j ≠ w.cellIndex (w.position + i)) → pl'.cells.getD j 0 = pl.cells.getD j 0) ∧
  (∀ (s : State) (r : Request) (rest : List Request),
     Ready s (r :: rest) → QueuesLegal s → byteAt r 0 = 0x11 → 2 ≤ r.length → s.storeBusy = false →
     s.banks.activationPending = false →
     ∃ t, exec .loadData s = .next t ∧
       ((∀ w, s.banks.window = some w → w.openRun ≠ some .load) →
         Answered (taken s rest) t 0x11 (byteAt r 1) .noWindow []) ∧
       ∀ w, s.banks.window = some w → w.openRun = some .load →
         (r.length % 2 = 1 ∨ r.length = 2 → Answered (taken s rest) t 0x11 (byteAt r 1) .badArgument []) ∧
         (r.length % 2 = 0 ∧ r.length ≠ 2 ∧ byteAt r 1 ≠ w.expected →
           Answered (taken s rest) t 0x11 (byteAt r 1) .sequenceGap [w.expected]))

/-- R129: Fill Window writes its value into every cell of the window and into no other, makes the plane LOADING, and ends
the run at the window's end. -/
def Obligations.FillWindowFillsExactlyTheWindow : Prop :=
  ∀ (s : State) (seq hi lo : Byte) (rest : List Request), Ready s ([0x14, seq, hi, lo] :: rest) → QueuesLegal s →
    TablesShaped s →
    ∃ t, exec .fillWindow s = .next t ∧
      (s.banks.window = none → Answered (taken s rest) t 0x14 seq .noWindow []) ∧
      ∀ w, s.banks.window = some w → WindowLegal w →
        (w.bank = .active → Answered (taken s rest) t 0x14 seq .badArgument []) ∧
        (w.bank = .staging → s.storeBusy = false → s.banks.activationPending = false →
          let pl := s.banks.staging.get w.plane
          ∃ cells : List Word,
            Answered { taken s rest with banks := { s.banks with
              staging := s.banks.staging.set w.plane { cells := cells, status := .loading },
              window := some { w with position := w.size, openRun := none } } } t 0x14 seq .ok (natBytes w.size) ∧
            cells.length = pl.cells.length ∧ (∀ i, i < w.size → cells.getD (w.cellIndex i) 0 = hi ++ lo) ∧
            ∀ j, (∀ i, i < w.size → j ≠ w.cellIndex i) → cells.getD j 0 = pl.cells.getD j 0)

/-- R130, R127: Read Data on an open READ run in sequence returns up to three cells as stored and moves on; without such a
run, or out of sequence, it is refused and an open run ends. -/
def Obligations.ReadDataReturnsTheNextCells : Prop :=
  ∀ (s : State) (seq : Byte) (rest : List Request), Ready s ([0x13, seq] :: rest) → QueuesLegal s →
    ∃ t, exec .readData s = .next t ∧
      ((∀ w, s.banks.window = some w → w.openRun ≠ some .read) →
        Answered (taken s rest) t 0x13 seq .noWindow []) ∧
      ∀ w, s.banks.window = some w → w.openRun = some .read →
        (seq ≠ w.expected → Answered (taken s rest) t 0x13 seq .sequenceGap [w.expected]) ∧
        (seq = w.expected →
          let n := min 3 (w.size - w.position)
          let cells := ((match w.bank with
            | .staging => s.banks.staging
            | .active => s.banks.active).get w.plane).cells
          let w' : Window := { w with position := w.position + n, expected := seq + 1 }
          Answered { takenOpen s rest with banks := { s.banks with window := some w' } }
            t 0x13 seq (if n = 3 then .ok else .windowFull)
            ((List.range n).flatMap fun i => wordBytes (cells.getD (w.cellIndex (w.position + i)) 0)))

/-- R133, R144: the search for a single changed cell. It names cell i only if i explains both differences and no other cell
does; a single cell in excess by d is always among those that do, and is the one named when d is odd. -/
def Obligations.LocationNamesTheOnlyCellThatExplains : Prop :=
  ∀ (n : Nat) (dS dW : Word), n ≤ 272 →
    let explains := fun (k : Nat) => 1 ≤ k ∧ k ≤ n ∧ (k * dS.toNat) % 65536 = dW.toNat
    (dS = 0 → locate n dS dW = none) ∧
    (∀ i, locate n dS dW = some i ↔ dS ≠ 0 ∧ explains (i + 1) ∧ ∀ k, explains k → k = i + 1) ∧
    (∀ i, i < n → dW.toNat = ((i + 1) * dS.toNat) % 65536 → dS.toNat % 2 = 1 → locate n dS dW = some i)

/-- The Conventions: a check pair is the sum of the cells and the sum of the cells each times its index and 1, both mod
65536, whether taken at once or row by row. R61 to R64, R66, R67, R132: which cells offend, plane by plane, and the first of
them is the one of the lowest index. R131, R132, R133: Commit Plane. No cell changes; the plane becomes VERIFIED exactly when
it is not EMPTY, its pair is the expected one and no cell offends; the other outcomes are reported as the manual says and
leave the plane. -/
def Obligations.CommitVerifiesOnlyAMatchingPlane : Prop :=
  (∀ cells : List Word, pairOf cells = addCells ⟨0, 0⟩ 0 cells) ∧
  (∀ (acc : CheckPair) (n : Nat) (cells : List Word),
     (addCells acc n cells).S.toNat = (acc.S.toNat + (cells.map BitVec.toNat).sum) % 65536 ∧
     (addCells acc n cells).W.toNat =
       (acc.W.toNat + ((List.range cells.length).map fun j => (n + j + 1) * cellAt cells j).sum) % 65536) ∧
  (∀ (p : PlaneId) (cells : List Word),
     let v := cellAt cells
     let row := fun k => 4 * k
     let bad := fun i => match p with
       | .slipTarget | .torqueCeiling => 400 < v i
       | .brakeFront | .brakeRear => 2000 < v i
       | .radius => v i < 3600 ∨ 4096 < v i
       | .columnSelect => 15 < v i
       | .parameter => (∃ q : Param, q.entry.index = i ∧ (v i < q.entry.low ∨ q.entry.high < v i)) ∨
           i = 12 ∧ v 12 ≤ v 11
       | .action => ∃ k, k < 16 ∧
           (i = row k ∧ (2047 < v i ∨ v (row k + 1) ≠ 0 ∧ (1728 ≤ v i ∧ v i ≤ 1743 ∨
               ∃ j, j < k ∧ v (row j + 1) ≠ 0 ∧ v (row j) = v i ∧ v (row j + 2) = v (row k + 2))) ∨
             i = row k + 1 ∧ (9 < v i ∨ 3 ≤ v i ∧ ∃ j, j < k ∧ v (row j + 1) = v i) ∨
             i = row k + 2 ∧ (1 < v i ∨ 3 ≤ v (row k + 1) ∧ v (row k + 1) ≤ 9 ∧
               v i ≠ (if v (row k + 1) = 4 ∨ v (row k + 1) = 6 then 1 else 0)) ∨
             i = row k + 3 ∧ 1 < v i)
     (∀ i, firstOffending p cells = some i ↔ i < p.size ∧ bad i ∧ ∀ j, j < i → ¬ bad j) ∧
     (firstOffending p cells = none ↔ ∀ i, i < p.size → ¬ bad i)) ∧
  ∀ (s : State) (seq pn sh sl wh wl : Byte) (rest : List Request),
    Ready s ([0x15, seq, pn, sh, sl, wh, wl] :: rest) → QueuesLegal s → s.storeBusy = false →
    s.banks.activationPending = false →
    ∃ t, exec .commitPlane s = .next t ∧
      (7 < pn.toNat → Answered (taken s rest) t 0x15 seq .badArgument []) ∧
      ∀ p, planeOf pn.toNat = some p →
        let pl := s.banks.staging.get p
        let c := pairOf pl.cells
        let e : CheckPair := ⟨sh ++ sl, wh ++ wl⟩
        (pl.status = .empty → Answered (taken s rest) t 0x15 seq .notReady []) ∧
        (pl.status ≠ .empty → c = e →
          (∀ i, firstOffending p pl.cells = some i → Answered (taken s rest) t 0x15 seq .range (natBytes i)) ∧
          (firstOffending p pl.cells = none →
            Answered { taken s rest with banks := { (taken s rest).banks with
              staging := s.banks.staging.set p { pl with status := .verified e } } } t 0x15 seq .ok [])) ∧
        (pl.status ≠ .empty → c ≠ e →
          (∀ i, locate p.size (c.S - e.S) (c.W - e.W) = some i →
            Answered (taken s rest) t 0x15 seq .checkLocated (natBytes i ++ wordBytes (c.S - e.S))) ∧
          (locate p.size (c.S - e.S) (c.W - e.W) = none →
            Answered (taken s rest) t 0x15 seq .checkUnlocatable []))

/-- R134, R121: Stage Copy. Every plane of the active bank stands in staging, FAULTY ones as LOADING, and the window is
gone; the active bank is untouched. R173: Load Image. Each plane of a VALID slot comes into staging, VERIFIED where its pair
and checks agree and LOADING where not, which the response lists; its refusals come in their order. -/
def Obligations.StagingIsReplacedWhole : Prop :=
  (∀ (s : State) (seq : Byte) (rest : List Request), Ready s ([0x16, seq] :: rest) → QueuesLegal s →
     s.storeBusy = false → s.banks.activationPending = false →
     ∃ t, exec .stageCopy s = .next t ∧
       let b : Bank := PerPlane.build fun p =>
         if (s.banks.active.get p).status = .faulty then { s.banks.active.get p with status := .loading }
         else s.banks.active.get p
       Answered { taken s rest with banks := { s.banks with window := none, staging := b } } t 0x16 seq .ok []) ∧
  (∀ (s : State) (seq n : Byte) (rest : List Request), Ready s ([0x21, seq, n] :: rest) → QueuesLegal s →
     s.storeBusy = false → s.banks.activationPending = false →
     ∃ t, exec .loadImage s = .next t ∧
       (3 < n.toNat → Answered (taken s rest) t 0x21 seq .badArgument []) ∧
       ∀ i, slotOf n.toNat = some i →
         let x := s.store.slots.get i
         let good := fun (p : PlaneId) => pairOf (x.cells.get p) = x.pairs.get p ∧ firstOffending p (x.cells.get p) = none
         (x.complete = false → Answered (taken s rest) t 0x21 seq .slotInvalid []) ∧
         (x.complete = true →
           Answered { taken s rest with banks := { s.banks with window := none, staging := PerPlane.build fun p =>
               { cells := x.cells.get p, status := if good p then .verified (x.pairs.get p) else .loading } } }
             t 0x21 seq .ok [planeList fun p => !decide (good p)]))

/-- R135: Activate. With an activation pending OK and nothing else; during a store BUSY_STORE; otherwise every VERIFIED
staging plane whose cells no longer give its pair becomes LOADING, and the flag is set if all eight are VERIFIED then; if
not, the planes that are not are listed. R140: Cancel Activation clears the flag, without a store or pending test. -/
def Obligations.ActivationIsCheckedAndCancelled : Prop :=
  (∀ (s : State) (seq : Byte) (rest : List Request), Ready s ([0x17, seq] :: rest) → QueuesLegal s →
     let b : Bank := PerPlane.build fun p => match (s.banks.staging.get p).status with
       | .verified c => if pairOf (s.banks.staging.get p).cells = c then s.banks.staging.get p
           else { s.banks.staging.get p with status := .loading }
       | _ => s.banks.staging.get p
     ∃ t, exec .activate s = .next t ∧
       (s.banks.activationPending = true → Answered (taken s rest) t 0x17 seq .ok []) ∧
       (s.banks.activationPending = false → s.storeBusy = true → Answered (taken s rest) t 0x17 seq .busyStore []) ∧
       (s.banks.activationPending = false → s.storeBusy = false →
         ((∀ p, (b.get p).isVerified = true) →
           Answered { taken s rest with banks := { (taken s rest).banks with staging := b, activationPending := true } }
             t 0x17 seq .ok []) ∧
         (∀ p, (b.get p).isVerified = false →
           Answered { taken s rest with banks := { (taken s rest).banks with staging := b } } t 0x17 seq .notReady
             [planeList fun q => !(b.get q).isVerified]))) ∧
  (∀ (s : State) (seq : Byte) (rest : List Request), Ready s ([0x18, seq] :: rest) → QueuesLegal s →
     ∃ t, exec .cancelActivation s = .next t ∧
       Answered { taken s rest with banks := { (taken s rest).banks with activationPending := false } } t 0x18 seq .ok [])

/-! ### Management (09) -/

/-- R153, R127: a request of one allowed length that comes with another, of two bytes or more, is answered BAD_ARGUMENT and
changes nothing but that an open run ends; so is Read Status, which leaves the run open. One of length 0 or 1 or of an
unknown code gets no response, raises nothing, and ends an open run. The model's choice (log 1): the taking of a request that
is not at the head of the request queue, or while none may be taken, changes nothing. -/
def Obligations.RequestsAreTakenByCodeAndLength : Prop :=
  (∀ (s : State) (c : Instr) (r : Request) (rest : List Request), Ready s (r :: rest) → QueuesLegal s → 2 ≤ r.length →
     (∀ code n, fixedLength c = some (code, n) → byteAt r 0 = code → r.length ≠ n →
       ∃ t, exec c s = .next t ∧ Answered (taken s rest) t code (byteAt r 1) .badArgument []) ∧
     (byteAt r 0 = 0x02 → r.length ≠ 3 →
       ∃ t, exec .readStatus s = .next t ∧ Answered (takenOpen s rest) t 0x02 (byteAt r 1) .badArgument [])) ∧
  (∀ (s : State) (r : Request) (rest : List Request), Ready s (r :: rest) →
     (r.length < 2 ∨ byteAt r 0 ∉ ([0x01, 0x02, 0x03, 0x04, 0x05, 0x06, 0x07, 0x08, 0x09, 0x10, 0x11, 0x12, 0x13, 0x14,
       0x15, 0x16, 0x17, 0x18, 0x20, 0x21, 0x22] : List Byte)) →
     exec .unknownRequest s = .next (taken s rest)) ∧
  (∀ (c : Instr) (code : Byte) (n : Nat) (s : State), fixedLength c = some (code, n) →
     (s.phase = .building ∨ s.mgmt.inHand ≠ none ∨ s.mgmt.response ≠ none ∨ s.mgmt.requests = [] ∨
       ∃ r rest, s.mgmt.requests = r :: rest ∧ (r.length < 2 ∨ byteAt r 0 ≠ code)) →
     exec c s = .next s)

/-- R154, R180: response data are divided into parts of four bytes, of which only the last may be shorter, in order and
numbered from 0, with the last one marked; a response of at most 16 bytes has at most four parts. 11.4, 11.5, R7: the frame
of a part, byte by byte: code, sequence, result with part number and last-part mark, the data and the check byte, at the
response identifier of the node; and the codes of the results. -/
def Obligations.ResponsesAreDividedInOrder : Prop :=
  (([.ok, .busyStore, .pendingActivation, .notStationary, .badArgument, .noWindow, .sequenceGap, .windowFull, .checkLocated,
      .checkUnlocatable, .range, .notReady, .slotInvalid] : List Result).map Result.code = List.range 13) ∧
  (∀ (s : State) (p : RespPart), p.number < 4 →
     let bytes := [p.code, p.seq, BitVec.ofNat 8 (p.result.code + 16 * p.number + if p.last then 64 else 0)] ++ p.data
     partFrame s p = { id := .std (BitVec.ofNat 11 (0x6C4 + s.mgmt.node.toNat)), kind := .data, len := bytes.length + 1,
                       data := bytes ++ [255 - bytes.foldl (· + ·) 0] }) ∧
  ∀ (code seq : Byte) (res : Result) (d : List Byte),
    let parts := numberParts code seq res 0 (divideData d)
    parts.flatMap (fun p => p.data) = d ∧ parts ≠ [] ∧
      (d.length ≤ 16 → parts.length ≤ 4) ∧
      ∀ i p, parts[i]? = some p →
        p.code = code ∧ p.seq = seq ∧ p.result = res ∧ p.number = i ∧ p.data.length ≤ 4 ∧
          (p.last = true ↔ i + 1 = parts.length) ∧ (p.last = false → p.data.length = 4)

/-- R156: Identify. R157, R127: Read Status. The values of the moment, selector by selector, laid out as 11.4 says with the
codes of 11.5, free bits as 0 (R180); a selector above 4 is BAD_ARGUMENT; an open run stays open. That selector 0 sends no
indication, which the text under R115 says it reads, is the model's choice (log 21). -/
def Obligations.IdentifyAndReadStatusReport : Prop :=
  (∀ (s : State) (seq : Byte) (rest : List Request), Ready s ([0x01, seq] :: rest) → QueuesLegal s →
     ∃ t, exec .identify s = .next t ∧
       Answered (taken s rest) t 0x01 seq .ok [0x2C, 0x07, 0x40, BitVec.ofNat 8 (3 * 16 + s.mgmt.node.toNat)]) ∧
  (∀ (s : State) (seq sel : Byte) (rest : List Request), Ready s ([0x02, seq, sel] :: rest) → QueuesLegal s →
     let bit := fun (b : Bool) (n : Nat) => if b then 2 ^ n else 0
     let states := fun (b : Bank) (l : List PlaneId) =>
       BitVec.ofNat 8 (l.foldl (fun n p => 4 * n + (b.get p).status.code) 0)
     let r := s.eval.record
     let c := s.ctl
     ∃ t, exec .readStatus s = .next t ∧
       (match sel.toNat with
        | 0 => Answered (takenOpen s rest) t 0x02 seq .ok
            ([BitVec.ofNat 8 c.state.code, BitVec.ofNat 8 s.sensors.source.code]
              ++ wordBytes (BitVec.ofInt 16 s.leanUsed) ++ wordBytes (BitVec.ofInt 16 s.pitchUsed)
              ++ [BitVec.ofNat 8 (16 * c.mode.code + c.load.code),
                  BitVec.ofNat 8 (bit c.pendingMode.isSome 7 + 16 * (c.pendingMode.map RideMode.code).getD 0
                    + bit c.pendingLoad.isSome 3 + (c.pendingLoad.map LoadState.code).getD 0),
                  BitVec.ofNat 8 (bit s.ack.fault 7) ||| BitVec.ofNat 8 s.ack.records.length,
                  BitVec.ofNat 8 s.ack.missCount]
              ++ wordBytes (BitVec.ofNat 16 s.eval.passCount)
              ++ wordBytes (BitVec.ofNat 16 s.sensors.vf) ++ wordBytes (BitVec.ofNat 16 s.sensors.vr))
        | 1 => Answered (takenOpen s rest) t 0x02 seq .ok
            (wordBytes (s.mgmt.conditions.setWidth 16) ++ wordBytes (s.mgmt.enabled.setWidth 16))
        | 2 => Answered (takenOpen s rest) t 0x02 seq .ok
            [states s.banks.active [.slipTarget, .torqueCeiling, .brakeFront, .brakeRear],
             states s.banks.active [.radius, .columnSelect, .parameter, .action],
             states s.banks.staging [.slipTarget, .torqueCeiling, .brakeFront, .brakeRear],
             states s.banks.staging [.radius, .columnSelect, .parameter, .action],
             BitVec.ofNat 8 s.scrub.plane.number, BitVec.ofNat 8 s.scrub.row,
             BitVec.ofNat 8 (bit s.banks.activationPending 0 + bit s.storeBusy 1)]
        | 3 => Answered (takenOpen s rest) t 0x02 seq .ok
            [BitVec.ofNat 8 (bit s.mgmt.causes.powerOn 0 + bit s.mgmt.causes.resetLine 1 + bit s.mgmt.causes.restart 2),
             BitVec.ofNat 8 (s.store.bootSelector.code + bit s.store.slots.slot0.complete 4
               + bit s.store.slots.slot1.complete 5 + bit s.store.slots.slot2.complete 6
               + bit s.store.slots.slot3.complete 7),
             match s.store.state with
               | .idle => 0
               | .inProgress i _ => BitVec.ofNat 8 (128 + i.code)]
        | 4 => Answered (takenOpen s rest) t 0x02 seq .ok
            (wordBytes (BitVec.ofNat 16 (bit r.belowControlSpeed 15 + r.a)) ++ wordBytes (BitVec.ofNat 16 r.slipTarget)
              ++ wordBytes (BitVec.ofNat 16 r.torqueLimit) ++ wordBytes (BitVec.ofNat 16 r.ceiling)
              ++ wordBytes (BitVec.ofNat 16 r.brakeFront) ++ wordBytes (BitVec.ofNat 16 r.brakeRear)
              ++ wordBytes (BitVec.ofNat 16 r.vrc) ++ wordBytes (BitVec.ofInt 16 r.slip))
        | _ => Answered (takenOpen s rest) t 0x02 seq .badArgument []))

/-- R162, R163: Enable Notices, Disable Notices and Clear Conditions with a condition list; the sixteenth place is
BAD_ARGUMENT. R164: the reset cause set after each of the four events. -/
def Obligations.ConditionsAndResetCausesAreKept : Prop :=
  (∀ (s : State) (code seq hi lo : Byte) (rest : List Request), Ready s ([code, seq, hi, lo] :: rest) → QueuesLegal s →
     let l : CondSet := (hi ++ lo : BitVec 16).setWidth 15
     let u := taken s rest
     (code = 0x03 → ∃ t, exec .enableNotices s = .next t ∧
       (if hi.getLsbD 7 then Answered u t code seq .badArgument []
        else Answered { u with mgmt := { u.mgmt with enabled := s.mgmt.enabled ||| l } } t code seq .ok [])) ∧
     (code = 0x04 → ∃ t, exec .disableNotices s = .next t ∧
       (if hi.getLsbD 7 then Answered u t code seq .badArgument []
        else Answered { u with mgmt := { u.mgmt with enabled := s.mgmt.enabled &&& ~~~l } } t code seq .ok [])) ∧
     (code = 0x05 → ∃ t, exec .clearConditions s = .next t ∧
       (if hi.getLsbD 7 then Answered u t code seq .badArgument []
        else Answered { u with mgmt := { u.mgmt with conditions := s.mgmt.conditions &&& ~~~l } } t code seq .ok []))) ∧
  (∀ (s : State) (n : BitVec 2) (time : Millis) (seq : Byte) (rest : List Request),
     (∃ t, exec (.powerOn n) s = .next t ∧ t.mgmt.causes = ⟨true, false, false⟩) ∧
     (∃ t, exec (.resetLine n) s = .next t ∧ t.mgmt.causes = ⟨s.mgmt.causes.powerOn, true, s.mgmt.causes.restart⟩) ∧
     (Ready s ([0x09, seq] :: rest) → s.storeBusy = false → s.stationary = true →
       ∃ t, exec (.restart time) s = .next t ∧ t.mgmt.causes = ⟨s.mgmt.causes.powerOn, s.mgmt.causes.resetLine, true⟩) ∧
     (Ready s ([0x06, seq] :: rest) → QueuesLegal s → ∃ t, exec .clearResetCause s = .next t ∧
       Answered { taken s rest with mgmt := { (taken s rest).mgmt with causes := ⟨false, false, false⟩ } } t 0x06 seq .ok []))

/-! ### Map store, start-up and restart (10) -/

/-- R166, R168: Store Image. Accepted with all staging planes VERIFIED, it erases the slot's header and begins with plane 0;
the refusals come in their order and change nothing else. R167: Select Boot Slot. -/
def Obligations.StoreImageErasesTheHeaderFirst : Prop :=
  (∀ (s : State) (seq n : Byte) (rest : List Request), Ready s ([0x20, seq, n] :: rest) → QueuesLegal s →
     ∃ t, exec .storeImage s = .next t ∧
       (s.storeBusy = true → Answered (taken s rest) t 0x20 seq .busyStore []) ∧
       (s.storeBusy = false → 3 < n.toNat → Answered (taken s rest) t 0x20 seq .badArgument []) ∧
       ∀ i, s.storeBusy = false → slotOf n.toNat = some i →
         ((∃ p, (s.banks.staging.get p).isVerified = false) → Answered (taken s rest) t 0x20 seq .notReady []) ∧
         ((∀ p, (s.banks.staging.get p).isVerified = true) →
           Answered { taken s rest with store := { s.store with
             slots := s.store.slots.set i { s.store.slots.get i with pairs := PerPlane.build fun _ => ⟨0, 0⟩,
                                                                     complete := false },
             state := .inProgress i (.plane .slipTarget) } } t 0x20 seq .ok [])) ∧
  (∀ (s : State) (seq n : Byte) (rest : List Request), Ready s ([0x22, seq, n] :: rest) → QueuesLegal s →
     ∃ t, exec .selectBootSlot s = .next t ∧
       (s.storeBusy = true → Answered (taken s rest) t 0x22 seq .busyStore []) ∧
       (s.storeBusy = false → 3 < n.toNat → Answered (taken s rest) t 0x22 seq .badArgument []) ∧
       ∀ i, s.storeBusy = false → slotOf n.toNat = some i →
         Answered { taken s rest with store := { s.store with bootSelector := i } } t 0x22 seq .ok [])

/-- R169, R170: a plane phase completes. The slot holds what it took of the plane; the read-back against the recorded pair
sends the store on to the next plane or the header, or ends it in failure with the header erased and STORE_FAILED. R170: the
header phase completes. Read back as written, the slot is VALID with the pairs of the staging planes and STORE_DONE is
raised; read back differently, its header is erased again and STORE_FAILED is raised. What a slot took is an operand
(log 7). -/
def Obligations.StorePhasesProgramAndReadBack : Prop :=
  (∀ (s : State) (l : List (Nat × Word)) (i : SlotId) (p : PlaneId) (c : CheckPair),
     s.store.state = .inProgress i (.plane p) → (s.banks.staging.get p).status = .verified c →
     let x := s.store.slots.get i
     let cells := l.foldl (fun cs a => cs.set a.1 a.2) (s.banks.staging.get p).cells
     let y := { x with cells := x.cells.set p cells }
     (pairOf cells = c → exec (.storePlanePhaseComplete l) s = .next { s with store := { s.store with
       slots := s.store.slots.set i y,
       state := .inProgress i (if p = .action then .header else .plane p.next) } }) ∧
     (pairOf cells ≠ c → exec (.storePlanePhaseComplete l) s = .next (raiseCondition .storeFailed
       { s with store := { s.store with
         slots := s.store.slots.set i { y with pairs := PerPlane.build fun _ => ⟨0, 0⟩, complete := false },
         state := .idle } }))) ∧
  (∀ (s : State) (i : SlotId), s.store.state = .inProgress i .header →
     let x := s.store.slots.get i
     (∀ pairs : PerPlane CheckPair, (∀ p, (s.banks.staging.get p).status = .verified (pairs.get p)) →
       exec (.storeHeaderPhaseComplete .asWritten) s = .next (raiseCondition .storeDone { s with store := { s.store with
         slots := s.store.slots.set i { x with pairs := pairs, complete := true }, state := .idle } })) ∧
     exec (.storeHeaderPhaseComplete .differently) s = .next (raiseCondition .storeFailed { s with store := { s.store with
       slots := s.store.slots.set i { x with pairs := PerPlane.build fun _ => ⟨0, 0⟩, complete := false },
       state := .idle } }))

/-- R166, R172, R174: power-on and the reset line keep the slots and the boot selector, but for the plane that a store was
programming, whose every cell is then the old or the new one; the store is abandoned without a condition and its slot stays
INVALID; and the build begins. What a building part holds is the model's choice (log 4); which cells are new is a free value
(log 5). -/
def Obligations.HardResetsKeepTheSlots : Prop :=
  ∀ (c : Instr) (n : BitVec 2) (s : State), TablesShaped s → StoreLegal s → (c = .powerOn n ∨ c = .resetLine n) →
    ∃ t, exec c s = .next t ∧ Building t ∧ t.mgmt.node = n ∧ t.mgmt.conditions = 0 ∧ t.mgmt.enabled = 0 ∧
      t.mgmt.requests = [] ∧ t.mgmt.response = none ∧ t.store.bootSelector = s.store.bootSelector ∧
      ∀ i q, (t.store.slots.get i).complete = (s.store.slots.get i).complete ∧
        (t.store.slots.get i).pairs = (s.store.slots.get i).pairs ∧
        ((∀ p, s.store.state = .inProgress i (.plane p) → p ≠ q) →
          (t.store.slots.get i).cells.get q = (s.store.slots.get i).cells.get q) ∧
        ∀ k, ((t.store.slots.get i).cells.get q).getD k 0 = ((s.store.slots.get i).cells.get q).getD k 0 ∨
          ((t.store.slots.get i).cells.get q).getD k 0 = (s.banks.staging.get q).cells.getD k 0

/-- R174 to R177, R118, R58: the build completes. Each active plane is the boot slot's where its slot is VALID and it
verifies, else the built-in ACTION or PARAMETER plane or a FAULTY one; the timers start with the new bank's periods; the
control state is LIMP or START; the record is built from the assumed lean, with no pass, no speed, no cut and no relief, and
K at T_l; BOOT_DEGRADED is raised if a plane was replaced or made FAULTY. The time of the completion is an operand (log 3).
-/
def Obligations.BootBuildsTheActiveBank : Prop :=
  ∀ (time : Millis) (s : State), s.phase = .building →
    let x := s.store.slots.get s.store.bootSelector
    let good := fun (p : PlaneId) =>
      x.complete = true ∧ pairOf (x.cells.get p) = x.pairs.get p ∧ firstOffending p (x.cells.get p) = none
    let b : Bank := PerPlane.build fun p =>
      if good p then { cells := x.cells.get p, status := .verified (x.pairs.get p) }
      else match p with
        | .action => { cells := builtInActionCells, status := .verified ⟨3353, 54999⟩ }
        | .parameter => { cells := builtInParameterCells, status := .verified ⟨2945, 36558⟩ }
        | p => { cells := x.cells.get p, status := .faulty }
    let g := gripLookup b s.ctl.mode s.ctl.load (param b .assumedLean)
    let record : LimitRecord :=
      { passNo := 0, lean := param b .assumedLean, a := param b .assumedLean, column := g.column,
        slipTarget := g.slipTarget, torqueLimit := g.torqueLimit, brakeFront := g.brakeFront, brakeRear := g.brakeRear,
        vfc := 0, vrc := 0, vref := 0, slip := 0, cut := 0, relief := 0, ceiling := g.torqueLimit,
        belowControlSpeed := true }
    let built := { s with
      phase := .running,
      banks := { active := b, staging := PerPlane.build fun p => { cells := List.replicate p.size 0, status := .empty },
                 activationPending := false, window := none },
      sensors := { s.sensors with wheelTimer := some (time + param b .wheelTimeoutMs) },
      eval := { s.eval with record := record },
      ctl := { s.ctl with state := if limpCondition b then .limp else .start,
                          statusTimer := some (time + param b .statusPeriodMs) } }
    ((∀ p, good p) → exec (.bootBuildComplete time) s = .next built) ∧
    (∀ p, ¬ good p → exec (.bootBuildComplete time) s = .next (raiseCondition .bootDegraded built))

/-- R159, R19, R38, R58, R92, R118, R141, R142, R165, R178: Restart. Refused during a store or not at standstill; accepted,
the dynamic state starts afresh under the kept banks, its record built from the assumed lean (R58), and the response is the
first entry of the emptied upstream queue. The time of the taking is an operand (log 3). -/
def Obligations.RestartStartsAfreshUnderTheKeptBanks : Prop :=
  ∀ (time : Millis) (s : State) (seq : Byte) (rest : List Request), Ready s ([0x09, seq] :: rest) → QueuesLegal s →
    let b := s.banks.active
    let g := gripLookup b s.ctl.mode s.ctl.load (param b .assumedLean)
    let record : LimitRecord :=
      { passNo := 0, lean := param b .assumedLean, a := param b .assumedLean, column := g.column,
        slipTarget := g.slipTarget, torqueLimit := g.torqueLimit, brakeFront := g.brakeFront, brakeRear := g.brakeRear,
        vfc := 0, vrc := 0, vref := 0, slip := 0, cut := 0, relief := 0, ceiling := g.torqueLimit,
        belowControlSpeed := true }
    ∃ t, exec (.restart time) s = .next t ∧
      (s.storeBusy = true → Answered (taken s rest) t 0x09 seq .busyStore []) ∧
      (s.storeBusy = false → s.stationary = false → Answered (taken s rest) t 0x09 seq .notStationary []) ∧
      (s.storeBusy = false → s.stationary = true →
        (∃ e, t.upstream = [e] ∧ e.offered = true) ∧
        Answered { s with
          upstream := [], actuator := [],
          sensors := { State.reset.sensors with wheelTimer := some (time + param b .wheelTimeoutMs) },
          eval := { State.reset.eval with record := record },
          ack := { records := [], missCount := 0, fault := false },
          ctl := { state := if limpCondition b then .limp else .start, liveness := .running, mode := s.ctl.mode,
                   load := s.ctl.load, pendingMode := none, pendingLoad := none,
                   statusTimer := some (time + param b .statusPeriodMs) },
          banks := { s.banks with activationPending := false, window := none },
          scrub := { plane := .slipTarget, row := 0, sums := ⟨0, 0⟩ },
          mgmt := { s.mgmt with requests := [], causes := { s.mgmt.causes with restart := true } },
          store := { s.store with state := .idle } } t 0x09 seq .ok [])

end
end

