-- ==== Sys2Proof/Laws/State.lean ====
section
/-!
SUPPORT. What each update of the state does to each field: one lemma per field per update, so that no later proof unfolds a
record update. A queue update is split by the port.
-/

namespace Sys2Proof.Machine

variable (s : State)


/-! ### `withSensors` -/

@[simp] theorem State.withSensors_pending (x : Sensors) : (s.withSensors x).pending = s.pending := rfl
@[simp] theorem State.withSensors_phase (x : Sensors) : (s.withSensors x).phase = s.phase := rfl
@[simp] theorem State.withSensors_upstream (x : Sensors) : (s.withSensors x).upstream = s.upstream := rfl
@[simp] theorem State.withSensors_actuator (x : Sensors) : (s.withSensors x).actuator = s.actuator := rfl
@[simp] theorem State.withSensors_sensors (x : Sensors) : (s.withSensors x).sensors = x := rfl
@[simp] theorem State.withSensors_eval (x : Sensors) : (s.withSensors x).eval = s.eval := rfl
@[simp] theorem State.withSensors_ack (x : Sensors) : (s.withSensors x).ack = s.ack := rfl
@[simp] theorem State.withSensors_ctl (x : Sensors) : (s.withSensors x).ctl = s.ctl := rfl
@[simp] theorem State.withSensors_banks (x : Sensors) : (s.withSensors x).banks = s.banks := rfl
@[simp] theorem State.withSensors_scrub (x : Sensors) : (s.withSensors x).scrub = s.scrub := rfl
@[simp] theorem State.withSensors_mgmt (x : Sensors) : (s.withSensors x).mgmt = s.mgmt := rfl
@[simp] theorem State.withSensors_store (x : Sensors) : (s.withSensors x).store = s.store := rfl
@[simp] theorem State.withSensors_freeCount (x : Sensors) : (s.withSensors x).freeCount = s.freeCount := rfl

/-! ### `withAck` -/

@[simp] theorem State.withAck_pending (x : AckMonitor) : (s.withAck x).pending = s.pending := rfl
@[simp] theorem State.withAck_phase (x : AckMonitor) : (s.withAck x).phase = s.phase := rfl
@[simp] theorem State.withAck_upstream (x : AckMonitor) : (s.withAck x).upstream = s.upstream := rfl
@[simp] theorem State.withAck_actuator (x : AckMonitor) : (s.withAck x).actuator = s.actuator := rfl
@[simp] theorem State.withAck_sensors (x : AckMonitor) : (s.withAck x).sensors = s.sensors := rfl
@[simp] theorem State.withAck_eval (x : AckMonitor) : (s.withAck x).eval = s.eval := rfl
@[simp] theorem State.withAck_ack (x : AckMonitor) : (s.withAck x).ack = x := rfl
@[simp] theorem State.withAck_ctl (x : AckMonitor) : (s.withAck x).ctl = s.ctl := rfl
@[simp] theorem State.withAck_banks (x : AckMonitor) : (s.withAck x).banks = s.banks := rfl
@[simp] theorem State.withAck_scrub (x : AckMonitor) : (s.withAck x).scrub = s.scrub := rfl
@[simp] theorem State.withAck_mgmt (x : AckMonitor) : (s.withAck x).mgmt = s.mgmt := rfl
@[simp] theorem State.withAck_store (x : AckMonitor) : (s.withAck x).store = s.store := rfl
@[simp] theorem State.withAck_freeCount (x : AckMonitor) : (s.withAck x).freeCount = s.freeCount := rfl

/-! ### `withMgmt` -/

@[simp] theorem State.withMgmt_pending (x : Mgmt) : (s.withMgmt x).pending = s.pending := rfl
@[simp] theorem State.withMgmt_phase (x : Mgmt) : (s.withMgmt x).phase = s.phase := rfl
@[simp] theorem State.withMgmt_upstream (x : Mgmt) : (s.withMgmt x).upstream = s.upstream := rfl
@[simp] theorem State.withMgmt_actuator (x : Mgmt) : (s.withMgmt x).actuator = s.actuator := rfl
@[simp] theorem State.withMgmt_sensors (x : Mgmt) : (s.withMgmt x).sensors = s.sensors := rfl
@[simp] theorem State.withMgmt_eval (x : Mgmt) : (s.withMgmt x).eval = s.eval := rfl
@[simp] theorem State.withMgmt_ack (x : Mgmt) : (s.withMgmt x).ack = s.ack := rfl
@[simp] theorem State.withMgmt_ctl (x : Mgmt) : (s.withMgmt x).ctl = s.ctl := rfl
@[simp] theorem State.withMgmt_banks (x : Mgmt) : (s.withMgmt x).banks = s.banks := rfl
@[simp] theorem State.withMgmt_scrub (x : Mgmt) : (s.withMgmt x).scrub = s.scrub := rfl
@[simp] theorem State.withMgmt_mgmt (x : Mgmt) : (s.withMgmt x).mgmt = x := rfl
@[simp] theorem State.withMgmt_store (x : Mgmt) : (s.withMgmt x).store = s.store := rfl
@[simp] theorem State.withMgmt_freeCount (x : Mgmt) : (s.withMgmt x).freeCount = s.freeCount := rfl

/-! ### `withBanks` -/

@[simp] theorem State.withBanks_pending (x : Banks) : (s.withBanks x).pending = s.pending := rfl
@[simp] theorem State.withBanks_phase (x : Banks) : (s.withBanks x).phase = s.phase := rfl
@[simp] theorem State.withBanks_upstream (x : Banks) : (s.withBanks x).upstream = s.upstream := rfl
@[simp] theorem State.withBanks_actuator (x : Banks) : (s.withBanks x).actuator = s.actuator := rfl
@[simp] theorem State.withBanks_sensors (x : Banks) : (s.withBanks x).sensors = s.sensors := rfl
@[simp] theorem State.withBanks_eval (x : Banks) : (s.withBanks x).eval = s.eval := rfl
@[simp] theorem State.withBanks_ack (x : Banks) : (s.withBanks x).ack = s.ack := rfl
@[simp] theorem State.withBanks_ctl (x : Banks) : (s.withBanks x).ctl = s.ctl := rfl
@[simp] theorem State.withBanks_banks (x : Banks) : (s.withBanks x).banks = x := rfl
@[simp] theorem State.withBanks_scrub (x : Banks) : (s.withBanks x).scrub = s.scrub := rfl
@[simp] theorem State.withBanks_mgmt (x : Banks) : (s.withBanks x).mgmt = s.mgmt := rfl
@[simp] theorem State.withBanks_store (x : Banks) : (s.withBanks x).store = s.store := rfl
@[simp] theorem State.withBanks_freeCount (x : Banks) : (s.withBanks x).freeCount = s.freeCount := rfl

/-! ### `withWindow` -/

@[simp] theorem State.withWindow_pending (x : Option Window) : (s.withWindow x).pending = s.pending := rfl
@[simp] theorem State.withWindow_phase (x : Option Window) : (s.withWindow x).phase = s.phase := rfl
@[simp] theorem State.withWindow_upstream (x : Option Window) : (s.withWindow x).upstream = s.upstream := rfl
@[simp] theorem State.withWindow_actuator (x : Option Window) : (s.withWindow x).actuator = s.actuator := rfl
@[simp] theorem State.withWindow_sensors (x : Option Window) : (s.withWindow x).sensors = s.sensors := rfl
@[simp] theorem State.withWindow_eval (x : Option Window) : (s.withWindow x).eval = s.eval := rfl
@[simp] theorem State.withWindow_ack (x : Option Window) : (s.withWindow x).ack = s.ack := rfl
@[simp] theorem State.withWindow_ctl (x : Option Window) : (s.withWindow x).ctl = s.ctl := rfl
@[simp] theorem State.withWindow_banks (x : Option Window) : (s.withWindow x).banks = { s.banks with window := x } := rfl
@[simp] theorem State.withWindow_scrub (x : Option Window) : (s.withWindow x).scrub = s.scrub := rfl
@[simp] theorem State.withWindow_mgmt (x : Option Window) : (s.withWindow x).mgmt = s.mgmt := rfl
@[simp] theorem State.withWindow_store (x : Option Window) : (s.withWindow x).store = s.store := rfl
@[simp] theorem State.withWindow_freeCount (x : Option Window) : (s.withWindow x).freeCount = s.freeCount := rfl

/-! ### `withStaging` -/

@[simp] theorem State.withStaging_pending (x : Bank) : (s.withStaging x).pending = s.pending := rfl
@[simp] theorem State.withStaging_phase (x : Bank) : (s.withStaging x).phase = s.phase := rfl
@[simp] theorem State.withStaging_upstream (x : Bank) : (s.withStaging x).upstream = s.upstream := rfl
@[simp] theorem State.withStaging_actuator (x : Bank) : (s.withStaging x).actuator = s.actuator := rfl
@[simp] theorem State.withStaging_sensors (x : Bank) : (s.withStaging x).sensors = s.sensors := rfl
@[simp] theorem State.withStaging_eval (x : Bank) : (s.withStaging x).eval = s.eval := rfl
@[simp] theorem State.withStaging_ack (x : Bank) : (s.withStaging x).ack = s.ack := rfl
@[simp] theorem State.withStaging_ctl (x : Bank) : (s.withStaging x).ctl = s.ctl := rfl
@[simp] theorem State.withStaging_banks (x : Bank) : (s.withStaging x).banks = { s.banks with staging := x } := rfl
@[simp] theorem State.withStaging_scrub (x : Bank) : (s.withStaging x).scrub = s.scrub := rfl
@[simp] theorem State.withStaging_mgmt (x : Bank) : (s.withStaging x).mgmt = s.mgmt := rfl
@[simp] theorem State.withStaging_store (x : Bank) : (s.withStaging x).store = s.store := rfl
@[simp] theorem State.withStaging_freeCount (x : Bank) : (s.withStaging x).freeCount = s.freeCount := rfl

/-! ### `withActive` -/

@[simp] theorem State.withActive_pending (x : Bank) : (s.withActive x).pending = s.pending := rfl
@[simp] theorem State.withActive_phase (x : Bank) : (s.withActive x).phase = s.phase := rfl
@[simp] theorem State.withActive_upstream (x : Bank) : (s.withActive x).upstream = s.upstream := rfl
@[simp] theorem State.withActive_actuator (x : Bank) : (s.withActive x).actuator = s.actuator := rfl
@[simp] theorem State.withActive_sensors (x : Bank) : (s.withActive x).sensors = s.sensors := rfl
@[simp] theorem State.withActive_eval (x : Bank) : (s.withActive x).eval = s.eval := rfl
@[simp] theorem State.withActive_ack (x : Bank) : (s.withActive x).ack = s.ack := rfl
@[simp] theorem State.withActive_ctl (x : Bank) : (s.withActive x).ctl = s.ctl := rfl
@[simp] theorem State.withActive_banks (x : Bank) : (s.withActive x).banks = { s.banks with active := x } := rfl
@[simp] theorem State.withActive_scrub (x : Bank) : (s.withActive x).scrub = s.scrub := rfl
@[simp] theorem State.withActive_mgmt (x : Bank) : (s.withActive x).mgmt = s.mgmt := rfl
@[simp] theorem State.withActive_store (x : Bank) : (s.withActive x).store = s.store := rfl
@[simp] theorem State.withActive_freeCount (x : Bank) : (s.withActive x).freeCount = s.freeCount := rfl

/-! ### `withScrub` -/

@[simp] theorem State.withScrub_pending (x : Scrub) : (s.withScrub x).pending = s.pending := rfl
@[simp] theorem State.withScrub_phase (x : Scrub) : (s.withScrub x).phase = s.phase := rfl
@[simp] theorem State.withScrub_upstream (x : Scrub) : (s.withScrub x).upstream = s.upstream := rfl
@[simp] theorem State.withScrub_actuator (x : Scrub) : (s.withScrub x).actuator = s.actuator := rfl
@[simp] theorem State.withScrub_sensors (x : Scrub) : (s.withScrub x).sensors = s.sensors := rfl
@[simp] theorem State.withScrub_eval (x : Scrub) : (s.withScrub x).eval = s.eval := rfl
@[simp] theorem State.withScrub_ack (x : Scrub) : (s.withScrub x).ack = s.ack := rfl
@[simp] theorem State.withScrub_ctl (x : Scrub) : (s.withScrub x).ctl = s.ctl := rfl
@[simp] theorem State.withScrub_banks (x : Scrub) : (s.withScrub x).banks = s.banks := rfl
@[simp] theorem State.withScrub_scrub (x : Scrub) : (s.withScrub x).scrub = x := rfl
@[simp] theorem State.withScrub_mgmt (x : Scrub) : (s.withScrub x).mgmt = s.mgmt := rfl
@[simp] theorem State.withScrub_store (x : Scrub) : (s.withScrub x).store = s.store := rfl
@[simp] theorem State.withScrub_freeCount (x : Scrub) : (s.withScrub x).freeCount = s.freeCount := rfl

/-! ### `withStore` -/

@[simp] theorem State.withStore_pending (x : Store) : (s.withStore x).pending = s.pending := rfl
@[simp] theorem State.withStore_phase (x : Store) : (s.withStore x).phase = s.phase := rfl
@[simp] theorem State.withStore_upstream (x : Store) : (s.withStore x).upstream = s.upstream := rfl
@[simp] theorem State.withStore_actuator (x : Store) : (s.withStore x).actuator = s.actuator := rfl
@[simp] theorem State.withStore_sensors (x : Store) : (s.withStore x).sensors = s.sensors := rfl
@[simp] theorem State.withStore_eval (x : Store) : (s.withStore x).eval = s.eval := rfl
@[simp] theorem State.withStore_ack (x : Store) : (s.withStore x).ack = s.ack := rfl
@[simp] theorem State.withStore_ctl (x : Store) : (s.withStore x).ctl = s.ctl := rfl
@[simp] theorem State.withStore_banks (x : Store) : (s.withStore x).banks = s.banks := rfl
@[simp] theorem State.withStore_scrub (x : Store) : (s.withStore x).scrub = s.scrub := rfl
@[simp] theorem State.withStore_mgmt (x : Store) : (s.withStore x).mgmt = s.mgmt := rfl
@[simp] theorem State.withStore_store (x : Store) : (s.withStore x).store = x := rfl
@[simp] theorem State.withStore_freeCount (x : Store) : (s.withStore x).freeCount = s.freeCount := rfl

/-! ### `withCtl` -/

@[simp] theorem State.withCtl_pending (x : CtlState) : (s.withCtl x).pending = s.pending := rfl
@[simp] theorem State.withCtl_phase (x : CtlState) : (s.withCtl x).phase = s.phase := rfl
@[simp] theorem State.withCtl_upstream (x : CtlState) : (s.withCtl x).upstream = s.upstream := rfl
@[simp] theorem State.withCtl_actuator (x : CtlState) : (s.withCtl x).actuator = s.actuator := rfl
@[simp] theorem State.withCtl_sensors (x : CtlState) : (s.withCtl x).sensors = s.sensors := rfl
@[simp] theorem State.withCtl_eval (x : CtlState) : (s.withCtl x).eval = s.eval := rfl
@[simp] theorem State.withCtl_ack (x : CtlState) : (s.withCtl x).ack = s.ack := rfl
@[simp] theorem State.withCtl_ctl (x : CtlState) : (s.withCtl x).ctl = { s.ctl with state := x } := rfl
@[simp] theorem State.withCtl_banks (x : CtlState) : (s.withCtl x).banks = s.banks := rfl
@[simp] theorem State.withCtl_scrub (x : CtlState) : (s.withCtl x).scrub = s.scrub := rfl
@[simp] theorem State.withCtl_mgmt (x : CtlState) : (s.withCtl x).mgmt = s.mgmt := rfl
@[simp] theorem State.withCtl_store (x : CtlState) : (s.withCtl x).store = s.store := rfl
@[simp] theorem State.withCtl_freeCount (x : CtlState) : (s.withCtl x).freeCount = s.freeCount := rfl

/-! ### `discardResponse` -/

@[simp] theorem State.discardResponse_pending : (s.discardResponse).pending = s.pending := rfl
@[simp] theorem State.discardResponse_phase : (s.discardResponse).phase = s.phase := rfl
@[simp] theorem State.discardResponse_upstream : (s.discardResponse).upstream = s.upstream := rfl
@[simp] theorem State.discardResponse_actuator : (s.discardResponse).actuator = s.actuator := rfl
@[simp] theorem State.discardResponse_sensors : (s.discardResponse).sensors = s.sensors := rfl
@[simp] theorem State.discardResponse_eval : (s.discardResponse).eval = s.eval := rfl
@[simp] theorem State.discardResponse_ack : (s.discardResponse).ack = s.ack := rfl
@[simp] theorem State.discardResponse_ctl : (s.discardResponse).ctl = s.ctl := rfl
@[simp] theorem State.discardResponse_banks : (s.discardResponse).banks = s.banks := rfl
@[simp] theorem State.discardResponse_scrub : (s.discardResponse).scrub = s.scrub := rfl
@[simp] theorem State.discardResponse_mgmt : (s.discardResponse).mgmt = { s.mgmt with response := none } := rfl
@[simp] theorem State.discardResponse_store : (s.discardResponse).store = s.store := rfl
@[simp] theorem State.discardResponse_freeCount : (s.discardResponse).freeCount = s.freeCount := rfl

/-! ### `setQueue` -/

@[simp] theorem State.setQueue_pending (p : Port) (q : List Entry) : (s.setQueue p q).pending = s.pending := by cases p <;> rfl
@[simp] theorem State.setQueue_phase (p : Port) (q : List Entry) : (s.setQueue p q).phase = s.phase := by cases p <;> rfl
@[simp] theorem State.setQueue_sensors (p : Port) (q : List Entry) : (s.setQueue p q).sensors = s.sensors := by cases p <;> rfl
@[simp] theorem State.setQueue_eval (p : Port) (q : List Entry) : (s.setQueue p q).eval = s.eval := by cases p <;> rfl
@[simp] theorem State.setQueue_ack (p : Port) (q : List Entry) : (s.setQueue p q).ack = s.ack := by cases p <;> rfl
@[simp] theorem State.setQueue_ctl (p : Port) (q : List Entry) : (s.setQueue p q).ctl = s.ctl := by cases p <;> rfl
@[simp] theorem State.setQueue_banks (p : Port) (q : List Entry) : (s.setQueue p q).banks = s.banks := by cases p <;> rfl
@[simp] theorem State.setQueue_scrub (p : Port) (q : List Entry) : (s.setQueue p q).scrub = s.scrub := by cases p <;> rfl
@[simp] theorem State.setQueue_mgmt (p : Port) (q : List Entry) : (s.setQueue p q).mgmt = s.mgmt := by cases p <;> rfl
@[simp] theorem State.setQueue_store (p : Port) (q : List Entry) : (s.setQueue p q).store = s.store := by cases p <;> rfl
@[simp] theorem State.setQueue_freeCount (p : Port) (q : List Entry) : (s.setQueue p q).freeCount = s.freeCount := by cases p <;> rfl
@[simp] theorem State.setQueue_queue (p : Port) (q : List Entry) : (s.setQueue p q).queue p = q := by cases p <;> rfl
@[simp] theorem State.setQueue_upstream_upstream (q : List Entry) : (s.setQueue .upstream q).upstream = q := rfl
@[simp] theorem State.setQueue_upstream_actuator (q : List Entry) : (s.setQueue .upstream q).actuator = s.actuator := rfl
@[simp] theorem State.setQueue_actuator_upstream (q : List Entry) : (s.setQueue .actuator q).upstream = s.upstream := rfl
@[simp] theorem State.setQueue_actuator_actuator (q : List Entry) : (s.setQueue .actuator q).actuator = q := rfl
@[simp] theorem State.setQueue_setQueue (p : Port) (q q' : List Entry) : (s.setQueue p q).setQueue p q' = s.setQueue p q' := by
  cases p <;> rfl
@[simp] theorem State.setQueue_own (p : Port) : s.setQueue p (s.queue p) = s := by cases p <;> rfl
@[simp] theorem State.queue_upstream : s.queue .upstream = s.upstream := rfl
@[simp] theorem State.queue_actuator : s.queue .actuator = s.actuator := rfl
@[simp] theorem State.nodeId_setQueue (p : Port) (q : List Entry) (n : Nat) : (s.setQueue p q).nodeId n = s.nodeId n := by
  cases p <;> rfl

end Sys2Proof.Machine
end

