-- ==== Sys2Proof/Laws/Ops.lean ====
section
/-!
SUPPORT. What the operations on transmit queues can do: the list helpers by the place they change, `queueFrame` and `offer`
case by case.
-/

namespace Sys2Proof.Machine

/-! ### Lists with one element changed -/

section Lists

variable {α : Type} {p : α → Bool}

/-- A list either has no element that satisfies `p`, or splits at the last one that does. -/
theorem split_last (p : α → Bool) (l : List α) :
    (∀ x ∈ l, p x = false) ∨ ∃ pre e post, l = pre ++ e :: post ∧ p e = true ∧ ∀ x ∈ post, p x = false := by
  induction l with
  | nil => exact .inl (by simp)
  | cons a l ih =>
    rcases ih with h | ⟨pre, e, post, rfl, he, hp⟩
    · cases ha : p a with
      | false => exact .inl (by simpa [ha] using h)
      | true => exact .inr ⟨[], a, l, rfl, ha, h⟩
    · exact .inr ⟨a :: pre, e, post, rfl, he, hp⟩

/-- A list either has no element that satisfies `p`, or splits at the first one that does. -/
theorem split_first (p : α → Bool) (l : List α) :
    (∀ x ∈ l, p x = false) ∨ ∃ pre e post, l = pre ++ e :: post ∧ p e = true ∧ ∀ x ∈ pre, p x = false := by
  induction l with
  | nil => exact .inl (by simp)
  | cons a l ih =>
    cases ha : p a with
    | true => exact .inr ⟨[], a, l, rfl, ha, by simp⟩
    | false =>
      rcases ih with h | ⟨pre, e, post, rfl, he, hp⟩
      · exact .inl (by simpa [ha] using h)
      · exact .inr ⟨a :: pre, e, post, rfl, he, by simpa [ha] using hp⟩

theorem any_eq_false_of {l : List α} (h : ∀ x ∈ l, p x = false) : l.any p = false := by simpa using h

theorem mapLast_split (g : α → α) {pre post : List α} {e : α} (he : p e = true) (hp : ∀ x ∈ post, p x = false) :
    mapLast p g (pre ++ e :: post) = pre ++ g e :: post := by
  induction pre with
  | nil => simp [mapLast, any_eq_false_of hp, he]
  | cons a pre ih => simp [mapLast, he, ih]

theorem mapFirst_split (g : α → α) {pre post : List α} {e : α} (he : p e = true) (hp : ∀ x ∈ pre, p x = false) :
    mapFirst p g (pre ++ e :: post) = pre ++ g e :: post := by
  induction pre with
  | nil => simp [mapFirst, he]
  | cons a pre ih =>
    rw [List.forall_mem_cons] at hp
    simp [mapFirst, hp.1, ih hp.2]

theorem mapFirst_none (g : α → α) {l : List α} (h : ∀ x ∈ l, p x = false) : mapFirst p g l = l := by
  induction l with
  | nil => rfl
  | cons a l ih =>
    rw [List.forall_mem_cons] at h
    simp [mapFirst, h.1, ih h.2]

theorem eraseLast_split {pre post : List α} {e : α} (he : p e = true) (hp : ∀ x ∈ post, p x = false) :
    eraseLast p (pre ++ e :: post) = pre ++ post := by
  induction pre with
  | nil => simp [eraseLast, any_eq_false_of hp, he]
  | cons a pre ih => simp [eraseLast, he, ih]

theorem findLast?_split {pre post : List α} {e : α} (he : p e = true) (hp : ∀ x ∈ post, p x = false) :
    findLast? p (pre ++ e :: post) = some e := by
  induction pre with
  | nil => simp [findLast?, any_eq_false_of hp, he]
  | cons a pre ih => simp [findLast?, he, ih]

theorem find?_split {pre post : List α} {e : α} (he : p e = true) (hp : ∀ x ∈ pre, p x = false) :
    (pre ++ e :: post).find? p = some e := by
  induction pre with
  | nil => simp [he]
  | cons a pre ih =>
    rw [List.forall_mem_cons] at hp
    simp [hp.1, ih hp.2]

theorem eraseP_split {pre post : List α} {e : α} (he : p e = true) (hp : ∀ x ∈ pre, p x = false) :
    (pre ++ e :: post).eraseP p = pre ++ post := by
  induction pre with
  | nil => simp [he]
  | cons a pre ih =>
    rw [List.forall_mem_cons] at hp
    simp [hp.1, ih hp.2]

end Lists

/-! ### Admission (R10 to R13) -/

/-- Everything the placing of a frame can do to a queue. -/
inductive Placed (c : Content) (o : Origin) (k : Bool) (q : List Entry) : List Entry × Loss → Prop where
  /-- A waiting entry of the stream takes the new content (R10). -/
  | replaced (pre post : List Entry) (e : Entry) (split : q = pre ++ e :: post) (flag : k = true)
      (same : Entry.sameStream c.frame o e = true) (waits : e.offered = false)
      (last : ∀ x ∈ post, x.offered = false → Entry.sameStream c.frame o x = false) :
      Placed c o k q (pre ++ { e with content := c, attempts := 0 } :: post, .nothing)
  /-- With none waiting, the entry of the stream in offer gets it as its follow-on (R11). -/
  | followed (pre post : List Entry) (e : Entry) (split : q = pre ++ e :: post) (flag : k = true)
      (same : Entry.sameStream c.frame o e = true) (offered : e.offered = true)
      (last : ∀ x ∈ post, Entry.sameStream c.frame o x = false)
      (none : ∀ x ∈ q, x.offered = false → Entry.sameStream c.frame o x = false) :
      Placed c o k q (pre ++ { e with followOn := some c } :: post, .nothing)
  /-- A new entry joins the end (R12, R13). -/
  | joined (fits : q.length < Config.queuePlaces) (plain : o = .plain → plainCount q < Config.plainPlaces)
      (fresh : k = true → ∀ x ∈ q, Entry.sameStream c.frame o x = false) :
      Placed c o k q (q ++ [newEntry c o k], .nothing)
  /-- A PLAIN frame without a place is dropped (R12). -/
  | dropped (plain : o = .plain) (full : Config.plainPlaces ≤ plainCount q ∨ Config.queuePlaces ≤ q.length)
      (fresh : k = true → ∀ x ∈ q, Entry.sameStream c.frame o x = false) :
      Placed c o k q (q, .dropped)
  /-- A full queue gives up a waiting entry (R13). -/
  | displaced (pre post : List Entry) (e : Entry) (split : q = pre ++ e :: post) (own : o ≠ .plain)
      (full : Config.queuePlaces ≤ q.length) (waits : e.offered = false)
      (choice : (e.origin = .plain ∧ ∀ x ∈ post, x.origin = .plain → x.offered = true) ∨
        ((∀ x ∈ q, x.origin = .plain → x.offered = true) ∧ ∀ x ∈ pre, x.offered = true))
      (fresh : k = true → ∀ x ∈ q, Entry.sameStream c.frame o x = false) :
      Placed c o k q (pre ++ post ++ [newEntry c o k], .displaced e)
  /-- A full queue with nothing waiting, which the manual's limits exclude. -/
  | overfull (own : o ≠ .plain) (full : Config.queuePlaces ≤ q.length) (busy : ∀ x ∈ q, x.offered = true)
      (fresh : k = true → ∀ x ∈ q, Entry.sameStream c.frame o x = false) :
      Placed c o k q (q ++ [newEntry c o k], .nothing)

theorem displace_placed (c : Content) (o : Origin) (k : Bool) (q : List Entry) (own : o ≠ .plain)
    (full : Config.queuePlaces ≤ q.length) (fresh : k = true → ∀ x ∈ q, Entry.sameStream c.frame o x = false) :
    Placed c o k q (match displace q with
      | (some e, rest) => (rest ++ [newEntry c o k], .displaced e)
      | (none, rest) => (rest ++ [newEntry c o k], .nothing)) := by
  unfold displace
  rcases split_last Entry.waitingPlain q with h | ⟨pre, e, post, rfl, he, hp⟩
  · have hq : ∀ x ∈ q, x.origin = .plain → x.offered = true := by
      intro x hx hx'
      simpa [Entry.waitingPlain, Entry.waiting, hx'] using h x hx
    rw [any_eq_false_of h]
    rcases split_first Entry.waiting q with hw | ⟨pre, e, post, rfl, he, hp⟩
    · have hf : q.find? Entry.waiting = none := by simpa using hw
      have he : q.eraseP Entry.waiting = q := List.eraseP_of_forall_not (by simpa using hw)
      simp only [hf, he]
      exact .overfull own full (fun x hx => by simpa [Entry.waiting] using hw x hx) fresh
    · simp only [find?_split he hp, eraseP_split he hp]
      refine .displaced pre post e rfl own full (by simpa [Entry.waiting] using he) (.inr ⟨hq, fun x hx => ?_⟩) fresh
      simpa [Entry.waiting] using hp x hx
  · have ha : (pre ++ e :: post).any Entry.waitingPlain = true := by simp [he]
    simp only [ha, if_true, findLast?_split he hp, eraseLast_split he hp]
    simp only [Entry.waitingPlain, Entry.waiting, Bool.and_eq_true, Bool.not_eq_true', beq_iff_eq] at he
    refine .displaced pre post e rfl own full he.1 (.inl ⟨he.2, fun x hx hx' => ?_⟩) fresh
    simpa [Entry.waitingPlain, Entry.waiting, hx'] using hp x hx

/-- The placing of a frame that finds no entry of its stream. -/
theorem queueFrame_fresh (c : Content) (o : Origin) (k : Bool) (q : List Entry)
    (fresh : k = true → ∀ x ∈ q, Entry.sameStream c.frame o x = false) : Placed c o k q (queueFrame c o k q) := by
  have h1 : (k && q.any fun e => Entry.sameStream c.frame o e && e.waiting) = false := by
    cases hk : k with
    | false => rfl
    | true => exact any_eq_false_of fun x hx => by simp [fresh hk x hx]
  have h2 : (k && q.any (Entry.sameStream c.frame o)) = false := by
    cases hk : k with
    | false => rfl
    | true => exact any_eq_false_of (fresh hk)
  simp only [queueFrame, h1, h2, Bool.false_eq_true, if_false]
  cases o with
  | plain =>
    dsimp only
    split
    · exact .joined (by tauto) (by tauto) fresh
    · exact .dropped rfl (by omega) fresh
  | controlled =>
    dsimp only
    split
    · exact .joined (by assumption) (by simp) fresh
    · exact displace_placed c _ k q (by simp) (by omega) fresh
  | part =>
    dsimp only
    split
    · exact .joined (by assumption) (by simp) fresh
    · exact displace_placed c _ k q (by simp) (by omega) fresh

/-- What the placing of a frame can do, in full. -/
theorem queueFrame_placed (c : Content) (o : Origin) (k : Bool) (q : List Entry) :
    Placed c o k q (queueFrame c o k q) := by
  cases k with
  | false => exact queueFrame_fresh c o _ q (by simp)
  | true =>
    rcases split_last (fun e => Entry.sameStream c.frame o e && e.waiting) q with h | ⟨pre, e, post, rfl, he, hp⟩
    · have hn : ∀ x ∈ q, x.offered = false → Entry.sameStream c.frame o x = false := by
        intro x hx hx'
        simpa [Entry.waiting, hx'] using h x hx
      rcases split_last (Entry.sameStream c.frame o) q with h' | ⟨pre, e, post, rfl, he, hp⟩
      · exact queueFrame_fresh c o _ q fun _ => h'
      · have ha : (pre ++ e :: post).any (Entry.sameStream c.frame o) = true := by simp [he]
        simp only [queueFrame, any_eq_false_of h, ha, Bool.true_and, Bool.false_eq_true, if_false, if_true,
          mapLast_split _ he hp]
        refine .followed pre post e rfl rfl he ?_ hp hn
        cases ho : e.offered with
        | true => rfl
        | false => simp [hn e (by simp) ho] at he
    · have ha : (pre ++ e :: post).any (fun e => Entry.sameStream c.frame o e && e.waiting) = true := by
        simp only [List.any_append, List.any_cons, he, Bool.true_or, Bool.or_true]
      simp only [queueFrame, ha, Bool.true_and, if_true]
      rw [mapLast_split (p := fun e : Entry => Entry.sameStream c.frame o e && e.waiting) _ he hp]
      simp only [Entry.waiting, Bool.and_eq_true, Bool.not_eq_true'] at he
      refine .replaced pre post e rfl rfl he.1 he.2 fun x hx hx' => ?_
      simpa [Entry.waiting, hx'] using hp x hx

/-! ### Offer (R14) -/

/-- Everything the offer can do: nothing, while an entry is in offer or the queue is empty, or one waiting entry goes into
offer. -/
inductive Offers (q : List Entry) : List Entry → Prop where
  | busy (h : ∃ e ∈ q, e.offered = true) : Offers q q
  | empty (h : q = []) : Offers q q
  | taken (pre post : List Entry) (e : Entry) (split : q = pre ++ e :: post) (idle : ∀ x ∈ q, x.offered = false)
      (lowest : ∀ x ∈ q, offerKey e.content.frame ≤ offerKey x.content.frame)
      (oldest : ∀ x ∈ pre, offerKey e.content.frame < offerKey x.content.frame) :
      Offers q (pre ++ { e with offered := true } :: post)

theorem offer_offers (q : List Entry) : Offers q (offer q) := by
  unfold offer
  split
  · rename_i h
    exact .busy (by simpa using h)
  · rename_i h
    have idle : ∀ x ∈ q, x.offered = false := by simpa using h
    have hf : q.filter Entry.waiting = q := by
      rw [List.filter_eq_self]
      intro x hx
      simp [Entry.waiting, idle x hx]
    unfold lowestKey
    rw [hf]
    split
    · rename_i hm
      exact .empty (by simpa [List.min?_eq_none_iff] using hm)
    · rename_i k hm
      have hk := List.min?_eq_some_iff.mp hm
      simp only [List.mem_map, forall_exists_index, and_imp, forall_apply_eq_imp_iff₂] at hk
      obtain ⟨⟨e0, he0, rfl⟩, hmin⟩ := hk
      rcases split_first (fun e => e.waiting && offerKey e.content.frame == offerKey e0.content.frame) q with
        h | ⟨pre, e, post, hq, he, hp⟩
      · have := h e0 he0
        simp [Entry.waiting, idle e0 he0] at this
      · have hpre : ∀ x ∈ pre, x.offered = false := fun x hx => idle x (by simp [hq, hx])
        simp only [Entry.waiting, Bool.and_eq_true, Bool.not_eq_true', beq_iff_eq] at he
        have hm := mapFirst_split (p := fun e : Entry => e.waiting && offerKey e.content.frame == offerKey e0.content.frame)
          (fun e => { e with offered := true }) (e := e) (post := post) (by simp [Entry.waiting, he] : _ = true) hp
        rw [← hq] at hm
        rw [hm]
        refine .taken pre post e hq idle (fun x hx => ?_) fun x hx => ?_
        · rw [he.2]
          exact hmin x hx
        · have h1 := hmin x (by simp [hq, hx])
          have h2 := hp x hx
          simp [Entry.waiting, hpre x hx] at h2
          rw [he.2]
          omega

theorem offer_of_offered {q : List Entry} (h : ∃ e ∈ q, e.offered = true) : offer q = q := by
  unfold offer
  rw [if_pos (by simpa using h)]

@[simp] theorem offer_nil : offer [] = [] := rfl

/-- After the offer a queue that has entries has one in offer. -/
theorem offer_offering (q : List Entry) : offering (offer q) := by
  intro hq
  have ho := offer_offers q
  generalize offer q = q' at ho hq
  cases ho with
  | busy h => exact h
  | empty h => exact absurd h hq
  | taken pre post e split idle lowest oldest => exact ⟨{ e with offered := true }, by simp, rfl⟩

/-- The offer keeps every content and follow-on in the queue. -/
theorem holds_offer {q : List Entry} {c : Content} (h : holds q c) : holds (offer q) c := by
  have ho := offer_offers q
  generalize offer q = q' at ho
  cases ho with
  | busy _ => exact h
  | empty _ => exact h
  | taken pre post e split _ _ _ =>
    obtain ⟨x, hx, hc⟩ := h
    rw [split] at hx
    rcases List.mem_append.mp hx with hx | hx
    · exact ⟨x, by simp [hx], hc⟩
    · rcases List.mem_cons.mp hx with rfl | hx
      · exact ⟨{ x with offered := true }, by simp, hc⟩
      · exact ⟨x, by simp [hx], hc⟩

@[simp] theorem length_offer (q : List Entry) : (offer q).length = q.length := by
  have h := offer_offers q
  generalize offer q = q' at h
  cases h with
  | busy _ => rfl
  | empty _ => rfl
  | taken pre post e split _ _ _ => simp [split]

/-- A placed frame that is not dropped stands in the queue. -/
theorem Placed.holds {c : Content} {o : Origin} {k : Bool} {q q' : List Entry} {l : Loss} (h : Placed c o k q (q', l))
    (hl : l ≠ .dropped) : Machine.holds q' c := by
  cases h with
  | replaced pre post e _ _ _ _ _ => exact ⟨{ e with content := c, attempts := 0 }, by simp, .inl rfl⟩
  | followed pre post e _ _ _ _ _ _ => exact ⟨{ e with followOn := some c }, by simp, .inr rfl⟩
  | joined _ _ _ => exact ⟨newEntry c o k, by simp, .inl rfl⟩
  | dropped _ _ _ => exact absurd rfl hl
  | displaced pre post e _ _ _ _ _ _ => exact ⟨newEntry c o k, by simp, .inl rfl⟩
  | overfull _ _ _ _ => exact ⟨newEntry c o k, by simp, .inl rfl⟩

end Sys2Proof.Machine
end

