-- ==== Sys2Proof/Laws/Conditions.lean ====
section
/-!
SUPPORT. Placing frames and raising conditions change nothing but transmit queues, the condition set and a response whose
awaited part is lost (`OnlySent`), field by field.
-/

namespace Sys2Proof.Machine

/-! ### `OnlySent` -/

theorem OnlySent.refl (s : State) : OnlySent s s := ⟨rfl, by simp, .inl rfl⟩

/-- A growth of the condition set goes on. -/
theorem CondSet.grown_trans {a b c : CondSet} (h1 : a &&& b = a) (h2 : b &&& c = b) : a &&& c = a := by
  rw [← h1, BitVec.and_assoc, h2]

theorem CondSet.grown_or (a b : CondSet) : a &&& (a ||| b) = a := by
  ext i
  simp only [BitVec.getElem_and, BitVec.getElem_or]
  cases a[i] <;> rfl

theorem CondSet.has_of_grown {a b : CondSet} {c : Condition} (h : a &&& b = a) (ha : CondSet.has a c = true) :
    CondSet.has b c = true := by
  unfold CondSet.has at ha ⊢
  rw [← h, BitVec.getLsbD_and, Bool.and_eq_true] at ha
  exact ha.2

theorem OnlySent.trans {s t u : State} (h1 : OnlySent s t) (h2 : OnlySent t u) : OnlySent s u := by
  refine ⟨?_, CondSet.grown_trans h1.grown h2.grown, ?_⟩
  · have f1 := h1.frame
    have f2 := h2.frame
    rw [f1] at f2
    exact f2
  · rcases h2.response with h | h
    · rw [h]
      exact h1.response
    · exact .inr h

section Fields

variable {s t : State} (h : OnlySent s t)
include h

theorem OnlySent.pending : t.pending = s.pending := by rw [h.frame]
theorem OnlySent.phase : t.phase = s.phase := by rw [h.frame]
theorem OnlySent.sensors : t.sensors = s.sensors := by rw [h.frame]
theorem OnlySent.eval : t.eval = s.eval := by rw [h.frame]
theorem OnlySent.ack : t.ack = s.ack := by rw [h.frame]
theorem OnlySent.ctl : t.ctl = s.ctl := by rw [h.frame]
theorem OnlySent.banks : t.banks = s.banks := by rw [h.frame]
theorem OnlySent.scrub : t.scrub = s.scrub := by rw [h.frame]
theorem OnlySent.store : t.store = s.store := by rw [h.frame]
theorem OnlySent.freeCount : t.freeCount = s.freeCount := by rw [h.frame]
theorem OnlySent.node : t.mgmt.node = s.mgmt.node := by rw [h.frame]
theorem OnlySent.requests : t.mgmt.requests = s.mgmt.requests := by rw [h.frame]
theorem OnlySent.inHand : t.mgmt.inHand = s.mgmt.inHand := by rw [h.frame]
theorem OnlySent.enabled : t.mgmt.enabled = s.mgmt.enabled := by rw [h.frame]
theorem OnlySent.causes : t.mgmt.causes = s.mgmt.causes := by rw [h.frame]

end Fields

/-! ### The operations -/

theorem State.setQueue_onlySent (s : State) (p : Port) (q : List Entry) : OnlySent s (s.setQueue p q) := by
  cases p <;> exact ⟨rfl, by simp, .inl rfl⟩

theorem State.discardResponse_onlySent (s : State) : OnlySent s s.discardResponse := ⟨rfl, by simp, .inr rfl⟩

theorem State.partLost_onlySent (s : State) (c : Content) : OnlySent s (s.partLost c) := by
  unfold State.partLost
  split
  · exact s.discardResponse_onlySent
  · exact .refl s

theorem State.offerAt_onlySent (s : State) (p : Port) : OnlySent s (s.offerAt p) := s.setQueue_onlySent _ _

theorem placeFrame_onlySent (p : Port) (c : Content) (o : Origin) (k : Bool) (s : State) :
    OnlySent s (placeFrame p c o k s).1 := by
  unfold placeFrame
  split
  · exact s.setQueue_onlySent _ _
  · exact s.setQueue_onlySent _ _
  · exact (s.setQueue_onlySent _ _).trans (State.partLost_onlySent _ _)

theorem enterCondition_onlySent (c : Condition) (s : State) : OnlySent s (enterCondition c s).1 := by
  have h : OnlySent s { s with mgmt := { s.mgmt with conditions := s.mgmt.conditions ||| c.bit } } :=
    ⟨rfl, CondSet.grown_or _ _, .inl rfl⟩
  unfold enterCondition
  dsimp only
  split
  · exact h.trans (placeFrame_onlySent _ _ _ _ _)
  · exact h

/-- A condition entered is in the set. -/
theorem enterCondition_enters (c : Condition) (s : State) : CondSet.has (enterCondition c s).1.mgmt.conditions c = true := by
  have h : CondSet.has (s.mgmt.conditions ||| c.bit) c = true := by
    cases c <;> simp [CondSet.has, Condition.bit, Condition.code]
  unfold enterCondition
  dsimp only
  split
  · exact CondSet.has_of_grown (placeFrame_onlySent _ _ _ _ _).grown h
  · exact h

/-- Raising a condition only sends. -/
theorem raiseCondition_onlySent (c : Condition) (s : State) : OnlySent s (raiseCondition c s) := by
  unfold raiseCondition
  split
  · exact .refl s
  · have h := enterCondition_onlySent c s
    generalize enterCondition c s = r at h
    obtain ⟨s1, lost⟩ := r
    dsimp only
    split
    · exact h.trans (enterCondition_onlySent _ _)
    · exact h

/-- Placing a frame only sends. -/
theorem place_onlySent (p : Port) (c : Content) (o : Origin) (k : Bool) (s : State) : OnlySent s (place p c o k s) := by
  unfold place
  have h := placeFrame_onlySent p c o k s
  generalize placeFrame p c o k s = r at h
  obtain ⟨s1, lost⟩ := r
  dsimp only
  split
  · exact h.trans (raiseCondition_onlySent _ _)
  · exact h

/-- Raising FORWARD_DROP enters it once and raises nothing in turn. -/
theorem raiseCondition_forwardDrop (s : State) : raiseCondition .forwardDrop s =
    if CondSet.has s.mgmt.conditions .forwardDrop then s else (enterCondition .forwardDrop s).1 := by
  have hin := enterCondition_enters .forwardDrop s
  unfold raiseCondition
  generalize enterCondition .forwardDrop s = r at hin
  obtain ⟨s1, lost⟩ := r
  dsimp only at hin ⊢
  rw [hin, Bool.not_true, Bool.and_false]
  rfl

/-- Raising a condition that is not in the set, said once: it enters the set and, where its notice is enabled, the notice is
placed as every PART frame is. -/
theorem raiseCondition_eq {c : Condition} {s : State} (h : CondSet.has s.mgmt.conditions c = false) :
    raiseCondition c s =
      (let s1 := { s with mgmt := { s.mgmt with conditions := s.mgmt.conditions ||| c.bit } }
       if CondSet.has s.mgmt.enabled c then place .upstream (plainContent (noticeFrame s1 c)) .part true s1 else s1) := by
  have key : raiseCondition c s = (match enterCondition c s with
      | (s1, lost) => if lost then raiseCondition .forwardDrop s1 else s1) := by
    unfold raiseCondition
    rw [if_neg (by simp [h])]
    generalize enterCondition c s = r
    obtain ⟨s1, lost⟩ := r
    dsimp only
    have hf := raiseCondition_forwardDrop s1
    unfold raiseCondition at hf
    rw [hf]
    cases lost <;> cases CondSet.has s1.mgmt.conditions .forwardDrop <;> rfl
  rw [key]
  unfold enterCondition
  dsimp only
  split <;> rfl

/-! ### The actuator queue

Raising a condition can only send a notice, and that goes upstream. -/

@[simp] theorem State.partLost_actuator (s : State) (c : Content) : (s.partLost c).actuator = s.actuator := by
  unfold State.partLost
  split <;> rfl

@[simp] theorem State.partLost_upstream (s : State) (c : Content) : (s.partLost c).upstream = s.upstream := by
  unfold State.partLost
  split <;> rfl

theorem placeFrame_actuator (c : Content) (o : Origin) (k : Bool) (s : State) :
    (placeFrame .upstream c o k s).1.actuator = s.actuator := by
  unfold placeFrame
  split
  · rfl
  · rfl
  · rw [State.partLost_actuator]
    rfl

theorem enterCondition_actuator (c : Condition) (s : State) : (enterCondition c s).1.actuator = s.actuator := by
  unfold enterCondition
  dsimp only
  split
  · exact placeFrame_actuator _ _ _ _
  · rfl

@[simp] theorem raiseCondition_actuator (c : Condition) (s : State) : (raiseCondition c s).actuator = s.actuator := by
  unfold raiseCondition
  split
  · rfl
  · have h := enterCondition_actuator c s
    generalize enterCondition c s = r at h
    obtain ⟨s1, lost⟩ := r
    dsimp only
    split
    · rw [enterCondition_actuator, h]
    · exact h

theorem place_upstream_actuator (c : Content) (o : Origin) (k : Bool) (s : State) :
    (place .upstream c o k s).actuator = s.actuator := by
  unfold place
  have h := placeFrame_actuator c o k s
  generalize placeFrame .upstream c o k s = r at h
  obtain ⟨s1, lost⟩ := r
  dsimp only
  split
  · rw [raiseCondition_actuator, h]
  · exact h

section Raise

variable (c : Condition) (s : State)

@[simp] theorem raiseCondition_pending : (raiseCondition c s).pending = s.pending := (raiseCondition_onlySent c s).pending
@[simp] theorem raiseCondition_phase : (raiseCondition c s).phase = s.phase := (raiseCondition_onlySent c s).phase
@[simp] theorem raiseCondition_sensors : (raiseCondition c s).sensors = s.sensors := (raiseCondition_onlySent c s).sensors
@[simp] theorem raiseCondition_eval : (raiseCondition c s).eval = s.eval := (raiseCondition_onlySent c s).eval
@[simp] theorem raiseCondition_ack : (raiseCondition c s).ack = s.ack := (raiseCondition_onlySent c s).ack
@[simp] theorem raiseCondition_ctl : (raiseCondition c s).ctl = s.ctl := (raiseCondition_onlySent c s).ctl
@[simp] theorem raiseCondition_banks : (raiseCondition c s).banks = s.banks := (raiseCondition_onlySent c s).banks
@[simp] theorem raiseCondition_scrub : (raiseCondition c s).scrub = s.scrub := (raiseCondition_onlySent c s).scrub
@[simp] theorem raiseCondition_store : (raiseCondition c s).store = s.store := (raiseCondition_onlySent c s).store
@[simp] theorem raiseCondition_freeCount : (raiseCondition c s).freeCount = s.freeCount :=
  (raiseCondition_onlySent c s).freeCount
@[simp] theorem raiseCondition_node : (raiseCondition c s).mgmt.node = s.mgmt.node := (raiseCondition_onlySent c s).node
@[simp] theorem raiseCondition_requests : (raiseCondition c s).mgmt.requests = s.mgmt.requests :=
  (raiseCondition_onlySent c s).requests
@[simp] theorem raiseCondition_inHand : (raiseCondition c s).mgmt.inHand = s.mgmt.inHand :=
  (raiseCondition_onlySent c s).inHand
@[simp] theorem raiseCondition_enabled : (raiseCondition c s).mgmt.enabled = s.mgmt.enabled :=
  (raiseCondition_onlySent c s).enabled
@[simp] theorem raiseCondition_causes : (raiseCondition c s).mgmt.causes = s.mgmt.causes :=
  (raiseCondition_onlySent c s).causes

end Raise

section Place

variable (p : Port) (c : Content) (o : Origin) (k : Bool) (s : State)

@[simp] theorem place_pending : (place p c o k s).pending = s.pending := (place_onlySent p c o k s).pending
@[simp] theorem place_phase : (place p c o k s).phase = s.phase := (place_onlySent p c o k s).phase
@[simp] theorem place_sensors : (place p c o k s).sensors = s.sensors := (place_onlySent p c o k s).sensors
@[simp] theorem place_eval : (place p c o k s).eval = s.eval := (place_onlySent p c o k s).eval
@[simp] theorem place_ack : (place p c o k s).ack = s.ack := (place_onlySent p c o k s).ack
@[simp] theorem place_ctl : (place p c o k s).ctl = s.ctl := (place_onlySent p c o k s).ctl
@[simp] theorem place_banks : (place p c o k s).banks = s.banks := (place_onlySent p c o k s).banks
@[simp] theorem place_scrub : (place p c o k s).scrub = s.scrub := (place_onlySent p c o k s).scrub
@[simp] theorem place_store : (place p c o k s).store = s.store := (place_onlySent p c o k s).store
@[simp] theorem place_freeCount : (place p c o k s).freeCount = s.freeCount := (place_onlySent p c o k s).freeCount
@[simp] theorem place_node : (place p c o k s).mgmt.node = s.mgmt.node := (place_onlySent p c o k s).node
@[simp] theorem place_requests : (place p c o k s).mgmt.requests = s.mgmt.requests := (place_onlySent p c o k s).requests
@[simp] theorem place_inHand : (place p c o k s).mgmt.inHand = s.mgmt.inHand := (place_onlySent p c o k s).inHand
@[simp] theorem place_enabled : (place p c o k s).mgmt.enabled = s.mgmt.enabled := (place_onlySent p c o k s).enabled
@[simp] theorem place_causes : (place p c o k s).mgmt.causes = s.mgmt.causes := (place_onlySent p c o k s).causes

end Place

end Sys2Proof.Machine
end

