-- ==== Sys2Proof/Laws/Queues.lean ====
section
/-!
SUPPORT. The limits of the transmit queues (`QueueWithin`, `PartsLegal`) through the operations that fill them: `queueFrame`,
`offer`, `placeFrame`, `enterCondition`, `raiseCondition`, `place`.
-/

namespace Sys2Proof.Machine

/-- The origin of the entries that a port's queue has beside PLAIN ones. -/
def ownOrigin : Port → Origin
  | .upstream => .part
  | .actuator => .controlled

/-- What a content must meet to be placed at a port with an origin and a coalesce flag. -/
structure Fits (own o : Origin) (k : Bool) (c : Content) : Prop where
  origin  : o = .plain ∨ o = own
  flag    : o = own → k = true ∧ standardData c
  content : contentLegal o c

/-! ### One queue -/

section Queue

variable {own : Origin} {q q' : List Entry} {c : Content} {o : Origin} {k : Bool} {l : Loss}

theorem sameStream_iff {f : Frame} {e : Entry} :
    Entry.sameStream f o e = true ↔ e.content.frame.id = f.id ∧ e.content.frame.kind = f.kind ∧ e.origin = o := by
  simp [Entry.sameStream, and_assoc]

theorem QueueWithin.waiting_follow (h : QueueWithin own q) {e : Entry} (he : e ∈ q) (hw : e.offered = false) :
    e.followOn = none := by
  cases hf : e.followOn with
  | none => rfl
  | some x =>
    have := (h.entries e he).follower x hf
    simp [hw] at this

/-- One entry of a queue changed in content, attempts, follow-on or offer, its identifier and origin kept. -/
theorem QueueWithin.change {pre post : List Entry} {e e' : Entry} (h : QueueWithin own (pre ++ e :: post))
    (ho : e'.origin = e.origin) (hi : e'.content.frame.id = e.content.frame.id) (hl : EntryLegal own e')
    (hoff : (pre ++ e' :: post).countP (fun e => e.offered) ≤ 1) : QueueWithin own (pre ++ e' :: post) := by
  refine ⟨by simpa using h.total, ?_, ?_, ?_, hoff⟩
  · have := h.plain
    simpa [plainCount, List.countP_append, List.countP_cons, ho] using this
  · intro x hx
    rcases List.mem_append.mp hx with hx | hx
    · exact h.entries x (by simp [hx])
    · rcases List.mem_cons.mp hx with rfl | hx
      · exact hl
      · exact h.entries x (by simp [hx])
  · have := h.distinct
    simp only [List.filter_append, List.filter_cons, ho] at this ⊢
    split at this <;> simp_all

theorem QueueWithin.remove {pre post : List Entry} {e : Entry} (h : QueueWithin own (pre ++ e :: post)) :
    QueueWithin own (pre ++ post) := by
  have hs : (pre ++ post).Sublist (pre ++ e :: post) := by simp
  refine ⟨le_trans hs.length_le h.total, le_trans hs.countP_le h.plain, fun x hx => h.entries x (hs.subset hx), ?_,
    le_trans hs.countP_le h.oneOffer⟩
  exact List.Nodup.sublist ((hs.filter _).map _) h.distinct

theorem QueueWithin.join (h : QueueWithin own q) (hf : Fits own o k c)
    (room : q.length < Config.queuePlaces) (plain : o = .plain → plainCount q < Config.plainPlaces)
    (fresh : k = true → ∀ x ∈ q, Entry.sameStream c.frame o x = false) : QueueWithin own (q ++ [newEntry c o k]) := by
  have hmem : ∀ x ∈ q ++ [newEntry c o k], x ∈ q ∨ x = newEntry c o k := by simp
  refine ⟨by simpa using room, ?_, ?_, ?_, ?_⟩
  · have := h.plain
    by_cases ho : o = .plain
    · have := plain ho
      simp only [plainCount, List.countP_append, List.countP_singleton] at this ⊢
      split <;> omega
    · simpa [plainCount, List.countP_append, newEntry, ho] using this
  · intro x hx
    rcases hmem x hx with hx | rfl
    · exact h.entries x hx
    · refine ⟨hf.origin, hf.flag, ?_, hf.content, ?_⟩
      · simp [newEntry, Config.maxAttempts]
      · simp [newEntry]
  · have hd := h.distinct
    rw [List.filter_append, List.map_append]
    by_cases ho : o = own
    · obtain ⟨hk, hc⟩ := hf.flag ho
      refine List.Nodup.append hd (by simp [newEntry, ho]) ?_
      simp only [List.filter_cons, newEntry, ho, beq_self_eq_true, if_true, List.filter_nil, List.map_cons, List.map_nil,
        List.disjoint_singleton, List.mem_map, List.mem_filter, beq_iff_eq, not_exists, not_and, and_imp]
      intro x hx hxo hid
      have hs := fresh hk x hx
      have hx' := (h.entries x hx).flag hxo
      rw [← Bool.not_eq_true, sameStream_iff] at hs
      exact hs ⟨hid, by rw [hx'.2.1, hc.1], by rw [hxo, ho]⟩
    · have : ([newEntry c o k].filter fun e => e.origin == own) = [] := by simp [newEntry, ho]
      rw [this]
      simpa using hd
  · have := h.oneOffer
    simpa [List.countP_append, newEntry] using this

/-- The limits of a queue hold after a placing. -/
theorem Placed.within (h : QueueWithin own q) (hf : Fits own o k c) (hp : Placed c o k q (q', l)) :
    QueueWithin own q' := by
  cases hp with
  | replaced pre post e split flag same waits last =>
    subst split
    have he := h.entries e (by simp)
    obtain ⟨h1, h2, h3⟩ := sameStream_iff.mp same
    refine h.change rfl h1.symm ⟨he.origin, fun ho => ?_, by simp [Config.maxAttempts], by simpa [h3] using hf.content, ?_⟩ ?_
    · exact ⟨(he.flag ho).1, (hf.flag (h3 ▸ ho)).2⟩
    · intro x hx
      have := h.waiting_follow (by simp) waits
      simp [this] at hx
    · have := h.oneOffer
      simpa [List.countP_append, List.countP_cons] using this
  | followed pre post e split flag same offered last none =>
    subst split
    have he := h.entries e (by simp)
    obtain ⟨h1, h2, h3⟩ := sameStream_iff.mp same
    refine h.change rfl rfl ⟨he.origin, he.flag, he.attempts, he.content, ?_⟩ ?_
    · intro x hx
      obtain rfl := Option.some.inj hx
      exact ⟨offered, by simpa [h3] using hf.content, h1.symm, h2.symm⟩
    · have := h.oneOffer
      simpa [List.countP_append, List.countP_cons] using this
  | joined fits plain fresh => exact h.join hf fits plain fresh
  | dropped plain full fresh => exact h
  | displaced pre post e split own full waits choice fresh =>
    subst split
    refine h.remove.join hf ?_ (fun ho => absurd ho own) fun hk x hx => fresh hk x ?_
    · have := h.total
      simp only [List.length_append, List.length_cons] at this ⊢
      omega
    · rcases List.mem_append.mp hx with hx | hx <;> simp [hx]
  | overfull own full busy fresh =>
    exfalso
    have := h.oneOffer
    rw [List.countP_eq_length.mpr busy] at this
    simp only [Config.queuePlaces] at full
    omega

/-- The limits of a queue hold after the offer. -/
theorem QueueWithin.offer (h : QueueWithin own q) : QueueWithin own (Machine.offer q) := by
  have ho := offer_offers q
  generalize Machine.offer q = q1 at ho
  cases ho with
  | busy _ => exact h
  | empty _ => exact h
  | taken pre post e split idle lowest oldest =>
    subst split
    have he := h.entries e (by simp)
    refine h.change rfl rfl ⟨he.origin, he.flag, he.attempts, he.content, fun x hx => ?_⟩ ?_
    · have := he.follower x hx
      exact ⟨rfl, this.2⟩
    · have h1 : pre.countP (fun e => e.offered) = 0 := by
        rw [List.countP_eq_zero]
        intro x hx
        simp [idle x (by simp [hx])]
      have h2 : post.countP (fun e => e.offered) = 0 := by
        rw [List.countP_eq_zero]
        intro x hx
        simp [idle x (by simp [hx])]
      simp [List.countP_append, h1, h2]

end Queue

/-! ### The awaited part (R155) -/

/-- An entry that holds the awaited part of a response, as its content or its follow-on. -/
def Entry.marked (e : Entry) : Prop := e.content.awaitedPart = true ∨ ∃ c, e.followOn = some c ∧ c.awaitedPart = true

/-- `PartsLegal` of one queue: `active` says that a response is in progress, `id` is the response identifier. -/
structure PartsIn (active : Prop) (id : FrameId) (q : List Entry) : Prop where
  marked : ∀ e ∈ q, ∀ c, e.content = c ∨ e.followOn = some c → c.awaitedPart = true →
    active ∧ e.origin = .part ∧ c.frame.id = id
  last   : ∀ e ∈ q, e.content.awaitedPart = true → e.followOn = none

section Parts

variable {active : Prop} {id : FrameId} {q q' : List Entry} {c : Content} {o : Origin} {k : Bool} {l : Loss}

theorem PartsIn.entry (h : PartsIn active id q) (hw : QueueWithin .part q) {e : Entry} (he : e ∈ q) (hm : e.marked) :
    active ∧ e.origin = .part ∧ e.content.frame.id = id := by
  rcases hm with hm | ⟨c, hc, hm⟩
  · exact h.marked e he _ (.inl rfl) hm
  · obtain ⟨h1, h2, h3⟩ := h.marked e he c (.inr hc) hm
    exact ⟨h1, h2, by rw [← ((hw.entries e he).follower c hc).2.2.1, h3]⟩

/-- At most one entry holds an awaited part. -/
theorem PartsIn.unique {pre post : List Entry} {e : Entry} (h : PartsIn active id (pre ++ e :: post))
    (hw : QueueWithin .part (pre ++ e :: post)) (hm : e.marked) : ∀ x ∈ pre ++ post, ¬ x.marked := by
  intro x hx hxm
  obtain ⟨-, ho, hi⟩ := h.entry hw (by simp) hm
  obtain ⟨-, hxo, hxi⟩ := h.entry hw (e := x) (by
    rcases List.mem_append.mp hx with hx | hx <;> simp [hx]) hxm
  have hd := hw.distinct
  simp only [List.filter_append, List.filter_cons, ho, beq_self_eq_true, if_true, List.map_append, List.map_cons,
    List.nodup_middle, List.nodup_cons] at hd
  refine hd.1 ?_
  rw [← List.map_append, ← List.filter_append, hi, ← hxi]
  exact List.mem_map_of_mem (List.mem_filter.mpr ⟨hx, by simp [hxo]⟩)

theorem PartsIn.change {pre post : List Entry} {e e' : Entry} (h : PartsIn active id (pre ++ e :: post))
    (h1 : ∀ c, e'.content = c ∨ e'.followOn = some c → c.awaitedPart = true → active ∧ e'.origin = .part ∧ c.frame.id = id)
    (h2 : e'.content.awaitedPart = true → e'.followOn = none) : PartsIn active id (pre ++ e' :: post) := by
  constructor
  · intro x hx
    rcases List.mem_append.mp hx with hx | hx
    · exact h.marked x (by simp [hx])
    · rcases List.mem_cons.mp hx with rfl | hx
      · exact h1
      · exact h.marked x (by simp [hx])
  · intro x hx
    rcases List.mem_append.mp hx with hx | hx
    · exact h.last x (by simp [hx])
    · rcases List.mem_cons.mp hx with rfl | hx
      · exact h2
      · exact h.last x (by simp [hx])

theorem PartsIn.subset (h : PartsIn active id q) (hs : ∀ x ∈ q', x ∈ q) : PartsIn active id q' :=
  ⟨fun x hx => h.marked x (hs x hx), fun x hx => h.last x (hs x hx)⟩

theorem PartsIn.join (h : PartsIn active id q) (hc : c.awaitedPart = true → active ∧ o = .part ∧ c.frame.id = id) :
    PartsIn active id (q ++ [newEntry c o k]) := by
  constructor
  · intro x hx
    rcases List.mem_append.mp hx with hx | hx
    · exact h.marked x hx
    · obtain rfl := List.mem_singleton.mp hx
      rintro y (rfl | hy) hm
      · exact hc hm
      · simp [newEntry] at hy
  · intro x hx
    rcases List.mem_append.mp hx with hx | hx
    · exact h.last x hx
    · obtain rfl := List.mem_singleton.mp hx
      intro _
      rfl

/-- The marks through a placing: a marked content, and any other of the response stream, comes only where nothing is
marked. -/
theorem Placed.parts (h : PartsIn active id q) (hw : QueueWithin .part q)
    (hc : c.awaitedPart = true → active ∧ o = .part ∧ c.frame.id = id)
    (hu : o = .part → c.frame.id = id → ∀ e ∈ q, ¬ e.marked) (hp : Placed c o k q (q', l)) : PartsIn active id q' := by
  cases hp with
  | replaced pre post e split flag same waits last =>
    subst split
    have hf := hw.waiting_follow (e := e) (by simp) waits
    obtain ⟨h1, h2, h3⟩ := sameStream_iff.mp same
    refine h.change ?_ fun _ => hf
    rintro x (rfl | hx) hm
    · obtain ⟨a1, a2, a3⟩ := hc hm
      exact ⟨a1, h3.trans a2, a3⟩
    · simp [hf] at hx
  | followed pre post e split flag same offered last none =>
    subst split
    obtain ⟨h1, h2, h3⟩ := sameStream_iff.mp same
    refine h.change ?_ fun hm => ?_
    · rintro x (rfl | hx) hm
      · exact h.marked e (by simp) _ (.inl rfl) hm
      · obtain rfl := Option.some.inj hx
        obtain ⟨a1, a2, a3⟩ := hc hm
        exact ⟨a1, h3.trans a2, a3⟩
    · obtain ⟨-, a2, a3⟩ := h.entry hw (e := e) (by simp) (.inl hm)
      exact absurd (.inl hm) (hu (h3 ▸ a2) (h1 ▸ a3) e (by simp))
  | joined fits plain fresh => exact h.join hc
  | dropped plain full fresh => exact h
  | displaced pre post e split own full waits choice fresh =>
    subst split
    refine (h.subset fun x hx => ?_).join hc
    rcases List.mem_append.mp hx with hx | hx <;> simp [hx]
  | overfull own full busy fresh => exact h.join hc

/-- The marked entry stays through the placing of an unmarked content, or it is the one displaced, and then none is left. -/
theorem Placed.present (h : PartsIn active id q) (hw : QueueWithin .part q) (hc : c.awaitedPart = false)
    (hu : o = .part → c.frame.id = id → ∀ e ∈ q, ¬ e.marked) (hm : ∃ e ∈ q, e.marked) (hp : Placed c o k q (q', l)) :
    (∃ e ∈ q', e.marked) ∧ (∀ e, l = .displaced e → e.content.awaitedPart = false) ∨
      ∃ e, l = .displaced e ∧ e.content.awaitedPart = true ∧ ∀ x ∈ q', ¬ x.marked := by
  obtain ⟨m, hmq, hm⟩ := hm
  have no : ∀ e ∈ q, Entry.sameStream c.frame o e = true → ¬ e.marked := by
    intro e he hs hme
    obtain ⟨h1, h2, h3⟩ := sameStream_iff.mp hs
    obtain ⟨-, a2, a3⟩ := h.entry hw he hme
    exact hu (h3 ▸ a2) (h1 ▸ a3) e he hme
  cases hp with
  | replaced pre post e split flag same waits last =>
    subst split
    refine .inl ⟨⟨m, ?_, hm⟩, by simp⟩
    rcases List.mem_append.mp hmq with hx | hx
    · simp [hx]
    · rcases List.mem_cons.mp hx with rfl | hx
      · exact absurd hm (no m (by simp) same)
      · simp [hx]
  | followed pre post e split flag same offered last none =>
    subst split
    refine .inl ⟨⟨m, ?_, hm⟩, by simp⟩
    rcases List.mem_append.mp hmq with hx | hx
    · simp [hx]
    · rcases List.mem_cons.mp hx with rfl | hx
      · exact absurd hm (no m (by simp) same)
      · simp [hx]
  | joined fits plain fresh => exact .inl ⟨⟨m, by simp [hmq], hm⟩, by simp⟩
  | dropped plain full fresh => exact .inl ⟨⟨m, hmq, hm⟩, by simp⟩
  | displaced pre post e split own full waits choice fresh =>
    subst split
    have hf := hw.waiting_follow (e := e) (by simp) waits
    have hnew : ¬ (newEntry c o k).marked := by
      rintro (h | ⟨x, hx, -⟩)
      · simp [newEntry, hc] at h
      · simp [newEntry] at hx
    by_cases hme : e.marked
    · refine .inr ⟨e, rfl, ?_, ?_⟩
      · rcases hme with h | ⟨x, hx, -⟩
        · exact h
        · simp [hf] at hx
      · intro x hx
        rcases List.mem_append.mp hx with hx | hx
        · exact h.unique hw hme x hx
        · obtain rfl := List.mem_singleton.mp hx
          exact hnew
    · refine .inl ⟨⟨m, ?_, hm⟩, ?_⟩
      · rcases List.mem_append.mp hmq with hx | hx
        · simp [hx]
        · rcases List.mem_cons.mp hx with rfl | hx
          · exact absurd hm hme
          · simp [hx]
      · intro x hx
        obtain rfl := Loss.displaced.inj hx
        cases ha : e.content.awaitedPart with
        | false => rfl
        | true => exact absurd (.inl ha) hme
  | overfull own full busy fresh => exact .inl ⟨⟨m, by simp [hmq], hm⟩, by simp⟩

theorem PartsIn.offer (h : PartsIn active id q) : PartsIn active id (Machine.offer q) := by
  have ho := offer_offers q
  generalize Machine.offer q = q1 at ho
  cases ho with
  | busy _ => exact h
  | empty _ => exact h
  | taken pre post e split idle lowest oldest =>
    subst split
    exact h.change (h.marked e (by simp)) (h.last e (by simp))

theorem marked_offer : (∃ e ∈ Machine.offer q, e.marked) ↔ ∃ e ∈ q, e.marked := by
  have ho := offer_offers q
  generalize Machine.offer q = q1 at ho
  cases ho with
  | busy _ => rfl
  | empty _ => rfl
  | taken pre post e split idle lowest oldest =>
    subst split
    constructor
    · rintro ⟨x, hx, hm⟩
      rcases List.mem_append.mp hx with hx | hx
      · exact ⟨x, by simp [hx], hm⟩
      · rcases List.mem_cons.mp hx with rfl | hx
        · exact ⟨e, by simp, hm⟩
        · exact ⟨x, by simp [hx], hm⟩
    · rintro ⟨x, hx, hm⟩
      rcases List.mem_append.mp hx with hx | hx
      · exact ⟨x, by simp [hx], hm⟩
      · rcases List.mem_cons.mp hx with rfl | hx
        · exact ⟨{ x with offered := true }, by simp, hm⟩
        · exact ⟨x, by simp [hx], hm⟩

end Parts

/-! ### Both queues of the part -/

/-- `QueuesLegal` without the offers: what holds between the changes of a command. -/
structure QueuesSound (s : State) : Prop where
  up       : QueueWithin .part s.upstream
  act      : QueueWithin .controlled s.actuator
  parts    : PartsIn (s.mgmt.response ≠ none) (.std (s.nodeId Config.responseBase)) s.upstream
  present  : s.mgmt.response ≠ none → ∃ e ∈ s.upstream, e.marked
  actuator : ∀ e ∈ s.actuator, ¬ e.marked

theorem not_marked_iff {e : Entry} :
    ¬ e.marked ↔ ∀ c, e.content = c ∨ e.followOn = some c → c.awaitedPart = false := by
  constructor
  · rintro h c (rfl | hc)
    · cases hm : e.content.awaitedPart with
      | false => rfl
      | true => exact absurd (.inl hm) h
    · cases hm : c.awaitedPart with
      | false => rfl
      | true => exact absurd (.inr ⟨c, hc, hm⟩) h
  · rintro h (hm | ⟨c, hc, hm⟩)
    · simp [h _ (.inl rfl)] at hm
    · simp [h c (.inr hc)] at hm

/-- `QueuesLegal` is `QueuesSound` with the two offers. -/
theorem queuesLegal_iff (s : State) : QueuesLegal s ↔ QueuesSound s ∧ offering s.upstream ∧ offering s.actuator := by
  constructor
  · rintro ⟨h1, h2, h3, h4, h5⟩
    exact ⟨⟨h1, h3, ⟨h5.marked, h5.last⟩, h5.present, fun e he => not_marked_iff.mpr (h5.actuator e he)⟩, h2, h4⟩
  · rintro ⟨h, h2, h4⟩
    exact ⟨h.up, h2, h.act, h4,
      ⟨h.parts.marked, h.parts.last, h.present, fun e he => not_marked_iff.mp (h.actuator e he)⟩⟩

/-- A queue without a marked entry meets `PartsIn` of any response. -/
theorem PartsIn.of_none {active : Prop} {id : FrameId} {q : List Entry} (h : ∀ e ∈ q, ¬ e.marked) : PartsIn active id q :=
  ⟨fun e he c hc hm => by simp [not_marked_iff.mp (h e he) c hc] at hm, fun e he hm => absurd (.inl hm) (h e he)⟩

/-- The marks of the actuator queue: none comes with an unmarked content, and none is displaced. -/
theorem Placed.unmarked {c : Content} {o : Origin} {k : Bool} {q q' : List Entry} {l : Loss}
    (h : ∀ e ∈ q, ¬ e.marked) (hc : c.awaitedPart = false) (hp : Placed c o k q (q', l)) :
    (∀ e ∈ q', ¬ e.marked) ∧ ∀ e, l = .displaced e → e.content.awaitedPart = false := by
  have hnew : ¬ (newEntry c o k).marked := by
    rintro (h | ⟨x, hx, -⟩)
    · simp [newEntry, hc] at h
    · simp [newEntry] at hx
  have hjoin : ∀ q1 : List Entry, (∀ e ∈ q1, ¬ e.marked) → ∀ e ∈ q1 ++ [newEntry c o k], ¬ e.marked := by
    intro q1 h1 e he
    rcases List.mem_append.mp he with he | he
    · exact h1 e he
    · obtain rfl := List.mem_singleton.mp he
      exact hnew
  have hput : ∀ (pre post : List Entry) (e e' : Entry), (∀ x ∈ pre ++ e :: post, ¬ x.marked) → ¬ e'.marked →
      ∀ x ∈ pre ++ e' :: post, ¬ x.marked := by
    intro pre post e e' h1 h2 x hx
    rcases List.mem_append.mp hx with hx | hx
    · exact h1 x (by simp [hx])
    · rcases List.mem_cons.mp hx with rfl | hx
      · exact h2
      · exact h1 x (by simp [hx])
  cases hp with
  | replaced pre post e split flag same waits last =>
    subst split
    refine ⟨hput _ _ _ _ h (not_marked_iff.mpr ?_), by simp⟩
    rintro x (rfl | hx)
    · exact hc
    · exact not_marked_iff.mp (h e (by simp)) x (.inr hx)
  | followed pre post e split flag same offered last none =>
    subst split
    refine ⟨hput _ _ _ _ h (not_marked_iff.mpr ?_), by simp⟩
    rintro x (rfl | hx)
    · exact not_marked_iff.mp (h e (by simp)) _ (.inl rfl)
    · obtain rfl := Option.some.inj hx
      exact hc
  | joined fits plain fresh => exact ⟨hjoin q h, by simp⟩
  | dropped plain full fresh => exact ⟨h, by simp⟩
  | displaced pre post e split own full waits choice fresh =>
    subst split
    refine ⟨hjoin _ fun x hx => h x ?_, ?_⟩
    · rcases List.mem_append.mp hx with hx | hx <;> simp [hx]
    · rintro x hx
      obtain rfl := Loss.displaced.inj hx
      exact not_marked_iff.mp (h e (by simp)) _ (.inl rfl)
  | overfull own full busy fresh => exact ⟨hjoin q h, by simp⟩

/-- What `placeFrame` leaves, by the loss. -/
theorem placeFrame_eq (p : Port) (c : Content) (o : Origin) (k : Bool) (s : State) :
    ∃ q l, Placed c o k (s.queue p) (q, l) ∧
      placeFrame p c o k s = (match l with
        | .nothing => (s.setQueue p (offer q), false)
        | .dropped => (s.setQueue p (offer q), true)
        | .displaced e => ((s.setQueue p (offer q)).partLost e.content, true)) := by
  have h := queueFrame_placed c o k (s.queue p)
  unfold placeFrame
  generalize queueFrame c o k (s.queue p) = r at h
  obtain ⟨q, l⟩ := r
  exact ⟨q, l, h, by cases l <;> rfl⟩

theorem QueuesSound.setActuator {s : State} (h : QueuesSound s) {q : List Entry} (h1 : QueueWithin .controlled q)
    (h2 : ∀ e ∈ q, ¬ e.marked) : QueuesSound (s.setQueue .actuator q) :=
  ⟨h.up, h1, h.parts, h.present, h2⟩

theorem offer_unmarked {q : List Entry} (h : ∀ e ∈ q, ¬ e.marked) : ∀ e ∈ offer q, ¬ e.marked := by
  intro e he hm
  obtain ⟨x, hx, hxm⟩ := marked_offer.mp ⟨e, he, hm⟩
  exact h x hx hxm

theorem placeFrame_sound {p : Port} {c : Content} {o : Origin} {k : Bool} {s : State} (h : QueuesSound s)
    (hf : Fits (ownOrigin p) o k c) (hc : c.awaitedPart = false)
    (hu : p = .upstream → o = .part → c.frame.id = .std (s.nodeId Config.responseBase) → s.mgmt.response = none) :
    QueuesSound (placeFrame p c o k s).1 := by
  obtain ⟨q, l, hp, he⟩ := placeFrame_eq p c o k s
  rw [he]
  cases p with
  | actuator =>
    obtain ⟨h1, h2⟩ := hp.unmarked h.actuator hc
    have hs := h.setActuator (hp.within h.act hf).offer (offer_unmarked h1)
    cases l with
    | nothing => exact hs
    | dropped => exact hs
    | displaced e =>
      have : (s.setQueue .actuator (offer q)).partLost e.content = s.setQueue .actuator (offer q) := by
        simp [State.partLost, h2 e rfl]
      dsimp only
      rw [this]
      exact hs
  | upstream =>
    have hw := (hp.within h.up hf).offer
    have hu' : o = .part → c.frame.id = .std (s.nodeId Config.responseBase) → ∀ e ∈ s.upstream, ¬ e.marked := by
      intro h1 h2 e he hm
      exact (h.parts.entry h.up he hm).1 (hu rfl h1 h2)
    have hparts := (hp.parts h.parts h.up (by simp [hc]) hu').offer
    have keep : ((∃ e ∈ s.upstream, e.marked) → ∃ e ∈ q, e.marked) → QueuesSound (s.setQueue .upstream (offer q)) :=
      fun hk => ⟨hw, h.act, hparts, fun hr => marked_offer.mpr (hk (h.present hr)), h.actuator⟩
    by_cases hm : ∃ e ∈ s.upstream, e.marked
    · rcases hp.present h.parts h.up hc hu' hm with ⟨h1, h2⟩ | ⟨e, rfl, h2, h3⟩
      · cases l with
        | nothing => exact keep fun _ => h1
        | dropped => exact keep fun _ => h1
        | displaced e =>
          have : (s.setQueue .upstream (offer q)).partLost e.content = s.setQueue .upstream (offer q) := by
            simp [State.partLost, h2 e rfl]
          dsimp only
          rw [this]
          exact keep fun _ => h1
      · have : (s.setQueue .upstream (offer q)).partLost e.content = (s.setQueue .upstream (offer q)).discardResponse := by
          simp [State.partLost, h2]
        dsimp only
        rw [this]
        exact ⟨hw, h.act, .of_none (offer_unmarked h3), by simp, h.actuator⟩
    · have hr : s.mgmt.response = none := by
        by_contra hr
        exact hm (h.present hr)
      have hn : ∀ e ∈ s.upstream, ¬ e.marked := fun e he h => hm ⟨e, he, h⟩
      have h2 := (hp.unmarked hn hc).2
      cases l with
      | nothing => exact keep fun h => absurd h hm
      | dropped => exact keep fun h => absurd h hm
      | displaced e =>
        have : (s.setQueue .upstream (offer q)).partLost e.content = s.setQueue .upstream (offer q) := by
          simp [State.partLost, h2 e rfl]
        dsimp only
        rw [this]
        exact keep fun h => absurd h hm

/-- After a placing the port offers. -/
theorem placeFrame_offering (p : Port) (c : Content) (o : Origin) (k : Bool) (s : State) :
    offering ((placeFrame p c o k s).1.queue p) := by
  obtain ⟨q, l, -, he⟩ := placeFrame_eq p c o k s
  rw [he]
  cases l <;> cases p <;> simp [offer_offering]

theorem placeFrame_other (p : Port) (c : Content) (o : Origin) (k : Bool) (s : State) :
    (placeFrame p c o k s).1.queue p.other = s.queue p.other := by
  obtain ⟨q, l, -, he⟩ := placeFrame_eq p c o k s
  rw [he]
  cases l <;> cases p <;> simp [Port.other]

/-! ### Notices and conditions -/

theorem nodeId_ne (s : State) : s.nodeId Config.noticeBase ≠ s.nodeId Config.responseBase := by
  unfold State.nodeId
  generalize s.mgmt.node = n
  revert n
  decide

/-- A standard data frame of the part's own fits its PART place. -/
theorem fits_dataFrame (id : BitVec 11) (d : List Byte) (hd : d.length ≤ 8) (b : Bool) :
    Fits .part .part true { frame := dataFrame id d, reduced := none, awaitedPart := b } :=
  ⟨.inr rfl, fun _ => ⟨rfl, rfl, id, rfl⟩, hd, hd, by simp⟩

theorem enterCondition_sound {s : State} (h : QueuesSound s) (c : Condition) : QueuesSound (enterCondition c s).1 := by
  have h1 : QueuesSound { s with mgmt := { s.mgmt with conditions := s.mgmt.conditions ||| c.bit } } :=
    ⟨h.up, h.act, h.parts, h.present, h.actuator⟩
  unfold enterCondition
  dsimp only
  split
  · refine placeFrame_sound h1 (fits_dataFrame _ _ (by simp [withCheck, condBytes, wordBytes]) _) rfl fun _ _ hid => ?_
    exact absurd (FrameId.std.inj hid) (nodeId_ne s)
  · exact h1

theorem raiseCondition_sound {s : State} (h : QueuesSound s) (c : Condition) : QueuesSound (raiseCondition c s) := by
  unfold raiseCondition
  split
  · exact h
  · have h1 := enterCondition_sound h c
    generalize enterCondition c s = r at h1
    obtain ⟨s1, lost⟩ := r
    dsimp only
    split
    · exact enterCondition_sound h1 _
    · exact h1

theorem enterCondition_offering {s : State} (h : offering s.upstream) (c : Condition) :
    offering (enterCondition c s).1.upstream := by
  unfold enterCondition
  dsimp only
  split
  · exact placeFrame_offering .upstream _ _ _ _
  · exact h

theorem raiseCondition_offering {s : State} (h : offering s.upstream) (c : Condition) :
    offering (raiseCondition c s).upstream := by
  unfold raiseCondition
  split
  · exact h
  · have h1 := enterCondition_offering h c
    generalize enterCondition c s = r at h1
    obtain ⟨s1, lost⟩ := r
    dsimp only
    split
    · exact enterCondition_offering h1 _
    · exact h1

/-- Raising a condition keeps the limits of the queues. -/
theorem raiseCondition_queuesLegal {s : State} (h : QueuesLegal s) (c : Condition) : QueuesLegal (raiseCondition c s) := by
  rw [queuesLegal_iff] at h ⊢
  exact ⟨raiseCondition_sound h.1 c, raiseCondition_offering h.2.1 c, by simpa using h.2.2⟩

theorem place_sound {p : Port} {c : Content} {o : Origin} {k : Bool} {s : State} (h : QueuesSound s)
    (hf : Fits (ownOrigin p) o k c) (hc : c.awaitedPart = false)
    (hu : p = .upstream → o = .part → c.frame.id = .std (s.nodeId Config.responseBase) → s.mgmt.response = none) :
    QueuesSound (place p c o k s) := by
  unfold place
  have h1 := placeFrame_sound h hf hc hu
  generalize placeFrame p c o k s = r at h1
  obtain ⟨s1, lost⟩ := r
  dsimp only
  split
  · exact raiseCondition_sound h1 _
  · exact h1

theorem place_offering {p : Port} {s : State} (c : Content) (o : Origin) (k : Bool)
    (hu : p = .actuator → offering s.upstream) (ha : p = .upstream → offering s.actuator) :
    offering (place p c o k s).upstream ∧ offering (place p c o k s).actuator := by
  unfold place
  have h1 := placeFrame_offering p c o k s
  have h2 := placeFrame_other p c o k s
  generalize placeFrame p c o k s = r at h1 h2
  obtain ⟨s1, lost⟩ := r
  have h3 : offering s1.upstream ∧ offering s1.actuator := by
    cases p with
    | upstream =>
      simp only [Port.other, State.queue_upstream, State.queue_actuator] at h1 h2
      exact ⟨h1, h2 ▸ ha rfl⟩
    | actuator =>
      simp only [Port.other, State.queue_upstream, State.queue_actuator] at h1 h2
      exact ⟨h2 ▸ hu rfl, h1⟩
  dsimp only
  split
  · exact ⟨raiseCondition_offering h3.1 _, by simpa using h3.2⟩
  · exact h3

/-- Placing a frame that is no awaited part keeps the limits of the queues. -/
theorem place_queuesLegal {p : Port} {c : Content} {o : Origin} {k : Bool} {s : State} (h : QueuesLegal s)
    (hf : Fits (ownOrigin p) o k c) (hc : c.awaitedPart = false)
    (hu : p = .upstream → o = .part → c.frame.id = .std (s.nodeId Config.responseBase) → s.mgmt.response = none) :
    QueuesLegal (place p c o k s) := by
  rw [queuesLegal_iff] at h ⊢
  exact ⟨place_sound h.1 hf hc hu, place_offering c o k (fun _ => h.2.1) fun _ => h.2.2⟩

/-- The limits of the queues depend on the queues, the response in progress and the node number alone. -/
theorem QueuesLegal.congr {s u : State} (h : QueuesLegal s) (h1 : u.upstream = s.upstream) (h2 : u.actuator = s.actuator)
    (h3 : u.mgmt.response = s.mgmt.response) (h4 : u.mgmt.node = s.mgmt.node) : QueuesLegal u := by
  have h5 : u.nodeId Config.responseBase = s.nodeId Config.responseBase := by unfold State.nodeId; rw [h4]
  refine ⟨h1 ▸ h.upstream, h1 ▸ h.upOffer, h2 ▸ h.actuator, h2 ▸ h.actOffer, ?_⟩
  constructor
  · rw [h1, h3, h5]
    exact h.parts.marked
  · rw [h1]
    exact h.parts.last
  · rw [h1, h3]
    exact h.parts.present
  · rw [h2]
    exact h.parts.actuator

end Sys2Proof.Machine
end

