-- ==== Sys2Proof/Laws/Management.lean ====
section
/-!
SUPPORT. What a response leaves (`Answered`) and what the taking of a request can do. The statements about requests need no
unfolding of the queues: cite `takeRequest_ready` and `respond_answered`.
-/

namespace Sys2Proof.Machine

/-! ### A part placed over a queue without awaited parts -/

/-- The last entry of a queue keeps its content through the offer, and the others keep theirs. -/
theorem offer_last (q : List Entry) (n : Entry) : ∃ l x, offer (q ++ [n]) = l ++ [x] ∧ l.length = q.length ∧
    x.content = n.content ∧ x.origin = n.origin ∧
    ∀ y ∈ l, ∃ z ∈ q, y.content = z.content ∧ y.followOn = z.followOn := by
  have ho := offer_offers (q ++ [n])
  generalize offer (q ++ [n]) = q1 at ho
  cases ho with
  | busy _ => exact ⟨q, n, rfl, rfl, rfl, rfl, fun y hy => ⟨y, hy, rfl, rfl⟩⟩
  | empty h => simp at h
  | taken pre post e split idle lowest oldest =>
    rcases List.eq_nil_or_concat post with rfl | ⟨init, z, rfl⟩
    · obtain ⟨h1, h2⟩ := List.append_inj' split rfl
      simp only [List.cons.injEq, and_true] at h2
      exact ⟨pre, { e with offered := true }, rfl, by rw [h1], by rw [h2], by rw [h2],
        fun y hy => ⟨y, by rw [h1]; exact hy, rfl, rfl⟩⟩
    · have hs : q ++ [n] = (pre ++ e :: init) ++ [z] := by simpa using split
      obtain ⟨h1, h2⟩ := List.append_inj' hs rfl
      simp only [List.cons.injEq, and_true] at h2
      refine ⟨pre ++ { e with offered := true } :: init, z, by simp, by simp [h1], by rw [h2], by rw [h2], ?_⟩
      intro y hy
      rw [h1]
      rcases List.mem_append.mp hy with hy | hy
      · exact ⟨y, by simp [hy], rfl, rfl⟩
      · rcases List.mem_cons.mp hy with rfl | hy
        · exact ⟨e, by simp, rfl, rfl⟩
        · exact ⟨y, by simp [hy], rfl, rfl⟩

/-- A split of a list that ends in `x`: at `x`, or before it. -/
theorem split_before {pre post l : List Entry} {e x : Entry} (h : pre ++ e :: post = l ++ [x]) :
    post = [] ∧ e = x ∧ pre = l ∨ x ∈ post ∧ e ∈ l ∧ ∀ y ∈ pre, y ∈ l := by
  rcases List.eq_nil_or_concat post with rfl | ⟨init, z, rfl⟩
  · obtain ⟨h1, h2⟩ := List.append_inj' h rfl
    simp only [List.cons.injEq, and_true] at h2
    exact .inl ⟨rfl, h2, h1⟩
  · have hs : (pre ++ e :: init) ++ [z] = l ++ [x] := by simpa using h
    obtain ⟨h1, h2⟩ := List.append_inj' hs rfl
    simp only [List.cons.injEq, and_true] at h2
    exact .inr ⟨by simp [h2], by simp [← h1], fun y hy => by simp [← h1, hy]⟩

/-- What the placing of a response part leaves, over an upstream queue that holds no awaited part. -/
structure PartPlaced (s t : State) (c : Content) : Prop where
  holds      : holds t.upstream c
  conditions : t.mgmt.conditions = s.mgmt.conditions ∨ t.mgmt.conditions = s.mgmt.conditions ||| Condition.forwardDrop.bit
  frame      : t = { s with upstream := t.upstream, mgmt := { s.mgmt with conditions := t.mgmt.conditions } }

theorem partLost_unmarked {s : State} {c : Content} (h : c.awaitedPart = false) : s.partLost c = s := by
  simp [State.partLost, h]

/-- The notice of FORWARD_DROP, placed behind a response part in a full queue, gives up another entry. -/
theorem forwardDrop_after {s : State} {c : Content} {l : List Entry} {x : Entry}
    (hup : s.upstream = l ++ [x]) (hl : l.length + 1 = Config.queuePlaces) (hone : (s.upstream.countP fun e => e.offered) ≤ 1)
    (hx : x.content = c) (hxo : x.origin = .part)
    (hid : c.frame.id = .std (s.nodeId Config.responseBase)) (hm : ∀ y ∈ l, y.content.awaitedPart = false) :
    PartPlaced s (raiseCondition .forwardDrop s) c := by
  have own : PartPlaced s s c := ⟨⟨x, by simp [hup], .inl hx⟩, .inl rfl, rfl⟩
  unfold raiseCondition
  split
  · exact own
  · rename_i hnot
    have key : PartPlaced s (enterCondition .forwardDrop s).1 c ∧
        (enterCondition .forwardDrop s).1.mgmt.conditions = s.mgmt.conditions ||| Condition.forwardDrop.bit := by
      unfold enterCondition
      dsimp only
      split
      · obtain ⟨q, lo, hp, he⟩ := placeFrame_eq .upstream
          (plainContent (noticeFrame
            { s with mgmt := { s.mgmt with conditions := s.mgmt.conditions ||| Condition.forwardDrop.bit } } .forwardDrop))
          .part true { s with mgmt := { s.mgmt with conditions := s.mgmt.conditions ||| Condition.forwardDrop.bit } }
        rw [he]
        have hq : Machine.holds q c ∧ ∀ e, lo = .displaced e → e.content.awaitedPart = false := by
          have hne : ∀ e : Entry, e.content.frame.id = (noticeFrame s .forwardDrop).id → e ≠ x := by
            rintro e h1 rfl
            rw [hx, hid] at h1
            exact nodeId_ne s (FrameId.std.inj h1).symm
          have hup' : State.queue { s with
              mgmt := { s.mgmt with conditions := s.mgmt.conditions ||| Condition.forwardDrop.bit } } .upstream = l ++ [x] := hup
          rw [hup'] at hp
          cases hp with
          | replaced pre post e split flag same waits last =>
            rcases split_before split.symm with ⟨-, h, -⟩ | ⟨h, -, -⟩
            · exact absurd h (hne e (sameStream_iff.mp same).1)
            · exact ⟨⟨x, by simp [h], .inl hx⟩, by simp⟩
          | followed pre post e split flag same offered last none =>
            rcases split_before split.symm with ⟨-, h, -⟩ | ⟨h, -, -⟩
            · exact absurd h (hne e (sameStream_iff.mp same).1)
            · exact ⟨⟨x, by simp [h], .inl hx⟩, by simp⟩
          | joined fits plain fresh => exact ⟨⟨x, by simp, .inl hx⟩, by simp⟩
          | dropped plain full fresh => simp at plain
          | displaced pre post e split own full waits choice fresh =>
            rcases split_before split.symm with ⟨-, h, hpre⟩ | ⟨h, hel, -⟩
            · exfalso
              rcases choice with ⟨h1, -⟩ | ⟨-, h2⟩
              · rw [h, hxo] at h1
                simp at h1
              · have hc : l.countP (fun e => e.offered) = l.length := by
                  rw [List.countP_eq_length, ← hpre]
                  exact h2
                rw [hup, List.countP_append, hc] at hone
                simp only [Config.queuePlaces] at hl
                omega
            · refine ⟨⟨x, by simp [h], .inl hx⟩, ?_⟩
              rintro e' he'
              obtain rfl := Loss.displaced.inj he'
              exact hm _ hel
          | overfull own full busy fresh => exact ⟨⟨x, by simp, .inl hx⟩, by simp⟩
        cases lo with
        | nothing => exact ⟨⟨holds_offer hq.1, .inr rfl, rfl⟩, rfl⟩
        | dropped => exact ⟨⟨holds_offer hq.1, .inr rfl, rfl⟩, rfl⟩
        | displaced e =>
          dsimp only
          rw [partLost_unmarked (hq.2 e rfl)]
          exact ⟨⟨holds_offer hq.1, .inr rfl, rfl⟩, rfl⟩
      · exact ⟨⟨own.holds, .inr rfl, rfl⟩, rfl⟩
    generalize enterCondition .forwardDrop s = r at key
    obtain ⟨s1, lost⟩ := r
    have hhas : CondSet.has s1.mgmt.conditions .forwardDrop = true := by
      simp only at key
      rw [key.2]
      simp [CondSet.has, Condition.bit, Condition.code]
    dsimp only
    rw [hhas]
    simpa using key.1

/-- A response part placed where no awaited part stands: it is in the queue, and nothing else changes but what R13 gives up. -/
theorem placePart_placed {s : State} (p : RespPart) (b : Bool) (hw : QueueWithin .part s.upstream)
    (hm : ∀ e ∈ s.upstream, ¬ e.marked) (hd : p.data.length ≤ 4) :
    PartPlaced s (placePart p b s) { frame := partFrame s p, reduced := none, awaitedPart := b } := by
  unfold placePart place
  have hfit : Fits .part .part true { frame := partFrame s p, reduced := none, awaitedPart := b } :=
    fits_dataFrame _ _ (by simp [withCheck]; omega) _
  generalize hc : ({ frame := partFrame s p, reduced := none, awaitedPart := b } : Content) = c at hfit
  have hid : c.frame.id = .std (s.nodeId Config.responseBase) := by rw [← hc]; rfl
  obtain ⟨q, l, hp, he⟩ := placeFrame_eq .upstream c .part true s
  rw [he]
  have simple : l ≠ .dropped → PartPlaced s (s.setQueue .upstream (offer q)) c := fun hl =>
    ⟨holds_offer (hp.holds hl), .inl rfl, rfl⟩
  cases l with
  | nothing => exact simple (by simp)
  | dropped => cases hp with | dropped plain _ _ => simp at plain
  | displaced e =>
    have hlast : ∃ pre post, s.upstream = pre ++ e :: post ∧ q = pre ++ post ++ [newEntry c .part true] ∧
        Config.queuePlaces ≤ s.upstream.length ∧ e.content.awaitedPart = false := by
      generalize hl : Loss.displaced e = l at hp
      cases hp with
      | displaced pre post e split own full waits choice fresh =>
        obtain rfl := Loss.displaced.inj hl
        refine ⟨pre, post, split, rfl, full, not_marked_iff.mp (hm _ ?_) _ (.inl rfl)⟩
        rw [State.queue_upstream] at split
        simp [split]
      | _ => simp at hl
    obtain ⟨pre, post, hs, rfl, hfull, hem⟩ := hlast
    dsimp only
    rw [partLost_unmarked hem, if_pos rfl]
    obtain ⟨lst, x, ho, hlen, hxc, hxo, hy⟩ := offer_last (pre ++ post) (newEntry c .part true)
    have htot := hw.total
    have hlen' : lst.length + 1 = Config.queuePlaces := by
      rw [hs] at hfull htot
      simp only [List.length_append, List.length_cons] at hfull htot hlen
      omega
    have hone : ((s.setQueue .upstream (offer (pre ++ post ++ [newEntry c .part true]))).upstream.countP
        fun e => e.offered) ≤ 1 := (hp.within hw hfit).offer.oneOffer
    have h := forwardDrop_after (s := s.setQueue .upstream (offer (pre ++ post ++ [newEntry c .part true]))) (c := c)
      ho hlen' hone hxc hxo (by rw [State.nodeId_setQueue]; exact hid) (by
        intro y hyl
        obtain ⟨z, hz, h1, -⟩ := hy y hyl
        rw [h1]
        refine not_marked_iff.mp (hm z ?_) _ (.inl rfl)
        rw [hs]
        rcases List.mem_append.mp hz with hz | hz <;> simp [hz])
    refine ⟨h.holds, h.conditions, ?_⟩
    have hf := h.frame
    rw [hf]
    rfl

/-- The limits of the queues after the placing of a response part where no awaited part stands. -/
theorem placePart_sound {s : State} (p : RespPart) (b : Bool) (hw : QueueWithin .part s.upstream)
    (ha : QueueWithin .controlled s.actuator) (hau : ∀ e ∈ s.actuator, ¬ e.marked)
    (hm : ∀ e ∈ s.upstream, ¬ e.marked) (hd : p.data.length ≤ 4) (hr : b = true ↔ s.mgmt.response ≠ none) :
    QueuesSound (placePart p b s) := by
  have hpl := placePart_placed p b hw hm hd
  unfold placePart at hpl ⊢
  have hfit : Fits .part .part true { frame := partFrame s p, reduced := none, awaitedPart := b } :=
    fits_dataFrame _ _ (by simp [withCheck]; omega) _
  generalize hc : ({ frame := partFrame s p, reduced := none, awaitedPart := b } : Content) = c at hfit hpl
  have hid : c.frame.id = .std (s.nodeId Config.responseBase) := by rw [← hc]; rfl
  have hb : c.awaitedPart = b := by rw [← hc]
  unfold place
  obtain ⟨q, l, hp, he⟩ := placeFrame_eq .upstream c .part true s
  have hparts : PartsIn (s.mgmt.response ≠ none) (.std (s.nodeId Config.responseBase)) (offer q) :=
    (hp.parts (.of_none hm) hw (fun h => ⟨hr.mp (hb ▸ h), rfl, hid⟩) fun _ _ => hm).offer
  have hl : l ≠ .dropped := by
    rintro rfl
    cases hp with | dropped plain _ _ => simp at plain
  have hold := hp.holds hl
  have hsound : QueuesSound (s.setQueue .upstream (offer q)) := by
    refine ⟨(hp.within hw hfit).offer, ha, hparts, fun h => marked_offer.mpr ?_, hau⟩
    obtain ⟨e, heq, h1⟩ := hold
    have hcm : c.awaitedPart = true := by rw [hb]; exact hr.mpr h
    rcases h1 with rfl | h1
    · exact ⟨e, heq, .inl hcm⟩
    · exact ⟨e, heq, .inr ⟨c, h1, hcm⟩⟩
  have hlost : ∀ e, l = .displaced e → e.content.awaitedPart = false := by
    rintro e rfl
    generalize hl : Loss.displaced e = l at hp
    cases hp with
    | displaced pre post e split own full waits choice fresh =>
      obtain rfl := Loss.displaced.inj hl
      refine not_marked_iff.mp (hm _ ?_) _ (.inl rfl)
      rw [State.queue_upstream] at split
      simp [split]
    | _ => simp at hl
  rw [he]
  cases l with
  | nothing => exact hsound
  | dropped => exact absurd rfl hl
  | displaced e =>
    dsimp only
    rw [partLost_unmarked (hlost e rfl), if_pos rfl]
    exact raiseCondition_sound hsound _

/-! ### Responses -/

theorem divideData_length (d : List Byte) : ∀ x ∈ divideData d, x.length ≤ 4 := by
  fun_induction divideData d with
  | case1 a b c d e rest ih => simpa using ih
  | case2 ds h =>
    intro x hx
    obtain rfl := List.mem_singleton.mp hx
    rcases x with _ | ⟨a, _ | ⟨b, _ | ⟨c, _ | ⟨d, _ | ⟨e, rest⟩⟩⟩⟩⟩ <;>
      first | exact absurd rfl (h _ _ _ _ _ _) | simp

theorem numberParts_length (code seq : Byte) (res : Result) (n : Nat) (l : List (List Byte)) (h : ∀ x ∈ l, x.length ≤ 4) :
    ∀ p ∈ numberParts code seq res n l, p.data.length ≤ 4 := by
  fun_induction numberParts code seq res n l with
  | case1 n => simp
  | case2 n d => simpa using h
  | case3 n d ds hne ih =>
    rw [List.forall_mem_cons] at h ⊢
    exact ⟨h.1, ih h.2⟩

theorem divideData_ne_nil (d : List Byte) : divideData d ≠ [] := by
  fun_induction divideData d <;> simp

theorem numberParts_ne_nil (code seq : Byte) (res : Result) (n : Nat) {l : List (List Byte)} (h : l ≠ []) :
    numberParts code seq res n l ≠ [] := by
  fun_cases numberParts code seq res n l <;> simp_all

/-- A response changes nothing but the upstream queue, the response in progress and the condition set. -/
theorem placeResponse_frame (parts : List RespPart) (s : State) : ∃ q x c, placeResponse parts s =
    { s with upstream := q, mgmt := { s.mgmt with response := x, conditions := c } } := by
  have one : ∀ (p : RespPart) (b : Bool) (u : State), ∃ q x c, placePart p b u =
      { u with upstream := q, mgmt := { u.mgmt with response := x, conditions := c } } := by
    intro p b u
    have h1 := (place_onlySent .upstream { frame := partFrame u p, reduced := none, awaitedPart := b } .part true u).frame
    have h2 := place_upstream_actuator { frame := partFrame u p, reduced := none, awaitedPart := b } .part true u
    rw [h2] at h1
    exact ⟨_, _, _, h1⟩
  unfold placeResponse
  split
  · exact ⟨s.upstream, s.mgmt.response, s.mgmt.conditions, rfl⟩
  · exact one _ _ _
  · obtain ⟨q, x, c, h⟩ := one _ true _
    exact ⟨q, x, c, h⟩

/-- The response is placed as R154 and R155 say, and the queues keep their limits. -/
theorem respond_answered {s : State} (h : QueuesLegal s) (hr : s.mgmt.response = none) (r : Request) (res : Result)
    (d : List Byte) :
    Answered s (respond r res d s) (byteAt r 0) (requestSeq r) res d ∧ QueuesLegal (respond r res d s) := by
  rw [queuesLegal_iff] at h
  obtain ⟨hs, hu, ha⟩ := h
  have hm : ∀ e ∈ s.upstream, ¬ e.marked := fun e he hm => (hs.parts.entry hs.up he hm).1 hr
  have hlen := numberParts_length (byteAt r 0) (requestSeq r) res 0 (divideData d) (divideData_length d)
  have hne := numberParts_ne_nil (byteAt r 0) (requestSeq r) res 0 (divideData_ne_nil d)
  unfold Answered respond
  generalize numberParts (byteAt r 0) (requestSeq r) res 0 (divideData d) = parts at hlen hne
  match parts, hne, hlen with
  | [p], _, hlen =>
    have h1 := placePart_placed p false hs.up hm (hlen p (by simp))
    have h2 := placePart_sound p false hs.up hs.act hs.actuator hm (hlen p (by simp)) (by simp [hr])
    refine ⟨⟨?_, h1.holds, h1.conditions, ?_⟩, ?_⟩
    · rw [if_pos (by rfl), ← hr]
      rfl
    · rw [if_pos (by rfl), ← hr]
      exact h1.frame
    · exact (queuesLegal_iff _).mpr ⟨h2, place_offering _ _ _ (by simp) fun _ => ha⟩
  | p :: p' :: rest, _, hlen =>
    have h1 := placePart_placed p true (s := s.withMgmt { s.mgmt with response := some ⟨0, p' :: rest⟩ }) hs.up hm
      (hlen p (by simp))
    have h2 := placePart_sound p true (s := s.withMgmt { s.mgmt with response := some ⟨0, p' :: rest⟩ }) hs.up hs.act
      hs.actuator hm (hlen p (by simp)) (by simp)
    refine ⟨⟨rfl, h1.holds, h1.conditions, h1.frame⟩, ?_⟩
    exact (queuesLegal_iff _).mpr ⟨h2, place_offering _ _ _ (by simp) fun _ => ha⟩

/-! ### The taking of a request -/

theorem mayTake_iff (s : State) :
    s.mayTake = true ↔ s.phase = .running ∧ s.mgmt.inHand = none ∧ s.mgmt.response = none := by
  simp [State.mayTake, and_assoc]

/-- A request of the code at the head of the queue is taken whole. -/
theorem takeRequest_ready {s : State} {r : Request} {rest : List Request} (h : Ready s (r :: rest))
    (code : Option RequestCode) (hc : requestCode r = code) (answer : Request → State → State) :
    takeRequest code answer s = handDone (answer r (takeHead r rest s)) := by
  unfold takeRequest
  rw [if_pos ((mayTake_iff s).mpr ⟨h.running, h.inHand, h.response⟩), h.requests]
  simp [hc]

/-- The taking of a request either changes nothing or takes the head of the queue whole. -/
theorem takeRequest_cases (code : Option RequestCode) (answer : Request → State → State) (s : State) :
    takeRequest code answer s = s ∨ ∃ r rest, Ready s (r :: rest) ∧ requestCode r = code ∧
      takeRequest code answer s = handDone (answer r (takeHead r rest s)) := by
  unfold takeRequest
  split
  · rename_i hm
    obtain ⟨h1, h2, h3⟩ := (mayTake_iff s).mp hm
    split
    · exact .inl rfl
    · rename_i r rest hreq
      split
      · rename_i hc
        exact .inr ⟨r, rest, ⟨h1, h2, h3, hreq⟩, hc, rfl⟩
      · exact .inl rfl
  · exact .inl rfl

/-- Placing a frame does not look at the request in hand. -/
theorem place_handDone (p : Port) (c : Content) (o : Origin) (k : Bool) (s : State) :
    handDone (place p c o k s) = place p c o k (handDone s) := by
  have hf : ∀ (p : Port) (c : Content) (o : Origin) (k : Bool) (s : State), placeFrame p c o k (handDone s) =
      (handDone (placeFrame p c o k s).1, (placeFrame p c o k s).2) := by
    intro p c o k s
    have hq : (handDone s).queue p = s.queue p := by cases p <;> rfl
    unfold placeFrame
    rw [hq]
    generalize queueFrame c o k (s.queue p) = r
    obtain ⟨q, _ | _ | e⟩ := r <;> cases p <;> try rfl
    all_goals
      dsimp only [State.partLost]
      split <;> rfl
  have he : ∀ (c : Condition) (s : State), enterCondition c (handDone s) =
      (handDone (enterCondition c s).1, (enterCondition c s).2) := by
    intro c s
    let s1 := { s with mgmt := { s.mgmt with conditions := s.mgmt.conditions ||| c.bit } }
    have h1 := hf .upstream (plainContent (noticeFrame s1 c)) .part true s1
    unfold enterCondition
    dsimp only
    split
    · rename_i h
      rw [if_pos (show CondSet.has s.mgmt.enabled c = true from h)]
      exact h1
    · rename_i h
      rw [if_neg (show ¬ CondSet.has s.mgmt.enabled c = true from h)]
      rfl
  have hr : ∀ (c : Condition) (s : State), raiseCondition c (handDone s) = handDone (raiseCondition c s) := by
    intro c s
    unfold raiseCondition
    rw [he]
    generalize enterCondition c s = r
    obtain ⟨s1, lost⟩ := r
    by_cases h : CondSet.has s.mgmt.conditions c = true
    · rw [if_pos h, if_pos (show CondSet.has (handDone s).mgmt.conditions c = true from h)]
    · rw [if_neg h, if_neg (show ¬ CondSet.has (handDone s).mgmt.conditions c = true from h)]
      dsimp only
      rw [he]
      exact (apply_ite handDone _ _ _).symm
  unfold place
  rw [hf]
  generalize placeFrame p c o k s = r
  obtain ⟨s1, lost⟩ := r
  dsimp only
  rw [hr]
  cases lost <;> rfl

/-- The request in hand plays no part in the answer. -/
theorem Answered.handDone {s t : State} {code seq : Byte} {res : Result} {d : List Byte}
    (h : Answered s t code seq res d) : Answered (handDone s) (handDone t) code seq res d := by
  unfold Answered at h ⊢
  split at h
  · exact h
  · obtain ⟨h1, h2, h3, h4⟩ := h
    refine ⟨?_, h2, h3, congrArg Machine.handDone h4⟩
    rw [h1, place_handDone]
    rfl

theorem handDone_queuesLegal {s : State} (h : QueuesLegal s) : QueuesLegal (handDone s) := by
  rw [queuesLegal_iff] at h ⊢
  exact ⟨⟨h.1.up, h.1.act, h.1.parts, h.1.present, h.1.actuator⟩, h.2⟩

/-- The answer to a request taken in state `s`, placed over a state `u` that has left the queues and the node number of `s`
as they are: the form in which every request's statement is met. -/
theorem respond_after {s u : State} {l : List Request} (h : Ready s l) (hq : QueuesLegal s) (h1 : u.upstream = s.upstream)
    (h2 : u.actuator = s.actuator) (h3 : u.mgmt.response = s.mgmt.response) (h4 : u.mgmt.node = s.mgmt.node) (r : Request)
    (res : Result) (d : List Byte) :
    Answered (handDone u) (handDone (respond r res d u)) (byteAt r 0) (requestSeq r) res d :=
  (respond_answered (hq.congr h1 h2 h3 h4) (h3.trans h.response) r res d).1.handDone

end Sys2Proof.Machine
end

