-- ==== Sys2Proof/Laws/Planes.lean ====
section
/-!
SUPPORT. One value per plane and per slot, read after written, and the tests over all eight planes by plane.
-/

namespace Sys2Proof.Machine

section PerPlane

variable {α : Type} (b : PerPlane α) (x : α)

@[simp] theorem PerPlane.get_set_same (p : PlaneId) : (b.set p x).get p = x := by cases p <;> rfl

theorem PerPlane.get_set_other {p q : PlaneId} (h : q ≠ p) : (b.set p x).get q = b.get q := by
  cases p <;> cases q <;> first | rfl | exact absurd rfl h

theorem PerPlane.get_set (p q : PlaneId) : (b.set p x).get q = if q = p then x else b.get q := by
  split
  · rename_i h
    rw [h, PerPlane.get_set_same]
  · rename_i h
    exact b.get_set_other x h

@[simp] theorem PerPlane.get_build (f : PlaneId → α) (p : PlaneId) : (PerPlane.build f).get p = f p := by cases p <;> rfl

@[simp] theorem PerPlane.build_get : PerPlane.build b.get = b := rfl

@[simp] theorem PerPlane.set_get (p : PlaneId) : b.set p (b.get p) = b := by cases p <;> rfl

theorem PerPlane.ext_get {b c : PerPlane α} (h : ∀ p, b.get p = c.get p) : b = c := by
  have h0 := h .slipTarget; have h1 := h .torqueCeiling; have h2 := h .brakeFront; have h3 := h .brakeRear
  have h4 := h .radius; have h5 := h .columnSelect; have h6 := h .parameter; have h7 := h .action
  cases b; cases c
  simp only [PerPlane.get] at h0 h1 h2 h3 h4 h5 h6 h7
  subst h0 h1 h2 h3 h4 h5 h6 h7
  rfl

end PerPlane

section Slots

variable (x : Slots) (y : Slot)

@[simp] theorem Slots.get_set_same (i : SlotId) : (x.set i y).get i = y := by cases i <;> rfl

theorem Slots.get_set_other {i j : SlotId} (h : j ≠ i) : (x.set i y).get j = x.get j := by
  cases i <;> cases j <;> first | rfl | exact absurd rfl h

theorem Slots.get_set (i j : SlotId) : (x.set i y).get j = if j = i then y else x.get j := by
  split
  · rename_i h
    rw [h, Slots.get_set_same]
  · rename_i h
    exact x.get_set_other y h

end Slots

theorem mem_allPlanes (p : PlaneId) : p ∈ allPlanes := by cases p <;> decide

theorem allVerified_iff (b : Bank) : allVerified b = true ↔ ∀ p, (b.get p).isVerified = true := by
  simp only [allVerified, List.all_eq_true]
  exact ⟨fun h p => h p (mem_allPlanes p), fun h p _ => h p⟩

theorem anyFaulty_iff (b : Bank) : anyFaulty b = true ↔ ∃ p, (b.get p).isFaulty = true := by
  simp only [anyFaulty, List.any_eq_true]
  exact ⟨fun ⟨p, _, h⟩ => ⟨p, h⟩, fun ⟨p, h⟩ => ⟨p, mem_allPlanes p, h⟩⟩

theorem Plane.isFaulty_iff (p : Plane) : p.isFaulty = true ↔ p.status = .faulty := by simp [Plane.isFaulty]

theorem Plane.isVerified_iff (p : Plane) : p.isVerified = true ↔ ∃ c, p.status = .verified c := by
  unfold Plane.isVerified
  cases p.status <;> simp

theorem Plane.pair?_iff (p : Plane) (c : CheckPair) : p.pair? = some c ↔ p.status = .verified c := by
  unfold Plane.pair?
  cases p.status <;> simp

theorem limpCondition_iff (b : Bank) : limpCondition b = true ↔ ∃ p, p.isLimpPlane = true ∧ (b.get p).isFaulty = true := by
  simp only [limpCondition, Bool.or_eq_true]
  constructor
  · rintro (((h | h) | h) | h)
    · exact ⟨.slipTarget, rfl, h⟩
    · exact ⟨.torqueCeiling, rfl, h⟩
    · exact ⟨.parameter, rfl, h⟩
    · exact ⟨.action, rfl, h⟩
  · rintro ⟨p, hp, h⟩
    cases p <;> simp_all [PlaneId.isLimpPlane, PerPlane.get]

/-! ### Cells written -/

theorem writeValues_length (w : Window) (vs : List Word) : ∀ (p : Nat) (cells : List Word),
    (writeValues w p cells vs).1.length = cells.length := by
  induction vs with
  | nil => intro p cells; rfl
  | cons v vs ih =>
    intro p cells
    unfold writeValues
    split
    · simp [ih]
    · rfl

theorem foldl_set_length {α : Type} (f : α → Nat) (g : α → Word) (l : List α) : ∀ cells : List Word,
    (l.foldl (fun cs a => cs.set (f a) (g a)) cells).length = cells.length := by
  induction l with
  | nil => intro cells; rfl
  | cons a l ih => intro cells; simp [ih]

theorem fillCells_length (w : Window) (v : Word) (cells : List Word) : (fillCells w v cells).length = cells.length :=
  foldl_set_length _ _ _ _

theorem takenCells_length (cells : List Word) (l : List (Nat × Word)) : (takenCells cells l).length = cells.length :=
  foldl_set_length _ _ _ _

/-! ### Check pairs -/

/-- The sums over two runs of cells in turn are the sums over both (R143). -/
theorem addCells_append (l1 l2 : List Word) : ∀ (acc : CheckPair) (i : Nat),
    addCells acc i (l1 ++ l2) = addCells (addCells acc i l1) (i + l1.length) l2 := by
  induction l1 with
  | nil => intro acc i; rfl
  | cons c l1 ih =>
    intro acc i
    simp only [List.cons_append, addCells, ih, List.length_cons]
    congr 1
    omega

end Sys2Proof.Machine
end

