-- ==== Sys2Proof/Laws/Moves.lean ====
section
/-!
SUPPORT. What a step can do to the blocks that hold the records, the control state, the banks, the scrub and the map store,
said once: `Move` lists it, and `exec_moves` says that every command does one of these. An invariant that speaks of these
blocks alone is proved by going through the list.
-/

namespace Sys2Proof.Machine

/-- The part without its transmit queues, its acknowledgement records and its management unit. -/
def State.blocks (s : State) : State :=
  { State.reset with phase := s.phase, sensors := s.sensors, eval := s.eval, ctl := s.ctl, banks := s.banks,
                     scrub := s.scrub, store := s.store }

section

variable (s : State)

@[simp] theorem State.blocks_phase : s.blocks.phase = s.phase := rfl
@[simp] theorem State.blocks_sensors : s.blocks.sensors = s.sensors := rfl
@[simp] theorem State.blocks_eval : s.blocks.eval = s.eval := rfl
@[simp] theorem State.blocks_ctl : s.blocks.ctl = s.ctl := rfl
@[simp] theorem State.blocks_banks : s.blocks.banks = s.banks := rfl
@[simp] theorem State.blocks_scrub : s.blocks.scrub = s.scrub := rfl
@[simp] theorem State.blocks_store : s.blocks.store = s.store := rfl

end

/-! ### What leaves the blocks as they are -/

theorem OnlySent.blocks {s t : State} (h : OnlySent s t) : t.blocks = s.blocks := by rw [h.frame]; rfl

@[simp] theorem raiseCondition_blocks (c : Condition) (s : State) : (raiseCondition c s).blocks = s.blocks :=
  (raiseCondition_onlySent c s).blocks

@[simp] theorem place_blocks (p : Port) (c : Content) (o : Origin) (k : Bool) (s : State) :
    (place p c o k s).blocks = s.blocks := (place_onlySent p c o k s).blocks

@[simp] theorem respond_blocks (r : Request) (res : Result) (d : List Byte) (s : State) :
    (respond r res d s).blocks = s.blocks := by
  obtain ⟨q, x, c, h⟩ := placeResponse_frame (numberParts (byteAt r 0) (requestSeq r) res 0 (divideData d)) s
  unfold respond
  rw [h]; rfl

@[simp] theorem withMgmt_blocks (m : Mgmt) (s : State) : (s.withMgmt m).blocks = s.blocks := rfl

@[simp] theorem withAck_blocks (a : AckMonitor) (s : State) : (s.withAck a).blocks = s.blocks := rfl

@[simp] theorem setQueue_blocks (p : Port) (q : List Entry) (s : State) : (s.setQueue p q).blocks = s.blocks := by
  cases p <;> rfl

@[simp] theorem offerAt_blocks (p : Port) (s : State) : (s.offerAt p).blocks = s.blocks := setQueue_blocks _ _ _

@[simp] theorem handDone_blocks (s : State) : (handDone s).blocks = s.blocks := rfl

@[simp] theorem takeHead_blocks (r : Request) (rest : List Request) (s : State) : (takeHead r rest s).blocks = s.blocks := rfl

@[simp] theorem requestArrival_blocks (r : Request) (s : State) : (requestArrival r s).blocks = s.blocks := by
  unfold requestArrival
  split <;> simp

@[simp] theorem ackMiss_blocks (s : State) : (ackMiss s).blocks = s.blocks := by
  unfold ackMiss
  dsimp only
  split <;> simp

@[simp] theorem removeRecord_blocks (c : Counter) (s : State) : (removeRecord c s).blocks = s.blocks := rfl

@[simp] theorem ackArrival_blocks (d : List Byte) (s : State) : (ackArrival d s).blocks = s.blocks := by
  unfold ackArrival
  split
  · split
    · rfl
    · unfold ackVerdict
      split <;> simp
  · rfl

@[simp] theorem nextPart_blocks (s : State) : (nextPart s).blocks = s.blocks := by
  unfold nextPart
  split
  · rfl
  · split
    · rfl
    · simp [placePart]

/-! ### The list -/

/-- A window record that is legal whenever the one of `k` is. -/
def windowAfter (k : State) (w : Option Window) : Prop :=
  (∀ v, k.banks.window = some v → WindowLegal v) → ∀ v, w = some v → WindowLegal v

/-- The blocks when they may be staged into: no store in progress, no activation pending (R120). -/
structure MayStage (k : State) : Prop where
  idle    : k.storeBusy = false
  pending : k.banks.activationPending = false

/-- The transition of the control state at a completion, without its condition (R106, R110). -/
def controlState (k : State) : State :=
  match k.ctl.state with
  | .start => k.withCtl .active
  | .passive => k.withCtl .active
  | .active => k
  | .roller => if k.eval.record.vfc > param k.banks.active .rollerExitSpeed then k.withCtl .active else k
  | .limp => k

/-- The three blocks' parts of a completion without the conditions they raise (R54). -/
def controlMoves (q : Int) (k : State) : State :=
  let k1 := controlState k
  if q ≤ 0 ∨ k1.stationary = true then { k1 with ctl := k1.ctl.applyPending } else k1

/-- See `controlMoves`. -/
def banksMove (k : State) : State :=
  if k.banks.activationPending && !k.storeBusy && k.swapPoint && allVerified k.banks.staging then swapBanks k else k

/-- A plane found FAULTY by the scrub, with LIMP where it is a LIMP plane (R146). -/
def faultyMove (p : PlaneId) (k : State) : State :=
  let k1 := k.withActive (k.banks.active.set p { k.banks.active.get p with status := .faulty })
  if p.isLimpPlane then k1.withCtl .limp else k1

/-- A cell written back to its intended value (R145). -/
def correctedMove (p : PlaneId) (i : Nat) (dS : Word) (k : State) : State :=
  let pl := k.banks.active.get p
  k.withActive (k.banks.active.set p { pl with cells := pl.cells.set i (pl.cells.getD i 0 - dS) })

/-- The comparison at a plane's end without its conditions (R144). -/
def compareMove (p : PlaneId) (sums : CheckPair) (k : State) : State :=
  match (k.banks.active.get p).pair? with
  | none => k
  | some c =>
    if sums = c then k
    else match locate p.size (sums.S - c.S) (sums.W - c.W) with
      | some i => correctedMove p i (sums.S - c.S) k
      | none => faultyMove p k

/-- See `controlMoves`. -/
def scrubMoves (k : State) : State :=
  match findScrubPlane k.banks.active k.scrub with
  | none => k
  | some x =>
    let sums := sumRow k.banks.active x
    if x.row + 1 < x.plane.rows then k.withScrub { x with row := x.row + 1, sums := sums }
    else compareMove x.plane sums (k.withScrub { plane := x.plane.next, row := 0, sums := ⟨0, 0⟩ })

/-- See `controlMoves`. -/
def blockMoves (q : Int) (k : State) : CompletionBlock → State
  | .controlStateUnit => controlMoves q k
  | .mapBanks => banksMove k
  | .scrubUnit => scrubMoves k

/-- The active bank built, without the condition of a degraded boot (R174, R175). -/
def builtMove (t : Millis) (k : State) : State :=
  let b := bootBank (k.store.slots.get k.store.bootSelector)
  { k with
    phase := .running,
    banks := { active := b, staging := emptyBank, activationPending := false, window := none },
    sensors := { k.sensors with wheelTimer := some (t + param b .wheelTimeoutMs) },
    eval := { k.eval with record := resetRecord b k.ctl.mode k.ctl.load },
    ctl := { k.ctl with state := stateAfterReset b, statusTimer := some (t + param b .statusPeriodMs) } }

/-- What a step can do to the blocks. -/
inductive Move (k : State) : State → Prop where
  | stay : Move k k
  | counters (x : LastCounters) : Move k (k.withSensors { k.sensors with lastCounters := x })
  | imuBad (x : LastCounters) : Move k (k.withSensors (sourceOnInvalid { k.sensors with lastCounters := x }))
  | imu (l p : Int) (x : LastCounters) (hold lost : Nat) (t : Millis) :
      -640 ≤ l → l ≤ 640 → -900 ≤ p → p ≤ 900 →
      Move k (lookupRefresh (k.withSensors (sourceOnValid hold lost t
        { k.sensors with imuLean := l, imuPitch := p, lastCounters := x })))
  | wheel (f r : Nat) (x : LastCounters) (d : Millis) : f ≤ 65000 → r ≤ 65000 →
      Move k (requestPass { k with
        sensors := { k.sensors with vf := f, vr := r, wheelTimer := some d, lastCounters := x },
        ctl := { k.ctl with liveness := .running } })
  | torque (q : Int) (x : LastCounters) : -200 ≤ q → q ≤ 400 →
      Move k (k.withSensors { k.sensors with torqueRequest := q, lastCounters := x })
  | brake (f r : Nat) (x : LastCounters) (d : Millis) : f ≤ 2000 → r ≤ 2000 →
      Move k (k.withSensors { k.sensors with brakeFront := f, brakeRear := r, brakeTimer := some d, lastCounters := x })
  | pendingSet (m : Option RideMode) (l : Option LoadState) (x : LastCounters) :
      Move k { k with sensors := { k.sensors with lastCounters := x },
                      ctl := { k.ctl with pendingMode := m, pendingLoad := l } }
  | held : k.sensors.source = .live →
      Move k (lookupRefresh (k.withSensors { k.sensors with source := .held, holdTimer := none }))
  | lost : Move k (lookupRefresh (k.withSensors
      { k.sensors with source := .lost, recoveryCount := 0, holdTimer := none, lostTimer := none }))
  | holdStops : k.sensors.source = .held ∨ k.sensors.source = .lost → Move k (k.withSensors { k.sensors with holdTimer := none })
  | lostStops : k.sensors.source = .recovering ∨ k.sensors.source = .lost →
      Move k (k.withSensors { k.sensors with lostTimer := none })
  | brakeStops : Move k (k.withSensors { k.sensors with brakeFront := 0, brakeRear := 0, brakeTimer := none })
  | wheelStops : k.ctl.state = .passive ∨ k.ctl.state = .limp →
      Move k { k with sensors := { k.sensors with wheelTimer := none }, ctl := { k.ctl with liveness := .expired } }
  | passive : k.ctl.state ≠ .passive → k.ctl.state ≠ .limp →
      Move k { k with sensors := { k.sensors with wheelTimer := none },
                      ctl := { k.ctl with liveness := .expired, state := .passive }, eval := passiveEntryEval k.eval }
  | status (d : Millis) : Move k { k with ctl := { k.ctl with statusTimer := some d } }
  | pass (p : Pass) (o : TakeOrder) : k.eval.inFlight = some p →
      Move k (beginWaiting (o.blocks.foldl (blockMoves p.inputs.q) (recordPass p k)))
  | window (w : Option Window) : windowAfter k w → Move k (k.withWindow w)
  | roller (w : Option Window) : windowAfter k w → (k.ctl.state = .active ∨ k.ctl.state = .passive) →
      k.stationary = true → Move k ((k.withWindow w).withCtl .roller)
  | rollerLeft (w : Option Window) : windowAfter k w → k.ctl.state = .roller → Move k ((k.withWindow w).withCtl .active)
  | restart (w : Option Window) (t : Millis) : k.storeBusy = false → Move k (restartReset t (k.withWindow w)).blocks
  | written (w : Option Window) (p : PlaneId) (cells : List Word) : windowAfter k w → MayStage k →
      cells.length = (k.banks.staging.get p).cells.length →
      Move k ((k.withWindow w).withStaging (k.banks.staging.set p { cells := cells, status := .loading }))
  | committed (w : Option Window) (p : PlaneId) : windowAfter k w → MayStage k →
      Move k ((k.withWindow w).withStaging (k.banks.staging.set p
        { k.banks.staging.get p with status := .verified (pairOf (k.banks.staging.get p).cells) }))
  | copied : MayStage k → Move k ((k.withWindow none).withStaging (stagedBank k.banks.active))
  | loaded (i : SlotId) : MayStage k → (k.store.slots.get i).complete = true →
      Move k ((k.withWindow none).withStaging (PerPlane.build (loadedPlane (k.store.slots.get i))))
  | activated (w : Option Window) (b : Bool) : windowAfter k w → MayStage k →
      (b = true → allVerified (recheckedBank k.banks.staging) = true) →
      Move k (k.withBanks { k.banks with window := w, staging := recheckedBank k.banks.staging, activationPending := b })
  | cancelled (w : Option Window) : windowAfter k w → Move k (k.withBanks { k.banks with window := w, activationPending := false })
  | storeBegun (w : Option Window) (i : SlotId) : windowAfter k w → k.storeBusy = false → allVerified k.banks.staging = true →
      Move k ((k.withWindow w).withStore { k.store with
        slots := k.store.slots.set i (k.store.slots.get i).erased, state := .inProgress i (.plane .slipTarget) })
  | selected (w : Option Window) (i : SlotId) : windowAfter k w → k.storeBusy = false →
      Move k ((k.withWindow w).withStore { k.store with bootSelector := i })
  | programmed (i : SlotId) (p : PlaneId) (cells : List Word) : k.store.state = .inProgress i (.plane p) →
      cells.length = (k.banks.staging.get p).cells.length → (k.banks.staging.get p).pair? = some (pairOf cells) →
      Move k (k.withStore { k.store with
        slots := k.store.slots.set i { k.store.slots.get i with cells := (k.store.slots.get i).cells.set p cells },
        state := .inProgress i (phaseAfter p) })
  | unprogrammed (i : SlotId) (p : PlaneId) (cells : List Word) : k.store.state = .inProgress i (.plane p) →
      cells.length = (k.banks.staging.get p).cells.length →
      Move k (k.withStore { k.store with
        slots := k.store.slots.set i
          { cells := (k.store.slots.get i).cells.set p cells, pairs := erasedPairs, complete := false },
        state := .idle })
  | storeDone (i : SlotId) : k.store.state = .inProgress i .header →
      Move k (k.withStore { k.store with
        slots := k.store.slots.set i { k.store.slots.get i with
          pairs := PerPlane.build fun p => recordedPair (k.banks.staging.get p), complete := true },
        state := .idle })
  | storeUndone (i : SlotId) : k.store.state = .inProgress i .header →
      Move k (k.withStore { k.store with slots := k.store.slots.set i (k.store.slots.get i).erased, state := .idle })
  | hardReset (n : Nat) :
      Move k { State.reset with store := abandonStore n k.banks.staging k.store }
  | built (t : Millis) : k.phase = .building → Move k (builtMove t k)

/-! ### Pure operations act on the blocks -/

theorem lookupRefresh_blocks (s : State) : (lookupRefresh s).blocks = lookupRefresh s.blocks := by
  unfold lookupRefresh
  split
  · rename_i h; rw [if_pos (show s.blocks.ctl.state = .start ∨ s.blocks.ctl.state = .passive from h)]; rfl
  · rename_i h; rw [if_neg (show ¬(s.blocks.ctl.state = .start ∨ s.blocks.ctl.state = .passive) from h)]

theorem requestPass_blocks (s : State) : (requestPass s).blocks = requestPass s.blocks := by
  unfold requestPass
  simp only [State.blocks_eval]
  split <;> rfl

theorem controlTransition_blocks (s : State) : (controlTransition s).blocks = controlState s.blocks := by
  unfold controlTransition controlState
  rw [State.blocks_ctl]
  cases s.ctl.state with
  | start => rfl
  | active => rfl
  | passive => rfl
  | limp => rfl
  | roller =>
    dsimp only
    split
    · rename_i h
      rw [if_pos (show s.blocks.eval.record.vfc > param s.blocks.banks.active .rollerExitSpeed from h), raiseCondition_blocks]
      rfl
    · rename_i h
      rw [if_neg (show ¬ s.blocks.eval.record.vfc > param s.blocks.banks.active .rollerExitSpeed from h)]

theorem controlTakes_blocks (q : Int) (s : State) : (controlTakes q s).blocks = controlMoves q s.blocks := by
  unfold controlTakes applyPending controlMoves
  rw [← controlTransition_blocks]
  have hst : (controlTransition s).blocks.stationary = (controlTransition s).stationary := rfl
  dsimp only
  rw [hst]
  split <;> rfl

theorem banksTake_blocks (s : State) : (banksTake s).blocks = banksMove s.blocks := by
  have h1 : s.blocks.storeBusy = s.storeBusy := rfl
  have h2 : s.blocks.swapPoint = s.swapPoint := rfl
  unfold banksTake banksMove
  rw [State.blocks_banks, h1, h2]
  split
  · unfold exchangeBanks
    rw [raiseCondition_blocks]
    rfl
  · rfl

theorem comparePlane_blocks (p : PlaneId) (sums : CheckPair) (s : State) :
    (comparePlane p sums s).blocks = compareMove p sums s.blocks := by
  unfold comparePlane compareMove
  rw [State.blocks_banks]
  cases (s.banks.active.get p).pair? with
  | none => rfl
  | some c =>
    dsimp only
    split
    · rfl
    · cases locate p.size (sums.S - c.S) (sums.W - c.W) with
      | some i => exact raiseCondition_blocks _ _
      | none =>
        dsimp only
        unfold markFaulty faultyMove
        rw [raiseCondition_blocks]
        dsimp only
        split <;> rfl

theorem scrubTakes_blocks (s : State) : (scrubTakes s).blocks = scrubMoves s.blocks := by
  unfold scrubTakes scrubMoves
  rw [State.blocks_banks, State.blocks_scrub]
  cases findScrubPlane s.banks.active s.scrub with
  | none => rfl
  | some x =>
    dsimp only
    split
    · rfl
    · rw [comparePlane_blocks]; rfl

theorem blockTakes_blocks (q : Int) (s : State) (c : CompletionBlock) : (blockTakes q s c).blocks = blockMoves q s.blocks c := by
  cases c
  · exact controlTakes_blocks q s
  · exact banksTake_blocks s
  · exact scrubTakes_blocks s

theorem blocksTake_blocks (q : Int) (l : List CompletionBlock) : ∀ s : State,
    (l.foldl (blockTakes q) s).blocks = l.foldl (blockMoves q) s.blocks := by
  induction l with
  | nil => intro s; rfl
  | cons c l ih => intro s; rw [List.foldl_cons, List.foldl_cons, ih, blockTakes_blocks]

theorem beginWaiting_blocks (s : State) : (beginWaiting s).blocks = beginWaiting s.blocks := by
  unfold beginWaiting
  rw [State.blocks_eval]
  split <;> rfl

/-! ### Every command does one of these -/

theorem windowAfter_same (k : State) : windowAfter k k.banks.window := fun h => h

theorem windowAfter_closed (k : State) : windowAfter k (closedWindow k.banks.window) := by
  intro h v hv
  unfold closedWindow at hv
  cases hw : k.banks.window with
  | none => simp [hw] at hv
  | some w =>
    simp only [hw, Option.map_some, Option.some.injEq] at hv
    subst hv
    have := h w hw
    exact ⟨this.rows, this.cols, this.position, this.load, .inl rfl⟩

theorem endRun_blocks (s : State) : (endRun s).blocks = s.blocks.withWindow (closedWindow s.banks.window) := rfl

/-- A request that is not taken moves nothing; one that is taken moves what its answer moves. -/
theorem takeRequest_moves {code : Option RequestCode} {answer : Request → State → State} (s : State)
    (h : ∀ r u, Move u.blocks (answer r u).blocks) : Move s.blocks (takeRequest code answer s).blocks := by
  rcases takeRequest_cases code answer s with e | ⟨r, rest, _, _, e⟩
  · rw [e]; exact .stay
  · rw [e]; exact h r (takeHead r rest s)

theorem withLength_moves {n : Nat} {body : Request → State → State} (h : ∀ r u, Move u.blocks (body r (endRun u)).blocks)
    (r : Request) (u : State) : Move u.blocks (withLength n body r u).blocks := by
  unfold withLength
  dsimp only
  split
  · exact h r u
  · rw [respond_blocks]
    exact .window _ (windowAfter_closed u.blocks)

/-- An answer that only responds, from a state with the run ended. -/
theorem respond_moves (r : Request) (res : Result) (d : List Byte) (u : State) :
    Move u.blocks (respond r res d (endRun u)).blocks := by
  rw [respond_blocks]
  exact .window _ (windowAfter_closed u.blocks)

theorem idle_of {s : State} (h : ¬ s.storeBusy = true) : s.blocks.storeBusy = false := Bool.eq_false_of_not_eq_true h

theorem mayStage_of {s : State} (h : stagingRefusal s = none) : MayStage s.blocks := by
  unfold stagingRefusal at h
  split at h
  · cases h
  · split at h
    · cases h
    · exact ⟨idle_of ‹_›, Bool.eq_false_of_not_eq_true ‹_›⟩

theorem saturate_range (lo hi x : Int) (h : lo ≤ hi) : lo ≤ saturate lo hi x ∧ saturate lo hi x ≤ hi := by
  unfold saturate; omega

theorem imuArrival_moves (d : List Byte) (t : Millis) (s : State) : Move s.blocks (imuArrival d t s).blocks := by
  unfold imuArrival
  split
  · dsimp only
    split
    · unfold imuAccept
      rw [lookupRefresh_blocks]
      exact .imu _ _ _ _ _ _ (saturate_range _ _ _ (by decide)).1 (saturate_range _ _ _ (by decide)).2
        (saturate_range _ _ _ (by decide)).1 (saturate_range _ _ _ (by decide)).2
    · exact .imuBad _
  · exact .imuBad s.sensors.lastCounters

theorem wheelArrival_moves (d : List Byte) (t : Millis) (s : State) : Move s.blocks (wheelArrival d t s).blocks := by
  unfold wheelArrival
  split
  · dsimp only
    split
    · unfold wheelAccept
      rw [requestPass_blocks]
      exact .wheel _ _ _ _ (Nat.min_le_right _ _) (Nat.min_le_right _ _)
    · exact .counters _
  · exact .stay

theorem brakeArrival_moves (d : List Byte) (t : Millis) (s : State) : Move s.blocks (brakeArrival d t s).blocks := by
  unfold brakeArrival
  dsimp only
  split
  · exact .counters _
  · exact .brake _ _ _ _ (Nat.min_le_right _ _) (Nat.min_le_right _ _)

theorem torqueArrival_moves (d : List Byte) (s : State) : Move s.blocks (torqueArrival d s).blocks := by
  unfold torqueArrival
  dsimp only
  split
  · exact .counters _
  · exact .torque _ _ (saturate_range _ _ _ (by decide)).1 (saturate_range _ _ _ (by decide)).2

theorem rideModeArrival_moves (d : List Byte) (s : State) : Move s.blocks (rideModeArrival d s).blocks := by
  unfold rideModeArrival
  split
  · dsimp only
    split
    · exact .counters _
    · unfold State.handRideMode
      split
      · exact .pendingSet _ s.ctl.pendingLoad _
      · exact .counters _
  · exact .stay

theorem loadStateArrival_moves (d : List Byte) (s : State) : Move s.blocks (loadStateArrival d s).blocks := by
  unfold loadStateArrival
  split
  · dsimp only
    split
    · exact .counters _
    · unfold State.handLoadState
      split
      · exact .pendingSet s.ctl.pendingMode _ _
      · exact .counters _
  · exact .stay

theorem receive_moves (p : Port) (f : Frame) (t : Millis) (s : State) : Move s.blocks (receive p f t s).blocks := by
  unfold receive
  split
  · rw [requestArrival_blocks]; exact .stay
  · unfold actOn
    have hp : ∀ k, (forwardPlain p f k s).blocks = s.blocks := fun k => place_blocks _ _ _ _ _
    split
    · rw [hp]; exact .stay
    · exact .stay
    · rw [← hp]; exact imuArrival_moves _ _ _
    · rw [← hp]; exact wheelArrival_moves _ _ _
    · rw [← hp]; exact rideModeArrival_moves _ _
    · rw [← hp]; exact loadStateArrival_moves _ _
    · rw [ackArrival_blocks, hp]; exact .stay
    · unfold torqueRequestFrame forwardBadCheck
      split
      · rw [← place_blocks p.other (limitTorque s.ctl.state s.eval.record f) .controlled true s]; exact torqueArrival_moves _ _
      · rw [raiseCondition_blocks, place_blocks]; exact .stay
    · unfold brakeDemandFrame forwardBadCheck
      split
      · rw [← place_blocks p.other (limitBrake s.banks.active s.eval.record f) .controlled true s]; exact brakeArrival_moves _ _ _
      · rw [raiseCondition_blocks, place_blocks]; exact .stay

theorem reducedSent_blocks (c : Content) (t : Millis) (s : State) : (reducedSent c t s).blocks = s.blocks := by
  unfold reducedSent
  split <;> rfl

theorem partSent_blocks (c : Content) (s : State) : (partSent c s).blocks = s.blocks := by
  unfold partSent
  split
  · exact nextPart_blocks s
  · rfl

theorem partLost_blocks (c : Content) (s : State) : (s.partLost c).blocks = s.blocks := (s.partLost_onlySent c).blocks

theorem transmitComplete_moves (p : Port) (t : Millis) (s : State) :
    ∀ u, execTransmitComplete p t s = .next u → u.blocks = s.blocks := by
  intro u h
  unfold execTransmitComplete at h
  injection h with h
  rw [← h]
  split
  · rfl
  · unfold sendDone
    rw [offerAt_blocks, partSent_blocks, setQueue_blocks, reducedSent_blocks]

theorem transmitError_moves (p : Port) (s : State) : ∀ u, execTransmitError p s = .next u → u.blocks = s.blocks := by
  intro u h
  unfold execTransmitError at h
  injection h with h
  rw [← h]
  split
  · rfl
  · unfold sendFailed
    split
    · rw [offerAt_blocks, setQueue_blocks]
    · split
      · dsimp only
        rw [offerAt_blocks, raiseCondition_blocks, partLost_blocks, setQueue_blocks]
      · rw [offerAt_blocks, setQueue_blocks]

theorem enterLost_moves (s : State) : Move s.blocks (enterLost s).blocks := by
  unfold enterLost
  rw [raiseCondition_blocks, lookupRefresh_blocks]
  exact .lost

theorem holdExpiry_moves (s : State) : Move s.blocks (holdExpiry s).blocks := by
  unfold holdExpiry
  split
  · rw [lookupRefresh_blocks]; exact .held ‹_›
  · exact enterLost_moves s
  · exact .holdStops (.inl ‹_›)
  · exact .holdStops (.inr ‹_›)

theorem lostExpiry_moves (s : State) : Move s.blocks (lostExpiry s).blocks := by
  unfold lostExpiry
  split
  · exact enterLost_moves s
  · exact enterLost_moves s
  · exact .lostStops (.inl ‹_›)
  · exact .lostStops (.inr ‹_›)

theorem wheelExpiry_moves (s : State) : Move s.blocks (wheelExpiry s).blocks := by
  unfold wheelExpiry
  dsimp only
  split
  · rename_i h; exact .passive (by rw [State.blocks_ctl, h]; decide) (by rw [State.blocks_ctl, h]; decide)
  · rename_i h; rw [raiseCondition_blocks]; exact .passive (by rw [State.blocks_ctl, h]; decide) (by rw [State.blocks_ctl, h]; decide)
  · rename_i h; rw [raiseCondition_blocks]; exact .passive (by rw [State.blocks_ctl, h]; decide) (by rw [State.blocks_ctl, h]; decide)
  · rename_i h; exact .wheelStops (.inl h)
  · rename_i h; rw [raiseCondition_blocks]; exact .wheelStops (.inr h)

theorem pass_moves (o : TakeOrder) (s : State) (p : Pass) (h : s.eval.inFlight = some p) :
    Move s.blocks (beginWaiting (blocksTake o p.inputs.q (recordPass p s))).blocks := by
  unfold blocksTake
  rw [beginWaiting_blocks, blocksTake_blocks]
  exact .pass p o h

theorem failStore_blocks (i : SlotId) (s : State) : (failStore i s).blocks =
    s.blocks.withStore { s.store with slots := s.store.slots.set i (s.store.slots.get i).erased, state := .idle } := by
  unfold failStore
  rw [raiseCondition_blocks]
  rfl

theorem planePhase_moves (i : SlotId) (p : PlaneId) (l : List (Nat × Word)) (s : State)
    (h : s.store.state = .inProgress i (.plane p)) : Move s.blocks (planePhaseDone i p l s).blocks := by
  unfold planePhaseDone
  dsimp only
  split
  · exact .programmed i p _ h (takenCells_length _ _) ‹_›
  · rw [failStore_blocks]
    have : ∀ (x : Slots) (y : Slot), (x.set i y).set i ((x.set i y).get i).erased = x.set i { cells := y.cells, pairs := erasedPairs, complete := false } := by
      intro x y; cases i <;> rfl
    dsimp only [State.withStore]
    rw [this]
    exact .unprogrammed i p _ h (takenCells_length _ _)

theorem headerPhase_moves (i : SlotId) (r : HeaderReadBack) (s : State) (h : s.store.state = .inProgress i .header) :
    Move s.blocks (headerPhaseDone i r s).blocks := by
  unfold headerPhaseDone
  split
  · dsimp only
    rw [raiseCondition_blocks]
    exact .storeDone i h
  · rw [failStore_blocks]
    exact .storeUndone i h

theorem buildDone_moves (t : Millis) (s : State) (h : s.phase = .building) : Move s.blocks (buildDone t s).blocks := by
  unfold buildDone
  dsimp only
  split
  · rw [raiseCondition_blocks]; exact .built t h
  · exact .built t h

theorem enterRoller_moves (r : Request) (u : State) : Move u.blocks (answerEnterRoller r (endRun u)).blocks := by
  unfold answerEnterRoller
  split
  · split
    · rw [respond_blocks]; exact .roller _ (windowAfter_closed u.blocks) (.inl ‹_›) ‹_›
    · exact respond_moves _ _ _ _
  · split
    · rw [respond_blocks]; exact .roller _ (windowAfter_closed u.blocks) (.inr ‹_›) ‹_›
    · exact respond_moves _ _ _ _
  all_goals exact respond_moves _ _ _ _

theorem leaveRoller_moves (r : Request) (u : State) : Move u.blocks (answerLeaveRoller r (endRun u)).blocks := by
  unfold answerLeaveRoller
  split
  · rw [respond_blocks]; exact .rollerLeft _ (windowAfter_closed u.blocks) ‹_›
  all_goals exact respond_moves _ _ _ _

theorem restart_moves (t : Millis) (r : Request) (u : State) : Move u.blocks (answerRestart t r (endRun u)).blocks := by
  unfold answerRestart
  split
  · exact respond_moves _ _ _ _
  · rename_i h
    split
    · rw [respond_blocks]; exact .restart (closedWindow u.banks.window) t (idle_of (s := endRun u) h)
    · exact respond_moves _ _ _ _

theorem mayStage_endRun {u : State} (h : stagingRefusal (endRun u) = none) : MayStage u.blocks :=
  ⟨(mayStage_of h).idle, (mayStage_of h).pending⟩

theorem windowOf_legal {bank : BankSel} {kind : WindowKind} {order : WindowOrder} {p : PlaneId} {r0 r1 c0 c1 : Nat} {seq : Byte}
    {w : Window} (hk : ¬ (kind = .load ∧ bank = .active)) (h : windowOf bank kind order p r0 r1 c0 c1 seq = some w) :
    WindowLegal w := by
  unfold windowOf at h
  dsimp only at h
  split at h
  · cases h
  · rename_i hn
    simp only [Option.some.injEq] at h
    subst h
    have hr : 0 < p.rows := by cases p <;> decide
    have hc : 0 < p.cols := by cases p <;> decide
    refine ⟨⟨?_, ?_⟩, ⟨?_, ?_⟩, Nat.zero_le _, ?_, .inr rfl⟩
    · dsimp only; omega
    · dsimp only; omega
    · dsimp only; omega
    · dsimp only; omega
    · intro h
      cases bank with
      | staging => rfl
      | active => exact absurd ⟨h, rfl⟩ hk

theorem openWindow_moves (r : Request) (u : State) : Move u.blocks (answerOpenWindow r (endRun u)).blocks := by
  unfold answerOpenWindow
  split
  · exact respond_moves _ _ _ _
  · split
    · exact respond_moves _ _ _ _
    · split
      · split
        · exact respond_moves _ _ _ _
        · rename_i hk
          split
          · exact respond_moves _ _ _ _
          · rename_i w hw
            rw [respond_blocks]
            exact .window (some w) (fun _ v hv => by cases hv; exact windowOf_legal hk hw)
      · exact respond_moves _ _ _ _

theorem writeValues_bound (w : Window) (vs : List Word) : ∀ (p : Nat) (cells : List Word), p ≤ w.size →
    p + (writeValues w p cells vs).2 ≤ w.size := by
  induction vs with
  | nil => intro p cells h; exact h
  | cons v vs ih =>
    intro p cells h
    unfold writeValues
    split
    · rename_i hp
      have := ih (p + 1) (cells.set (w.cellIndex p) v) hp
      dsimp only
      omega
    · exact h

theorem loadData_moves (r : Request) (u : State) : Move u.blocks (answerLoadData r u).blocks := by
  unfold answerLoadData
  split
  · exact respond_moves _ _ _ _
  · rename_i hst
    split
    · rw [respond_blocks]; exact .stay
    · rename_i w hw
      split
      · exact respond_moves _ _ _ _
      · rename_i hrun
        split
        · exact respond_moves _ _ _ _
        · split
          · exact respond_moves _ _ _ _
          · unfold loadValues
            dsimp only
            rw [respond_blocks]
            generalize hx : writeValues w w.position (u.banks.staging.get w.plane).cells (requestValues (r.drop 2)) = x
            have hlegal : windowAfter u.blocks (some { w with position := w.position + x.2, expected := w.expected + 1 }) := by
              intro h v hv
              cases hv
              have := h w hw
              exact ⟨this.rows, this.cols, hx ▸ writeValues_bound w _ _ _ this.position, this.load, this.run⟩
            unfold writtenPlane
            split
            · have : u.banks.staging.set w.plane (u.banks.staging.get w.plane) = u.banks.staging := PerPlane.set_get _ _
              rw [this]
              exact .window _ hlegal
            · exact .written _ w.plane x.1 hlegal (mayStage_of hst) (hx ▸ writeValues_length _ _ _ _)

theorem endRun_window {u : State} {w : Window} (h : (endRun u).banks.window = some w) :
    ∃ v, u.banks.window = some v ∧ w = { v with openRun := none } := by
  cases hw : u.banks.window with
  | none => simp [endRun, State.withBanks, hw] at h
  | some v =>
    simp only [endRun, State.withBanks, hw, Option.map_some, Option.some.injEq] at h
    exact ⟨v, rfl, h.symm⟩

theorem resumeWindow_moves (r : Request) (u : State) : Move u.blocks (answerResumeWindow r (endRun u)).blocks := by
  unfold answerResumeWindow
  split
  · exact respond_moves _ _ _ _
  · rename_i w hw
    split
    · exact respond_moves _ _ _ _
    · rw [respond_blocks]
      refine .window (some { w with openRun := some w.kind, expected := requestSeq r + 1 }) ?_
      intro h v hv
      cases hv
      obtain ⟨v, hv, rfl⟩ := endRun_window hw
      have := h v hv
      exact ⟨this.rows, this.cols, this.position, this.load, .inr rfl⟩

theorem fillWindow_moves (r : Request) (u : State) : Move u.blocks (answerFillWindow r (endRun u)).blocks := by
  unfold answerFillWindow
  split
  · exact respond_moves _ _ _ _
  · rename_i w hw
    split
    · exact respond_moves _ _ _ _
    · split
      · exact respond_moves _ _ _ _
      · rename_i hst
        dsimp only
        rw [respond_blocks]
        refine .written (some { w with position := w.size, openRun := none }) w.plane _ ?_
          (mayStage_endRun hst) (fillCells_length _ _ _)
        intro h v hv
        cases hv
        obtain ⟨v, hv, rfl⟩ := endRun_window hw
        have := h v hv
        exact ⟨this.rows, this.cols, Nat.le_refl _, this.load, .inl rfl⟩

theorem readData_moves (r : Request) (u : State) : Move u.blocks (answerReadData r u).blocks := by
  unfold answerReadData
  split
  · exact respond_moves _ _ _ _
  · split
    · rw [respond_blocks]; exact .stay
    · rename_i w hw
      split
      · exact respond_moves _ _ _ _
      · split
        · exact respond_moves _ _ _ _
        · unfold readValues
          dsimp only
          rw [respond_blocks]
          refine .window _ ?_
          intro h v hv
          cases hv
          have := h w hw
          refine ⟨this.rows, this.cols, ?_, this.load, this.run⟩
          have h2 := this.position
          show w.position + (readCells w _ 3).length ≤ w.size
          unfold readCells
          rw [List.length_map, List.length_range]
          omega

theorem commitPlane_moves (r : Request) (u : State) : Move u.blocks (answerCommitPlane r (endRun u)).blocks := by
  unfold answerCommitPlane
  split
  · exact respond_moves _ _ _ _
  · rename_i hst
    split
    · exact respond_moves _ _ _ _
    · rename_i p _
      rw [respond_blocks]
      have same : ∀ pl, pl = (endRun u).banks.staging.get p →
          Move u.blocks ((endRun u).withStaging ((endRun u).banks.staging.set p pl)).blocks := by
        rintro pl rfl
        rw [PerPlane.set_get]
        exact .window _ (windowAfter_closed u.blocks)
      unfold commitResult
      split
      · exact same _ rfl
      · dsimp only
        split
        · split
          · exact .committed (closedWindow u.banks.window) p (windowAfter_closed u.blocks) (mayStage_endRun hst)
          · exact same _ rfl
        · split
          · exact same _ rfl
          · exact same _ rfl

theorem stageCopy_moves (r : Request) (u : State) : Move u.blocks (answerStageCopy r (endRun u)).blocks := by
  unfold answerStageCopy
  split
  · exact respond_moves _ _ _ _
  · rename_i hst
    rw [respond_blocks]
    exact .copied (mayStage_endRun hst)

theorem loadImage_moves (r : Request) (u : State) : Move u.blocks (answerLoadImage r (endRun u)).blocks := by
  unfold answerLoadImage
  split
  · exact respond_moves _ _ _ _
  · rename_i hst
    split
    · exact respond_moves _ _ _ _
    · rename_i i _
      dsimp only
      split
      · rename_i hc
        rw [respond_blocks]
        exact .loaded i (mayStage_endRun hst) hc
      · exact respond_moves _ _ _ _

theorem activate_moves (r : Request) (u : State) : Move u.blocks (answerActivate r (endRun u)).blocks := by
  unfold answerActivate
  split
  · exact respond_moves _ _ _ _
  · rename_i h1
    split
    · exact respond_moves _ _ _ _
    · rename_i h2
      have hs : MayStage u.blocks := ⟨idle_of (s := endRun u) h2, Bool.eq_false_of_not_eq_true h1⟩
      dsimp only
      split
      · rename_i h3
        rw [respond_blocks]
        exact .activated (closedWindow u.banks.window) true (windowAfter_closed u.blocks) hs (fun _ => h3)
      · rw [respond_blocks]
        have := Move.activated (closedWindow u.banks.window) false (windowAfter_closed u.blocks) hs nofun
        have e : u.banks.activationPending = false := hs.pending
        rw [← e] at this
        exact this

theorem cancelActivation_moves (r : Request) (u : State) : Move u.blocks (answerCancelActivation r (endRun u)).blocks := by
  unfold answerCancelActivation
  rw [respond_blocks]
  exact .cancelled (closedWindow u.banks.window) (windowAfter_closed u.blocks)

theorem storeImage_moves (r : Request) (u : State) : Move u.blocks (answerStoreImage r (endRun u)).blocks := by
  unfold answerStoreImage
  split
  · exact respond_moves _ _ _ _
  · rename_i h
    split
    · exact respond_moves _ _ _ _
    · split
      · rename_i hv
        rw [respond_blocks]
        exact .storeBegun (closedWindow u.banks.window) _ (windowAfter_closed u.blocks) (idle_of (s := endRun u) h) hv
      · exact respond_moves _ _ _ _

theorem selectBootSlot_moves (r : Request) (u : State) : Move u.blocks (answerSelectBootSlot r (endRun u)).blocks := by
  unfold answerSelectBootSlot
  split
  · exact respond_moves _ _ _ _
  · rename_i h
    split
    · exact respond_moves _ _ _ _
    · rw [respond_blocks]
      exact .selected (closedWindow u.banks.window) _ (windowAfter_closed u.blocks) (idle_of (s := endRun u) h)

theorem enableNotices_moves (r : Request) (u : State) : Move u.blocks (answerEnableNotices r (endRun u)).blocks := by
  unfold answerEnableNotices
  split
  · exact respond_moves _ _ _ _
  · rw [respond_blocks]
    exact .window _ (windowAfter_closed u.blocks)

theorem disableNotices_moves (r : Request) (u : State) : Move u.blocks (answerDisableNotices r (endRun u)).blocks := by
  unfold answerDisableNotices
  split
  · exact respond_moves _ _ _ _
  · rw [respond_blocks]
    exact .window _ (windowAfter_closed u.blocks)

theorem clearConditions_moves (r : Request) (u : State) : Move u.blocks (answerClearConditions r (endRun u)).blocks := by
  unfold answerClearConditions
  split
  · exact respond_moves _ _ _ _
  · rw [respond_blocks]
    exact .window _ (windowAfter_closed u.blocks)

/-- What every command does to the blocks is in the list. -/
theorem exec_moves (c : Instr) (s t : State) (h : exec c s = .next t) : Move s.blocks t.blocks := by
  cases c with
  | frameReceive p f t =>
    injection h with h; rw [← h]
    split
    · exact receive_moves _ _ _ _
    · exact .stay
  | transmitComplete p t => rw [transmitComplete_moves p t s _ h]; exact .stay
  | transmitError p => rw [transmitError_moves p s _ h]; exact .stay
  | staleTransmitReport p r => injection h with h; rw [← h]; exact .stay
  | passCompletion o =>
    injection h with h; rw [← h]
    split
    · exact .stay
    · exact pass_moves _ _ _ ‹_›
  | holdTimerExpiry t => injection h with h; rw [← h]; split <;> [exact holdExpiry_moves s; exact .stay]
  | lostTimerExpiry t => injection h with h; rw [← h]; split <;> [exact lostExpiry_moves s; exact .stay]
  | wheelTimeout t => injection h with h; rw [← h]; split <;> [exact wheelExpiry_moves s; exact .stay]
  | brakeTimerExpiry t => injection h with h; rw [← h]; split <;> [exact .brakeStops; exact .stay]
  | ackDeadlineExpiry k t =>
    injection h with h; rw [← h]
    split
    · exact .stay
    · split
      · rw [ackMiss_blocks]; exact .stay
      · exact .stay
  | statusTimerExpiry t =>
    injection h with h; rw [← h]
    split
    · generalize hu : place .upstream (plainContent (statusFrame s)) .part true s = u
      have : s.blocks = u.blocks := by rw [← hu, place_blocks]
      rw [this]
      exact .status _
    · exact .stay
  | storePlanePhaseComplete l =>
    injection h with h; rw [← h]
    split
    · exact planePhase_moves _ _ _ _ ‹_›
    · exact .stay
    · exact .stay
  | storeHeaderPhaseComplete r =>
    injection h with h; rw [← h]
    split
    · exact headerPhase_moves _ _ _ ‹_›
    · exact .stay
    · exact .stay
  | powerOn n => injection h with h; rw [← h]; exact .hardReset s.freeCount
  | resetLine n => injection h with h; rw [← h]; exact .hardReset s.freeCount
  | bootBuildComplete t =>
    injection h with h; rw [← h]
    split
    · exact buildDone_moves _ _ ‹_›
    · exact .stay
  | identify => injection h with h; rw [← h]; exact takeRequest_moves s (withLength_moves fun r u => respond_moves _ _ _ _)
  | readStatus =>
    injection h with h; rw [← h]
    refine takeRequest_moves s fun r u => ?_
    unfold answerReadStatus
    split
    · rw [respond_blocks]; exact .stay
    · split <;> (rw [respond_blocks]; exact .stay)
  | enableNotices => injection h with h; rw [← h]; exact takeRequest_moves s (withLength_moves enableNotices_moves)
  | disableNotices => injection h with h; rw [← h]; exact takeRequest_moves s (withLength_moves disableNotices_moves)
  | clearConditions => injection h with h; rw [← h]; exact takeRequest_moves s (withLength_moves clearConditions_moves)
  | clearResetCause =>
    injection h with h; rw [← h]
    refine takeRequest_moves s (withLength_moves fun r u => ?_)
    unfold answerClearResetCause
    rw [respond_blocks]
    exact .window _ (windowAfter_closed u.blocks)
  | enterRoller => injection h with h; rw [← h]; exact takeRequest_moves s (withLength_moves enterRoller_moves)
  | leaveRoller => injection h with h; rw [← h]; exact takeRequest_moves s (withLength_moves leaveRoller_moves)
  | restart t => injection h with h; rw [← h]; exact takeRequest_moves s (withLength_moves (restart_moves t))
  | openWindow => injection h with h; rw [← h]; exact takeRequest_moves s (withLength_moves openWindow_moves)
  | loadData => injection h with h; rw [← h]; exact takeRequest_moves s loadData_moves
  | resumeWindow => injection h with h; rw [← h]; exact takeRequest_moves s (withLength_moves resumeWindow_moves)
  | readData => injection h with h; rw [← h]; exact takeRequest_moves s readData_moves
  | fillWindow => injection h with h; rw [← h]; exact takeRequest_moves s (withLength_moves fillWindow_moves)
  | commitPlane => injection h with h; rw [← h]; exact takeRequest_moves s (withLength_moves commitPlane_moves)
  | stageCopy => injection h with h; rw [← h]; exact takeRequest_moves s (withLength_moves stageCopy_moves)
  | activate => injection h with h; rw [← h]; exact takeRequest_moves s (withLength_moves activate_moves)
  | cancelActivation => injection h with h; rw [← h]; exact takeRequest_moves s (withLength_moves cancelActivation_moves)
  | storeImage => injection h with h; rw [← h]; exact takeRequest_moves s (withLength_moves storeImage_moves)
  | loadImage => injection h with h; rw [← h]; exact takeRequest_moves s (withLength_moves loadImage_moves)
  | selectBootSlot => injection h with h; rw [← h]; exact takeRequest_moves s (withLength_moves selectBootSlot_moves)
  | unknownRequest =>
    injection h with h; rw [← h]
    exact takeRequest_moves s fun r u => .window _ (windowAfter_closed u.blocks)

/-- A step does one of the moves, or idles. -/
theorem step_moves {s t : State} (h : step s = .next t) : Move s.blocks t.blocks := by
  unfold step at h
  split at h
  · injection h with h; rw [← h]; exact .stay
  · have := exec_moves _ _ t h
    exact this

end Sys2Proof.Machine
end

