-- ==== Sys2Proof/Tests/Slice0.lean ====
section
/-!
SUPPORT. Tests: what WellFormed refuses, small tests whose expected values are the manual's own examples, and for each
statement with hypotheses a state that meets them. Where a clause has a range, the witness stands at its ends.
-/

namespace Sys2Proof.Tests

open Sys2Proof Sys2Proof.Machine

/-! ### Helpers -/

/-- A standard identifier. -/
def std (n : Nat) : FrameId := .std (BitVec.ofNat 11 n)

/-- A standard data frame as a segment delivers it. -/
def frame (id : Nat) (d : List Byte) : RxFrame := { id := std id, kind := .data, dlc := BitVec.ofNat 4 d.length, data := d }

/-- The same with its check byte. -/
def checked (id : Nat) (d : List Byte) : RxFrame := frame id (withCheck d)

/-- A running blank part: the built-in planes, LIMP. -/
def base : State :=
  { State.reset with
    phase := .running,
    sensors := { resetSensors with wheelTimer := some 40 },
    ctl := { State.reset.ctl with statusTimer := some 100 } }

/-- The running part in another control state. -/
def inState (c : CtlState) : State := { base with ctl := { base.ctl with state := c } }

/-- A part with these requests waiting. -/
def asked (s : State) (l : List Request) : State := { s with mgmt := { s.mgmt with requests := l } }

/-- A part with these commands waiting. -/
def commanded (s : State) (l : List Instr) : State := { s with pending := l }

/-- A step answers a next state that passes a test. -/
def answers (o : Host.Outcome State Fault Refusal) (f : State → Bool) : Bool :=
  match o with
  | .next t => f t
  | _ => false

/-- The state a command answers. -/
def after (c : Instr) (s : State) : State :=
  match exec c s with
  | .next t => t
  | _ => s

/-- The data of the newest entry of the upstream queue, or of its follow-on. -/
def lastSent (s : State) : List Byte :=
  match s.upstream.getLast? with
  | none => []
  | some e => match e.followOn with
    | some c => c.frame.data
    | none => e.content.frame.data

/-- An entry of a queue. -/
def entry (id : Nat) (o : Origin) (offered : Bool) : Entry :=
  { content := plainContent (dataFrame (BitVec.ofNat 11 id) []), origin := o, coalesce := true, attempts := 0,
    offered := offered, followOn := none }

/-- A queue of waiting PLAIN entries behind one in offer. -/
def plainQueue (n : Nat) : List Entry := entry 0x400 .plain true :: (List.range (n - 1)).map fun i => entry (0x401 + i) .plain false

/-- A VERIFIED plane of these cells. -/
def verifiedPlane (cells : List Word) : Plane := { cells := cells, status := .verified (pairOf cells) }

/-- A bank with every plane VERIFIED: zeros but for RADIUS and the built-in planes. -/
def goodBank : Bank :=
  { slipTarget := verifiedPlane zeroCells.slipTarget, torqueCeiling := verifiedPlane zeroCells.torqueCeiling,
    brakeFront := verifiedPlane zeroCells.brakeFront, brakeRear := verifiedPlane zeroCells.brakeRear,
    radius := verifiedPlane (List.replicate 66 4096), columnSelect := verifiedPlane zeroCells.columnSelect,
    parameter := builtInParameter, action := builtInAction }

/-- The running part with that bank staged. -/
def staged : State := { base with banks := { base.banks with staging := goodBank } }

/-- A slot that holds it, VALID. -/
def goodSlot : Slot :=
  { cells := PerPlane.build fun p => (goodBank.get p).cells, pairs := PerPlane.build fun p => recordedPair (goodBank.get p),
    complete := true }

/-- The part before its build, with that slot in slot 0. -/
def bootable : State := { State.reset with store := { State.reset.store with slots := State.reset.store.slots.set .slot0 goodSlot } }

/-! ### What WellFormed refuses -/

theorem test_wellFormed_length : (Instr.frameReceive .upstream ⟨std 1, .data, 2, [0]⟩ 0).wellFormed = false := by decide

theorem test_wellFormed_nine_is_eight :
    (Instr.frameReceive .upstream ⟨std 1, .data, 9, List.replicate 8 0⟩ 0).wellFormed = true ∧
      (Instr.frameReceive .upstream ⟨std 1, .data, 9, List.replicate 9 0⟩ 0).wellFormed = false := by decide

theorem test_wellFormed_remote : (Instr.frameReceive .upstream ⟨std 1, .remote, 1, [0]⟩ 0).wellFormed = false := by decide

theorem test_wellFormed_index :
    (Instr.storePlanePhaseComplete [(271, 0)]).wellFormed = true ∧
      (Instr.storePlanePhaseComplete [(272, 0)]).wellFormed = false := by decide

theorem test_wellFormed_twice : (Instr.storePlanePhaseComplete [(3, 0), (3, 1)]).wellFormed = false := by decide

/-! ### The manual's examples, and values worked by hand from its rules -/

/-- R76, R77: the check pairs of the built-in planes. -/
theorem test_builtIn_pairs :
    pairOf builtInActionCells = ⟨3353, 54999⟩ ∧ pairOf builtInParameterCells = ⟨2945, 36558⟩ := by decide +kernel

/-- R176: the built-in planes pass their own checks. -/
theorem test_builtIn_checks :
    passesChecks .action builtInActionCells = true ∧ passesChecks .parameter builtInParameterCells = true := by
  decide +kernel

/-- 07, the example of R133: COLUMN_SELECT 0 to 15 with cell 6 holding 9, and holding 3. -/
theorem test_commit_locates :
    let cells := (List.range 16).map (BitVec.ofNat 16)
    pairOf cells = ⟨120, 1360⟩ ∧
      (commitResult .columnSelect ⟨cells.set 6 9, .loading⟩ ⟨120, 1360⟩).2.1 = [0, 6, 0, 3] ∧
      (commitResult .columnSelect ⟨cells.set 6 3, .loading⟩ ⟨120, 1360⟩).2.1 = [0, 6, 0xFF, 0xFD] := by decide +kernel

/-- 07: an excess of 256 is located in a plane of 66 cells and not in one of 272. -/
theorem test_locate_even : locate 66 256 1024 = some 3 ∧ locate 272 256 1024 = none := by decide +kernel

/-- R161, 11.4: the notice of REQUEST_DROP with FORWARD_DROP already in the set. -/
theorem test_notice_bytes :
    lastSent (raiseCondition .requestDrop { base with mgmt := { base.mgmt with conditions := 0x20, enabled := 0x4000 } }) =
      [0x0E, 0x40, 0x20, 0x91] := by decide +kernel

/-- 11.4: the example status frame, ACTIVE and LIVE at 30.0° with a cut of 31 in column 5 and a load pending. -/
theorem test_status_frame :
    lastSent (after (.statusTimerExpiry 100) { inState .active with
      ctl := { base.ctl with state := .active, pendingLoad := some .pair },
      banks := { base.banks with active := goodBank },
      sensors := { base.sensors with source := .live, imuLean := 300 },
      eval := { base.eval with record := { blankRecord with cut := 31, column := 5 } } }) =
      [0x01, 0x21, 0, 0x1F, 0, 5, 0x1E, 0x9B] := by decide +kernel

/-- R156: Identify, with its check byte. -/
theorem test_identify : lastSent (after .identify (asked base [[0x01, 10]])) =
    withCheck [0x01, 10, 0x40, 0x2C, 0x07, 0x40, 0x30] := by decide +kernel

/-- R156: the node number stands in Identify's last byte. -/
theorem test_identify_node :
    lastSent (after .identify { asked base [[0x01, 0]] with mgmt := { base.mgmt with node := 2, requests := [[0x01, 0]] } }) =
      withCheck [0x01, 0, 0x40, 0x2C, 0x07, 0x40, 0x32] := by decide +kernel

/-- R174 to R177 on a blank part: LIMP, BOOT_DEGRADED, the record of the assumed lean. -/
theorem test_boot_blank :
    answers (exec (.bootBuildComplete 0) State.reset) fun t =>
      t.ctl.state == .limp && t.mgmt.conditions == Condition.bootDegraded.bit && t.eval.record == blankRecord
        && t.sensors.wheelTimer == some 40 && t.ctl.statusTimer == some 100 := by decide +kernel

/-- R175, R177: a good slot boots into START without a condition. -/
theorem test_boot_good :
    answers (exec (.bootBuildComplete 0) bootable) fun t =>
      t.ctl.state == .start && t.mgmt.conditions == 0 && t.banks.active == goodBank := by decide +kernel

/-- R80: slip 171 over a target of 92 with gain 24 adds 30. -/
theorem test_newCut : newCut goodBank .active false (171 - 92) 0 10 = 40 ∧ newCut goodBank .limp false 79 0 10 = 7 := by
  decide +kernel

/-- R50: slip is truncated toward zero. -/
theorem test_slip_truncates : rearSlip 7999 8000 = 0 ∧ rearSlip 7991 8000 = -1 ∧ rearSlip 0 8000 = -1000 ∧
    rearSlip 65000 500 = 2000 := by decide +kernel

/-- R69: interpolation in a falling table lies on the lower row's side. -/
theorem test_interpolate : interpolate 80 73 20 40 = 77 ∧ interpolate 73 80 20 40 = 76 := by decide +kernel

/-- R87, R88: −30 N·m with a relief of 12 is sent as −18, and −5 as 0. -/
theorem test_relief : limitedTorque .active { blankRecord with relief := 12 } (-30) = -18 ∧
    limitedTorque .active { blankRecord with relief := 12 } (-5) = 0 := by decide +kernel

/-- R14: a standard identifier goes before an extended one of the same first 11 bits, and data before remote. -/
theorem test_offerKey :
    offerKey (dataFrame 0x100 []) < offerKey { dataFrame 0 [] with id := .ext (BitVec.ofNat 29 (0x100 * 2 ^ 18)) } ∧
      offerKey (dataFrame 0x100 []) < offerKey { dataFrame 0x100 [] with kind := .remote } := by decide +kernel

/-- 07, the load run of the example: Open Window on the whole PARAMETER plane answers 21 cells. -/
theorem test_openWindow : lastSent (after .openWindow (asked base [[0x10, 40, 0, 6, 0, 0, 0, 20]])) =
    withCheck [0x10, 40, 0x40, 0, 21] := by decide +kernel

/-- 07, the load run of the example: after sequence 42 a request of 44 is answered SEQUENCE_GAP with 43. -/
theorem test_loadData_gap :
    let w : Window := ⟨.staging, .parameter, 0, 0, 0, 20, .rowFirst, .load, some .load, 6, 43⟩
    let s := { base with banks := { base.banks with window := some w } }
    lastSent (after .loadData (asked s [[0x11, 44, 0, 80, 0, 32, 0, 30]])) = withCheck [0x11, 44, 0x46, 43] := by
  decide +kernel

/-- 07, the same run: Resume Window answers the position kept, 6. -/
theorem test_resumeWindow :
    let w : Window := ⟨.staging, .parameter, 0, 0, 0, 20, .rowFirst, .load, none, 6, 43⟩
    let s := { base with banks := { base.banks with window := some w } }
    lastSent (after .resumeWindow (asked s [[0x12, 60]])) = withCheck [0x12, 60, 0x40, 0, 6] := by decide +kernel

/-- 02, the example of an IMU dropout: a frame at 10 ms in LIVE starts the timers to 40 and 110. -/
theorem test_imu_timers :
    let s := { base with sensors := { base.sensors with source := .live, holdTimer := some 30, lostTimer := some 100 } }
    answers (exec (.frameReceive .upstream (checked 0x174 [1, 34, 0, 12, 0x85]) 10) s) fun t =>
      t.sensors.imuLean == 290 && t.sensors.holdTimer == some 40 && t.sensors.lostTimer == some 110 := by decide +kernel

/-- 12.5: with the six planes of a blank part's former active bank in staging, Activate lists planes 0 to 5. -/
theorem test_activate_notReady :
    lastSent (after .activate (asked { base with banks := { base.banks with staging := stagedBank blankBank } } [[0x17, 6]])) =
      withCheck [0x17, 6, 0x4B, 0x3F] := by decide +kernel

/-- 12.5: Read Status of the reset causes after a power-on and a reset line, with slot 1 VALID. -/
theorem test_readStatus_causes :
    let s := { base with
      mgmt := { base.mgmt with causes := ⟨true, true, false⟩ },
      store := { base.store with slots := base.store.slots.set .slot1 goodSlot } }
    lastSent (after .readStatus (asked s [[2, 3, 3]])) = withCheck [2, 3, 0x40, 3, 0x20, 0] := by decide +kernel

/-- 08, the example of the scrub: COLUMN_SELECT 0 to 15 with cell 6 changed to 14; row 0 sums to (6, 20), row 1 to (36, 224). -/
theorem test_scrub_rows :
    let cells := (List.range 16).map (BitVec.ofNat 16)
    let s := { base with
      banks := { base.banks with active := { goodBank with columnSelect := { cells := cells.set 6 14, status := .verified ⟨120, 1360⟩ } } },
      scrub := ⟨.columnSelect, 0, ⟨0, 0⟩⟩ }
    (scrubTakes s).scrub = ⟨.columnSelect, 1, ⟨6, 20⟩⟩ ∧
      (scrubTakes (scrubTakes s)).scrub = ⟨.columnSelect, 2, ⟨36, 224⟩⟩ ∧
      (scrubTakes { s with scrub := ⟨.columnSelect, 3, ⟨74, 628⟩⟩ }).banks.active.columnSelect.cells = cells := by
  decide +kernel

/-- R67, R132: in an ACTION plane that offends in four rows the lowest index is reported; R64: IMU_LOST_MS not above
IMU_HOLD_MS offends at entry 12. -/
theorem test_offending :
    firstOffending .action (((((builtInActionCells.set 37 4).set 36 1000).set 38 1).set 44 0x6C3).set 45 1) = some 37 ∧
      firstOffending .parameter (builtInParameterCells.set 11 120) = some 12 := by decide +kernel

/-! ### Witnesses: a state that meets the hypotheses of each statement -/

/-! #### The machine and its invariants -/

theorem witness_StepRunsTheFrontCommand_idle : State.reset.pending = [] := rfl

theorem base_queues (s : State) (h1 : s.upstream = []) (h2 : s.actuator = []) (h3 : s.mgmt.response = none) :
    QueuesLegal s := by
  refine ⟨⟨?_, ?_, ?_, ?_, ?_⟩, ?_, ⟨?_, ?_, ?_, ?_, ?_⟩, ?_, ⟨?_, ?_, ?_, ?_⟩⟩ <;>
    simp [h1, h2, h3, plainCount, offering, Config.queuePlaces, Config.plainPlaces]

theorem shapes_of (b : Bank) (h : allPlanes.all (fun p => (b.get p).cells.length == p.size) = true) : bankShaped b := by
  intro p
  have := (List.all_eq_true.mp h) p (by cases p <;> decide)
  simpa using this

theorem slotShapes_of (x : PerPlane (List Word)) (h : allPlanes.all (fun p => (x.get p).length == p.size) = true) :
    shaped x := by
  intro p
  have := (List.all_eq_true.mp h) p (by cases p <;> decide)
  simpa using this

theorem witness_QueuesStayWithinTheirLimits : QueuesLegal base ∧ ManagementLegal base :=
  ⟨base_queues _ rfl rfl rfl, by decide, by decide, rfl, by simp [base, State.reset]⟩

theorem witness_AckListStaysWithinItsLimits : AckLegal base := ⟨by decide, by decide, by decide, by decide⟩

theorem witness_TablesAndPositionsKeepTheirShapes : TablesShaped base ∧ PositionsLegal base :=
  ⟨⟨shapes_of _ (by decide +kernel), shapes_of _ (by decide +kernel),
    fun i => by cases i <;> exact slotShapes_of _ (by decide +kernel)⟩, by simp [base, State.reset], by decide⟩

theorem witness_PlaneStatesStayLegal : PlanesLegal base ∧ LimpLegal base := by
  refine ⟨⟨fun p => ?_, fun p => ?_, ?_, ?_⟩, by unfold LimpLegal; decide⟩
  · cases p <;> decide
  · cases p <;> decide
  · decide
  · decide

theorem witness_settled : Settled base ∧ Settled State.reset := by
  refine ⟨fun h => absurd h (by decide), fun _ => ⟨rfl, rfl⟩⟩

theorem witness_RecordsStayInRange : EvalLegal base := by
  refine ⟨⟨by decide, by decide, by decide, by decide, by decide⟩,
    ⟨by decide, by decide, by decide, by decide, by decide, by decide, by decide, by decide, by decide, by decide,
      by decide, by decide, by decide⟩, by decide, by decide, ?_, ?_⟩ <;>
    exact fun _ h => nomatch h

theorem witness_TimersAgreeWithTheirRecords : TimersLegal base ∧ LivenessLegal base :=
  ⟨⟨show _ ∧ _ ∧ _ by decide, by decide⟩, by decide, by decide⟩

theorem witness_StandbyHoldsNoCut : StandbyLegal base ∧ StandbyLegal (inState .passive) :=
  ⟨⟨by decide, by decide⟩, by decide, by decide⟩

theorem witness_SlotsAreValidOnlyWithTheirPairs : StoreLegal bootable := by
  refine ⟨fun i => ?_, fun i => ?_, by simp [bootable, State.reset]⟩
  · cases i
    · intro _ p; cases p <;> decide +kernel
    all_goals exact fun h => absurd h (by decide)
  · cases i <;> decide

theorem intact_of (b : Bank) (h : allPlanes.all (fun p => (b.get p).pair?.all fun c => pairOf (b.get p).cells == c) = true) :
    bankIntact b := by
  intro p c hc
  have := (List.all_eq_true.mp h) p (by cases p <;> decide)
  simpa [hc] using this

theorem witness_BanksStayIntact : BanksIntact staged :=
  ⟨intact_of _ (by decide +kernel), intact_of _ (by decide +kernel), by decide⟩

/-- The staged part with the drag relief at the DRAG_MAX of its bank. -/
def relieved : State :=
  { staged with eval := { staged.eval with relief := 60, record := { blankRecord with relief := 60 } } }

theorem witness_RecordsStayInRange_relief :
    (Settled relieved ∧ TablesShaped relieved ∧ PositionsLegal relieved ∧ BanksIntact relieved) ∧ ReliefLegal relieved ∧
      param relieved.banks.active .dragMax = 60 :=
  ⟨⟨fun h => absurd h (by decide), ⟨shapes_of _ (by decide +kernel), shapes_of _ (by decide +kernel),
      fun i => by cases i <;> exact slotShapes_of _ (by decide +kernel)⟩, ⟨fun _ h => (nomatch h), by decide⟩,
      ⟨witness_BanksStayIntact.active, witness_BanksStayIntact.staging, by decide⟩⟩,
    ⟨by decide +kernel, by decide +kernel⟩, by decide +kernel⟩

theorem witness_DuringTheBuildNothingElseMoves : Building State.reset ∧ Building bootable := ⟨⟨rfl, rfl⟩, rfl, rfl⟩

/-- A running part and a building one both take steps. -/
theorem witness_steps :
    (∃ t, step (commanded base [.passCompletion .controlBanksScrub]) = .next t) ∧
      ∃ t, step (commanded State.reset [.bootBuildComplete 0]) = .next t := ⟨⟨_, rfl⟩, _, rfl⟩

/-! #### Frame paths -/

/-- The part with one more row in its ACTION plane, at row 7. -/
def ruled (id kind port flag : Word) : State :=
  { base with banks := { base.banks with active := { blankBank with action := { builtInAction with
      cells := (((builtInActionCells.set 28 id).set 29 kind).set 30 port).set 31 flag } } } }

/-- A queue of `n` CONTROLLED entries behind one in offer, each of its own identifier. -/
def controlledQueue (n : Nat) : List Entry :=
  entry 0x500 .controlled true :: (List.range n).map fun i => entry (0x501 + i) .controlled false

theorem witness_FirstMatchingRowDecides_free :
    let rows := (List.range 16).map (actionRow base.banks.active.action.cells)
    (∀ id : Nat, id = 0x6BF ∨ id = 0x6D0 ∨ id = 0x0C6 → ∀ r ∈ rows, ¬ (r.kind ≠ 0 ∧ r.id = id ∧ r.port = 1)) ∧
      (0x6C0 ≤ (0x6C0#11).toNat ∧ (0x6C0#11).toNat ≤ 0x6CF) ∧ (0x6C0 ≤ (0x6CF#11).toNat ∧ (0x6CF#11).toNat ≤ 0x6CF) ∧
      ((0x6BF#11).toNat < 0x6C0 ∧ 0x6CF < (0x6D0#11).toNat) := by
  refine ⟨?_, by decide, by decide, by decide⟩
  rintro id (rfl | rfl | rfl) <;> decide +kernel

/-- The first row that matches, and behind it one of the same identifier and port that does not decide. -/
theorem witness_FirstMatchingRowDecides_row :
    let rows := (List.range 16).map (actionRow (ruled 0x1A2 2 1 0).banks.active.action.cells)
    rows = rows.take 1 ++ ⟨418, 4, 1, 0⟩ :: rows.drop 2 ∧
      (∀ r ∈ rows.take 1, ¬ (r.kind ≠ 0 ∧ r.id = 0x1A2 ∧ r.port = 1)) ∧ ⟨418, 2, 1, 0⟩ ∈ rows.drop 2 := by
  decide +kernel

theorem witness_ForwardingFollowsTheRow :
    Classified base .actuator (frame 0x300 [1]) ⟨.pass, false⟩ ∧
      Classified (ruled 0x300 1 0 1) .upstream (frame 0x300 []) ⟨.pass, true⟩ ∧
      Classified (ruled 0x300 2 0 0) .upstream (frame 0x300 []) ⟨.block, false⟩ ∧
      (Classified base .upstream (frame 0x0C6 [0, 5, 3, 0]) ⟨.torqueRequest, false⟩ ∧
        ([0, 5, 3, 0] : List Byte).getLast? ≠ some (255 - ([0, 5, 3, 0] : List Byte).dropLast.foldl (· + ·) 0)) ∧
      Classified base .upstream (frame 0x0E4 []) ⟨.brakeDemand, false⟩ := by
  refine ⟨⟨rfl, rfl, ?_, ?_⟩, ⟨rfl, rfl, ?_, ?_⟩, ⟨rfl, rfl, ?_, ?_⟩, ⟨⟨rfl, rfl, ?_, ?_⟩, ?_⟩, rfl, rfl, ?_, ?_⟩ <;>
    decide +kernel

theorem witness_AdmissionKeepsTheQueuesRules_plain :
    (∀ e ∈ plainQueue 13, Entry.sameStream (dataFrame 0x4F0 []) .plain e = false) ∧
      (plainCount (plainQueue 13) < 14 ∧ (plainQueue 13).length < 16) ∧ 14 ≤ plainCount (plainQueue 14) ∧
      (plainCount (plainQueue 13 ++ controlledQueue 2) < 14 ∧ 16 ≤ (plainQueue 13 ++ controlledQueue 2).length) := by
  decide +kernel

theorem witness_AdmissionKeepsTheQueuesRules_displacing :
    let new := dataFrame 0x5F0 []
    ((controlledQueue 14).length < 16 ∧ ∀ e ∈ controlledQueue 14, Entry.sameStream new .controlled e = false) ∧
      (let q := plainQueue 14 ++ [entry 0x501 .controlled false, entry 0x502 .controlled false]
       16 ≤ q.length ∧ (∀ e ∈ q, Entry.sameStream new .controlled e = false) ∧
         q = plainQueue 13 ++ entry 0x40D .plain false :: [entry 0x501 .controlled false, entry 0x502 .controlled false] ∧
         ∀ x ∈ [entry 0x501 .controlled false, entry 0x502 .controlled false], x.origin = .plain → x.offered = true) ∧
      (let q := controlledQueue 15
       16 ≤ q.length ∧ (∀ e ∈ q, Entry.sameStream new .controlled e = false) ∧
         q = [entry 0x500 .controlled true] ++ entry 0x501 .controlled false :: q.drop 2 ∧
         (∀ x ∈ q, x.origin = .plain → x.offered = true) ∧ ∀ x ∈ [entry 0x500 .controlled true], x.offered = true) := by
  decide +kernel

/-- R155: a full queue whose oldest waiting entry is an awaited part. -/
theorem witness_AdmissionKeepsTheQueuesRules_part :
    let waits : Entry :=
      { content := { frame := dataFrame 0x6C4 [], reduced := none, awaitedPart := true }, origin := .part, coalesce := true,
        attempts := 0, offered := false, followOn := none }
    let q := entry 0x4FF .controlled true :: waits :: (controlledQueue 14).drop 1
    16 ≤ q.length ∧ (∀ e ∈ q, Entry.sameStream (dataFrame 0x6C8 []) .part e = false) ∧
      q = [entry 0x4FF .controlled true] ++ waits :: (controlledQueue 14).drop 1 ∧ waits.offered = false ∧
      (∀ x ∈ q, x.origin = .plain → x.offered = true) ∧ (∀ x ∈ [entry 0x4FF .controlled true], x.offered = true) ∧
      waits.content.awaitedPart = true := by decide +kernel

theorem witness_AdmissionKeepsTheQueuesRules_same :
    let new := dataFrame 0x501 [7]
    (Entry.sameStream new .controlled (entry 0x501 .controlled false) = true ∧
      controlledQueue 2 = [entry 0x500 .controlled true] ++ entry 0x501 .controlled false :: [entry 0x502 .controlled false] ∧
      ∀ x ∈ [entry 0x502 .controlled false], x.offered = false → Entry.sameStream new .controlled x = false) ∧
      (let new := dataFrame 0x500 [7]
       Entry.sameStream new .controlled (entry 0x500 .controlled true) = true ∧
         controlledQueue 2 = [] ++ entry 0x500 .controlled true :: (controlledQueue 2).drop 1 ∧
         ∀ x ∈ [] ++ (controlledQueue 2).drop 1, Entry.sameStream new .controlled x = false) := by decide +kernel

theorem witness_OfferTakesTheLowestKey :
    (∃ e ∈ plainQueue 2, e.offered = true) ∧
      ((plainQueue 3).drop 1 ≠ [] ∧ ∀ e ∈ (plainQueue 3).drop 1, e.offered = false) ∧
      (dataFrame 0x100 []).id = .std 0x100 ∧ (dataFrame 0x100 []).kind = .data := by decide +kernel

/-- Part 0 of a response in offer. -/
def partEntry : Entry :=
  { content := { frame := dataFrame 0x6C4 [], reduced := none, awaitedPart := true }, origin := .part, coalesce := true,
    attempts := 0, offered := true, followOn := none }

/-- A part with that entry and the response in progress it belongs to. -/
def partWaiting (rest : List RespPart) : State :=
  { base with
    upstream := [partEntry],
    mgmt := { base.mgmt with response := some { awaited := 0, remaining := rest } } }

theorem partWaiting_legal (rest : List RespPart) : QueuesLegal (partWaiting rest) := by
  refine ⟨⟨?_, ?_, ?_, ?_, ?_⟩, ?_, ⟨?_, ?_, ?_, ?_, ?_⟩, ?_, ⟨?_, ?_, ?_, ?_⟩⟩
  · exact (by decide : [partEntry].length ≤ Config.queuePlaces)
  · exact (by decide : plainCount [partEntry] ≤ Config.plainPlaces)
  · intro e he
    obtain rfl := List.mem_singleton.mp he
    exact ⟨.inr rfl, fun _ => ⟨rfl, rfl, 0x6C4, rfl⟩, (by decide), ⟨by decide, by decide, fun _ h => nomatch h⟩, fun _ h => nomatch h⟩
  · exact (by decide : (([partEntry].filter fun e => e.origin == Origin.part).map fun e => e.content.frame.id).Nodup)
  · exact (by decide : ([partEntry].countP fun e => e.offered) ≤ 1)
  · exact fun _ => ⟨_, List.mem_singleton.mpr rfl, rfl⟩
  · exact Nat.zero_le _
  · exact Nat.zero_le _
  · exact fun _ h => nomatch h
  · exact List.nodup_nil
  · exact Nat.zero_le _
  · exact fun h => absurd rfl h
  · intro e he c hc hm
    obtain rfl := List.mem_singleton.mp he
    obtain rfl | h := hc
    · exact ⟨nofun, rfl, rfl⟩
    · exact nomatch h
  · intro e he _
    obtain rfl := List.mem_singleton.mp he
    rfl
  · exact fun _ => ⟨_, List.mem_singleton.mpr rfl, .inl rfl⟩
  · exact fun _ h => nomatch h

theorem witness_TransmitCompleteSendsTheEntryInOffer :
    (plainQueue 3 = [] ++ entry 0x400 .plain true :: (plainQueue 3).drop 1 ∧ (entry 0x400 .plain true).offered = true ∧
      (entry 0x400 .plain true).content.awaitedPart = false) ∧
      (∀ rest, QueuesLegal (partWaiting rest) ∧ (partWaiting rest).mgmt.response = some { awaited := 0, remaining := rest } ∧
        ∃ e, (partWaiting rest).upstream = [] ++ e :: [] ∧ e.offered = true ∧ e.content.awaitedPart = true) :=
  ⟨by decide, fun rest => ⟨partWaiting_legal rest, rfl, _, rfl, rfl, rfl⟩⟩

theorem witness_TransmitErrorRetriesOrAbandons :
    let e := entry 0x400 .plain true
    let f : Entry := { e with followOn := some (plainContent (dataFrame 0x400 [1])) }
    let g : Nat → Entry := fun n => { e with attempts := n }
    ({ base with upstream := [f] } : State).queue .upstream = [] ++ f :: [] ∧ f.offered = true ∧ f.followOn ≠ none ∧
      (g 6).followOn = none ∧ (g 6).attempts + 1 < 8 ∧ (g 7).followOn = none ∧ 8 ≤ (g 7).attempts + 1 ∧
      ∀ x ∈ base.queue .upstream, x.offered = false := by decide

theorem witness_RequestsJoinTheirQueue :
    base.phase = .running ∧ (List.replicate 8 0 : List Byte).length = min (15#4).toNat 8 ∧
      ([] : List Byte).length = min (0#4).toNat 8 ∧ (asked base [[], [], []]).mgmt.requests.length < 4 ∧
      4 ≤ (asked base [[], [], [], []]).mgmt.requests.length := by decide

theorem witness_RaisingEntersTheSetOnce :
    let s : State := { base with upstream := plainQueue 15, mgmt := { base.mgmt with conditions := 1, enabled := 2 } }
    s.mgmt.conditions.getLsbD Condition.imuLost.code = true ∧
      (s.mgmt.conditions.getLsbD Condition.requestDrop.code = false ∧ s.mgmt.enabled.getLsbD Condition.requestDrop.code = false) ∧
      (s.mgmt.conditions.getLsbD Condition.wheelTimeout.code = false ∧
        s.mgmt.enabled.getLsbD Condition.wheelTimeout.code = true ∧ s.upstream.length < 16) := by decide

/-- R13, R18: a notice that finds the upstream queue full gives up its newest waiting PLAIN entry, and FORWARD_DROP enters. -/
theorem test_notice_displaces :
    let s : State := { base with upstream := plainQueue 16, mgmt := { base.mgmt with enabled := 2 } }
    (raiseCondition .wheelTimeout s).mgmt.conditions = 0x22#15 ∧
      (raiseCondition .wheelTimeout s).upstream.map (fun e => e.content.frame.data) =
        List.replicate 15 [] ++ [[1, 0, 2, 252]] := by decide +kernel

/-! #### Sensor records and lean source -/

theorem witness_RefreshWritesOnlyTheLookup :
    RecordsInRange base.sensors ∧ (inState .start).ctl.state = .start ∧ (inState .roller).ctl.state = .roller :=
  ⟨⟨by decide, by decide, by decide, by decide, by decide⟩, rfl, rfl⟩

/-- An IMU frame of lean `l`, pitch `p`, and a byte of flag and counter. -/
def imuFrame (l p : Word) (c : Byte) : RxFrame := checked 0x174 (wordBytes l ++ wordBytes p ++ [c])

theorem witness_ImuFramesMoveTheLeanSource :
    let good := imuFrame 900 (-900) 0x81
    Classified base .upstream good ⟨.imu, false⟩ ∧
      (checkRight 6 good.data = true ∧ (byteAt good.data 4).getLsbD 7 = true ∧
        base.sensors.lastCounters.imu ≠ some (counterAt good.data 4) ∧ (signedAt good.data 0).natAbs ≤ 900) ∧
      (Classified base .upstream (imuFrame 901 0 0x81) ⟨.imu, false⟩ ∧ 900 < (signedAt (imuFrame 901 0 0x81).data 0).natAbs) ∧
      Classified base .upstream (frame 0x174 []) ⟨.imu, false⟩ ∧ checkRight 6 [] = false := by
  refine ⟨⟨rfl, rfl, ?_, ?_⟩, ?_, ⟨⟨rfl, rfl, ?_, ?_⟩, ?_⟩, ⟨rfl, rfl, ?_, ?_⟩, ?_⟩ <;> decide +kernel

/-- A wheel frame with both flags set. -/
def wheelFrame (f r : Word) (c : Byte) : RxFrame := checked 0x1A2 (wordBytes f ++ wordBytes r ++ [0xC0 ||| c])

theorem witness_WheelFramesAskForAPass :
    let good := wheelFrame 65534 0 1
    let bad := wheelFrame 65535 0 1
    Classified base .actuator good ⟨.wheel, false⟩ ∧
      (checkRight 6 good.data = true ∧ base.sensors.lastCounters.wheel ≠ some (counterAt good.data 4) ∧
        (byteAt good.data 4).getLsbD 7 = true ∧ (byteAt good.data 4).getLsbD 6 = true ∧
        unsignedAt good.data 0 ≠ 65535 ∧ unsignedAt good.data 2 ≠ 65535) ∧
      (Classified base .actuator bad ⟨.wheel, false⟩ ∧ unsignedAt bad.data 0 = 65535) := by
  refine ⟨⟨rfl, rfl, ?_, ?_⟩, ?_, ⟨rfl, rfl, ?_, ?_⟩, ?_⟩ <;> decide +kernel

theorem witness_RideModeAndLoadArePending :
    Classified base .upstream (checked 0x3B1 [3, 0]) ⟨.rideMode, false⟩ ∧
      Classified base .upstream (checked 0x3B5 [4, 0]) ⟨.loadState, false⟩ := by
  refine ⟨⟨rfl, rfl, ?_, ?_⟩, rfl, rfl, ?_, ?_⟩ <;> decide +kernel

/-- The part in a lean source with its timers. -/
def leaning (x : LeanSource) (hold lost : Option Millis) : State :=
  { base with sensors := { base.sensors with source := x, holdTimer := hold, lostTimer := lost, brakeTimer := some 40 } }

theorem witness_SensorTimersExpire :
    ((leaning .live (some 30) (some 100)).sensors.holdTimer = some 30 ∧ (leaning .live (some 30) (some 100)).sensors.source = .live) ∧
      ((leaning .recovering (some 30) none).sensors.holdTimer = some 30 ∧
        (leaning .recovering (some 30) none).sensors.source = .recovering) ∧
      ((leaning .held none (some 100)).sensors.lostTimer = some 100 ∧ (leaning .held none (some 100)).sensors.source = .held) ∧
      (leaning .lost none none).sensors.holdTimer = none ∧ (leaning .held none (some 100)).sensors.brakeTimer = some 40 := by
  decide

/-! #### Passes -/

/-- A part with a pass in flight. -/
def passing (c : CtlState) (cut : Nat) : State :=
  let p : Pass :=
    { inputs := { vf := 8000, vr := 9400, lean := 300, pitch := 0, dFront := 0, dRear := 0, q := 0 }, ctl := c, mode := .road,
      load := .solo, vref := 8000, cut := cut, relief := 0, marker := false }
  { inState c with eval := { base.eval with inFlight := some p } }

theorem witness_CutAndReliefGrowOrRecover :
    ((0 : Int) ≤ 0 ∧ (0 : Int) < 1 ∧ (399 : Nat) < 400) ∧ ((1 : Int) ≤ 0 ∨ (0 : Int) ≤ 0) ∧
      ((0 : Int) ≤ 0 ∧ (-81 : Int) < -(param goodBank .dragSlip : Int)) ∧ (-(param goodBank .dragSlip : Int) ≤ -80) := by
  decide +kernel

/-- The built-in planes with entry 0 at both ends of its range and outside them. -/
def ctrlMin (v : Word) : Bank := { goodBank with parameter := { builtInParameter with cells := builtInParameterCells.set 0 v } }

theorem witness_ReadsOfTheActiveBankStayInRange :
    (Param.ctrlMinSpeed.entry.low = 100 ∧ Param.ctrlMinSpeed.entry.high = 3000 ∧ cellAt (ctrlMin 100).parameter.cells 0 = 100 ∧
        cellAt (ctrlMin 3000).parameter.cells 0 = 3000 ∧ cellAt (ctrlMin 99).parameter.cells 0 < 100 ∧
        3000 < cellAt (ctrlMin 3001).parameter.cells 0) ∧
      ((39 : Nat) < 40 ∧ (73 : Nat) ≤ 80) ∧
      (goodBank.columnSelect.isFaulty = false ∧ cellAt goodBank.columnSelect.cells 15 ≤ 15 ∧
        blankBank.columnSelect.isFaulty = true ∧ blankBank.torqueCeiling.isFaulty = true) ∧
      ((640 : Nat) = 40 * 16 ∧ goodBank.torqueCeiling.isFaulty = false ∧ cellAt goodBank.torqueCeiling.cells (16 * 16) ≤ 400) := by
  decide +kernel

/-- Lean indices at a row and within one, a COLUMN_SELECT value above 15, and a grip cell above its bound. -/
theorem witness_ReadsOfTheActiveBankStayInRange_lookup :
    ((640 : Nat) % 40 = 0 ∧ (639 : Nat) % 40 ≠ 0) ∧
      (goodBank.slipTarget.isFaulty = false ∧ goodBank.brakeFront.isFaulty = false ∧ goodBank.brakeRear.isFaulty = false) ∧
      (blankBank.slipTarget.isFaulty = true ∧ blankBank.brakeFront.isFaulty = true ∧ blankBank.brakeRear.isFaulty = true) ∧
      (let b : Bank := { goodBank with
        columnSelect := { goodBank.columnSelect with cells := goodBank.columnSelect.cells.set 4 16 },
        torqueCeiling := { goodBank.torqueCeiling with cells := (goodBank.torqueCeiling.cells.set 0 80).set 16 401 } }
       b.columnSelect.isFaulty = false ∧ 15 < cellAt b.columnSelect.cells (RideMode.road.code * 4 + LoadState.solo.code) ∧
         (gripLookup b .road .solo 20).torqueLimit = 240 ∧ (gripLookup b .road .solo 40).torqueLimit = 400) := by
  decide +kernel

/-- A pass in flight with a request waiting and an activation pending, and a part with no pass in flight. -/
theorem witness_PassCompletionReplacesTheRecord_pending :
    let s : State := { passing .active 10 with
      eval := { (passing .active 10).eval with waiting := some (captureInputs base) },
      banks := { staged.banks with activationPending := true } }
    (∃ p, s.eval.inFlight = some p) ∧ s.eval.waiting ≠ none ∧ s.banks.activationPending = true ∧
      base.eval.inFlight = none := ⟨⟨_, rfl⟩, by decide, rfl, rfl⟩

theorem witness_PassCompletionReplacesTheRecord :
    ∀ c : CtlState, (∃ p, (passing c 10).eval.inFlight = some p) ∧ (passing c 10).banks.activationPending = false ∧
      (passing c 10).ctl.state = c := fun _ => ⟨⟨_, rfl⟩, rfl, rfl⟩

theorem witness_PassWorksItsStages :
    (0 < 1 ∧ (7 : Nat) ≤ 7 ∧ (6 : Nat) < 7 ∧ blankBank.radius.isFaulty = true) ∧
      ((((7999 : Int) - (8000 : Nat)) * 1000).natAbs < 8000) ∧ (499 < param goodBank .ctrlMinSpeed) ∧
      (param goodBank .ctrlMinSpeed ≤ 500) ∧ (goodBank.radius.isFaulty = false ∧ 640 % 20 = 0 ∧ 639 % 20 ≠ 0) := by
  decide +kernel

theorem witness_ControlUnitTakesACompletion :
    let s : Nat → State := fun v => { inState .roller with eval := { base.eval with record := { blankRecord with vfc := v } } }
    (s 1000).eval.record.vfc ≤ param (s 1000).banks.active .rollerExitSpeed ∧
      param (s 1001).banks.active .rollerExitSpeed < (s 1001).eval.record.vfc ∧ (inState .start).ctl.state = .start ∧
      (inState .limp).ctl.state = .limp := by decide +kernel

theorem witness_BanksExchangeAtTheSwapPoint :
    let s : Int → State := fun l => { staged with
      banks := { staged.banks with activationPending := true },
      eval := { staged.eval with record := { blankRecord with lean := l } } }
    let due := fun s : State => s.banks.activationPending = true ∧ s.store.state = .idle ∧ allVerified s.banks.staging = true ∧
      (s.eval.record.lean.natAbs ≤ param s.banks.active .swapLean ∧ s.eval.record.cut = 0 ∧ s.eval.record.relief = 0 ∨
        s.stationary = true)
    due (s 50) ∧ due (s (-50)) ∧ ¬ due (s 51) := by
  decide +kernel

/-- A part whose active bank is that bank, with the scrub at a row of COLUMN_SELECT and one of its cells changed. -/
def scrubbing (row : Nat) (v : Word) : State :=
  { inState .active with
    banks := { base.banks with active := { goodBank with columnSelect :=
      { goodBank.columnSelect with cells := goodBank.columnSelect.cells.set 15 v } } },
    scrub := { plane := .columnSelect, row := row, sums := ⟨0, 0⟩ } }

/-- R143: a row before the last; R144: the last row with equal sums, with an excess the sums give away, and with two changed
cells that no single one explains. -/
theorem witness_ScrubSumsOneRowAndCompares :
    let pl := fun s : State => s.banks.active.get s.scrub.plane
    let sums := fun s : State =>
      addCells s.scrub.sums (s.scrub.row * s.scrub.plane.cols) (((pl s).cells.drop (s.scrub.row * s.scrub.plane.cols)).take 4)
    let spoilt : State := { scrubbing 3 5 with scrub := { plane := .columnSelect, row := 3, sums := ⟨1, 9⟩ } }
    ((pl (scrubbing 2 0)).status = .verified ⟨0, 0⟩ ∧ (scrubbing 2 0).scrub.row + 1 < (scrubbing 2 0).scrub.plane.rows) ∧
      ((scrubbing 3 0).scrub.plane.rows ≤ (scrubbing 3 0).scrub.row + 1 ∧ sums (scrubbing 3 0) = ⟨0, 0⟩) ∧
      (sums (scrubbing 3 5) ≠ ⟨0, 0⟩ ∧ locate 16 (sums (scrubbing 3 5)).S (sums (scrubbing 3 5)).W = some 15) ∧
      (sums spoilt ≠ ⟨0, 0⟩ ∧ locate 16 (sums spoilt).S (sums spoilt).W = none) := by decide +kernel

/-- R143, step 1: from the FAULTY plane 0 of a bank of which ACTION alone is VERIFIED; and a bank of which no plane is. -/
theorem witness_ScrubSumsOneRowAndCompares_skips :
    let b : Bank := { blankBank with parameter := { blankBank.parameter with status := .faulty } }
    let c : Bank := { b with action := { b.action with status := .faulty } }
    ((b.get .slipTarget).isVerified = false ∧ PlaneId.action.number = (PlaneId.slipTarget.number + 7) % 8 ∧
        (b.get .action).isVerified = true ∧
        ∀ j, j < 7 → ∀ q ∈ allPlanes, q.number = (PlaneId.slipTarget.number + j) % 8 → (b.get q).isVerified = false) ∧
      ∀ p ∈ allPlanes, (c.get p).isVerified = false := by decide +kernel

theorem staged_shaped : TablesShaped staged :=
  ⟨shapes_of _ (by decide +kernel), shapes_of _ (by decide +kernel),
    fun i => by cases i <;> exact slotShapes_of _ (by decide +kernel)⟩

theorem witness_TheThreeBlocksTakeNoOrder :
    TablesShaped staged ∧ PositionsLegal staged ∧ BanksIntact staged ∧ staged.banks.activationPending = false :=
  ⟨staged_shaped, ⟨fun _ h => (nomatch h), by decide⟩, witness_BanksStayIntact, rfl⟩

/-! #### Limiting and acknowledgements -/

theorem witness_TorqueRequestsAreLimited :
    Classified (inState .active) .upstream (frame 0x0C6 [1, 0x90, 7, 0x67]) ⟨.torqueRequest, false⟩ ∧
      (0x67 : Byte) = 255 - (1 + 0x90 + 7) ∧
      (0 < max (-200 : Int) (min 400 1) ∧ max (-200 : Int) (min 400 0) ≤ 0 ∧
        limitedTorque .limp blankRecord 400 < 400) := by
  refine ⟨⟨rfl, rfl, ?_, ?_⟩, ?_, ?_⟩ <;> decide +kernel

theorem witness_BrakeDemandsAreLimited :
    Classified base .upstream (frame 0x0E4 [7, 0xD0, 0, 0, 3, 0x25]) ⟨.brakeDemand, false⟩ ∧
      (0x25 : Byte) = 255 - (7 + 0xD0 + 0 + 0 + 3) := by
  refine ⟨⟨rfl, rfl, ?_, ?_⟩, ?_⟩ <;> decide +kernel

/-- A part with one record of counter 5 and torque 90, due at 37, and a miss count. -/
def awaiting (misses : Nat) : State := { base with ack := { records := [⟨5, 90, 37⟩], missCount := misses, fault := false } }

/-- An acknowledgement of counter 5. -/
def ackFrame (applied : Word) : RxFrame := checked 0x0C7 (wordBytes applied ++ [5])

theorem witness_AcknowledgementsGetTheirVerdict :
    (Classified (awaiting 0) .actuator (frame 0x0C7 []) ⟨.torqueAck, false⟩ ∧ checkRight 4 [] = false) ∧
      (Classified (awaiting 0) .actuator (ackFrame 95) ⟨.torqueAck, false⟩ ∧ checkRight 4 (ackFrame 95).data = true ∧
        ((awaiting 0).ack.records.find? fun r => r.counter == counterAt (ackFrame 95).data 2) = some ⟨5, 90, 37⟩ ∧
        signedAt (ackFrame 95).data 0 ≤ 90 + (param (awaiting 0).banks.active .ackTolerance : Int)) ∧
      (Classified (awaiting 2) .actuator (ackFrame 96) ⟨.torqueAck, false⟩ ∧
        90 + (param (awaiting 2).banks.active .ackTolerance : Int) < signedAt (ackFrame 96).data 0 ∧
        param (awaiting 2).banks.active .ackMissLimit ≤ min 15 ((awaiting 2).ack.missCount + 1)) ∧
      ¬ param (awaiting 1).banks.active .ackMissLimit ≤ min 15 ((awaiting 1).ack.missCount + 1) := by
  refine ⟨⟨⟨rfl, rfl, ?_, ?_⟩, ?_⟩, ⟨⟨rfl, rfl, ?_, ?_⟩, ?_⟩, ⟨⟨rfl, rfl, ?_, ?_⟩, ?_⟩, ?_⟩ <;> decide +kernel

theorem witness_AcknowledgementsGetTheirVerdict_deadline :
    ((awaiting 0).ack.records.find? fun r => r.counter == 5) = some ⟨5, 90, 37⟩ ∧ (37 : Millis) ≤ 37 ∧
      (∀ r ∈ (awaiting 0).ack.records, r.counter = 5 → 36 < r.deadline) := by decide

/-! #### Control states -/

theorem witness_WheelTimeoutBringsPassive :
    base.sensors.wheelTimer = some 40 ∧ (39 : Millis) < 40 ∧ (inState .start).sensors.wheelTimer = some 40 ∧
      (inState .start).ctl.state = .start ∧ (inState .roller).ctl.state = .roller ∧ base.ctl.state = .limp := by decide

theorem witness_StatusFrameIsQueued : base.ctl.statusTimer = some 100 ∧ (99 : Millis) < 100 := by decide

/-- Every state a request statement asks for: it runs, the request waits, the queues are empty. -/
theorem asked_ready (s : State) (l : List Request) (h1 : s.phase = .running) (h2 : s.mgmt.inHand = none)
    (h3 : s.mgmt.response = none) (h4 : s.upstream = []) (h5 : s.actuator = []) :
    Ready (asked s l) l ∧ QueuesLegal (asked s l) := ⟨⟨h1, h2, h3, rfl⟩, base_queues _ h4 h5 h3⟩

/-- A part at rest: the last pass saw 299, below STATIONARY_SPEED. -/
def atRest (c : CtlState) (v : Nat) : State :=
  { inState c with eval := { base.eval with passCount := 1, record := { blankRecord with passNo := 1, vref := v } } }

theorem witness_RollerIsEnteredAtStandstillOnly :
    (Ready (asked (atRest .active 299) [[0x07, 0]]) [[0x07, 0]] ∧ QueuesLegal (asked (atRest .active 299) [[0x07, 0]])) ∧
      ((atRest .active 299).ctl.liveness = .running ∧ (atRest .active 299).eval.record.passNo ≠ 0 ∧
        (atRest .active 299).eval.record.vref < param (atRest .active 299).banks.active .stationarySpeed) ∧
      ¬ (atRest .active 300).eval.record.vref < param (atRest .active 300).banks.active .stationarySpeed ∧
      (Ready (asked (inState .roller) [[0x08, 0]]) [[0x08, 0]] ∧ QueuesLegal (asked (inState .roller) [[0x08, 0]])) :=
  ⟨asked_ready _ _ rfl rfl rfl rfl rfl, by decide +kernel, by decide +kernel, asked_ready _ _ rfl rfl rfl rfl rfl⟩

/-! #### Staging, load runs and activation -/

/-- The staged part during a store, in a phase. -/
def storing (ph : StorePhase) : State := { staged with store := { staged.store with state := .inProgress .slot1 ph } }

/-- The staged part with an activation pending. -/
def pendingPart : State := { staged with banks := { staged.banks with activationPending := true } }

/-- A window of two cells, row 1, columns 2 and 3 of COLUMN_SELECT, with a run open at position `n`. -/
def window (bank : BankSel) (kind : WindowKind) (n : Nat) : Window :=
  { bank := bank, plane := .columnSelect, firstRow := 1, lastRow := 1, firstCol := 2, lastCol := 3, order := .rowFirst,
    kind := kind, openRun := some kind, position := n, expected := 7 }

/-- The staged part with that window. -/
def windowed (bank : BankSel) (kind : WindowKind) (n : Nat) : State :=
  { staged with banks := { staged.banks with window := some (window bank kind n) } }

theorem window_legal (n : Nat) (h : n ≤ 2) : WindowLegal (window .staging .load n) :=
  ⟨⟨by exact Nat.le_refl 1, by exact (by decide : 1 < 4)⟩, ⟨by exact (by decide : 2 ≤ 3), by exact (by decide : 3 < 4)⟩, h,
    fun _ => rfl, .inr rfl⟩

theorem witness_StagingIsGuarded :
    (storing .header).storeBusy = true ∧ (pendingPart.storeBusy = false ∧ pendingPart.banks.activationPending = true) ∧
      (∀ r : Request, Ready (asked (storing .header) [r]) [r] ∧ QueuesLegal (asked (storing .header) [r])) ∧
      (∀ r : Request, Ready (asked pendingPart [r]) [r] ∧ QueuesLegal (asked pendingPart [r])) ∧
      (byteAt [0x10, 0, 0xFC, 0, 0, 0, 0, 0] 2).extractLsb' 0 2 = 0 ∧ 2 ≤ ([0x11, 0] : Request).length ∧
      (windowed .staging .read 0).banks.window = some (window .staging .read 0) :=
  ⟨rfl, ⟨rfl, rfl⟩, fun _ => asked_ready _ _ rfl rfl rfl rfl rfl, fun _ => asked_ready _ _ rfl rfl rfl rfl rfl, by decide,
    by decide, rfl⟩

theorem witness_WindowsAreOpenedAndResumed :
    let r : Byte → Byte → Byte → Request := fun b2 b3 r0 => [0x10, 0, b2, b3, r0, 255, 2, 2]
    (Ready (asked staged [r 0 5 3]) [r 0 5 3] ∧ QueuesLegal (asked staged [r 0 5 3])) ∧
      (requestBank (r 0 5 3) = some .staging ∧ planeOf 5 = some .columnSelect ∧ requestKind (r 0 5 3) = some .load ∧
        requestOrder (r 0 5 3) = some .rowFirst ∧ 3 ≤ min 255 (PlaneId.columnSelect.rows - 1) ∧
        min 255 (PlaneId.columnSelect.rows - 1) < 4) ∧
      (requestBank (r 1 5 3) = some .active ∧ requestKind (r 1 5 3) = some .load) ∧
      (planeOf 8 = none ∧ requestKind (r 8 0 0) = none ∧ requestOrder (r 0x20 0 0) = none) ∧
      (Ready (asked (storing .header) [r 2 5 3]) [r 2 5 3] ∧ QueuesLegal (asked (storing .header) [r 2 5 3]) ∧
        2 ≤ (2 : Byte).toNat % 4 ∧ 2 ≤ (0xFF : Byte).toNat % 4) ∧
      (staged.storeBusy = false ∧ staged.banks.activationPending = false ∧ staged.banks.window = none) ∧
      (windowed .active .read 1).banks.window = some (window .active .read 1) :=
  ⟨asked_ready _ _ rfl rfl rfl rfl rfl, by decide, by decide, by decide,
    ⟨(asked_ready _ _ rfl rfl rfl rfl rfl).1, (asked_ready _ _ rfl rfl rfl rfl rfl).2, by decide, by decide⟩, by decide, rfl⟩

theorem witness_PositionsVisitEachCellOnce :
    WindowLegal (window .staging .load 2) ∧ 1 < (window .staging .load 2).size :=
  ⟨window_legal 2 (Nat.le_refl 2), by decide⟩

theorem windowed_shaped (bank : BankSel) (kind : WindowKind) (n : Nat) (l : List Request) :
    TablesShaped (asked (windowed bank kind n) l) := ⟨staged_shaped.active, staged_shaped.staging, staged_shaped.slots⟩

/-- One value to three, at the window's start and at its end. -/
theorem witness_LoadDataWritesAtTheWindow :
    ∀ vs ∈ ([[1], [1, 2, 3]] : List (List Word)), ∀ n ∈ [0, 2],
      let r : Request := 0x11 :: 7 :: vs.flatMap wordBytes
      let s := asked (windowed .staging .load n) [r]
      1 ≤ vs.length ∧ vs.length ≤ 3 ∧ (Ready s [r] ∧ QueuesLegal s) ∧ TablesShaped s ∧
        WindowLegal (window .staging .load n) ∧ s.storeBusy = false ∧ s.banks.activationPending = false ∧
        s.banks.window = some (window .staging .load n) ∧ (window .staging .load n).openRun = some .load ∧
        (window .staging .load n).expected = 7 := by
  intro vs hv n hn
  have hl : 1 ≤ vs.length ∧ vs.length ≤ 3 := by revert vs; decide
  have hw : n ≤ 2 := by revert n; decide
  exact ⟨hl.1, hl.2, asked_ready _ _ rfl rfl rfl rfl rfl, windowed_shaped _ _ _ _, window_legal n hw, rfl, rfl, rfl, rfl, rfl⟩

theorem witness_LoadDataWritesAtTheWindow_refused :
    ∀ r ∈ ([[0x11, 7], [0x11, 7, 0], [0x11, 8, 0, 0]] : List Request), byteAt r 0 = 0x11 ∧ 2 ≤ r.length ∧
      (r.length % 2 = 1 ∨ r.length = 2 ∨ byteAt r 1 ≠ (window .staging .load 0).expected) ∧
      (∀ w, staged.banks.window = some w → w.openRun ≠ some .load) ∧
      Ready (asked staged [r]) [r] ∧ QueuesLegal (asked staged [r]) := by
  intro r hr
  have h : byteAt r 0 = 0x11 ∧ 2 ≤ r.length ∧
      (r.length % 2 = 1 ∨ r.length = 2 ∨ byteAt r 1 ≠ (window .staging .load 0).expected) := by revert r; decide
  exact ⟨h.1, h.2.1, h.2.2, (fun _ h => nomatch h), asked_ready _ _ rfl rfl rfl rfl rfl⟩

theorem witness_FillWindowFillsExactlyTheWindow :
    ∀ bank, let s := asked (windowed bank .read 0) [[0x14, 0, 1, 2]]
      (Ready s [[0x14, 0, 1, 2]] ∧ QueuesLegal s) ∧ TablesShaped s ∧ s.banks.window = some (window bank .read 0) ∧
        WindowLegal (window bank .read 0) ∧ s.storeBusy = false ∧ s.banks.activationPending = false :=
  fun bank => ⟨asked_ready _ _ rfl rfl rfl rfl rfl, windowed_shaped _ _ _ _, rfl,
    ⟨by cases bank <;> decide, by cases bank <;> decide, by cases bank <;> decide, nofun, .inr rfl⟩, rfl, rfl⟩

theorem witness_ReadDataReturnsTheNextCells :
    ∀ seq : Byte, let s := asked (windowed .active .read 1) [[0x13, seq]]
      (Ready s [[0x13, seq]] ∧ QueuesLegal s) ∧ s.banks.window = some (window .active .read 1) ∧
        (window .active .read 1).openRun = some .read ∧ (window .active .read 1).expected = 7 :=
  fun _ => ⟨asked_ready _ _ rfl rfl rfl rfl rfl, rfl, rfl, rfl⟩

theorem witness_LocationNamesTheOnlyCellThatExplains :
    (272 : Nat) ≤ 272 ∧ (271 < 272 ∧ (0x0FFF : Word).toNat % 2 = 1 ∧
      (BitVec.ofNat 16 (272 * 0x0FFF) : Word).toNat = ((271 + 1) * (0x0FFF : Word).toNat) % 65536) := by decide +kernel

/-- Commit Plane of COLUMN_SELECT, all zeros: its pair, an offending cell, a located one, none, and an EMPTY plane. -/
theorem witness_CommitVerifiesOnlyAMatchingPlane :
    let r : Request := [0x15, 0, 5, 0, 0, 0, 0]
    (Ready (asked staged [r]) [r] ∧ QueuesLegal (asked staged [r])) ∧ staged.storeBusy = false ∧
      staged.banks.activationPending = false ∧ 7 < (8 : Byte).toNat ∧ planeOf 5 = some .columnSelect ∧
      (staged.banks.staging.get .columnSelect).status ≠ .empty ∧
      (base.banks.staging.get .columnSelect).status = .empty ∧
      pairOf (staged.banks.staging.get .columnSelect).cells = ⟨0, 0⟩ ∧
      firstOffending .columnSelect (staged.banks.staging.get .columnSelect).cells = none ∧
      firstOffending .columnSelect (goodBank.columnSelect.cells.set 15 16) = some 15 ∧
      locate 16 1 16 = some 15 ∧ locate 16 1 17 = none :=
  ⟨asked_ready _ _ rfl rfl rfl rfl rfl, rfl, rfl, by decide, rfl, by decide, rfl, by decide +kernel, by decide +kernel,
    by decide +kernel, by decide +kernel, by decide +kernel⟩

/-- The staged part whose slot 0 is VALID. -/
def stored : State := { staged with store := bootable.store }

theorem witness_StagingIsReplacedWhole :
    (Ready (asked stored [[0x16, 0]]) [[0x16, 0]] ∧ QueuesLegal (asked stored [[0x16, 0]])) ∧
      (Ready (asked stored [[0x21, 0, 0]]) [[0x21, 0, 0]] ∧ QueuesLegal (asked stored [[0x21, 0, 0]])) ∧
      stored.storeBusy = false ∧ stored.banks.activationPending = false ∧ 3 < (4 : Byte).toNat ∧
      (slotOf (0 : Byte).toNat = some .slot0 ∧ (stored.store.slots.get .slot0).complete = true) ∧
      (slotOf (3 : Byte).toNat = some .slot3 ∧ (stored.store.slots.get .slot3).complete = false) :=
  ⟨asked_ready _ _ rfl rfl rfl rfl rfl, asked_ready _ _ rfl rfl rfl rfl rfl, rfl, rfl, by decide, by decide, by decide⟩

theorem witness_ActivationIsCheckedAndCancelled :
    (Ready (asked staged [[0x17, 0]]) [[0x17, 0]] ∧ QueuesLegal (asked staged [[0x17, 0]])) ∧
      (Ready (asked pendingPart [[0x18, 0]]) [[0x18, 0]] ∧ QueuesLegal (asked pendingPart [[0x18, 0]])) ∧
      (staged.banks.activationPending = false ∧ staged.storeBusy = false ∧ pendingPart.banks.activationPending = true ∧
        (storing .header).storeBusy = true ∧ (storing .header).banks.activationPending = false) ∧
      (∀ p, ((recheckedBank staged.banks.staging).get p).isVerified = true) ∧
      ((recheckedBank base.banks.staging).get .action).isVerified = false :=
  ⟨asked_ready _ _ rfl rfl rfl rfl rfl, asked_ready _ _ rfl rfl rfl rfl rfl, by decide,
    fun p => by cases p <;> decide +kernel, by decide⟩

/-! #### Management -/

theorem witness_RequestsAreTakenByCodeAndLength :
    (∀ r : Request, Ready (asked base [r]) [r] ∧ QueuesLegal (asked base [r])) ∧
      (fixedLength .commitPlane = some (0x15, 7) ∧ ([0x15, 0, 0, 0, 0, 0] : Request).length ≠ 7 ∧
        2 ≤ ([0x15, 0] : Request).length) ∧
      (byteAt [0x02, 0] 0 = 0x02 ∧ ([0x02, 0] : Request).length ≠ 3) ∧
      (([0x01] : Request).length < 2 ∧ ([] : Request).length < 2 ∧
        byteAt [0x19, 0] 0 ∉ ([0x01, 0x02, 0x03, 0x04, 0x05, 0x06, 0x07, 0x08, 0x09, 0x10, 0x11, 0x12, 0x13, 0x14,
          0x15, 0x16, 0x17, 0x18, 0x20, 0x21, 0x22] : List Byte)) ∧
      (State.reset.phase = .building ∧ (partWaiting []).mgmt.response ≠ none ∧ base.mgmt.requests = [] ∧
        byteAt [0x16, 0] 0 ≠ 0x15) :=
  ⟨fun _ => asked_ready _ _ rfl rfl rfl rfl rfl, by decide, by decide, by decide,
    ⟨rfl, (fun h => nomatch h), rfl, by decide⟩⟩

theorem witness_ResponsesAreDividedInOrder :
    (List.replicate 16 (0 : Byte)).length ≤ 16 ∧
      ∀ p ∈ numberParts 2 0 .ok 0 (divideData (List.replicate 16 0)), p.number < 4 := by decide

theorem witness_IdentifyAndReadStatusReport :
    (Ready (asked base [[0x01, 0]]) [[0x01, 0]] ∧ QueuesLegal (asked base [[0x01, 0]])) ∧
      ∀ sel : Byte, Ready (asked base [[0x02, 0, sel]]) [[0x02, 0, sel]] ∧ QueuesLegal (asked base [[0x02, 0, sel]]) :=
  ⟨asked_ready _ _ rfl rfl rfl rfl rfl, fun _ => asked_ready _ _ rfl rfl rfl rfl rfl⟩

theorem witness_ConditionsAndResetCausesAreKept :
    (∀ code hi : Byte, Ready (asked base [[code, 0, hi, 0xFF]]) [[code, 0, hi, 0xFF]] ∧
      QueuesLegal (asked base [[code, 0, hi, 0xFF]])) ∧
      ((0x80 : Byte).getLsbD 7 = true ∧ (0x7F : Byte).getLsbD 7 = false) ∧
      (Ready (asked (atRest .active 299) [[0x09, 0]]) [[0x09, 0]] ∧ (atRest .active 299).storeBusy = false ∧
        (asked (atRest .active 299) [[0x09, 0]]).stationary = true) ∧
      (Ready (asked base [[0x06, 0]]) [[0x06, 0]] ∧ QueuesLegal (asked base [[0x06, 0]])) :=
  ⟨fun _ _ => asked_ready _ _ rfl rfl rfl rfl rfl, by decide,
    ⟨(asked_ready _ _ rfl rfl rfl rfl rfl).1, rfl, by decide +kernel⟩, asked_ready _ _ rfl rfl rfl rfl rfl⟩

/-! #### Map store, start-up and restart -/

theorem witness_StoreImageErasesTheHeaderFirst :
    (∀ r : Request, (Ready (asked staged [r]) [r] ∧ QueuesLegal (asked staged [r])) ∧
      Ready (asked (storing .header) [r]) [r] ∧ QueuesLegal (asked (storing .header) [r])) ∧
      (storing .header).storeBusy = true ∧ staged.storeBusy = false ∧ 3 < (4 : Byte).toNat ∧
      slotOf (3 : Byte).toNat = some .slot3 ∧ (∀ p, (staged.banks.staging.get p).isVerified = true) ∧
      (base.banks.staging.get .action).isVerified = false :=
  ⟨fun _ => ⟨asked_ready _ _ rfl rfl rfl rfl rfl, asked_ready _ _ rfl rfl rfl rfl rfl⟩, rfl, rfl, by decide, rfl,
    fun p => by cases p <;> rfl, rfl⟩

/-- A plane taken whole, the same with one cell not taken, and the header of a fully VERIFIED staging bank. -/
theorem witness_StorePhasesProgramAndReadBack :
    ((storing (.plane .action)).store.state = .inProgress .slot1 (.plane .action) ∧
        ((storing (.plane .action)).banks.staging.get .action).status = .verified ⟨3353, 54999⟩ ∧
        pairOf (takenCells (goodBank.get .action).cells []) = ⟨3353, 54999⟩ ∧
        pairOf (takenCells (goodBank.get .action).cells [(63, 1)]) ≠ ⟨3353, 54999⟩) ∧
      (storing .header).store.state = .inProgress .slot1 .header ∧
      ∃ pairs : PerPlane CheckPair, ∀ p, ((storing .header).banks.staging.get p).status = .verified (pairs.get p) :=
  ⟨⟨rfl, rfl, by decide +kernel, by decide +kernel⟩, rfl, PerPlane.build fun p => pairOf (goodBank.get p).cells,
    fun p => by cases p <;> decide +kernel⟩

theorem witness_HardResetsKeepTheSlots :
    TablesShaped (storing (.plane .slipTarget)) ∧ StoreLegal (storing (.plane .slipTarget)) := by
  refine ⟨⟨staged_shaped.active, staged_shaped.staging, staged_shaped.slots⟩, fun i => ?_, fun i => ?_, ?_⟩
  · cases i <;> exact fun h => absurd h (by decide)
  · cases i <;> decide
  · intro i ph h
    obtain ⟨rfl, rfl⟩ : SlotId.slot1 = i ∧ StorePhase.plane .slipTarget = ph := by
      injection h with h1 h2
      exact ⟨h1, h2⟩
    exact ⟨rfl, rfl, fun p hp => by cases p <;> exact absurd hp (by decide)⟩

/-- A boot slot with every plane good, and one with none. -/
theorem witness_BootBuildsTheActiveBank :
    bootable.phase = .building ∧ State.reset.phase = .building ∧
      (∀ p, goodSlot.complete = true ∧ pairOf (goodSlot.cells.get p) = goodSlot.pairs.get p ∧
        firstOffending p (goodSlot.cells.get p) = none) ∧
      bootable.store.slots.get bootable.store.bootSelector = goodSlot ∧
      (State.reset.store.slots.get State.reset.store.bootSelector).complete = false :=
  ⟨rfl, rfl, fun p => by cases p <;> decide +kernel, rfl, rfl⟩

theorem witness_RestartStartsAfreshUnderTheKeptBanks :
    let s := asked (atRest .active 299) [[0x09, 0]]
    (Ready s [[0x09, 0]] ∧ QueuesLegal s) ∧ s.storeBusy = false ∧ s.stationary = true ∧
      (asked (atRest .active 300) [[0x09, 0]]).stationary = false ∧ (storing .header).storeBusy = true :=
  ⟨asked_ready _ _ rfl rfl rfl rfl rfl, rfl, by decide +kernel, by decide +kernel, rfl⟩

end Sys2Proof.Tests
end

/-!
The limits of the transmit queues and of the management unit through every command (R9 to R16, R151 to R155): `Traffic` is the
part of the state they speak of, `Limits` says them for a given request in hand, and each operation that moves the
traffic keeps them.
-/

namespace Sys2Proof.Machine

/-! ### The traffic of a state -/

/-- What the limits of the queues and of the management unit speak of: the two queues, and the node number, the requests and
the response of the management unit. -/
structure Traffic where
  upstream : List Entry
  actuator : List Entry
  node     : BitVec 2
  requests : List Request
  inHand   : Option Request
  response : Option ResponseInProgress

/-- The traffic of a state. -/
def State.traffic (s : State) : Traffic :=
  ⟨s.upstream, s.actuator, s.mgmt.node, s.mgmt.requests, s.mgmt.inHand, s.mgmt.response⟩

/-- The limits of the management unit, with the request in hand given: none between commands (R151, R152, R154). -/
structure Managed (hand : Option Request) (s : State) : Prop where
  requests : s.mgmt.requests.length ≤ Config.requestPlaces
  lengths  : ∀ r ∈ s.mgmt.requests, r.length ≤ 8
  inHand   : s.mgmt.inHand = hand
  response : ∀ x, s.mgmt.response = some x → x.awaited + x.remaining.length ≤ 3 ∧ ∀ p ∈ x.remaining, p.data.length ≤ 4

/-- The limits of the queues and of the management unit, with the request in hand given. -/
structure Limits (hand : Option Request) (s : State) : Prop where
  queues : QueuesLegal s
  mgmt   : Managed hand s

theorem limits_none_iff (s : State) : Limits none s ↔ QueuesLegal s ∧ ManagementLegal s :=
  ⟨fun ⟨hq, hr, hl, hh, hx⟩ => ⟨hq, hr, hl, hh, hx⟩, fun ⟨hq, hr, hl, hh, hx⟩ => ⟨hq, hr, hl, hh, hx⟩⟩

/-- The limits depend on the traffic alone. -/
theorem Limits.congr {hand : Option Request} {s u : State} (h : Limits hand s) (e : u.traffic = s.traffic) :
    Limits hand u := by
  simp only [State.traffic, Traffic.mk.injEq] at e
  obtain ⟨h1, h2, h3, h4, h5, h6⟩ := e
  refine ⟨h.queues.congr h1 h2 h6 h3, ?_, ?_, ?_, ?_⟩
  · rw [h4]; exact h.mgmt.requests
  · rw [h4]; exact h.mgmt.lengths
  · rw [h5]; exact h.mgmt.inHand
  · rw [h6]; exact h.mgmt.response

/-- Sending keeps the limits of the management unit. -/
theorem Managed.sent {hand : Option Request} {s t : State} (h : Managed hand s) (hs : OnlySent s t) : Managed hand t := by
  refine ⟨?_, ?_, ?_, fun x hx => ?_⟩
  · rw [hs.requests]; exact h.requests
  · rw [hs.requests]; exact h.lengths
  · rw [hs.inHand]; exact h.inHand
  · rcases hs.response with e | e
    · exact h.response x (e ▸ hx)
    · rw [e] at hx; cases hx

theorem Limits.raise {hand : Option Request} {s : State} (h : Limits hand s) (c : Condition) :
    Limits hand (raiseCondition c s) :=
  ⟨raiseCondition_queuesLegal h.queues c, h.mgmt.sent (raiseCondition_onlySent c s)⟩

/-- Raising a condition over a state of the same traffic. -/
theorem Limits.raiseOver {hand : Option Request} {s u : State} {c : Condition} (h : Limits hand s)
    (e : u.traffic = s.traffic) : Limits hand (raiseCondition c u) := (h.congr e).raise c

theorem Limits.place {hand : Option Request} {p : Port} {c : Content} {o : Origin} {k : Bool} {s : State}
    (h : Limits hand s) (hf : Fits (ownOrigin p) o k c) (hc : c.awaitedPart = false)
    (hu : p = .upstream → o = .part → c.frame.id ≠ .std (s.nodeId Config.responseBase)) :
    Limits hand (place p c o k s) :=
  ⟨place_queuesLegal h.queues hf hc fun hp ho hi => absurd hi (hu hp ho), h.mgmt.sent (place_onlySent p c o k s)⟩

/-! ### Responses and the taking of a request (R152 to R155) -/

theorem divideData_count (d : List Byte) : 4 * (divideData d).length ≤ max 4 (d.length + 3) := by
  fun_induction divideData d with
  | case1 a b c d e rest ih => simp only [List.length_cons] at ih ⊢; omega
  | case2 ds h => simp

theorem numberParts_count (code seq : Byte) (res : Result) (n : Nat) (l : List (List Byte)) :
    (numberParts code seq res n l).length = l.length := by
  fun_induction numberParts code seq res n l with
  | case1 n => rfl
  | case2 n d => rfl
  | case3 n d ds hne ih => simp [ih]

/-- A response of at most 16 bytes keeps the limits where none is in progress. -/
theorem Limits.respond {hand : Option Request} {s : State} (h : Limits hand s) (hr : s.mgmt.response = none) (r : Request)
    (res : Result) {d : List Byte} (hd : d.length ≤ 16) : Limits hand (respond r res d s) := by
  obtain ⟨ha, hq⟩ := respond_answered h.queues hr r res d
  have hcount := numberParts_count (byteAt r 0) (requestSeq r) res 0 (divideData d)
  have hfour := divideData_count d
  have hlen := numberParts_length (byteAt r 0) (requestSeq r) res 0 (divideData d) (divideData_length d)
  unfold Answered at ha
  split at ha
  · exact ha.elim
  · rename_i p rest hparts
    obtain ⟨-, -, -, hframe⟩ := ha
    rw [hparts] at hcount hlen
    refine ⟨hq, ?_, ?_, ?_, fun x hx => ?_⟩
    · rw [hframe]; exact h.mgmt.requests
    · rw [hframe]; exact h.mgmt.lengths
    · rw [hframe]; exact h.mgmt.inHand
    · rw [hframe] at hx
      dsimp only at hx
      split at hx
      · cases hx
      · cases hx
        rw [List.length_cons] at hcount
        exact ⟨by dsimp only; omega, fun q hq => hlen q (List.mem_cons_of_mem _ hq)⟩

/-- A request taken in state `s` is answered with at most 16 bytes over a state with the traffic of `s`: what every request
but Restart does. -/
def AnswersOver (s t : State) : Prop :=
  ∃ r res d u, t = respond r res d u ∧ d.length ≤ 16 ∧ u.traffic = s.traffic

theorem AnswersOver.limits {hand : Option Request} {s t : State} (ha : AnswersOver s t) (h : Limits hand s)
    (hr : s.mgmt.response = none) : Limits hand t := by
  obtain ⟨r, res, d, u, rfl, hd, hu⟩ := ha
  exact (h.congr hu).respond ((congrArg Traffic.response hu).trans hr) r res hd

/-- An answer that keeps the limits while the request is in hand. -/
def KeepsLimits (answer : Request → State → State) : Prop :=
  ∀ r s, Limits (some r) s → s.mgmt.response = none → Limits (some r) (answer r s)

theorem KeepsLimits.of_answersOver {answer : Request → State → State} (h : ∀ r s, AnswersOver s (answer r s)) :
    KeepsLimits answer := fun r s hs hr => (h r s).limits hs hr

theorem KeepsLimits.withLength {n : Nat} {body : Request → State → State} (h : KeepsLimits body) :
    KeepsLimits (withLength n body) := by
  intro r s hs hr
  have h1 : Limits (some r) (endRun s) := hs.congr rfl
  unfold Machine.withLength
  dsimp only
  split
  · exact h r _ h1 hr
  · exact h1.respond hr _ _ (by simp)

theorem KeepsLimits.fixedLength {n : Nat} {body : Request → State → State} (h : ∀ r s, AnswersOver s (body r s)) :
    KeepsLimits (Machine.withLength n body) := (KeepsLimits.of_answersOver h).withLength

theorem Limits.takeRequest {s : State} (h : Limits none s) (code : Option RequestCode) {answer : Request → State → State}
    (ha : KeepsLimits answer) : Limits none (takeRequest code answer s) := by
  rcases takeRequest_cases code answer s with e | ⟨r, rest, hready, -, e⟩
  · rw [e]; exact h
  · rw [e]
    have hreq := hready.requests
    have h1 : Limits (some r) (takeHead r rest s) := by
      have hlen := h.mgmt.requests
      rw [hreq, List.length_cons] at hlen
      exact ⟨h.queues.congr rfl rfl rfl rfl, Nat.le_of_succ_le hlen,
        fun x hx => h.mgmt.lengths x (hreq ▸ List.mem_cons_of_mem _ hx), rfl, h.mgmt.response⟩
    have h2 := ha r _ h1 hready.response
    exact ⟨handDone_queuesLegal h2.queues, h2.mgmt.requests, h2.mgmt.lengths, rfl, h2.mgmt.response⟩

/-- A command that takes a request keeps the limits when its answer does. -/
theorem Limits.taken {s t : State} (h : Limits none s) {code : Option RequestCode} {answer : Request → State → State}
    (ha : KeepsLimits answer)
    (hx : (.next (Machine.takeRequest code answer s) : Host.Outcome State Fault Refusal) = .next t) : Limits none t := by
  injection hx with hx
  exact hx ▸ h.takeRequest code ha

end Sys2Proof.Machine

namespace Sys2Proof.Machine

/-! ### The answers -/

theorem AnswersOver.intro {s u : State} (r : Request) (res : Result) {d : List Byte} (hd : d.length ≤ 16)
    (hu : u.traffic = s.traffic) : AnswersOver s (respond r res d u) := ⟨r, res, d, u, rfl, hd, hu⟩

/-- A bare result answered over an unchanged state. -/
theorem AnswersOver.result (s : State) (r : Request) (res : Result) : AnswersOver s (respond r res [] s) :=
  .intro r res (Nat.zero_le _) rfl

@[simp] theorem wordBytes_length (w : Word) : (wordBytes w).length = 2 := rfl
@[simp] theorem natBytes_length (n : Nat) : (natBytes n).length = 2 := rfl
@[simp] theorem intBytes_length (n : Int) : (intBytes n).length = 2 := rfl

theorem answerEnterRoller_answers (r : Request) (s : State) : AnswersOver s (answerEnterRoller r s) := by
  unfold answerEnterRoller
  split
  · split <;> exact .intro _ _ (Nat.zero_le _) rfl
  · split <;> exact .intro _ _ (Nat.zero_le _) rfl
  all_goals exact .result s _ _

theorem answerLeaveRoller_answers (r : Request) (s : State) : AnswersOver s (answerLeaveRoller r s) := by
  unfold answerLeaveRoller
  split <;> exact .intro _ _ (Nat.zero_le _) rfl

theorem answerOpenWindow_answers (r : Request) (s : State) : AnswersOver s (answerOpenWindow r s) := by
  unfold answerOpenWindow
  split
  · exact .result s _ _
  · split
    · exact .result s _ _
    · split
      · split
        · exact .result s _ _
        · split
          · exact .result s _ _
          · exact .intro _ _ (by simp) rfl
      · exact .result s _ _

theorem answerLoadData_answers (r : Request) (s : State) : AnswersOver s (answerLoadData r s) := by
  unfold answerLoadData
  split
  · exact .intro _ _ (Nat.zero_le _) rfl
  · split
    · exact .result s _ _
    · split
      · exact .intro _ _ (Nat.zero_le _) rfl
      · split
        · exact .intro _ _ (Nat.zero_le _) rfl
        · split
          · exact .intro _ _ (by simp) rfl
          · exact .intro _ _ (by simp) rfl

theorem answerResumeWindow_answers (r : Request) (s : State) : AnswersOver s (answerResumeWindow r s) := by
  unfold answerResumeWindow
  split
  · exact .result s _ _
  · split
    · exact .result s _ _
    · exact .intro _ _ (by simp) rfl

theorem answerFillWindow_answers (r : Request) (s : State) : AnswersOver s (answerFillWindow r s) := by
  unfold answerFillWindow
  split
  · exact .result s _ _
  · split
    · exact .result s _ _
    · split
      · exact .result s _ _
      · exact .intro _ _ (by simp) rfl

/-- Read Data returns at most three cells (R130). -/
theorem readCells_bytes_length (w : Window) (cells : List Word) : ((readCells w cells 3).flatMap wordBytes).length ≤ 16 := by
  have h : (readCells w cells 3).length ≤ 3 := by
    simp only [readCells, List.length_map, List.length_range]
    omega
  simp only [List.length_flatMap, wordBytes_length, List.map_const', List.sum_replicate, smul_eq_mul]
  omega

theorem answerReadData_answers (r : Request) (s : State) : AnswersOver s (answerReadData r s) := by
  unfold answerReadData
  split
  · exact .intro _ _ (Nat.zero_le _) rfl
  · split
    · exact .result s _ _
    · split
      · exact .intro _ _ (Nat.zero_le _) rfl
      · split
        · exact .intro _ _ (by simp) rfl
        · exact .intro _ _ (readCells_bytes_length _ _) rfl

theorem commitResult_bytes_length (p : PlaneId) (pl : Plane) (c : CheckPair) : (commitResult p pl c).2.1.length ≤ 16 := by
  unfold commitResult
  split
  · simp
  · dsimp only
    split <;> split <;> simp

theorem answerCommitPlane_answers (r : Request) (s : State) : AnswersOver s (answerCommitPlane r s) := by
  unfold answerCommitPlane
  split
  · exact .result s _ _
  · split
    · exact .result s _ _
    · exact .intro _ _ (commitResult_bytes_length _ _ _) rfl

theorem answerStageCopy_answers (r : Request) (s : State) : AnswersOver s (answerStageCopy r s) := by
  unfold answerStageCopy
  split <;> exact .intro _ _ (Nat.zero_le _) rfl

theorem answerActivate_answers (r : Request) (s : State) : AnswersOver s (answerActivate r s) := by
  unfold answerActivate
  split
  · exact .result s _ _
  · split
    · exact .result s _ _
    · dsimp only
      split <;> exact .intro _ _ (by simp) rfl

theorem answerSelectBootSlot_answers (r : Request) (s : State) : AnswersOver s (answerSelectBootSlot r s) := by
  unfold answerSelectBootSlot
  split
  · exact .result s _ _
  · split <;> exact .intro _ _ (Nat.zero_le _) rfl

theorem answerStoreImage_answers (r : Request) (s : State) : AnswersOver s (answerStoreImage r s) := by
  unfold answerStoreImage
  split
  · exact .result s _ _
  · split
    · exact .result s _ _
    · split <;> exact .intro _ _ (Nat.zero_le _) rfl

theorem answerLoadImage_answers (r : Request) (s : State) : AnswersOver s (answerLoadImage r s) := by
  unfold answerLoadImage
  split
  · exact .result s _ _
  · split
    · exact .result s _ _
    · dsimp only
      split <;> exact .intro _ _ (by simp) rfl

theorem answerIdentify_answers (r : Request) (s : State) : AnswersOver s (answerIdentify r s) :=
  .intro r .ok (by simp) rfl

/-- Read Status answers at most sixteen bytes (R157). -/
theorem statusValues_length {s : State} {n : Nat} {d : List Byte} (h : statusValues s n = some d) : d.length ≤ 16 := by
  unfold statusValues at h
  split at h
  case h_6 => cases h
  all_goals
    cases h
    simp [condBytes, bankStates]

theorem answerReadStatus_answers (r : Request) (s : State) : AnswersOver s (answerReadStatus r s) := by
  unfold answerReadStatus
  split
  · exact .result s _ _
  · split
    · exact .intro _ _ (statusValues_length ‹_›) rfl
    · exact .result s _ _

theorem answerEnableNotices_answers (r : Request) (s : State) : AnswersOver s (answerEnableNotices r s) := by
  unfold answerEnableNotices
  split <;> exact .intro _ _ (Nat.zero_le _) rfl

theorem answerDisableNotices_answers (r : Request) (s : State) : AnswersOver s (answerDisableNotices r s) := by
  unfold answerDisableNotices
  split <;> exact .intro _ _ (Nat.zero_le _) rfl

theorem answerClearConditions_answers (r : Request) (s : State) : AnswersOver s (answerClearConditions r s) := by
  unfold answerClearConditions
  split <;> exact .intro _ _ (Nat.zero_le _) rfl

theorem answerClearResetCause_answers (r : Request) (s : State) : AnswersOver s (answerClearResetCause r s) :=
  .intro r .ok (Nat.zero_le _) rfl

theorem answerCancelActivation_answers (r : Request) (s : State) : AnswersOver s (answerCancelActivation r s) :=
  .intro r .ok (Nat.zero_le _) rfl

/-- An unknown request gets no answer (R153). -/
theorem endRun_keepsLimits : KeepsLimits fun _ s => endRun s := fun _ _ h _ => h.congr rfl

/-- Queues without entries are within their limits. -/
theorem queuesLegal_of_empty {s : State} (h1 : s.upstream = []) (h2 : s.actuator = []) (h3 : s.mgmt.response = none) :
    QueuesLegal s := by
  have hw : ∀ own, QueueWithin own [] := fun own => ⟨Nat.zero_le _, Nat.zero_le _, by simp, by simp, Nat.zero_le _⟩
  refine ⟨h1 ▸ hw _, ?_, h2 ▸ hw _, ?_, ⟨?_, ?_, ?_, ?_⟩⟩ <;> simp [h1, h2, h3, offering]

/-- Restart empties the traffic before it answers (R159). -/
theorem answerRestart_keepsLimits (t : Millis) : KeepsLimits (answerRestart t) := by
  intro r s h hr
  unfold answerRestart
  split
  · exact h.respond hr r _ (Nat.zero_le _)
  · split
    · have h1 : Limits (some r) (restartReset t s) :=
        ⟨queuesLegal_of_empty rfl rfl rfl, Nat.zero_le _, by simp [restartReset], h.mgmt.inHand, by simp [restartReset]⟩
      exact h1.respond rfl r _ (Nat.zero_le _)
    · exact h.respond hr r _ (Nat.zero_le _)

end Sys2Proof.Machine

namespace Sys2Proof.Machine

/-! ### What leaves the traffic as it is -/

@[simp] theorem lookupRefresh_traffic (s : State) : (lookupRefresh s).traffic = s.traffic := by
  unfold lookupRefresh
  split <;> rfl

@[simp] theorem requestPass_traffic (s : State) : (requestPass s).traffic = s.traffic := by
  unfold requestPass
  split <;> rfl

@[simp] theorem imuArrival_traffic (d : List Byte) (t : Millis) (s : State) : (imuArrival d t s).traffic = s.traffic := by
  unfold imuArrival
  split
  · dsimp only
    split
    · exact lookupRefresh_traffic _
    · rfl
  · rfl

@[simp] theorem wheelArrival_traffic (d : List Byte) (t : Millis) (s : State) :
    (wheelArrival d t s).traffic = s.traffic := by
  unfold wheelArrival
  split
  · dsimp only
    split
    · exact requestPass_traffic _
    · rfl
  · rfl

@[simp] theorem brakeArrival_traffic (d : List Byte) (t : Millis) (s : State) :
    (brakeArrival d t s).traffic = s.traffic := by
  unfold brakeArrival
  dsimp only
  split <;> rfl

@[simp] theorem torqueArrival_traffic (d : List Byte) (s : State) : (torqueArrival d s).traffic = s.traffic := by
  unfold torqueArrival
  dsimp only
  split <;> rfl

@[simp] theorem rideModeArrival_traffic (d : List Byte) (s : State) : (rideModeArrival d s).traffic = s.traffic := by
  unfold rideModeArrival State.handRideMode
  split
  · dsimp only
    split
    · rfl
    · split <;> rfl
  · rfl

@[simp] theorem loadStateArrival_traffic (d : List Byte) (s : State) : (loadStateArrival d s).traffic = s.traffic := by
  unfold loadStateArrival State.handLoadState
  split
  · dsimp only
    split
    · rfl
    · split <;> rfl
  · rfl

theorem beginWaiting_traffic (s : State) : (beginWaiting s).traffic = s.traffic := by
  unfold beginWaiting
  split <;> rfl

theorem applyPending_traffic (q : Int) (s : State) : (applyPending q s).traffic = s.traffic := by
  unfold applyPending
  split <;> rfl

theorem reducedSent_traffic (c : Content) (t : Millis) (s : State) : (reducedSent c t s).traffic = s.traffic := by
  unfold reducedSent
  split <;> rfl

section Commands

variable {hand : Option Request} {s : State}

/-! ### Received frames (R1 to R8) -/

/-- A frame taken complete has at most eight bytes (R1). -/
theorem takenFrame_bytes {f : RxFrame} (h : f.complete = true) :
    (takenFrame f).len ≤ 8 ∧ (takenFrame f).data.length ≤ 8 := by
  refine ⟨Nat.min_le_right _ _, ?_⟩
  unfold RxFrame.complete at h
  unfold takenFrame
  dsimp only
  split at h
  · rw [beq_iff_eq.mp h]
    exact Nat.min_le_right _ _
  · simp [List.isEmpty_iff.mp h]

/-- A row of a kind with a fixed port is acted on at that port alone (R5). -/
theorem rowVerdict_fixedPort {r : ActionRow} {p q : Port} (h : (rowVerdict r p).action.fixedPort = some q) : p = q := by
  unfold rowVerdict at h
  dsimp only at h
  split at h
  · rename_i hn
    dsimp only at h
    rw [hn] at h
    cases h
  · rename_i q' hq
    split at h
    · rename_i e
      dsimp only at h
      rw [hq] at h
      cases h
      exact e.symm
    · cases h

/-- What the classifier hands to a unit, or limits, is a standard data frame at the port of its kind (R2, R5). -/
theorem classify_fixedPort {b : Bank} {p q : Port} {f : Frame} (h : (classify b p f).action.fixedPort = some q) :
    p = q ∧ f.kind = .data ∧ ∃ id, f.id = .std id := by
  unfold classify at h
  split at h
  · rename_i id hk hi
    split at h
    · cases h
    · split at h
      · exact ⟨rowVerdict_fixedPort h, hk, id, hi⟩
      · cases h
  · cases h
  · cases h

theorem fits_plain {own : Origin} (ho : own ≠ .plain) {f : Frame} (hf : f.len ≤ 8 ∧ f.data.length ≤ 8) (k : Bool) :
    Fits own .plain k (plainContent f) :=
  ⟨.inl rfl, fun h => absurd h.symm ho, hf.1, hf.2, by simp [plainContent]⟩

theorem Limits.forwardPlain (h : Limits hand s) (p : Port) {f : Frame} (hf : f.len ≤ 8 ∧ f.data.length ≤ 8) (k : Bool) :
    Limits hand (forwardPlain p f k s) :=
  h.place (fits_plain (by cases p <;> simp [Port.other, ownOrigin]) hf k) rfl (by simp)

/-- A controlled content goes to the actuator queue: a standard data frame that carries no torque outside 0 to 399. -/
theorem Limits.placeControlled (h : Limits hand s) {c : Content} (hd : standardData c) (hc : contentLegal .controlled c)
    (hm : c.awaitedPart = false) : Limits hand (Machine.place .actuator c .controlled true s) :=
  h.place ⟨.inr rfl, fun _ => ⟨rfl, hd⟩, hc⟩ hm (by simp)

theorem Limits.forwardBadCheck (h : Limits hand s) {f : Frame} (hf : f.len ≤ 8 ∧ f.data.length ≤ 8)
    (hd : standardData (plainContent f)) : Limits hand (forwardBadCheck .upstream f s) :=
  (h.placeControlled hd ⟨hf.1, hf.2, by simp [plainContent]⟩ rfl).raise _

/-- R88: the forwarded torque lies between the request and 0. -/
theorem limitedTorque_between (ctl : CtlState) (r : LimitRecord) (q : Int) :
    (0 < q → 0 ≤ limitedTorque ctl r q ∧ limitedTorque ctl r q ≤ q) ∧
      (q ≤ 0 → q ≤ limitedTorque ctl r q ∧ limitedTorque ctl r q ≤ 0) := by
  unfold limitedTorque
  constructor
  · intro h
    rw [if_pos h]
    cases ctl <;> dsimp only <;> omega
  · intro h
    rw [if_neg (by omega)]
    cases ctl <;> dsimp only <;> omega

/-- R88: a request limited below its saturated value was positive, and what is left of it is not negative. -/
theorem limitedTorque_below {ctl : CtlState} {r : LimitRecord} {q : Int} (h : limitedTorque ctl r q < q) :
    0 < q ∧ 0 ≤ limitedTorque ctl r q := by
  obtain ⟨hpos, hneg⟩ := limitedTorque_between ctl r q
  have hq : 0 < q := by
    by_contra hn
    have := (hneg (by omega)).1
    omega
  exact ⟨hq, (hpos hq).1⟩

theorem checkRight_length {n : Nat} {d : List Byte} (h : checkRight n d = true) : d.length = n := by
  simp only [checkRight, Bool.and_eq_true, beq_iff_eq] at h
  exact h.1.2

theorem rewriteField_length {d : List Byte} {i : Nat} (w : Word) (h : i + 2 ≤ d.length) :
    (rewriteField d i w).length = d.length := by
  simp only [rewriteField, List.length_append, List.length_take, List.length_drop, wordBytes_length]
  omega

theorem recheck_length {d : List Byte} (h : 0 < d.length) : (recheck d).length = d.length := by
  simp only [recheck, withCheck, List.length_append, List.length_dropLast, List.length_singleton]
  omega

theorem torqueBytes_length {d : List Byte} (h : d.length = 4) (out : Int) : (torqueBytes d out).length = 4 := by
  unfold torqueBytes
  split
  · exact h
  · have hw := rewriteField_length (BitVec.ofInt 16 out) (d := d) (i := 0) (by omega)
    rw [recheck_length (by omega), hw, h]

theorem brakeBytes_length {d : List Byte} (h : d.length = 6) (front rear : Nat) : (brakeBytes d front rear).length = 6 := by
  unfold brakeBytes
  split
  · exact h
  · have hf := rewriteField_length (BitVec.ofNat 16 front) (d := d) (i := 0) (by omega)
    have hr := rewriteField_length (BitVec.ofNat 16 rear) (d := rewriteField d 0 (BitVec.ofNat 16 front)) (i := 2) (by omega)
    rw [recheck_length (by omega), hr, hf, h]

theorem Limits.torqueRequestFrame (h : Limits hand s) {f : Frame} (hf : f.len ≤ 8 ∧ f.data.length ≤ 8)
    (hd : standardData (plainContent f)) : Limits hand (torqueRequestFrame .upstream f s) := by
  unfold Machine.torqueRequestFrame
  split
  · rename_i hc
    refine Limits.congr (h.placeControlled (c := limitTorque s.ctl.state s.eval.record f) hd ?_ rfl)
      (torqueArrival_traffic _ _)
    refine ⟨hf.1, ?_, fun ft hft => ⟨rfl, ?_⟩⟩
    · have := torqueBytes_length (checkRight_length hc) (limitedTorque s.ctl.state s.eval.record (requestedTorque f.data))
      simp only [limitTorque]
      omega
    · simp only [limitTorque] at hft
      split at hft
      · rename_i hlt
        cases hft
        have hq := (saturate_range (-200) 400 (signedAt f.data 0) (by decide)).2
        exact ⟨(limitedTorque_below hlt).2, lt_of_lt_of_le hlt hq⟩
      · cases hft
  · exact h.forwardBadCheck hf hd

theorem Limits.brakeDemandFrame (h : Limits hand s) {f : Frame} (t : Millis) (hf : f.len ≤ 8 ∧ f.data.length ≤ 8)
    (hd : standardData (plainContent f)) : Limits hand (brakeDemandFrame .upstream f t s) := by
  unfold Machine.brakeDemandFrame
  split
  · rename_i hc
    refine Limits.congr (h.placeControlled (c := limitBrake s.banks.active s.eval.record f) hd ?_ rfl)
      (brakeArrival_traffic _ _ _)
    refine ⟨hf.1, ?_, by simp [limitBrake, plainContent]⟩
    simp only [limitBrake, plainContent]
    rw [brakeBytes_length (checkRight_length hc)]
    omega
  · exact h.forwardBadCheck hf hd

theorem Limits.ackMiss (h : Limits hand s) : Limits hand (ackMiss s) := by
  unfold Machine.ackMiss
  dsimp only
  split
  · exact h.raiseOver rfl
  · exact h.congr rfl

theorem Limits.ackArrival (h : Limits hand s) (d : List Byte) : Limits hand (ackArrival d s) := by
  unfold Machine.ackArrival
  split
  · split
    · exact h
    · unfold ackVerdict
      split
      · exact h.congr rfl
      · exact Limits.ackMiss (h.raiseOver rfl)
  · exact h

theorem Limits.requestArrival (h : Limits hand s) {r : Request} (hr : r.length ≤ 8) : Limits hand (requestArrival r s) := by
  unfold Machine.requestArrival
  split
  · rename_i hroom
    refine ⟨h.queues.congr rfl rfl rfl rfl, ?_, ?_, h.mgmt.inHand, h.mgmt.response⟩
    · simpa using hroom
    · intro x hx
      rcases List.mem_append.mp hx with hx | hx
      · exact h.mgmt.lengths x hx
      · rw [List.mem_singleton.mp hx]; exact hr
  · exact h.raise _

/-- A frame that a port takes keeps the limits, whatever the classifier decides of it. -/
theorem Limits.receive (h : Limits hand s) (p : Port) {f : Frame} (hf : f.len ≤ 8 ∧ f.data.length ≤ 8) (t : Millis) :
    Limits hand (receive p f t s) := by
  unfold Machine.receive
  split
  · exact h.requestArrival hf.2
  · have hv := @classify_fixedPort s.banks.active p
    generalize hcl : classify s.banks.active p f = v
    have hplain : Limits hand (Machine.forwardPlain p f v.coalesce s) := h.forwardPlain p hf _
    unfold actOn
    split
    · exact hplain
    · exact h
    · exact hplain.congr (imuArrival_traffic _ _ _)
    · exact hplain.congr (wheelArrival_traffic _ _ _)
    · exact hplain.congr (rideModeArrival_traffic _ _)
    · exact hplain.congr (loadStateArrival_traffic _ _)
    · exact hplain.ackArrival _
    · rename_i ha
      obtain ⟨rfl, hk, hi⟩ := hv (q := .upstream) (f := f) (by rw [hcl, ha]; rfl)
      exact h.torqueRequestFrame hf ⟨hk, hi⟩
    · rename_i ha
      obtain ⟨rfl, hk, hi⟩ := hv (q := .upstream) (f := f) (by rw [hcl, ha]; rfl)
      exact h.brakeDemandFrame t hf ⟨hk, hi⟩

/-! ### Expiries, stores and the build -/

theorem Limits.enterLost (h : Limits hand s) : Limits hand (enterLost s) :=
  h.raiseOver (lookupRefresh_traffic _)

theorem Limits.holdExpiry (h : Limits hand s) : Limits hand (holdExpiry s) := by
  unfold Machine.holdExpiry
  split
  · exact h.congr (lookupRefresh_traffic _)
  · exact h.enterLost
  · exact h.congr rfl
  · exact h.congr rfl

theorem Limits.lostExpiry (h : Limits hand s) : Limits hand (lostExpiry s) := by
  unfold Machine.lostExpiry
  split
  · exact h.enterLost
  · exact h.enterLost
  · exact h.congr rfl
  · exact h.congr rfl

theorem Limits.brakeExpiry (h : Limits hand s) : Limits hand (brakeExpiry s) := h.congr rfl

theorem Limits.wheelExpiry (h : Limits hand s) : Limits hand (wheelExpiry s) := by
  unfold Machine.wheelExpiry
  dsimp only
  split
  · exact h.congr rfl
  · exact h.raiseOver rfl
  · exact h.raiseOver rfl
  · exact h.congr rfl
  · exact h.raiseOver rfl

theorem nodeId_status_ne_response (s : State) : s.nodeId Config.statusBase ≠ s.nodeId Config.responseBase := by
  unfold State.nodeId
  generalize s.mgmt.node = n
  revert n
  decide

theorem Limits.statusFrame (h : Limits hand s) (t : Millis) :
    Limits hand (startStatusTimer t (Machine.place .upstream (plainContent (statusFrame s)) .part true s)) := by
  refine Limits.congr (h.place ?_ rfl fun _ _ hid => ?_) rfl
  · exact fits_dataFrame _ _ (by simp [withCheck, statusData]) _
  · exact nodeId_status_ne_response s (FrameId.std.inj hid)

theorem Limits.failStore (h : Limits hand s) (i : SlotId) : Limits hand (failStore i s) := h.raiseOver rfl

theorem Limits.planePhaseDone (h : Limits hand s) (i : SlotId) (p : PlaneId) (l : List (Nat × Word)) :
    Limits hand (planePhaseDone i p l s) := by
  unfold Machine.planePhaseDone
  dsimp only
  split
  · exact h.congr rfl
  · refine Limits.failStore ?_ i
    exact h.congr rfl

theorem Limits.headerPhaseDone (h : Limits hand s) (i : SlotId) (r : HeaderReadBack) :
    Limits hand (headerPhaseDone i r s) := by
  unfold Machine.headerPhaseDone
  split
  · exact h.raiseOver rfl
  · exact h.failStore i

theorem Limits.buildDone (h : Limits hand s) (t : Millis) : Limits hand (buildDone t s) := by
  unfold Machine.buildDone
  dsimp only
  split
  · exact h.raiseOver rfl
  · exact h.congr rfl

theorem hardReset_limits (n : BitVec 2) (x : ResetCauses) (s : State) : Limits none (hardReset n x s) :=
  ⟨queuesLegal_of_empty rfl rfl rfl, Nat.zero_le _, by simp [hardReset, State.reset], rfl, by simp [hardReset, State.reset]⟩

/-! ### A pass completion (R54) -/

theorem Limits.controlTakes (h : Limits hand s) (q : Int) : Limits hand (controlTakes q s) := by
  refine Limits.congr ?_ (applyPending_traffic q _)
  unfold controlTransition
  split
  · exact h.congr rfl
  · exact h.congr rfl
  · exact h
  · split
    · exact h.raiseOver rfl
    · exact h
  · exact h

theorem Limits.banksTake (h : Limits hand s) : Limits hand (banksTake s) := by
  unfold Machine.banksTake
  split
  · exact h.raiseOver rfl
  · exact h

theorem Limits.comparePlane (h : Limits hand s) (p : PlaneId) (sums : CheckPair) : Limits hand (comparePlane p sums s) := by
  unfold Machine.comparePlane
  split
  · exact h
  · split
    · exact h
    · split
      · exact h.raiseOver rfl
      · refine Limits.raise ?_ _
        dsimp only
        split <;> exact h.congr rfl

theorem Limits.scrubTakes (h : Limits hand s) : Limits hand (scrubTakes s) := by
  unfold Machine.scrubTakes
  split
  · exact h
  · dsimp only
    split
    · exact h.congr rfl
    · refine Limits.comparePlane ?_ _ _
      exact h.congr rfl

theorem Limits.blocksTake (h : Limits hand s) (q : Int) (o : TakeOrder) : Limits hand (blocksTake o q s) := by
  have key : ∀ (l : List CompletionBlock) (u : State), Limits hand u → Limits hand (l.foldl (blockTakes q) u) := by
    intro l
    induction l with
    | nil => exact fun _ hu => hu
    | cons b l ih =>
      intro u hu
      refine ih _ ?_
      cases b with
      | controlStateUnit => exact hu.controlTakes q
      | mapBanks => exact hu.banksTake
      | scrubUnit => exact hu.scrubTakes
  exact key _ _ h

theorem Limits.passCompletion (h : Limits hand s) (o : TakeOrder) (p : Pass) :
    Limits hand (beginWaiting (Machine.blocksTake o p.inputs.q (recordPass p s))) :=
  have hr : Limits hand (recordPass p s) := h.congr rfl
  (hr.blocksTake _ o).congr (beginWaiting_traffic _)

end Commands

end Sys2Proof.Machine

namespace Sys2Proof.Machine

/-! ### Transmit reports (R15 to R17, R155) -/

/-- The entry in offer of a queue that splits at it. -/
theorem offeredEntry_split {pre post : List Entry} {e : Entry} (he : e.offered = true)
    (hp : ∀ x ∈ pre, x.offered = false) : offeredEntry (pre ++ e :: post) = some e := find?_split he hp

/-- A queue has nothing in offer, or splits at the first entry in offer. -/
theorem offeredEntry_cases (q : List Entry) :
    (offeredEntry q = none ∧ ∀ x ∈ q, x.offered = false) ∨
      ∃ pre e post, q = pre ++ e :: post ∧ e.offered = true ∧ (∀ x ∈ pre, x.offered = false) ∧ offeredEntry q = some e := by
  rcases split_first (fun e : Entry => e.offered) q with h | ⟨pre, e, post, rfl, he, hp⟩
  · exact .inl ⟨by simpa [offeredEntry] using h, h⟩
  · exact .inr ⟨pre, e, post, rfl, he, hp, offeredEntry_split he hp⟩

/-- R15 on the queue: the sent entry is gone, or its follow-on waits at its place. -/
theorem queueSent_split {pre post : List Entry} {e : Entry} (he : e.offered = true) (hp : ∀ x ∈ pre, x.offered = false) :
    queueSent e (pre ++ e :: post) =
      match e.followOn with
      | none => pre ++ post
      | some c => pre ++ e.succeeded c :: post := by
  unfold queueSent
  cases e.followOn with
  | none => exact eraseP_split he hp
  | some c => exact mapFirst_split _ he hp

section OneQueue

variable {own : Origin} {pre post : List Entry} {e e' : Entry}

/-- One entry exchanged for a waiting one leaves no more in offer. -/
theorem QueueWithin.change_waiting (h : QueueWithin own (pre ++ e :: post)) (ho : e'.origin = e.origin)
    (hi : e'.content.frame.id = e.content.frame.id) (hl : EntryLegal own e') (hw : e'.offered = false) :
    QueueWithin own (pre ++ e' :: post) := by
  refine h.change ho hi hl (le_trans ?_ h.oneOffer)
  simp [List.countP_append, List.countP_cons, hw]

/-- R15, R16: the follow-on in its entry's place. -/
theorem QueueWithin.succeed (h : QueueWithin own (pre ++ e :: post)) {c : Content} (hc : e.followOn = some c) :
    QueueWithin own (pre ++ e.succeeded c :: post) := by
  have he := h.entries e (by simp)
  obtain ⟨-, hlegal, hid, hkind⟩ := he.follower c hc
  refine h.change_waiting (e' := e.succeeded c) rfl hid ⟨he.origin, fun ho => ?_, ?_, hlegal, ?_⟩ rfl
  · obtain ⟨hk, hdata, hstd⟩ := he.flag ho
    exact ⟨hk, hkind.trans hdata, by rw [show (e.succeeded c).content.frame.id = _ from hid]; exact hstd⟩
  · simp [Entry.succeeded, Config.maxAttempts]
  · simp [Entry.succeeded]

/-- R16: an entry without a follow-on waits again after an error below the eighth. -/
theorem QueueWithin.retry (h : QueueWithin own (pre ++ e :: post)) (hf : e.followOn = none)
    (hn : e.attempts + 1 < Config.maxAttempts) :
    QueueWithin own (pre ++ { e with attempts := e.attempts + 1, offered := false } :: post) := by
  have he := h.entries e (by simp)
  exact h.change_waiting (e' := { e with attempts := e.attempts + 1, offered := false }) rfl rfl
    ⟨he.origin, he.flag, hn, he.content, by simp [hf]⟩ rfl

end OneQueue

section Sound

variable {s : State} {p : Port} {pre post : List Entry} {e e' : Entry}

theorem QueuesSound.within (h : QueuesSound s) (p : Port) : QueueWithin (ownOrigin p) (s.queue p) := by
  cases p with
  | upstream => exact h.up
  | actuator => exact h.act

/-- An entry exchanged for one with no follow-on and none but its own contents, its mark kept. -/
theorem QueuesSound.changeAt (h : QueuesSound s) (hq : s.queue p = pre ++ e :: post)
    (hw : QueueWithin (ownOrigin p) (pre ++ e' :: post)) (ho : e'.origin = e.origin) (hf : e'.followOn = none)
    (hc : e.content = e'.content ∨ e.followOn = some e'.content) (hm : e.marked → e'.marked) :
    QueuesSound (s.setQueue p (pre ++ e' :: post)) := by
  have only : ∀ c, e'.content = c ∨ e'.followOn = some c → e.content = c ∨ e.followOn = some c := by
    rintro c (rfl | hx)
    · exact hc
    · rw [hf] at hx; cases hx
  cases p with
  | upstream =>
    rw [State.queue_upstream] at hq
    have hparts := h.parts
    rw [hq] at hparts
    refine ⟨hw, h.act, hparts.change (fun c hx => ?_) fun _ => hf, fun hr => ?_, h.actuator⟩
    · rw [ho]; exact hparts.marked e (by simp) c (only c hx)
    · obtain ⟨x, hx, hxm⟩ := h.present hr
      rw [hq, List.mem_append, List.mem_cons] at hx
      rcases hx with hx | rfl | hx
      · exact ⟨x, by simp [hx], hxm⟩
      · exact ⟨e', by simp, hm hxm⟩
      · exact ⟨x, by simp [hx], hxm⟩
  | actuator =>
    rw [State.queue_actuator] at hq
    have hun := h.actuator
    rw [hq] at hun
    refine h.setActuator hw fun x hx => ?_
    rw [List.mem_append, List.mem_cons] at hx
    rcases hx with hx | rfl | hx
    · exact hun x (by simp [hx])
    · exact not_marked_iff.mpr fun c hx => not_marked_iff.mp (hun e (by simp)) c (only c hx)
    · exact hun x (by simp [hx])

/-- The follow-on of an entry waits in its place (R15, R16): an awaited part is never followed on. -/
theorem QueuesSound.succeedAt (h : QueuesSound s) (hq : s.queue p = pre ++ e :: post) {c : Content}
    (hc : e.followOn = some c) : QueuesSound (s.setQueue p (pre ++ e.succeeded c :: post)) := by
  refine h.changeAt hq (QueueWithin.succeed (hq ▸ h.within p) hc) rfl rfl (.inr hc) ?_
  rintro (hm | ⟨x, hx, hm⟩)
  · have hnone : e.followOn = none := by
      cases p with
      | upstream => exact h.parts.last e (by rw [← State.queue_upstream, hq]; simp) hm
      | actuator => exact absurd (.inl hm) (h.actuator e (by rw [← State.queue_actuator, hq]; simp))
    rw [hnone] at hc; cases hc
  · rw [hc] at hx
    cases hx
    exact .inl hm

theorem QueuesSound.retryAt (h : QueuesSound s) (hq : s.queue p = pre ++ e :: post) (hf : e.followOn = none)
    (hn : e.attempts + 1 < Config.maxAttempts) :
    QueuesSound (s.setQueue p (pre ++ { e with attempts := e.attempts + 1, offered := false } :: post)) :=
  h.changeAt hq (QueueWithin.retry (hq ▸ h.within p) hf hn) rfl hf (.inl rfl) id

/-- An entry that holds no awaited part is taken out. -/
theorem QueuesSound.removeAt (h : QueuesSound s) (hq : s.queue p = pre ++ e :: post) (hm : ¬ e.marked) :
    QueuesSound (s.setQueue p (pre ++ post)) := by
  have hw : QueueWithin (ownOrigin p) (pre ++ post) := QueueWithin.remove (hq ▸ h.within p)
  have sub : ∀ x ∈ pre ++ post, x ∈ s.queue p := fun x hx => by
    rw [hq]; rcases List.mem_append.mp hx with hx | hx <;> simp [hx]
  cases p with
  | upstream =>
    refine ⟨hw, h.act, h.parts.subset sub, fun hr => ?_, h.actuator⟩
    obtain ⟨x, hx, hxm⟩ := h.present hr
    rw [← State.queue_upstream, hq, List.mem_append, List.mem_cons] at hx
    rcases hx with hx | rfl | hx
    · exact ⟨x, List.mem_append_left _ hx, hxm⟩
    · exact absurd hxm hm
    · exact ⟨x, List.mem_append_right _ hx, hxm⟩
  | actuator => exact h.setActuator hw fun x hx => h.actuator x (sub x hx)

/-- A part with no awaited part in its queues and no response in progress. -/
theorem QueuesSound.of_unmarked (h : QueuesSound s) {u : State} (hw : QueueWithin .part u.upstream)
    (hm : ∀ x ∈ u.upstream, ¬ x.marked) (ha : u.actuator = s.actuator) (hr : u.mgmt.response = none) : QueuesSound u :=
  ⟨hw, ha ▸ h.act, .of_none hm, fun hx => absurd hr hx, ha ▸ h.actuator⟩

/-- The awaited part is taken out: no other is left. -/
theorem QueuesSound.unmarked_of_removed (h : QueuesSound s) (hq : s.upstream = pre ++ e :: post) (hm : e.marked) :
    QueueWithin .part (pre ++ post) ∧ ∀ x ∈ pre ++ post, ¬ x.marked := by
  have hw := h.up
  have hp := h.parts
  rw [hq] at hw hp
  exact ⟨hw.remove, hp.unique hw hm⟩

/-- R155: after the awaited part has been sent and taken out, the next part is placed or the response is over. -/
theorem QueuesSound.nextPart (h : QueuesSound s) {hand : Option Request} (hmg : Managed hand s)
    (hq : s.upstream = pre ++ e :: post) (hm : e.marked) :
    QueuesSound (nextPart (s.setQueue .upstream (pre ++ post))) := by
  obtain ⟨hw, hun⟩ := h.unmarked_of_removed hq hm
  unfold Machine.nextPart
  split
  · rename_i hr
    exact h.of_unmarked hw hun rfl hr
  · rename_i x hr
    split
    · exact h.of_unmarked hw hun rfl rfl
    · rename_i part rest hrem
      refine placePart_sound part true hw h.act h.actuator hun ?_ (by simp)
      exact (hmg.response x hr).2 part (by simp [hrem])

theorem placePart_onlySent (p : RespPart) (b : Bool) (s : State) : OnlySent s (placePart p b s) := place_onlySent _ _ _ _ _

theorem nextPart_actuator (s : State) : (nextPart s).actuator = s.actuator := by
  unfold nextPart
  split
  · rfl
  · split
    · rfl
    · exact place_upstream_actuator _ _ _ _

theorem Managed.nextPart {hand : Option Request} (h : Managed hand s) : Managed hand (nextPart s) := by
  unfold Machine.nextPart
  split
  · exact h
  · rename_i x hx
    split
    · exact h.sent s.discardResponse_onlySent
    · rename_i part rest hrem
      refine Managed.sent (s := s.withMgmt { s.mgmt with response := some ⟨x.awaited + 1, rest⟩ })
        ⟨h.requests, h.lengths, h.inHand, ?_⟩ (placePart_onlySent _ _ _)
      have hold := h.response x hx
      rw [hrem, List.forall_mem_cons, List.length_cons] at hold
      intro y hy
      cases hy
      exact ⟨by dsimp only; omega, hold.2.2⟩

/-- The port offers at the end: with the other port's offer standing, the limits hold again. -/
theorem Limits.offerAt {hand : Option Request} (hs : QueuesSound s) (ho : offering (s.queue p.other))
    (h : Managed hand s) : Limits hand (s.offerAt p) := by
  refine ⟨(queuesLegal_iff _).mpr ?_, h.sent (s.offerAt_onlySent p)⟩
  unfold State.offerAt
  cases p with
  | upstream =>
    exact ⟨⟨hs.up.offer, hs.act, hs.parts.offer, fun hr => marked_offer.mpr (hs.present hr), hs.actuator⟩,
      offer_offering _, ho⟩
  | actuator => exact ⟨hs.setActuator hs.act.offer (offer_unmarked hs.actuator), ho, offer_offering _⟩

end Sound

theorem setQueue_other (s : State) (p : Port) (q : List Entry) : (s.setQueue p q).queue p.other = s.queue p.other := by
  cases p <;> rfl

theorem offering_other {s : State} (h : QueuesLegal s) (p : Port) : offering (s.queue p.other) := by
  cases p with
  | upstream => exact h.actOffer
  | actuator => exact h.upOffer

theorem Managed.setQueue {hand : Option Request} {s : State} (h : Managed hand s) (p : Port) (q : List Entry) :
    Managed hand (s.setQueue p q) := h.sent (s.setQueue_onlySent p q)

section Reports

variable {hand : Option Request} {s : State} {p : Port} {pre post : List Entry} {e : Entry}

/-- The mark of an awaited part stands in the upstream queue alone. -/
theorem QueuesSound.upstream_of_awaited (h : QueuesSound s) (hq : s.queue p = pre ++ e :: post)
    (hm : e.content.awaitedPart = true) : p = .upstream := by
  cases p with
  | upstream => rfl
  | actuator => exact absurd (.inl hm) (h.actuator e (by rw [← State.queue_actuator, hq]; simp))

theorem Limits.sendDone (h : Limits hand s) (t : Millis) (hq : s.queue p = pre ++ e :: post) (he : e.offered = true)
    (hp : ∀ x ∈ pre, x.offered = false) : Limits hand (sendDone p e t s) := by
  have h1 : Limits hand (reducedSent e.content t s) := h.congr (reducedSent_traffic _ _ _)
  have hq1 : (reducedSent e.content t s).queue p = pre ++ e :: post := by
    have ht := reducedSent_traffic e.content t s
    rw [← hq]
    cases p with
    | upstream => exact congrArg Traffic.upstream ht
    | actuator => exact congrArg Traffic.actuator ht
  unfold Machine.sendDone
  generalize reducedSent e.content t s = u at h1 hq1
  have hs := ((queuesLegal_iff u).mp h1.queues).1
  dsimp only
  rw [hq1, queueSent_split he hp]
  have plain : ∀ q, QueuesSound (u.setQueue p q) → Limits hand ((u.setQueue p q).offerAt p) := fun q hsq =>
    .offerAt hsq (by rw [setQueue_other]; exact offering_other h1.queues p) (h1.mgmt.setQueue p q)
  unfold partSent
  cases hm : e.content.awaitedPart with
  | false =>
    rw [if_neg (by simp)]
    cases hf : e.followOn with
    | none =>
      refine plain _ (hs.removeAt hq1 (not_marked_iff.mpr ?_))
      rintro c (rfl | hx)
      · exact hm
      · rw [hf] at hx; cases hx
    | some c => exact plain _ (hs.succeedAt hq1 hf)
  | true =>
    obtain rfl := hs.upstream_of_awaited hq1 hm
    rw [State.queue_upstream] at hq1
    rw [if_pos rfl, hs.parts.last e (by simp [hq1]) hm]
    refine .offerAt (hs.nextPart h1.mgmt hq1 (.inl hm)) ?_ (h1.mgmt.setQueue _ _).nextPart
    show offering (State.actuator _)
    rw [nextPart_actuator]
    exact h1.queues.actOffer

theorem Limits.sendFailed (h : Limits hand s) (hq : s.queue p = pre ++ e :: post) (he : e.offered = true)
    (hp : ∀ x ∈ pre, x.offered = false) : Limits hand (sendFailed p e s) := by
  have hs := ((queuesLegal_iff s).mp h.queues).1
  have plain : ∀ q, QueuesSound (s.setQueue p q) → Limits hand ((s.setQueue p q).offerAt p) := fun q hsq =>
    .offerAt hsq (by rw [setQueue_other]; exact offering_other h.queues p) (h.mgmt.setQueue p q)
  unfold Machine.sendFailed
  split
  · rename_i c hf
    rw [hq, mapFirst_split _ he hp]
    exact plain _ (hs.succeedAt hq hf)
  · rename_i hf
    split
    · dsimp only
      rw [hq, eraseP_split he hp]
      have hsound : QueuesSound ((s.setQueue p (pre ++ post)).partLost e.content) := by
        unfold State.partLost
        split
        · rename_i hm
          obtain rfl := hs.upstream_of_awaited hq hm
          obtain ⟨hw, hun⟩ := hs.unmarked_of_removed hq (.inl hm)
          exact hs.of_unmarked hw hun rfl rfl
        · rename_i hm
          refine hs.removeAt hq (not_marked_iff.mpr ?_)
          rintro c (rfl | hx)
          · exact Bool.eq_false_of_not_eq_true hm
          · rw [hf] at hx; cases hx
      have hoff : offering (((s.setQueue p (pre ++ post)).partLost e.content).queue p.other) := by
        have := offering_other h.queues p
        cases p <;> simpa [Port.other] using this
      refine .offerAt (raiseCondition_sound hsound _) ?_ ?_
      · cases p with
        | upstream => simpa [Port.other] using hoff
        | actuator => exact raiseCondition_offering hoff _
      · exact ((h.mgmt.setQueue p _).sent (State.partLost_onlySent _ _)).sent (raiseCondition_onlySent _ _)
    · rename_i hn
      rw [hq, mapFirst_split _ he hp]
      exact plain _ (hs.retryAt hq hf (by omega))

theorem Limits.transmitComplete (h : Limits hand s) (p : Port) (t : Millis) {u : State}
    (hu : execTransmitComplete p t s = .next u) : Limits hand u := by
  injection hu with hu
  rw [← hu]
  rcases offeredEntry_cases (s.queue p) with ⟨hn, -⟩ | ⟨pre, e, post, hq, he, hp, hf⟩
  · rw [hn]; exact h
  · rw [hf]; exact h.sendDone t hq he hp

theorem Limits.transmitError (h : Limits hand s) (p : Port) {u : State} (hu : execTransmitError p s = .next u) :
    Limits hand u := by
  injection hu with hu
  rw [← hu]
  rcases offeredEntry_cases (s.queue p) with ⟨hn, -⟩ | ⟨pre, e, post, hq, he, hp, hf⟩
  · rw [hn]; exact h
  · rw [hf]; exact h.sendFailed hq he hp

end Reports

/-! ### Every command -/

/-- A command that acts only when its event has come keeps the limits when its effect does. -/
theorem Limits.when {s u t : State} {P : Prop} [Decidable P] (h : Limits none s) (hu : Limits none u)
    (hx : (.next (if P then u else s) : Host.Outcome State Fault Refusal) = .next t) : Limits none t := by
  injection hx with hx
  rw [← hx]
  split
  · exact hu
  · exact h

/-- Every command keeps the limits of the queues and of the management unit. -/
theorem exec_limits {c : Instr} {s t : State} (h : Limits none s) (hx : exec c s = .next t) : Limits none t := by
  cases c with
  | transmitComplete p t => exact h.transmitComplete p t hx
  | transmitError p => exact h.transmitError p hx
  | powerOn n => exact Host.Outcome.next.inj hx ▸ hardReset_limits _ _ _
  | resetLine n => exact Host.Outcome.next.inj hx ▸ hardReset_limits _ _ _
  | staleTransmitReport p r => exact Host.Outcome.next.inj hx ▸ h
  | frameReceive p f t =>
    injection hx with hx; rw [← hx]
    split
    · rename_i hc
      obtain ⟨-, hcomplete⟩ := hc
      exact h.receive p (takenFrame_bytes hcomplete) t
    · exact h
  | passCompletion o =>
    injection hx with hx; rw [← hx]
    split
    · exact h
    · exact h.passCompletion _ _
  | holdTimerExpiry t => exact h.when h.holdExpiry hx
  | lostTimerExpiry t => exact h.when h.lostExpiry hx
  | wheelTimeout t => exact h.when h.wheelExpiry hx
  | brakeTimerExpiry t => exact h.when h.brakeExpiry hx
  | ackDeadlineExpiry k t =>
    injection hx with hx; rw [← hx]
    split
    · exact h
    · split
      · refine Limits.ackMiss ?_
        exact h.congr rfl
      · exact h
  | statusTimerExpiry t => exact h.when (h.statusFrame t) hx
  | storePlanePhaseComplete l =>
    injection hx with hx; rw [← hx]
    split
    · exact h.planePhaseDone _ _ _
    · exact h
    · exact h
  | storeHeaderPhaseComplete r =>
    injection hx with hx; rw [← hx]
    split
    · exact h.headerPhaseDone _ _
    · exact h
    · exact h
  | bootBuildComplete t => exact h.when (h.buildDone t) hx
  | identify => exact h.taken (.fixedLength answerIdentify_answers) hx
  | readStatus => exact h.taken (.of_answersOver answerReadStatus_answers) hx
  | enableNotices => exact h.taken (.fixedLength answerEnableNotices_answers) hx
  | disableNotices => exact h.taken (.fixedLength answerDisableNotices_answers) hx
  | clearConditions => exact h.taken (.fixedLength answerClearConditions_answers) hx
  | clearResetCause => exact h.taken (.fixedLength answerClearResetCause_answers) hx
  | enterRoller => exact h.taken (.fixedLength answerEnterRoller_answers) hx
  | leaveRoller => exact h.taken (.fixedLength answerLeaveRoller_answers) hx
  | restart t => exact h.taken (answerRestart_keepsLimits t).withLength hx
  | openWindow => exact h.taken (.fixedLength answerOpenWindow_answers) hx
  | loadData => exact h.taken (.of_answersOver answerLoadData_answers) hx
  | resumeWindow => exact h.taken (.fixedLength answerResumeWindow_answers) hx
  | readData => exact h.taken (.of_answersOver answerReadData_answers) hx
  | fillWindow => exact h.taken (.fixedLength answerFillWindow_answers) hx
  | commitPlane => exact h.taken (.fixedLength answerCommitPlane_answers) hx
  | stageCopy => exact h.taken (.fixedLength answerStageCopy_answers) hx
  | activate => exact h.taken (.fixedLength answerActivate_answers) hx
  | cancelActivation => exact h.taken (.fixedLength answerCancelActivation_answers) hx
  | storeImage => exact h.taken (.fixedLength answerStoreImage_answers) hx
  | loadImage => exact h.taken (.fixedLength answerLoadImage_answers) hx
  | selectBootSlot => exact h.taken (.fixedLength answerSelectBootSlot_answers) hx
  | unknownRequest => exact h.taken endRun_keepsLimits hx

/-- Settles O5: the limits with no request in hand are kept by the command at the front of the queue. -/
theorem queuesStayWithinTheirLimits : Obligations.QueuesStayWithinTheirLimits := by
  unfold Obligations.QueuesStayWithinTheirLimits Kept
  intro s t h hstep
  rw [← limits_none_iff] at h ⊢
  unfold step at hstep
  split at hstep
  · injection hstep with e
    exact e ▸ h
  · refine exec_limits ?_ hstep
    exact h.congr rfl

end Sys2Proof.Machine

/-!
The frame paths (01): the classifier's decision, admission, offer, transmit reports, and what comes of a received frame.
-/

namespace Sys2Proof.Machine

/-! ### Classification (R2, R3, R5) -/

theorem matchesFrame_iff (r : ActionRow) (id : BitVec 11) (p : Port) :
    r.matchesFrame id p = true ↔ r.kind ≠ 0 ∧ r.id = id.toNat ∧ r.port = portCode p := by
  simp [ActionRow.matchesFrame, ActionRow.used, and_assoc]

theorem inManagementRange_iff (id : BitVec 11) :
    inManagementRange id = true ↔ 0x6C0 ≤ id.toNat ∧ id.toNat ≤ 0x6CF := by
  unfold inManagementRange
  rw [Bool.and_eq_true]
  exact and_congr decide_eq_true_iff decide_eq_true_iff

theorem classify_remote (b : Bank) (p : Port) {f : Frame} (h : f.kind = .remote) : classify b p f = plainVerdict := by
  unfold classify
  rw [h]

theorem classify_extended (b : Bank) (p : Port) {f : Frame} {id : BitVec 29} (h : f.id = .ext id) :
    classify b p f = plainVerdict := by
  unfold classify
  rw [h]
  cases f.kind <;> rfl

section Standard

variable (b : Bank) (p : Port) {f : Frame} {id : BitVec 11} (hk : f.kind = .data) (hi : f.id = .std id)
include hk hi

theorem classify_management (hm : inManagementRange id = true) : classify b p f = plainVerdict := by
  unfold classify
  rw [hk, hi]
  exact if_pos hm

theorem classify_unmatched (hr : ∀ r ∈ actionRows b.action.cells, r.matchesFrame id p = false) :
    classify b p f = plainVerdict := by
  have hn : (actionRows b.action.cells).find? (fun r => r.matchesFrame id p) = none := by simpa using hr
  unfold classify
  rw [hk, hi]
  dsimp only
  rw [hn, ite_self]

theorem classify_first (hm : inManagementRange id = false) {pre post : List ActionRow} {r : ActionRow}
    (hrows : actionRows b.action.cells = pre ++ r :: post) (hpre : ∀ x ∈ pre, x.matchesFrame id p = false)
    (hr : r.matchesFrame id p = true) : classify b p f = rowVerdict r p := by
  have hf : (actionRows b.action.cells).find? (fun r => r.matchesFrame id p) = some r := by
    rw [hrows]
    exact find?_split hr hpre
  unfold classify
  rw [hk, hi]
  dsimp only
  rw [hm, hf, if_neg (by simp)]

end Standard

/-- Settles O15: `classify_first` with the row's verdict read off kind by kind, a kind above 9 as PASS. -/
theorem firstMatchingRowDecides : Obligations.FirstMatchingRowDecides := by
  unfold Obligations.FirstMatchingRowDecides
  intro b p f rows hit
  refine ⟨classify_remote b p, fun id h => classify_extended b p h, fun id hk hi => ⟨fun hm => ?_, fun hm => ⟨?_, ?_⟩⟩⟩
  · exact classify_management b p hk hi ((inManagementRange_iff id).mpr hm)
  all_goals
    have hhit : ∀ r, hit id r ↔ r.matchesFrame id p = true := fun r => by
      rw [matchesFrame_iff]
      cases p <;> rfl
    have hmiss : ∀ r, ¬ hit id r → r.matchesFrame id p = false := fun r h => by
      rw [hhit] at h
      exact Bool.eq_false_of_not_eq_true h
  · exact fun h => classify_unmatched b p hk hi fun r hr => hmiss r (h r hr)
  · intro pre r post hrows hpre hr
    have hout : inManagementRange id = false := by
      rw [← Bool.not_eq_true, inManagementRange_iff]
      omega
    rw [classify_first b p hk hi hout hrows (fun x hx => hmiss x (hpre x hx)) ((hhit r).mp hr)]
    obtain ⟨i, kind, port, flag⟩ := r
    rcases kind with _ | _ | _ | _ | _ | _ | _ | _ | _ | _ | kind <;> cases p <;> rfl

/-! ### Admission (R10 to R13, R18) -/

section Admission

variable {c : Content} {o : Origin} {k : Bool} {q : List Entry}

/-- No entry of a stream: nothing is replaced and nothing followed on. -/
theorem queueFrame_of_fresh (fresh : k = true → ∀ e ∈ q, Entry.sameStream c.frame o e = false) :
    queueFrame c o k q =
      if o = .plain then
        if plainCount q < Config.plainPlaces ∧ q.length < Config.queuePlaces then (q ++ [newEntry c o k], .nothing)
        else (q, .dropped)
      else if q.length < Config.queuePlaces then (q ++ [newEntry c o k], .nothing)
      else match displace q with
        | (some e, rest) => (rest ++ [newEntry c o k], .displaced e)
        | (none, rest) => (rest ++ [newEntry c o k], .nothing) := by
  have none_waiting : (k && q.any fun e => Entry.sameStream c.frame o e && e.waiting) = false := by
    cases k with
    | false => rfl
    | true => exact any_eq_false_of fun x hx => by simp [fresh rfl x hx]
  have none_at_all : (k && q.any (Entry.sameStream c.frame o)) = false := by
    cases k with
    | false => rfl
    | true => exact any_eq_false_of (fresh rfl)
  unfold queueFrame
  dsimp only
  rw [none_waiting, none_at_all]
  cases o <;> rfl

/-- R12: a PLAIN frame with a place joins the end. -/
theorem queueFrame_plain_joins (fresh : k = true → ∀ e ∈ q, Entry.sameStream c.frame .plain e = false)
    (hp : plainCount q < Config.plainPlaces) (hl : q.length < Config.queuePlaces) :
    queueFrame c .plain k q = (q ++ [newEntry c .plain k], .nothing) := by
  rw [queueFrame_of_fresh fresh, if_pos rfl, if_pos ⟨hp, hl⟩]

/-- R12: a PLAIN frame without a place is dropped. -/
theorem queueFrame_plain_dropped (fresh : k = true → ∀ e ∈ q, Entry.sameStream c.frame .plain e = false)
    (hf : Config.plainPlaces ≤ plainCount q ∨ Config.queuePlaces ≤ q.length) :
    queueFrame c .plain k q = (q, .dropped) := by
  rw [queueFrame_of_fresh fresh, if_pos rfl, if_neg (by omega)]

/-- R13: a CONTROLLED or PART frame joins the end while there is a place. -/
theorem queueFrame_own_joins (own : o ≠ .plain) (fresh : k = true → ∀ e ∈ q, Entry.sameStream c.frame o e = false)
    (hl : q.length < Config.queuePlaces) : queueFrame c o k q = (q ++ [newEntry c o k], .nothing) := by
  rw [queueFrame_of_fresh fresh, if_neg own, if_pos hl]

/-- R13: what a full queue gives up, by where it stands. -/
theorem displace_split {pre post : List Entry} {e : Entry} (waits : e.offered = false)
    (choice : (e.origin = .plain ∧ ∀ x ∈ post, x.origin = .plain → x.offered = true) ∨
      ((∀ x ∈ pre ++ e :: post, x.origin = .plain → x.offered = true) ∧ ∀ x ∈ pre, x.offered = true)) :
    displace (pre ++ e :: post) = (some e, pre ++ post) := by
  unfold displace
  rcases choice with ⟨hplain, hlast⟩ | ⟨hnone, hfirst⟩
  · have he : Entry.waitingPlain e = true := by simp [Entry.waitingPlain, Entry.waiting, waits, hplain]
    have hpost : ∀ x ∈ post, Entry.waitingPlain x = false := fun x hx => by
      cases ho : x.origin <;> simp [Entry.waitingPlain, Entry.waiting, ho]
      exact hlast x hx ho
    rw [if_pos (by simp [he]), findLast?_split he hpost, eraseLast_split he hpost]
  · have hno : (pre ++ e :: post).any Entry.waitingPlain = false := any_eq_false_of fun x hx => by
      cases ho : x.origin <;> simp [Entry.waitingPlain, Entry.waiting, ho]
      exact hnone x hx ho
    have he : Entry.waiting e = true := by simp [Entry.waiting, waits]
    have hpre : ∀ x ∈ pre, Entry.waiting x = false := fun x hx => by simp [Entry.waiting, hfirst x hx]
    rw [hno, if_neg (by simp), find?_split he hpre, eraseP_split he hpre]

/-- R13: a full queue gives up that entry for a CONTROLLED or PART frame. -/
theorem queueFrame_displaces {pre post : List Entry} {e : Entry} (own : o ≠ .plain)
    (fresh : k = true → ∀ x ∈ pre ++ e :: post, Entry.sameStream c.frame o x = false)
    (full : Config.queuePlaces ≤ (pre ++ e :: post).length) (waits : e.offered = false)
    (choice : (e.origin = .plain ∧ ∀ x ∈ post, x.origin = .plain → x.offered = true) ∨
      ((∀ x ∈ pre ++ e :: post, x.origin = .plain → x.offered = true) ∧ ∀ x ∈ pre, x.offered = true)) :
    queueFrame c o k (pre ++ e :: post) = (pre ++ post ++ [newEntry c o k], .displaced e) := by
  rw [queueFrame_of_fresh fresh, if_neg own, if_neg (by omega), displace_split waits choice]

/-- R10: the newest waiting entry of the stream takes the content and keeps its place. -/
theorem queueFrame_replaces {pre post : List Entry} {e : Entry} (same : Entry.sameStream c.frame o e = true)
    (waits : e.offered = false) (last : ∀ x ∈ post, x.offered = false → Entry.sameStream c.frame o x = false) :
    queueFrame c o true (pre ++ e :: post) = (pre ++ { e with content := c, attempts := 0 } :: post, .nothing) := by
  have he : (Entry.sameStream c.frame o e && e.waiting) = true := by simp [same, Entry.waiting, waits]
  have hpost : ∀ x ∈ post, (Entry.sameStream c.frame o x && x.waiting) = false := fun x hx => by
    cases ho : x.offered with
    | true => simp [Entry.waiting, ho]
    | false => simp [last x hx ho]
  have hany : (pre ++ e :: post).any (fun x => Entry.sameStream c.frame o x && x.waiting) = true := by
    simp only [List.any_append, List.any_cons, he, Bool.true_or, Bool.or_true]
  unfold queueFrame
  dsimp only
  rw [Bool.true_and, if_pos hany,
    mapLast_split (p := fun x => Entry.sameStream c.frame o x && x.waiting) _ he hpost]

/-- R11: with none waiting, the entry of the stream in offer is followed on. -/
theorem queueFrame_follows {pre post : List Entry} {e : Entry} (same : Entry.sameStream c.frame o e = true)
    (offered : e.offered = true) (alone : ∀ x ∈ pre ++ post, Entry.sameStream c.frame o x = false) :
    queueFrame c o true (pre ++ e :: post) = (pre ++ { e with followOn := some c } :: post, .nothing) := by
  have hwait : (pre ++ e :: post).any (fun x => Entry.sameStream c.frame o x && x.waiting) = false :=
    any_eq_false_of fun x hx => by
      rw [List.mem_append, List.mem_cons] at hx
      rcases hx with hx | rfl | hx
      · simp [alone x (List.mem_append_left _ hx)]
      · simp [Entry.waiting, offered]
      · simp [alone x (List.mem_append_right _ hx)]
  unfold queueFrame
  dsimp only
  rw [Bool.true_and, hwait, if_neg (by simp), Bool.true_and, if_pos (by simp [same]),
    mapLast_split _ same fun x hx => alone x (List.mem_append_right _ hx)]

end Admission

section Place

variable {p : Port} {c : Content} {o : Origin} {k : Bool} {s : State} {q : List Entry}

/-- A placing that costs nothing. -/
theorem place_of_nothing (h : queueFrame c o k (s.queue p) = (q, .nothing)) : place p c o k s = s.setQueue p (offer q) := by
  unfold place placeFrame
  rw [h]
  rfl

/-- A PLAIN frame dropped raises FORWARD_DROP (R12, R18). -/
theorem place_of_dropped (h : queueFrame c o k (s.queue p) = (q, .dropped)) :
    place p c o k s = raiseCondition .forwardDrop (s.setQueue p (offer q)) := by
  unfold place placeFrame
  rw [h]
  rfl

/-- An entry displaced raises FORWARD_DROP, its response lost with an awaited part (R13, R18, R155). -/
theorem place_of_displaced {e : Entry} (h : queueFrame c o k (s.queue p) = (q, .displaced e)) :
    place p c o k s = raiseCondition .forwardDrop ((s.setQueue p (offer q)).partLost e.content) := by
  unfold place placeFrame
  rw [h]
  rfl

end Place

/-- Settles O17, from the equation of `queueFrame` for each way a frame can be placed. -/
theorem admissionKeepsTheQueuesRules : Obligations.AdmissionKeepsTheQueuesRules := by
  unfold Obligations.AdmissionKeepsTheQueuesRules
  refine ⟨fun p c k s fresh => ⟨fun ⟨hp, hl⟩ => ?_, fun hf => ?_⟩, fun p c o s own fresh => ⟨fun hl => ?_, ?_⟩, ?_⟩
  · exact place_of_nothing (queueFrame_plain_joins fresh hp hl)
  · exact place_of_dropped (queueFrame_plain_dropped fresh hf)
  · have h := queueFrame_own_joins (k := true) own (fun _ => fresh) hl
    exact ⟨h, place_of_nothing h⟩
  · intro pre e post full hq waits choice
    rw [hq] at fresh full choice
    have h : queueFrame c o true (s.queue p) = _ := hq ▸ queueFrame_displaces own (fun _ => fresh) full waits choice
    exact ⟨h, place_of_displaced h⟩
  · intro p c o pre post e s hq same
    refine ⟨fun waits last => ?_, fun offered alone => ?_⟩
    · exact place_of_nothing (hq ▸ queueFrame_replaces same waits last)
    · have h : queueFrame c o true (s.queue p) = _ := hq ▸ queueFrame_follows same offered alone
      rw [place_of_nothing h, offer_of_offered ⟨{ e with followOn := some c }, by simp, offered⟩]

/-! ### Offer (R14) -/

/-- The key of a data frame or a remote frame: the data frame goes first. -/
theorem offerKey_std {f : Frame} {a : BitVec 11} (h : f.id = .std a) :
    offerKey f = a.toNat * 2 ^ 20 + (if f.kind = .data then 0 else 1) := by
  unfold offerKey
  rw [h]
  cases f.kind <;> rfl

theorem offerKey_ext {f : Frame} {a : BitVec 29} (h : f.id = .ext a) :
    offerKey f = (a.toNat / 2 ^ 18) * 2 ^ 20 + 2 ^ 19 + (a.toNat % 2 ^ 18) * 2 + (if f.kind = .data then 0 else 1) := by
  unfold offerKey
  rw [h]
  cases f.kind <;> rfl

/-- Settles O18: `offer_offers` names the entry taken, and the orders of the keys are those of their parts. -/
theorem offerTakesTheLowestKey : Obligations.OfferTakesTheLowestKey := by
  unfold Obligations.OfferTakesTheLowestKey
  refine ⟨fun q h => offer_of_offered h, fun q hne idle => ?_, ?_, ?_, ?_, ?_⟩
  · have ho := offer_offers q
    generalize offer q = q' at ho
    cases ho with
    | busy h =>
      obtain ⟨e, he, hoff⟩ := h
      rw [idle e he] at hoff
      cases hoff
    | empty h => exact absurd h hne
    | taken pre post e split _ lowest oldest => exact ⟨pre, e, post, split, rfl, lowest, oldest⟩
  · intro f g a b hf hg hkf hkg
    rw [offerKey_std hf, offerKey_std hg, hkf, hkg]
    omega
  · intro f g a b hf hg
    rw [offerKey_std hf, offerKey_ext hg]
    split <;> split <;> omega
  · intro f g a b hf hg hk
    rw [offerKey_ext hf, offerKey_ext hg, hk]
    omega
  · intro f g hid hf hg
    cases hi : g.id with
    | std a =>
      rw [offerKey_std (hid.trans hi), offerKey_std hi, hf, hg]
      simp
    | ext a =>
      rw [offerKey_ext (hid.trans hi), offerKey_ext hi, hf, hg]
      simp

end Sys2Proof.Machine

/-!
Raising a condition (R160, R161) and the division of a response into parts (R154, R180).
-/

namespace Sys2Proof.Machine

/-! ### Conditions -/

theorem raiseCondition_of_has {c : Condition} {s : State} (h : CondSet.has s.mgmt.conditions c = true) :
    raiseCondition c s = s := by
  unfold raiseCondition
  exact if_pos h

/-- A condition raised is in the set. -/
theorem raiseCondition_enters (c : Condition) (s : State) :
    CondSet.has (raiseCondition c s).mgmt.conditions c = true := by
  unfold raiseCondition
  split
  · assumption
  · have h := enterCondition_enters c s
    generalize enterCondition c s = r at h
    obtain ⟨s1, lost⟩ := r
    dsimp only
    split
    · exact CondSet.has_of_grown (enterCondition_onlySent _ _).grown h
    · exact h

/-- A queue with a place free gives nothing up for a CONTROLLED or PART frame. -/
theorem queueFrame_with_room {c : Content} {o : Origin} {k : Bool} {q : List Entry} (own : o ≠ .plain)
    (room : q.length < Config.queuePlaces) : ∃ q', queueFrame c o k q = (q', .nothing) ∧ holds q' c := by
  have hp := queueFrame_placed c o k q
  generalize queueFrame c o k q = r at hp
  have found : ∀ q', r = (q', .nothing) → ∃ q', r = (q', .nothing) ∧ holds q' c := fun q' hr =>
    ⟨q', hr, Placed.holds (hr ▸ hp) (by simp)⟩
  cases hp with
  | replaced => exact found _ rfl
  | followed => exact found _ rfl
  | joined => exact found _ rfl
  | dropped plain => exact absurd plain own
  | displaced _ _ _ _ _ full => omega
  | overfull _ full => omega

/-- Settles O22: `raiseCondition_eq` names the notice's placing, and a queue with a place free loses nothing to it. -/
theorem raisingEntersTheSetOnce : Obligations.RaisingEntersTheSetOnce := by
  unfold Obligations.RaisingEntersTheSetOnce
  intro c s
  refine ⟨raiseCondition_of_has, fun h => ?_, raiseCondition_onlySent c s, raiseCondition_actuator c s,
    raiseCondition_enters c s⟩
  have heq := raiseCondition_eq h
  intro set entered notice
  have placed : s.mgmt.enabled.getLsbD c.code = true → raiseCondition c s = place .upstream notice .part true entered :=
    fun he => heq.trans (if_pos he)
  refine ⟨fun he => heq.trans (if_neg (by rw [show CondSet.has s.mgmt.enabled c = false from he]; simp)), placed,
    fun he room => ?_⟩
  obtain ⟨q, hq, hold⟩ := queueFrame_with_room (c := notice) (o := .part) (k := true) (by simp) room
  refine ⟨offer q, ?_, holds_offer hold⟩
  rw [placed he, place_of_nothing (p := .upstream) (s := entered) hq]
  rfl

/-! ### Responses -/

/-- R154: the parts of a response, place by place. -/
theorem numberParts_getElem? (code seq : Byte) (res : Result) (n : Nat) (l : List (List Byte)) (i : Nat) :
    (numberParts code seq res n l)[i]? = l[i]?.map fun d =>
      { code := code, seq := seq, result := res, number := n + i, last := decide (i + 1 = l.length), data := d } := by
  fun_induction numberParts code seq res n l generalizing i with
  | case1 n => rfl
  | case2 n d => cases i <;> simp
  | case3 n d ds hne ih =>
    cases i with
    | zero =>
      have : ds ≠ [] := fun h => hne h
      simp [this]
    | succ i =>
      rw [List.getElem?_cons_succ, ih, List.getElem?_cons_succ, List.length_cons]
      simp only [Nat.add_right_cancel_iff, show n + 1 + i = n + (i + 1) by omega]

theorem numberParts_data (code seq : Byte) (res : Result) (n : Nat) (l : List (List Byte)) :
    (numberParts code seq res n l).map (fun p => p.data) = l := by
  refine List.ext_getElem? fun i => ?_
  rw [List.getElem?_map, numberParts_getElem?, Option.map_map]
  exact Option.map_id'

theorem divideData_flatten (d : List Byte) : (divideData d).flatten = d := by
  fun_induction divideData d with
  | case1 a b c d e rest ih => simp [ih]
  | case2 ds h => simp

/-- R180: only the last part is shorter than four bytes. -/
theorem divideData_full (d : List Byte) : ∀ (i : Nat) (x : List Byte), (divideData d)[i]? = some x →
    i + 1 ≠ (divideData d).length → x.length = 4 := by
  fun_induction divideData d with
  | case1 a b c d e rest ih =>
    intro i x hx hi
    cases i with
    | zero =>
      cases hx
      rfl
    | succ i => exact ih i x hx (by simpa using hi)
  | case2 ds h =>
    intro i x hx hi
    cases i with
    | zero => exact absurd rfl hi
    | succ i => cases hx

theorem Result.code_lt (r : Result) : r.code < 13 := by cases r <;> decide

/-- 11.4: the control byte of a response part as a sum of its three fields. -/
theorem partControl_eq {p : RespPart} (h : p.number < 4) :
    partControl p = BitVec.ofNat 8 (p.result.code + 16 * p.number + if p.last then 64 else 0) := by
  have fields : ∀ (c : Fin 13) (n : Fin 4) (b : Bool),
      BitVec.ofNat 8 c ||| (BitVec.ofNat 8 n <<< 4) ||| flagBit b 6 = BitVec.ofNat 8 (c + 16 * n + if b then 64 else 0) := by
    decide
  exact fields ⟨p.result.code, p.result.code_lt⟩ ⟨p.number, h⟩ p.last

/-- Settles O53, from the parts place by place and the control byte's fields. -/
theorem responsesAreDividedInOrder : Obligations.ResponsesAreDividedInOrder := by
  unfold Obligations.ResponsesAreDividedInOrder
  refine ⟨rfl, fun s p hp => ?_, fun code seq res d => ?_⟩
  · unfold partFrame dataFrame
    rw [partControl_eq hp]
    simp [withCheck, checkByte, byteSum, State.nodeId, Config.responseBase]
  · intro parts
    have hcount : parts.length = (divideData d).length := numberParts_count _ _ _ _ _
    refine ⟨?_, numberParts_ne_nil _ _ _ _ (divideData_ne_nil d), fun hd => ?_, fun i p hp => ?_⟩
    · rw [List.flatMap_def, numberParts_data, divideData_flatten]
    · have := divideData_count d
      omega
    · rw [numberParts_getElem?, Option.map_eq_some_iff] at hp
      obtain ⟨x, hx, rfl⟩ := hp
      rw [hcount]
      refine ⟨rfl, rfl, rfl, Nat.zero_add i, divideData_length d x (List.mem_of_getElem? hx), ?_, fun hl => ?_⟩
      · simp
      · exact divideData_full d i x hx (by simpa using hl)

end Sys2Proof.Machine

/-!
What comes of a received frame (R2, R4, R6, R8, R151), the limiter (R86 to R91) and the acknowledgement monitor (R92 to R99).
-/

namespace Sys2Proof.Machine

/-! ### Received frames -/

/-- The classifier acts on its decision. -/
theorem exec_classified {s : State} {p : Port} {f : RxFrame} {v : Verdict} (h : Classified s p f v) (t : Millis) :
    exec (.frameReceive p f t) s = .next (actOn v p (takenFrame f) t s) := by
  show Host.Outcome.next (if s.phase = .running ∧ f.complete = true then receive p (takenFrame f) t s else s) = _
  rw [if_pos ⟨h.running, h.complete⟩]
  unfold receive
  rw [h.request, h.verdict, if_neg (by simp)]

/-- A frame of a kind with a fixed port has arrived at that port. -/
theorem Classified.port {s : State} {p q : Port} {f : RxFrame} {v : Verdict} (h : Classified s p f v)
    (hq : v.action.fixedPort = some q) : p = q :=
  (classify_fixedPort (h.verdict ▸ hq)).1

/-- R6: when a check is right. -/
theorem checkRight_iff (n : Nat) (d : List Byte) :
    checkRight n d = true ↔ d.length ≠ 0 ∧ d.length = n ∧ d.getLast? = some (255 - d.dropLast.foldl (· + ·) 0) := by
  simp [checkRight, checkByte, byteSum, and_assoc]

/-- R8: a controlled frame whose check is bad. -/
theorem exec_badCheck {s : State} {p : Port} {f : RxFrame} {k : Bool} {a : FrameAction} {n : Nat}
    (h : Classified s p f ⟨a, k⟩) (ha : a = .torqueRequest ∧ n = 4 ∨ a = .brakeDemand ∧ n = 6)
    (hc : checkRight n f.data = false) (t : Millis) :
    exec (.frameReceive p f t) s = .next (forwardBadCheck p (takenFrame f) s) := by
  rw [exec_classified h]
  rcases ha with ⟨rfl, rfl⟩ | ⟨rfl, rfl⟩
  · exact congrArg _ (if_neg (Bool.eq_false_iff.mp hc))
  · exact congrArg _ (if_neg (Bool.eq_false_iff.mp hc))

/-- Settles O16, by the classifier's decision. -/
theorem forwardingFollowsTheRow : Obligations.ForwardingFollowsTheRow := by
  unfold Obligations.ForwardingFollowsTheRow
  refine ⟨fun p f t s k => ⟨fun h => exec_classified h t, fun h => exec_classified h t⟩, ?_⟩
  intro p f t s k a n h ha hbad
  refine exec_badCheck h ha ?_ t
  rw [← Bool.not_eq_true, checkRight_iff]
  tauto

/-- Settles O21: a management request goes to `requestArrival`. -/
theorem requestsJoinTheirQueue : Obligations.RequestsJoinTheirQueue := by
  unfold Obligations.RequestsJoinTheirQueue
  intro d dlc t s hrun hlen f
  have hreq : isRequest s .upstream (takenFrame f) = true := by
    simp [isRequest, takenFrame, f, State.nodeId, Config.requestBase]
  have hcomplete : f.complete = true := by simpa [RxFrame.complete, RxFrame.length, f] using hlen
  have hx : exec (.frameReceive .upstream f t) s = .next (requestArrival d s) := by
    show Host.Outcome.next (if s.phase = .running ∧ f.complete = true then receive .upstream (takenFrame f) t s else s) = _
    rw [if_pos ⟨hrun, hcomplete⟩]
    unfold receive
    rw [if_pos hreq]
    rfl
  rw [hx]
  unfold requestArrival
  refine ⟨fun h => ?_, fun h => ?_⟩
  · rw [if_pos (show s.mgmt.requests.length < Config.requestPlaces from h)]
    rfl
  · rw [if_neg (show ¬ s.mgmt.requests.length < Config.requestPlaces from by simp only [Config.requestPlaces]; omega)]

/-! ### The limiter (R86 to R91) -/

/-- R36: what a torque request with a right check does to its record. -/
theorem torqueArrival_eq (d : List Byte) (s : State) : torqueArrival d s =
    s.withSensors { s.sensors with
      torqueRequest := if s.sensors.lastCounters.torqueRequest = some (counterAt d 2) then s.sensors.torqueRequest
        else requestedTorque d,
      lastCounters := { s.sensors.lastCounters with torqueRequest := some (counterAt d 2) } } := by
  unfold torqueArrival
  dsimp only
  split <;> rfl

/-- R34: what a brake demand with a right check does to its record. -/
theorem brakeArrival_eq (d : List Byte) (t : Millis) (s : State) : brakeArrival d t s =
    s.withSensors
      { (if s.sensors.lastCounters.brakeDemand = some (counterAt d 4) then s.sensors
          else { s.sensors with brakeFront := min (unsignedAt d 0) 2000, brakeRear := min (unsignedAt d 2) 2000,
                                brakeTimer := some (t + param s.banks.active .wheelTimeoutMs) }) with
        lastCounters := { s.sensors.lastCounters with brakeDemand := some (counterAt d 4) } } := by
  unfold brakeArrival
  dsimp only
  split <;> rfl

/-- R90: the bytes of a torque request with another value. -/
theorem recheck_torque (b0 b1 b2 b3 : Byte) (w : Word) : recheck (rewriteField [b0, b1, b2, b3] 0 w) =
    [w.extractLsb' 8 8, w.extractLsb' 0 8, b2, 255 - (w.extractLsb' 8 8 + w.extractLsb' 0 8 + b2)] := by
  simp [recheck, rewriteField, wordBytes, withCheck, checkByte, byteSum]

/-- R90: the bytes of a brake demand with other values. -/
theorem recheck_brake (b0 b1 b2 b3 b4 b5 : Byte) (wf wr : Word) :
    recheck (rewriteField (rewriteField [b0, b1, b2, b3, b4, b5] 0 wf) 2 wr) = withCheck (wordBytes wf ++ wordBytes wr ++ [b4]) := by
  simp [recheck, rewriteField, wordBytes]

/-- Settles O36: the limiter's frame is placed and `torqueArrival_eq` gives the record; `limitedTorque_between` is R88. -/
theorem torqueRequestsAreLimited : Obligations.TorqueRequestsAreLimited := by
  unfold Obligations.TorqueRequestsAreLimited
  constructor
  · intro p f t s k b0 b1 b2 b3 h hd hcheck r field q out w hi lo c
    obtain rfl := h.port (q := .upstream) rfl
    have hright : checkRight torqueLength (takenFrame f).data = true := by
      rw [checkRight_iff]
      simp [takenFrame, hd, hcheck, torqueLength]
    have hfield : signedAt f.data 0 = field := by rw [hd]; rfl
    have hq : requestedTorque f.data = q := by unfold requestedTorque; rw [hfield]; rfl
    have hc : counterAt f.data 2 = c := by rw [hd]; rfl
    have hout : limitedTorque s.ctl.state r q = out := by
      unfold limitedTorque
      simp only [out]
      cases s.ctl.state <;> by_cases hpos : 0 < q <;> simp [hpos, Config.limpCeiling]
    have hbytes : torqueBytes f.data out = if out = field then f.data else [hi, lo, b2, 255 - (hi + lo + b2)] := by
      unfold torqueBytes
      rw [hfield]
      refine if_congr Iff.rfl rfl ?_
      rw [hd]
      exact recheck_torque _ _ _ _ _
    rw [exec_classified h]
    show Host.Outcome.next (torqueRequestFrame .upstream (takenFrame f) s) = _
    unfold torqueRequestFrame
    rw [if_pos hright, torqueArrival_eq, place_sensors]
    unfold limitTorque
    simp only [show (takenFrame f).data = f.data from rfl, hq, hout, hbytes, hc, r]
    rfl
  · intro ctl r field q out
    obtain ⟨hpos, hneg⟩ := limitedTorque_between ctl r q
    refine ⟨hpos, hneg, fun hlt => ?_⟩
    obtain ⟨h1, h2⟩ := limitedTorque_below hlt
    exact ⟨h1, h2, by omega⟩

/-- Settles O37: the limiter's frame is placed and `brakeArrival_eq` gives the record. -/
theorem brakeDemandsAreLimited : Obligations.BrakeDemandsAreLimited := by
  unfold Obligations.BrakeDemandsAreLimited
  intro p f t s k b0 b1 b2 b3 b4 b5 h hd hcheck r df dr out outF outR wf wr c fresh
  obtain rfl := h.port (q := .upstream) rfl
  have hright : checkRight sensorLength (takenFrame f).data = true := by
    rw [checkRight_iff]
    simp [takenFrame, hd, hcheck, sensorLength]
  have hfront : unsignedAt f.data 0 = df := by rw [hd]; rfl
  have hrear : unsignedAt f.data 2 = dr := by rw [hd]; rfl
  have hc : counterAt f.data 4 = c := by rw [hd]; rfl
  have hbytes : brakeBytes f.data outF outR = if outF = df ∧ outR = dr then f.data else withCheck (wf ++ wr ++ [b4]) := by
    unfold brakeBytes
    rw [hfront, hrear]
    refine if_congr Iff.rfl rfl ?_
    rw [hd]
    exact recheck_brake _ _ _ _ _ _ _ _
  have hlimit : limitBrake s.banks.active s.eval.record (takenFrame f) =
      plainContent { takenFrame f with data := brakeBytes f.data outF outR } := by
    unfold limitBrake
    rw [show (takenFrame f).data = f.data from rfl, hfront, hrear]
    rfl
  rw [exec_classified h]
  show Host.Outcome.next (brakeDemandFrame .upstream (takenFrame f) t s) = _
  unfold brakeDemandFrame
  rw [if_pos hright, hlimit, hbytes, brakeArrival_eq, place_sensors, place_banks,
    show (takenFrame f).data = f.data from rfl, hfront, hrear, hc]
  rfl

/-! ### The acknowledgement monitor (R92 to R99) -/

/-- The record of a counter found in the list is one of it, with that counter. -/
theorem findRecord_some {c : Counter} {s : State} {r : AckRecord} (h : findRecord c s = some r) :
    r ∈ s.ack.records ∧ r.counter = c := ⟨List.mem_of_find?_eq_some h, by simpa using List.find?_some h⟩

theorem findRecord_none {c : Counter} {s : State} (h : ∀ r ∈ s.ack.records, r.counter ≠ c) : findRecord c s = none := by
  simpa [findRecord] using h

/-- R98: a miss, by what the monitor held before it. -/
theorem ackMiss_eq {u : State} {l : List AckRecord} {m : Nat} {b : Bool} (ha : u.ack = ⟨l, m, b⟩) :
    ackMiss u =
      if param u.banks.active .ackMissLimit ≤ min 15 (m + 1) then
        raiseCondition .ackFault (u.withAck ⟨l, min 15 (m + 1), true⟩)
      else u.withAck ⟨l, min 15 (m + 1), b⟩ := by
  unfold ackMiss
  rw [ha]
  rfl

/-- R95: an acknowledgement without a right check, or without a record of its counter, is ignored. -/
theorem ackArrival_ignored {d : List Byte} {s : State}
    (h : checkRight 4 d = false ∨ ∀ r ∈ s.ack.records, r.counter ≠ counterAt d 2) : ackArrival d s = s := by
  unfold ackArrival
  split
  · rename_i hc
    rcases h with h | h
    · rw [show checkRight 4 d = true from hc] at h
      cases h
    · rw [findRecord_none h]
  · rfl

/-- R95, R96: a matched acknowledgement takes its record and gets the verdict. -/
theorem ackArrival_matched {d : List Byte} {s : State} {r : AckRecord} (hc : checkRight 4 d = true)
    (hr : findRecord (counterAt d 2) s = some r) :
    ackArrival d s = ackVerdict r (signedAt d 0) (removeRecord (counterAt d 2) s) := by
  unfold ackArrival
  rw [if_pos (show checkRight torqueLength d = true from hc), hr]

/-- Settles O38: the record goes, and `ackMiss_eq` counts a miss. -/
theorem acknowledgementsGetTheirVerdict : Obligations.AcknowledgementsGetTheirVerdict := by
  unfold Obligations.AcknowledgementsGetTheirVerdict
  constructor
  · intro p f t s k h sent c applied rest n
    have hx : exec (.frameReceive p f t) s = .next (ackArrival f.data sent) := exec_classified h t
    have hack : sent.ack = s.ack := place_ack _ _ _ _ _
    have hbanks : sent.banks = s.banks := place_banks _ _ _ _ _
    rw [hx]
    refine ⟨fun hign => ?_, fun r hc hr => ?_⟩
    · rw [ackArrival_ignored (by rw [hack]; exact hign)]
    · have hremove : removeRecord c sent = { sent with ack := { s.ack with records := rest } } := by
        unfold removeRecord
        rw [hack]
        rfl
      rw [ackArrival_matched hc (by unfold findRecord; rw [hack]; exact hr), hremove]
      unfold ackVerdict
      refine ⟨fun hsat => ?_, fun hover => ?_⟩
      · rw [if_pos (by rw [show sent.banks = s.banks from hbanks]; exact hsat)]
        rfl
      · rw [if_neg (by rw [show sent.banks = s.banks from hbanks]; exact not_le.mpr hover),
          ackMiss_eq (raiseCondition_ack _ _), raiseCondition_banks]
        dsimp only
        rw [hbanks]
        rfl
  · intro c t s rest n
    refine ⟨fun hlate => ?_, fun r hr hdue => ?_⟩
    · show Host.Outcome.next (match findRecord c s with
        | none => s
        | some r => if r.deadline ≤ t then ackMiss (removeRecord c s) else s) = _
      cases hf : findRecord c s with
      | none => rfl
      | some r =>
        obtain ⟨hmem, hcount⟩ := findRecord_some hf
        exact congrArg _ (if_neg (not_le.mpr (hlate r hmem hcount)))
    · have hx : exec (.ackDeadlineExpiry c t) s = .next (ackMiss (removeRecord c s)) := by
        show execAckDeadlineExpiry c t s = _
        unfold execAckDeadlineExpiry
        rw [show findRecord c s = some r from hr]
        exact congrArg _ (if_pos hdue)
      rw [hx, ackMiss_eq (u := removeRecord c s) rfl]
      exact ⟨fun hlow => congrArg _ (if_neg (not_le.mpr hlow)), fun hreach => congrArg _ (if_pos hreach)⟩

end Sys2Proof.Machine

/-!
What becomes of the entry in offer when its sending is reported (R15 to R17, R93, R94, R155).
-/

namespace Sys2Proof.Machine

/-- The offer made twice is the offer made once. -/
@[simp] theorem offer_offer (q : List Entry) : offer (offer q) = offer q := by
  by_cases hq : offer q = []
  · rw [hq]; rfl
  · exact offer_of_offered (offer_offering q hq)

@[simp] theorem offerAt_setQueue (s : State) (p : Port) (q : List Entry) :
    (s.setQueue p q).offerAt p = s.setQueue p (offer q) := by
  unfold State.offerAt
  rw [State.setQueue_queue, State.setQueue_setQueue]

/-- At most one entry is in offer. -/
theorem QueueWithin.offered_alone {own : Origin} {pre post : List Entry} {e : Entry}
    (h : QueueWithin own (pre ++ e :: post)) (he : e.offered = true) : ∀ x ∈ pre, x.offered = false := by
  have hone := h.oneOffer
  rw [List.countP_append, List.countP_cons_of_pos (by exact he)] at hone
  have hzero : pre.countP (fun e => e.offered) = 0 := by omega
  simpa using List.countP_eq_zero.mp hzero

/-- R9: no two entries of the port's own origin share an identifier. -/
theorem QueueWithin.id_alone {own : Origin} {pre post : List Entry} {e : Entry}
    (h : QueueWithin own (pre ++ e :: post)) (he : e.origin = own) :
    ∀ x ∈ pre ++ post, x.origin = own → x.content.frame.id ≠ e.content.frame.id := by
  intro x hx hxo hid
  have hd := h.distinct
  simp only [List.filter_append, List.filter_cons, he, beq_self_eq_true, if_true, List.map_append, List.map_cons,
    List.nodup_middle, List.nodup_cons] at hd
  refine hd.1 ?_
  rw [← List.map_append, ← List.filter_append, ← hid]
  exact List.mem_map_of_mem (List.mem_filter.mpr ⟨hx, by simp [hxo]⟩)

section Entry

variable {s : State} {p : Port} {pre post : List Entry} {e : Entry}

theorem exec_transmitComplete (hq : s.queue p = pre ++ e :: post) (he : e.offered = true)
    (hp : ∀ x ∈ pre, x.offered = false) (t : Millis) :
    exec (.transmitComplete p t) s = .next (sendDone p e t s) := by
  show execTransmitComplete p t s = _
  unfold execTransmitComplete
  rw [hq, offeredEntry_split he hp]

theorem exec_transmitError (hq : s.queue p = pre ++ e :: post) (he : e.offered = true)
    (hp : ∀ x ∈ pre, x.offered = false) : exec (.transmitError p) s = .next (sendFailed p e s) := by
  show execTransmitError p s = _
  unfold execTransmitError
  rw [hq, offeredEntry_split he hp]

/-- R17: a report that finds nothing in offer. -/
theorem offeredEntry_none {q : List Entry} (h : ∀ e ∈ q, e.offered = false) : offeredEntry q = none := by
  simpa [offeredEntry] using h

/-- R155: the awaited part of a legal queue carries no torque and no follow-on, and the queue without it has a place for the
next part and no entry of its stream. -/
theorem awaited_entry (h : QueuesLegal s) (hq : s.upstream = pre ++ e :: post) (hm : e.content.awaitedPart = true) :
    e.content.reduced = none ∧ e.followOn = none ∧ (pre ++ post).length < Config.queuePlaces ∧
      ∀ f : Frame, f.id = .std (s.nodeId Config.responseBase) → ∀ x ∈ pre ++ post, Entry.sameStream f .part x = false := by
  have hmem : e ∈ s.upstream := by simp [hq]
  obtain ⟨-, horigin, hid⟩ := h.parts.marked e hmem _ (.inl rfl) hm
  have hw := h.upstream
  rw [hq] at hw
  refine ⟨?_, h.parts.last e hmem hm, ?_, fun f hf x hx => ?_⟩
  · cases hr : e.content.reduced with
    | none => rfl
    | some ft =>
      obtain ⟨-, -, hred⟩ := (h.upstream.entries e hmem).content
      obtain ⟨hc, -⟩ := hred ft hr
      rw [horigin] at hc
      cases hc
  · have htot := hw.total
    simp only [List.length_append, List.length_cons] at htot ⊢
    omega
  · rw [← Bool.not_eq_true, sameStream_iff]
    rintro ⟨hxid, -, hxo⟩
    exact hw.id_alone horigin x hx hxo (by rw [hxid, hf, hid])

end Entry

/-- R155: a response part joins the end of a queue with a place free and no entry of its stream. -/
theorem placePart_joins {s : State} {p : RespPart} {b : Bool} (room : s.upstream.length < Config.queuePlaces)
    (fresh : ∀ x ∈ s.upstream, Entry.sameStream (partFrame s p) .part x = false) :
    placePart p b s = s.setQueue .upstream (offer (s.upstream ++
      [newEntry { frame := partFrame s p, reduced := none, awaitedPart := b } .part true])) :=
  place_of_nothing (queueFrame_own_joins (by simp) (fun _ => fresh) room)

/-- R155: after the last part the response in progress is over. -/
theorem nextPart_last {s : State} {x : ResponseInProgress} (hx : s.mgmt.response = some x) (hrem : x.remaining = []) :
    nextPart s = s.discardResponse := by
  unfold nextPart
  rw [hx]
  dsimp only
  rw [hrem]

/-- R155: the next part is placed and awaited. -/
theorem nextPart_more {s : State} {x : ResponseInProgress} {part : RespPart} {rest : List RespPart}
    (hx : s.mgmt.response = some x) (hrem : x.remaining = part :: rest) :
    nextPart s = placePart part true (s.withMgmt { s.mgmt with response := some ⟨x.awaited + 1, rest⟩ }) := by
  unfold nextPart
  rw [hx]
  dsimp only
  rw [hrem]

/-- Settles O19: `sendDone` on a queue that splits at the entry in offer. -/
theorem transmitCompleteSendsTheEntryInOffer : Obligations.TransmitCompleteSendsTheEntryInOffer := by
  unfold Obligations.TransmitCompleteSendsTheEntryInOffer
  constructor
  · intro p t s pre post e hq he hp hm s1
    rw [exec_transmitComplete hq he hp]
    have hs1 : reducedSent e.content t s = s1 := by
      unfold reducedSent
      simp only [s1]
      cases e.content.reduced <;> rfl
    have hq1 : s1.queue p = pre ++ e :: post := by
      rw [← hs1, ← hq]
      unfold reducedSent
      cases e.content.reduced <;> cases p <;> rfl
    unfold sendDone
    dsimp only
    rw [hs1, hq1, queueSent_split he hp]
    unfold partSent
    rw [if_neg (by simp [hm]), offerAt_setQueue]
    cases e.followOn <;> rfl
  · intro t s pre post e x h hq he hm hx
    obtain ⟨hred, hfollow, hroom, hfresh⟩ := awaited_entry h hq hm
    have hw := h.upstream
    rw [hq] at hw
    have hp := hw.offered_alone he
    have hsent : exec (.transmitComplete .upstream t) s =
        .next ((nextPart { s with upstream := pre ++ post }).offerAt .upstream) := by
      rw [exec_transmitComplete (p := .upstream) hq he hp]
      unfold sendDone reducedSent partSent
      dsimp only
      rw [hred, if_pos hm, State.queue_upstream, hq, queueSent_split he hp, hfollow]
      rfl
    rw [hsent]
    refine ⟨fun hrem => ?_, ?_⟩
    · rw [nextPart_last (s := { s with upstream := pre ++ post }) hx hrem]
      rfl
    · intro part rest hrem c
      rw [nextPart_more (s := { s with upstream := pre ++ post }) hx hrem, placePart_joins, offerAt_setQueue, offer_offer]
      · rfl
      · exact hroom
      · exact hfresh _ rfl

/-- Settles O20: `sendFailed` on a queue that splits at the entry in offer. -/
theorem transmitErrorRetriesOrAbandons : Obligations.TransmitErrorRetriesOrAbandons := by
  unfold Obligations.TransmitErrorRetriesOrAbandons
  constructor
  · intro p s pre post e hq he hp
    rw [exec_transmitError hq he hp]
    unfold sendFailed
    refine ⟨fun c hc => ?_, fun hnone hbelow => ?_, fun hnone heighth => ?_⟩
    · rw [hc]
      dsimp only
      rw [offerAt_setQueue, hq, mapFirst_split _ he hp]
      rfl
    · rw [hnone]
      dsimp only
      rw [if_neg (by simp only [Config.maxAttempts]; omega), offerAt_setQueue, hq, mapFirst_split _ he hp, hnone]
    · rw [hnone]
      dsimp only
      rw [if_pos (show e.attempts + 1 ≥ Config.maxAttempts from heighth), hq, eraseP_split he hp]
      unfold State.partLost State.discardResponse
      rw [State.setQueue_mgmt]
  · intro p r t s
    refine ⟨rfl, fun hidle => ?_⟩
    show execTransmitComplete p t s = _ ∧ execTransmitError p s = _
    unfold execTransmitComplete execTransmitError
    rw [offeredEntry_none hidle]
    exact ⟨rfl, rfl⟩

end Sys2Proof.Machine

/-!
The state after reset (R19, R38, R58, R92, R119, R142, R166, R174), and Restart (R159).
-/

namespace Sys2Proof.Machine

/-! ### The state after reset -/

/-- Settles O3: the values stand in `State.reset`, plane by plane and slot by slot. -/
theorem resetHoldsTheManualsValues : Obligations.ResetHoldsTheManualsValues := by
  unfold Obligations.ResetHoldsTheManualsValues
  refine ⟨rfl, rfl, rfl, rfl, rfl, rfl, rfl, rfl, rfl, rfl, rfl, rfl, rfl, rfl, rfl, rfl, rfl, rfl, ?_, rfl, rfl, rfl, rfl, rfl,
    rfl, rfl, rfl, rfl, ?_, rfl, rfl⟩
  · intro p
    cases p <;> rfl
  · intro i p
    cases i <;> cases p <;> exact ⟨rfl, rfl, rfl⟩

/-- The four slots are blank (R166). -/
theorem reset_slot (i : SlotId) : State.reset.store.slots.get i = blankSlot := by cases i <;> rfl

theorem reset_tablesShaped : TablesShaped State.reset := by
  refine ⟨fun p => ?_, fun p => ?_, fun i p => ?_⟩
  · cases p with
    | action => rfl
    | parameter => rfl
    | _ => exact List.length_replicate
  · cases p <;> exact List.length_replicate
  · rw [reset_slot]
    cases p <;> exact List.length_replicate

theorem reset_planesLegal : PlanesLegal State.reset := by
  refine ⟨fun p => ?_, fun p => ?_, nofun, nofun⟩
  · cases p <;> decide
  · cases p <;> rfl

theorem reset_evalLegal : EvalLegal State.reset := by
  refine ⟨?_, ?_, ⟨rfl, rfl, rfl⟩, rfl, nofun, nofun⟩
  · constructor <;> decide
  · constructor <;> decide

theorem reset_storeLegal : StoreLegal State.reset := by
  refine ⟨fun i h => ?_, fun i _ => ?_, nofun⟩
  · rw [reset_slot] at h
    cases h
  · rw [reset_slot]
    rfl

/-- R76, R77: the built-in planes' cells give their recorded pairs. -/
theorem builtIn_pairs : pairOf builtInActionCells = ⟨3353, 54999⟩ ∧ pairOf builtInParameterCells = ⟨2945, 36558⟩ := by
  decide +kernel

theorem blankBank_intact : bankIntact blankBank := by
  obtain ⟨haction, hparameter⟩ := builtIn_pairs
  intro p c h
  rw [Plane.pair?_iff] at h
  cases p with
  | action => exact haction.trans (PlaneStatus.verified.inj h)
  | parameter => exact hparameter.trans (PlaneStatus.verified.inj h)
  | _ => cases h

theorem emptyBank_intact : bankIntact emptyBank := by
  intro p c h
  rw [Plane.pair?_iff] at h
  cases p <;> cases h

/-- Settles O4, invariant by invariant. -/
theorem resetIsLegal : Obligations.ResetIsLegal := by
  unfold Obligations.ResetIsLegal
  refine ⟨queuesLegal_of_empty rfl rfl rfl, reset_tablesShaped, reset_planesLegal, ⟨fun _ => rfl, fun _ => rfl⟩,
    reset_evalLegal, ⟨Nat.zero_le _, Nat.zero_le _⟩, ⟨⟨rfl, rfl, rfl⟩, fun _ => ⟨rfl, rfl⟩⟩, ⟨nofun, nofun⟩, ⟨?_, fun _ => rfl⟩,
    ⟨Nat.zero_le _, List.nodup_nil, nofun, Nat.zero_le _⟩, ⟨nofun, by decide⟩, ⟨Nat.zero_le _, nofun, rfl, nofun⟩,
    reset_storeLegal, ⟨blankBank_intact, emptyBank_intact, nofun⟩, ⟨rfl, rfl⟩⟩
  rintro (h | h) <;> cases h

/-! ### Restart (R159) -/

/-- The only entry of a queue goes into offer. -/
theorem offer_singleton (n : Entry) : ∃ e, offer [n] = [e] ∧ e.offered = true := by
  obtain ⟨e, he⟩ := List.length_eq_one_iff.mp (length_offer [n])
  obtain ⟨x, hx, hoff⟩ := offer_offering [n] (by simp [he])
  rw [he, List.mem_singleton] at hx
  exact ⟨e, he, hx ▸ hoff⟩

/-- A response of one part, placed over an empty upstream queue, is its only entry and in offer. -/
theorem respond_alone {s : State} (h : s.upstream = []) (r : Request) (res : Result) :
    ∃ e, (respond r res [] s).upstream = [e] ∧ e.offered = true := by
  have hp : respond r res [] s = placePart
      { code := byteAt r 0, seq := requestSeq r, result := res, number := 0, last := true, data := [] } false s := rfl
  rw [hp, placePart_joins (by simp [h, Config.queuePlaces]) (by simp [h]), h]
  exact offer_singleton (newEntry _ .part true)

/-- Settles O60: the request is taken whole, and answered over the state as it was or over the restarted one. -/
theorem restartStartsAfreshUnderTheKeptBanks : Obligations.RestartStartsAfreshUnderTheKeptBanks := by
  unfold Obligations.RestartStartsAfreshUnderTheKeptBanks
  intro time s seq rest h hq b g record
  let r : Request := [0x09, seq]
  let u : State := endRun (takeHead r rest s)
  have hx : exec (.restart time) s = .next (handDone (answerRestart time r u)) :=
    congrArg _ (takeRequest_ready h (some .restart) rfl (withLength 2 (answerRestart time)))
  have hbusy : u.storeBusy = s.storeBusy := rfl
  have hstill : u.stationary = s.stationary := rfl
  refine ⟨_, hx, fun busy => ?_, fun idle moving => ?_, fun idle still => ?_⟩
  · unfold answerRestart
    rw [if_pos (hbusy.trans busy)]
    exact respond_after (u := u) h hq rfl rfl rfl rfl r .busyStore []
  · unfold answerRestart
    rw [if_neg (by simp [hbusy, idle]), if_neg (by simp [hstill, moving])]
    exact respond_after (u := u) h hq rfl rfl rfl rfl r .notStationary []
  · unfold answerRestart
    rw [if_neg (by simp [hbusy, idle]), if_pos (hstill.trans still)]
    have hlegal : QueuesLegal (restartReset time u) := queuesLegal_of_empty rfl rfl rfl
    have hafresh : ∀ x : ResetCauses, ({ s.mgmt with requests := [], inHand := none, response := none, causes := x } : Mgmt) =
        { s.mgmt with requests := [], causes := x } := fun x => by simp [h.inHand, h.response]
    refine ⟨respond_alone (s := restartReset time u) rfl r .ok, ?_⟩
    have ha := (respond_answered hlegal rfl r .ok []).1.handDone
    have hstate := congrArg (fun m => { handDone (restartReset time u) with mgmt := m })
      (hafresh { s.mgmt.causes with restart := true })
    exact Eq.mp (congrArg (fun x => Answered x _ 0x09 seq .ok []) hstate) ha

end Sys2Proof.Machine

/-!
The ranges of what is read, looked up and computed (R42 to R53, R60, R64, R69, R72, R80 to R85), and the ranges of the records,
of the captured inputs and of the limit record through every step (R22, R31, R34, R36, R41, R52).
-/

namespace Sys2Proof.Machine

/-! ### Values read from the active bank (R60, R64, R65) -/

/-- R64, R65: a parameter is read within its permitted range, whatever its cell holds. -/
theorem param_range (b : Bank) (p : Param) : p.entry.low ≤ param b p ∧ param b p ≤ p.entry.high := by
  have hdefault : p.entry.low ≤ p.entry.default ∧ p.entry.default ≤ p.entry.high := by cases p <;> decide
  unfold param
  dsimp only
  split
  · assumption
  · exact hdefault

/-- R84: DRAG_MAX is at most 150. -/
theorem dragMax_le (b : Bank) : param b .dragMax ≤ 150 := (param_range b .dragMax).2

/-- R60: a cell is used at most at the upper bound of its plane's range. -/
theorem usedCell_le {p : PlaneId} (h : p.range.1 ≤ p.range.2) (pl : Plane) (i : Nat) : usedCell p pl i ≤ p.range.2 :=
  max_le h (min_le_left _ _)

/-- An interpolated value does not pass a bound of its two ends (R44, R69). -/
theorem interpolate_le {lo hi f n m : Nat} (hlo : lo ≤ m) (hhi : hi ≤ m) (hf : f < n) : interpolate lo hi f n ≤ m := by
  have hn : (0 : Int) < n := by omega
  have hstep : ((hi : Int) - lo) * f ≤ ((m : Int) - lo) * n :=
    calc ((hi : Int) - lo) * f ≤ ((m : Int) - lo) * f := Int.mul_le_mul_of_nonneg_right (by omega) (by omega)
      _ ≤ ((m : Int) - lo) * n := Int.mul_le_mul_of_nonneg_left (by omega) (by omega)
  have hdiv : (((hi : Int) - lo) * f).tdiv n ≤ (m : Int) - lo :=
    calc (((hi : Int) - lo) * f).tdiv n ≤ (((m : Int) - lo) * n).tdiv n := Int.tdiv_le_tdiv hn hstep
      _ = (m : Int) - lo := Int.mul_tdiv_cancel _ hn.ne'
  unfold interpolate
  omega

/-! ### Lookups (R44, R45, R68, R69, R73, R74) -/

theorem gripColumn_le (b : Bank) (m : RideMode) (l : LoadState) : gripColumn b m l ≤ 15 := by
  unfold gripColumn
  split
  · exact Nat.zero_le _
  · dsimp only
    split
    · assumption
    · exact Nat.zero_le _

/-- A grip plane gives a limit within its range, when FAULTY too. -/
theorem gripLimit_le {p : PlaneId} {w : Nat} (h : p.range.1 ≤ p.range.2) (hw : w ≤ p.range.2) (pl : Plane) (a c : Nat) :
    gripLimit p pl w a c ≤ p.range.2 := by
  unfold gripLimit gripValue
  split
  · exact hw
  · dsimp only
    split
    · exact usedCell_le h _ _
    · exact interpolate_le (usedCell_le h _ _) (usedCell_le h _ _) (Nat.mod_lt _ (by decide))

/-- The ranges of a grip lookup. -/
structure GripLimits.InRange (g : GripLimits) : Prop where
  column      : g.column ≤ 15
  slipTarget  : g.slipTarget ≤ 400
  torqueLimit : g.torqueLimit ≤ 400
  brakes      : g.brakeFront ≤ 2000 ∧ g.brakeRear ≤ 2000

theorem gripLookup_inRange (b : Bank) (m : RideMode) (l : LoadState) (a : Nat) : (gripLookup b m l a).InRange :=
  ⟨gripColumn_le b m l, gripLimit_le (p := .slipTarget) (by decide) (by decide) _ _ _,
    gripLimit_le (p := .torqueCeiling) (by decide) (by decide) _ _ _,
    gripLimit_le (p := .brakeFront) (by decide) (by decide) _ _ _, gripLimit_le (p := .brakeRear) (by decide) (by decide) _ _ _⟩

/-- R44, R45: a wheel's multiplier is at most 4096. -/
theorem radiusMultiplier_le (b : Bank) (a w : Nat) : radiusMultiplier b a w ≤ 4096 := by
  have hused : ∀ i, usedCell .radius b.radius i ≤ 4096 := usedCell_le (p := .radius) (by decide) _
  unfold radiusMultiplier
  split
  · exact le_refl _
  · dsimp only
    split
    · exact hused _
    · exact interpolate_le (hused _) (hused _) (Nat.mod_lt _ (by decide))

/-! ### The stages of a pass (R45 to R50, R80 to R84) -/

/-- A speed corrected by at most 4096 in 4096 does not grow (R45). -/
theorem correctedSpeed_le {v m n : Nat} (hv : v ≤ n) (hm : m ≤ 4096) : correctedSpeed v m ≤ n := by
  have hprod : v * m ≤ n * 4096 := Nat.mul_le_mul hv hm
  unfold correctedSpeed
  omega

theorem speedCandidate_le {i : PassInputs} {f r n : Nat} (hf : f ≤ n) (hr : r ≤ n) : speedCandidate i f r ≤ n := by
  unfold speedCandidate
  split
  · exact max_le hf hr
  · exact hf

theorem referenceSpeed_le {marker : Bool} {c p fall n : Nat} (hc : c ≤ n) (hp : p ≤ n) :
    referenceSpeed marker c p fall ≤ n := by
  unfold referenceSpeed
  split
  · exact hc
  · split
    · exact hc
    · omega

/-- R50: the rear wheel cannot be slower than standing. -/
theorem rearSlip_range (vrc vref : Nat) : -1000 ≤ rearSlip vrc vref ∧ rearSlip vrc vref ≤ 2000 := by
  have hlow : -1000 ≤ (((vrc : Int) - vref) * 1000).tdiv vref := by
    rcases Nat.eq_zero_or_pos vref with rfl | hpos
    · simp
    · exact Int.le_tdiv_of_mul_le (by omega) (by omega)
  unfold rearSlip
  omega

theorem newCut_le {b : Bank} {ctl : CtlState} {below : Bool} {e p : Int} {cut : Nat} (h : cut ≤ 400) :
    newCut b ctl below e p cut ≤ 400 := by
  unfold newCut
  split
  · exact min_le_left _ _
  · omega

/-- R84: the relief a pass leaves lies within the DRAG_MAX it read. -/
theorem newRelief_le (b : Bank) (ctl : CtlState) (below : Bool) (q slip : Int) (relief : Nat) :
    newRelief b ctl below q slip relief ≤ param b .dragMax := by
  unfold newRelief
  split <;> exact min_le_left _ _

theorem passRecord_relief_le (b : Bank) (p : Pass) (n : Nat) (roller : Bool) :
    (passRecord b p n roller).relief ≤ param b .dragMax := by
  unfold passRecord
  dsimp only
  split
  · exact Nat.zero_le _
  · exact newRelief_le _ _ _ _ _ _

/-- What a pass reads and keeps is in range (R41). -/
structure Pass.InRange (p : Pass) : Prop where
  inputs : InputsInRange p.inputs
  vref   : p.vref ≤ 65000
  cut    : p.cut ≤ 400
  relief : p.relief ≤ 150

theorem passRecord_inRange {p : Pass} (hp : p.InRange) (b : Bank) {n : Nat} (hn : n ≤ 65535) (roller : Bool) :
    RecordInRange (passRecord b p n roller) := by
  have hg := gripLookup_inRange b p.mode p.load p.inputs.lean.natAbs
  have hvfc : (passRecord b p n roller).vfc ≤ 65000 := correctedSpeed_le hp.inputs.speeds.1 (radiusMultiplier_le _ _ _)
  have hvrc : (passRecord b p n roller).vrc ≤ 65000 := correctedSpeed_le hp.inputs.speeds.2 (radiusMultiplier_le _ _ _)
  have hvref : (passRecord b p n roller).vref ≤ 65000 := referenceSpeed_le (speedCandidate_le hvfc hvrc) hp.vref
  refine ⟨hn, hp.inputs.lean, rfl, hg.column, hg.slipTarget, hg.torqueLimit, hg.brakes, ⟨hvfc, hvrc, hvref⟩, ?_, ?_, ?_,
    le_trans (passRecord_relief_le b p n roller) (dragMax_le b), rfl⟩
  · unfold passRecord
    dsimp only
    split
    · decide
    · exact rearSlip_range _ _
  · intro hbelow
    exact if_pos hbelow
  · unfold passRecord
    dsimp only
    split
    · exact Nat.zero_le _
    · exact newCut_le hp.cut

/-- R53: the pass count stays within 16 bits. -/
theorem nextPassCount_le (n : Nat) : nextPassCount n ≤ 65535 := by
  unfold nextPassCount
  split <;> omega

/-- R58, R78: the record built at a reset. -/
theorem resetRecord_inRange (b : Bank) (m : RideMode) (l : LoadState) : RecordInRange (resetRecord b m l) := by
  have hg := gripLookup_inRange b m l (param b .assumedLean)
  have hlean : param b .assumedLean ≤ 640 := (param_range b .assumedLean).2
  refine ⟨Nat.zero_le _, ⟨?_, ?_⟩, rfl, hg.column, hg.slipTarget, hg.torqueLimit, hg.brakes, ⟨?_, ?_, ?_⟩, ⟨?_, ?_⟩,
    fun _ => rfl, Nat.zero_le _, Nat.zero_le _, rfl⟩ <;> simp only [resetRecord] <;> omega

/-- R72: a refresh at a lean in range keeps the record in range. -/
theorem refreshedRecord_inRange {r : LimitRecord} (h : RecordInRange r) {lam : Int} (hlam : -640 ≤ lam ∧ lam ≤ 640)
    {g : GripLimits} (hg : g.InRange) : RecordInRange (refreshedRecord r lam g) :=
  ⟨h.passNo, hlam, rfl, hg.column, hg.slipTarget, hg.torqueLimit, hg.brakes, h.speeds, h.slip, h.below, h.cut, h.relief, rfl⟩

/-! ### The records and the captured inputs (R22, R31, R34, R36, R41) -/

/-- R25: a valid IMU arrival moves the lean source, its run of recovery and its two timers. -/
theorem sourceOnValid_frame (hold lost : Nat) (t : Millis) (x : Sensors) : sourceOnValid hold lost t x =
    { x with source := (sourceOnValid hold lost t x).source, recoveryCount := (sourceOnValid hold lost t x).recoveryCount,
             holdTimer := some (t + hold), lostTimer := (sourceOnValid hold lost t x).lostTimer } := by
  unfold sourceOnValid
  split
  case h_4 => split <;> rfl
  all_goals rfl

/-- R26: an invalid one takes the run of recovery back to 0. -/
theorem sourceOnInvalid_eq (x : Sensors) : sourceOnInvalid x =
    { x with recoveryCount := if x.source = .recovering then 0 else x.recoveryCount } := by
  unfold sourceOnInvalid
  split
  · rename_i hs
    rw [if_pos hs]
  all_goals
    rename_i hs
    rw [if_neg (by simp [hs])]

/-- R24: the lean in use is the IMU record's, or the assumed one. -/
theorem leanUsed_range {s : State} (h : RecordsInRange s.sensors) : -640 ≤ s.leanUsed ∧ s.leanUsed ≤ 640 := by
  have hassumed : param s.banks.active .assumedLean ≤ 640 := (param_range _ .assumedLean).2
  unfold State.leanUsed
  split
  · exact h.lean
  · exact h.lean
  all_goals omega

theorem pitchUsed_range {s : State} (h : RecordsInRange s.sensors) : -900 ≤ s.pitchUsed ∧ s.pitchUsed ≤ 900 := by
  unfold State.pitchUsed
  split
  · exact h.pitch
  · exact h.pitch
  all_goals decide

/-- R41: what a wheel arrival captures is in range. -/
theorem captureInputs_inRange {s : State} (h : RecordsInRange s.sensors) : InputsInRange (captureInputs s) :=
  ⟨h.speeds, leanUsed_range h, pitchUsed_range h, h.brakes, h.torque⟩

/-! ### The evaluation unit -/

/-- The evaluation unit's own part of `EvalLegal`. -/
structure EvalInRange (e : Eval) : Prop where
  record  : RecordInRange e.record
  running : e.cut = e.record.cut ∧ e.relief = e.record.relief ∧ e.vref = e.record.vref
  count   : e.record.passNo = e.passCount
  flight  : ∀ p, e.inFlight = some p → p.InRange
  waiting : ∀ i, e.waiting = some i → InputsInRange i

theorem evalLegal_iff (s : State) : EvalLegal s ↔ RecordsInRange s.sensors ∧ EvalInRange s.eval := by
  constructor
  · intro h
    refine ⟨h.sensors, h.record, h.running, h.count, fun p hp => ?_, h.waiting⟩
    obtain ⟨hinputs, hvref, hcut, hrelief⟩ := h.flight p hp
    exact ⟨hinputs, hvref, hcut, hrelief⟩
  · rintro ⟨hx, h⟩
    refine ⟨hx, h.record, h.running, h.count, fun p hp => ?_, h.waiting⟩
    exact ⟨(h.flight p hp).inputs, (h.flight p hp).vref, (h.flight p hp).cut, (h.flight p hp).relief⟩

theorem resetEval_inRange (b : Bank) (m : RideMode) (l : LoadState) : EvalInRange (resetEval (resetRecord b m l)) :=
  ⟨resetRecord_inRange b m l, ⟨rfl, rfl, rfl⟩, rfl, nofun, nofun⟩

/-- R71, R72: a refresh keeps the ranges. -/
theorem EvalInRange.refresh {s : State} (h : EvalInRange s.eval) (hx : RecordsInRange s.sensors) :
    EvalInRange (lookupRefresh s).eval := by
  unfold lookupRefresh
  split
  · exact ⟨refreshedRecord_inRange h.record (leanUsed_range hx) (gripLookup_inRange _ _ _ _), h.running, h.count, h.flight,
      h.waiting⟩
  · exact h

/-- R39, R41: a pass that begins reads a running state that is that of the record. -/
theorem EvalInRange.begun {s : State} (h : EvalInRange s.eval) {i : PassInputs} (hi : InputsInRange i) :
    EvalInRange (beginPass i s).eval := by
  obtain ⟨hcut, hrelief, hvref⟩ := h.running
  obtain ⟨-, -, hspeed⟩ := h.record.speeds
  refine ⟨h.record, h.running, h.count, fun p hp => ?_, h.waiting⟩
  obtain rfl := Option.some.inj hp
  refine ⟨hi, ?_, ?_, ?_⟩
  · exact hvref ▸ hspeed
  · exact hcut ▸ h.record.cut
  · exact hrelief ▸ h.record.relief

/-- R39, R40: a pass asked for begins or waits. -/
theorem EvalInRange.request {s : State} (h : EvalInRange s.eval) (hx : RecordsInRange s.sensors) :
    EvalInRange (requestPass s).eval := by
  have hi := captureInputs_inRange hx
  unfold requestPass
  split
  · exact h.begun hi
  · exact ⟨h.record, h.running, h.count, h.flight, fun i hw => Option.some.inj hw ▸ hi⟩

/-- R40, R54: the waiting request begins. -/
theorem EvalInRange.beginWaiting {s : State} (h : EvalInRange s.eval) : EvalInRange (beginWaiting s).eval := by
  unfold Machine.beginWaiting
  split
  · exact h
  · rename_i i hi
    exact EvalInRange.begun (s := { s with eval := { s.eval with waiting := none } })
      ⟨h.record, h.running, h.count, h.flight, nofun⟩ (h.waiting i hi)

/-- R52, R53: a pass completes into its record. -/
theorem EvalInRange.recordPass {s : State} (h : EvalInRange s.eval) {p : Pass} (hp : s.eval.inFlight = some p) :
    EvalInRange (recordPass p s).eval :=
  ⟨passRecord_inRange (h.flight p hp) _ (nextPassCount_le _) _, ⟨rfl, rfl, rfl⟩, rfl, nofun, h.waiting⟩

/-- R103, R107: an entry into PASSIVE. -/
theorem EvalInRange.passive {e : Eval} (h : EvalInRange e) : EvalInRange (passiveEntryEval e) := by
  obtain ⟨_, _, hvref⟩ := h.running
  have hr := h.record
  exact ⟨⟨hr.passNo, hr.lean, hr.index, hr.column, hr.slipTarget, hr.torqueLimit, hr.brakes, hr.speeds, hr.slip, hr.below,
    Nat.zero_le _, Nat.zero_le _, rfl⟩, ⟨rfl, rfl, hvref⟩, h.count, h.flight, h.waiting⟩

/-- R84, R139: a bank exchange limits the relief. -/
theorem EvalInRange.swap {s : State} (h : EvalInRange s.eval) : EvalInRange (swapBanks s).eval := by
  obtain ⟨hcut, hrelief, hvref⟩ := h.running
  have hr := h.record
  refine ⟨⟨hr.passNo, hr.lean, hr.index, hr.column, hr.slipTarget, hr.torqueLimit, hr.brakes, hr.speeds, hr.slip, hr.below,
    hr.cut, le_trans (min_le_left _ _) hr.relief, hr.ceiling⟩, ⟨hcut, ?_, hvref⟩, h.count, h.flight, h.waiting⟩
  exact congrArg (min · _) hrelief

/-! ### What the operations leave as it is -/

@[simp] theorem lookupRefresh_sensors (s : State) : (lookupRefresh s).sensors = s.sensors := by
  unfold lookupRefresh
  split <;> rfl

@[simp] theorem requestPass_sensors (s : State) : (requestPass s).sensors = s.sensors := by
  unfold requestPass
  split <;> rfl

@[simp] theorem requestPass_ctl (s : State) : (requestPass s).ctl = s.ctl := by
  unfold requestPass
  split <;> rfl

@[simp] theorem requestPass_phase (s : State) : (requestPass s).phase = s.phase := by
  unfold requestPass
  split <;> rfl

/-- A completion's part of the control state unit leaves all but the control state block (R106, R110, R114). -/
theorem controlMoves_eq (q : Int) (k : State) : ∃ c, controlMoves q k = { k with ctl := c } ∧
    c.liveness = k.ctl.liveness ∧ c.statusTimer = k.ctl.statusTimer := by
  have hstate : ∃ c, controlState k = k.withCtl c := by
    unfold controlState
    split
    case h_4 => split <;> exact ⟨_, rfl⟩
    all_goals exact ⟨_, rfl⟩
  obtain ⟨c, hc⟩ := hstate
  unfold controlMoves
  rw [hc]
  dsimp only
  split <;> exact ⟨_, rfl, rfl, rfl⟩

/-- The map banks exchange the banks or do nothing (R136, R137). -/
theorem banksMove_cases (k : State) : banksMove k = k ∨ banksMove k = swapBanks k := by
  unfold banksMove
  split
  · exact .inr rfl
  · exact .inl rfl

/-- The comparison at a plane's end writes the active bank, and the control state for a LIMP plane (R144 to R146). -/
theorem compareMove_frame (p : PlaneId) (sums : CheckPair) (k : State) : compareMove p sums k =
    (k.withActive (compareMove p sums k).banks.active).withCtl (compareMove p sums k).ctl.state := by
  unfold compareMove
  split
  · rfl
  · split
    · rfl
    · split
      · rfl
      · unfold faultyMove
        dsimp only
        split <;> rfl

/-- A scrub step writes the active bank, its own position, and the control state for a LIMP plane (R143 to R146). -/
theorem scrubMoves_frame (k : State) : scrubMoves k =
    ((k.withActive (scrubMoves k).banks.active).withScrub (scrubMoves k).scrub).withCtl (scrubMoves k).ctl.state := by
  unfold scrubMoves
  split
  · rfl
  · dsimp only
    split
    · rfl
    · rw [compareMove_frame]
      rfl

/-- What a completion's three blocks leave as it is. -/
structure PassKeeps (k u : State) : Prop where
  phase    : u.phase = k.phase
  sensors  : u.sensors = k.sensors
  liveness : u.ctl.liveness = k.ctl.liveness
  status   : u.ctl.statusTimer = k.ctl.statusTimer

theorem blockMoves_keeps (q : Int) (k : State) (c : CompletionBlock) : PassKeeps k (blockMoves q k c) := by
  cases c with
  | controlStateUnit =>
    obtain ⟨c, hc, hlive, hstatus⟩ := controlMoves_eq q k
    show PassKeeps k (controlMoves q k)
    rw [hc]
    exact ⟨rfl, rfl, hlive, hstatus⟩
  | mapBanks =>
    show PassKeeps k (banksMove k)
    rcases banksMove_cases k with h | h <;> rw [h]
    · exact ⟨rfl, rfl, rfl, rfl⟩
    · unfold swapBanks
      dsimp only
      split <;> exact ⟨rfl, rfl, rfl, rfl⟩
  | scrubUnit =>
    show PassKeeps k (scrubMoves k)
    rw [scrubMoves_frame]
    exact ⟨rfl, rfl, rfl, rfl⟩

/-- A completion moves no sensor record, no timer and no liveness. -/
theorem pass_keeps (p : Pass) (o : TakeOrder) (k : State) :
    PassKeeps k (beginWaiting (o.blocks.foldl (blockMoves p.inputs.q) (recordPass p k))) := by
  have hfold : PassKeeps k (o.blocks.foldl (blockMoves p.inputs.q) (recordPass p k)) := by
    refine List.foldlRecOn o.blocks _ ⟨rfl, rfl, rfl, rfl⟩ fun u hu c _ => ?_
    have hc := blockMoves_keeps p.inputs.q u c
    exact ⟨hc.phase.trans hu.phase, hc.sensors.trans hu.sensors, hc.liveness.trans hu.liveness, hc.status.trans hu.status⟩
  generalize o.blocks.foldl (blockMoves p.inputs.q) (recordPass p k) = u at hfold
  unfold beginWaiting
  split <;> exact ⟨hfold.phase, hfold.sensors, hfold.liveness, hfold.status⟩

/-! ### The ranges through every step -/

theorem EvalInRange.block {k : State} (h : EvalInRange k.eval) (q : Int) (c : CompletionBlock) :
    EvalInRange (blockMoves q k c).eval := by
  cases c with
  | controlStateUnit =>
    obtain ⟨c, hc, -⟩ := controlMoves_eq q k
    show EvalInRange (controlMoves q k).eval
    rw [hc]
    exact h
  | mapBanks =>
    show EvalInRange (banksMove k).eval
    rcases banksMove_cases k with e | e <;> rw [e]
    · exact h
    · exact h.swap
  | scrubUnit =>
    show EvalInRange (scrubMoves k).eval
    rw [scrubMoves_frame]
    exact h

/-- R22, R31, R34, R36: no step takes a record out of its range. -/
theorem RecordsInRange.move {k u : State} (h : RecordsInRange k.sensors) (m : Move k u) : RecordsInRange u.sensors := by
  cases m with
  | imuBad x =>
    rw [sourceOnInvalid_eq]
    exact ⟨h.lean, h.pitch, h.speeds, h.brakes, h.torque⟩
  | imu l p x hold lost t hl hl' hp hp' =>
    rw [lookupRefresh_sensors, sourceOnValid_frame]
    exact ⟨⟨hl, hl'⟩, ⟨hp, hp'⟩, h.speeds, h.brakes, h.torque⟩
  | wheel f r x d hf hr =>
    rw [requestPass_sensors]
    exact ⟨h.lean, h.pitch, ⟨hf, hr⟩, h.brakes, h.torque⟩
  | torque q x hq hq' => exact ⟨h.lean, h.pitch, h.speeds, h.brakes, hq, hq'⟩
  | brake f r x d hf hr => exact ⟨h.lean, h.pitch, h.speeds, ⟨hf, hr⟩, h.torque⟩
  | held _ | lost =>
    rw [lookupRefresh_sensors]
    exact ⟨h.lean, h.pitch, h.speeds, h.brakes, h.torque⟩
  | brakeStops => exact ⟨h.lean, h.pitch, h.speeds, ⟨Nat.zero_le _, Nat.zero_le _⟩, h.torque⟩
  | pass p o _ =>
    rw [(pass_keeps p o k).sensors]
    exact h
  | restart | hardReset =>
    have hreset : RecordsInRange resetSensors := by constructor <;> decide
    exact ⟨hreset.lean, hreset.pitch, hreset.speeds, hreset.brakes, hreset.torque⟩
  | _ => exact ⟨h.lean, h.pitch, h.speeds, h.brakes, h.torque⟩

/-- R41, R52, R53, R72, R84: no step takes the evaluation unit out of its ranges; a build that ends finds it as a reset left
it. -/
theorem EvalInRange.move {k u : State} (h : EvalInRange k.eval) (hx : RecordsInRange k.sensors)
    (hb : k.phase = .building → k.eval = State.reset.eval) (m : Move k u) : EvalInRange u.eval := by
  have hu := hx.move m
  cases m with
  | imu | held | lost =>
    rw [lookupRefresh_sensors] at hu
    exact EvalInRange.refresh h hu
  | wheel =>
    rw [requestPass_sensors] at hu
    exact EvalInRange.request h hu
  | passive => exact h.passive
  | pass p o hp =>
    refine EvalInRange.beginWaiting ?_
    exact List.foldlRecOn (motive := fun v : State => EvalInRange v.eval) o.blocks _ (h.recordPass hp)
      fun v hv c _ => hv.block _ c
  | restart => exact resetEval_inRange _ _ _
  | hardReset => exact ((evalLegal_iff _).mp reset_evalLegal).2
  | built t hp =>
    have he : (builtMove t k).eval = { State.reset.eval with
        record := resetRecord (bootBank (k.store.slots.get k.store.bootSelector)) k.ctl.mode k.ctl.load } := by
      rw [← hb hp]
      rfl
    rw [he]
    exact resetEval_inRange _ _ _
  | _ => exact h

/-- What a part that is building holds beside its records (R174). -/
theorem Settled.building {s : State} (h : Settled s) (hp : s.phase = .building) :
    s.eval = State.reset.eval ∧ s.ctl = State.reset.ctl := by
  rw [(h hp).rest]
  exact ⟨rfl, rfl⟩

end Sys2Proof.Machine

/-!
The drag relief within the DRAG_MAX of the bank in force through every step (R84, R139): a scrub over an intact bank writes no
cell (R143, R144), so only a bank exchange changes DRAG_MAX.
-/

namespace Sys2Proof.Machine

/-! ### The scrub finds an intact bank intact (R143, R144) -/

/-- What the scrub's sums rest on: shapes, positions, and every VERIFIED plane with the pair of its cells. -/
structure ScrubSound (k : State) : Prop where
  tables    : TablesShaped k
  positions : PositionsLegal k
  intact    : BanksIntact k

theorem ScrubSound.congr {k u : State} (h : ScrubSound k) (hb : u.banks = k.banks) (hx : u.scrub = k.scrub)
    (hs : u.store = k.store) : ScrubSound u := by
  obtain ⟨htables, hpositions, hintact⟩ := h
  refine ⟨⟨?_, ?_, ?_⟩, ⟨?_, ?_⟩, ⟨?_, ?_, ?_⟩⟩ <;> simp only [hb, hx, hs]
  · exact htables.active
  · exact htables.staging
  · exact htables.slots
  · exact hpositions.window
  · exact hpositions.scrub
  · exact hintact.active
  · exact hintact.staging
  · exact hintact.sums

/-- R143: the sums of the rows before `r` with row `r` added are those of the rows before `r + 1`. -/
theorem addCells_row (cells : List Word) {r n : Nat} (h : r * n ≤ cells.length) :
    addCells (pairOf (cells.take (r * n))) (r * n) ((cells.drop (r * n)).take n) = pairOf (cells.take ((r + 1) * n)) := by
  have happend := addCells_append (cells.take (r * n)) ((cells.drop (r * n)).take n) ⟨0, 0⟩ 0
  rw [List.length_take_of_le h, Nat.zero_add, ← List.take_add] at happend
  rw [Nat.succ_mul]
  exact happend.symm

/-- R143, step 1: the plane found is VERIFIED, and the position is the present one or the beginning of a plane. -/
theorem findScrubPlane_some {b : Bank} {x y : Scrub} (h : findScrubPlane b x = some y) :
    (b.get y.plane).isVerified = true ∧ (y = x ∨ y.row = 0 ∧ y.sums = ⟨0, 0⟩) := by
  unfold findScrubPlane at h
  split at h
  · obtain rfl := Option.some.inj h
    exact ⟨‹_›, .inl rfl⟩
  · split at h
    · rename_i p hp
      obtain rfl := Option.some.inj h
      exact ⟨by simpa using List.find?_some hp, .inr ⟨rfl, rfl⟩⟩
    · cases h

/-- R143, step 2: at the position found, the row lies in its plane and the sums with it added are those of the rows up to
it. -/
theorem ScrubSound.row {k : State} (h : ScrubSound k) {x : Scrub} (hx : findScrubPlane k.banks.active k.scrub = some x) :
    x.row < x.plane.rows ∧
      sumRow k.banks.active x = pairOf ((k.banks.active.get x.plane).cells.take ((x.row + 1) * x.plane.cols)) := by
  obtain ⟨hver, hpos⟩ := findScrubPlane_some hx
  have hsums : x.row < x.plane.rows ∧
      x.sums = pairOf ((k.banks.active.get x.plane).cells.take (x.row * x.plane.cols)) := by
    rcases hpos with rfl | ⟨hrow, hsums⟩
    · exact ⟨h.positions.scrub, h.intact.sums hver⟩
    · rw [hrow, hsums, Nat.zero_mul]
      exact ⟨by cases x.plane <;> decide, rfl⟩
  obtain ⟨hrow, hsums⟩ := hsums
  refine ⟨hrow, ?_⟩
  unfold sumRow rowCells
  rw [hsums]
  refine addCells_row _ ?_
  rw [h.tables.active x.plane]
  exact Nat.mul_le_mul_right _ hrow.le

/-- R144: a comparison with the plane's own sums changes nothing. -/
theorem compareMove_equal {k : State} {p : PlaneId} (h : bankIntact k.banks.active) :
    compareMove p (pairOf (k.banks.active.get p).cells) k = k := by
  unfold compareMove
  split
  · rfl
  · rename_i c hc
    exact if_pos (h p c hc)

/-- R143, R144: over an intact bank a scrub step moves its own position alone, and its sums stay those of the rows passed. -/
theorem ScrubSound.scrubMoves_eq {k : State} (h : ScrubSound k) : ∃ x, scrubMoves k = k.withScrub x ∧ x.row < x.plane.rows ∧
    ((k.banks.active.get x.plane).isVerified = true →
      x.sums = pairOf ((k.banks.active.get x.plane).cells.take (x.row * x.plane.cols))) := by
  unfold scrubMoves
  split
  · exact ⟨k.scrub, rfl, h.positions.scrub, h.intact.sums⟩
  · rename_i x hx
    obtain ⟨hrow, hsums⟩ := h.row hx
    dsimp only
    split
    · exact ⟨_, rfl, ‹_›, fun _ => hsums⟩
    · rename_i hlast
      have hend : (x.row + 1) * x.plane.cols = (k.banks.active.get x.plane).cells.length := by
        rw [h.tables.active x.plane, show x.row + 1 = x.plane.rows by omega]
        rfl
      rw [hsums, hend, List.take_length]
      refine ⟨_, compareMove_equal (k := k.withScrub _) h.intact.active, ?_, fun _ => ?_⟩
      · cases x.plane <;> decide
      · dsimp only
        rw [Nat.zero_mul]
        rfl

/-- R134, R138: a plane comes into staging with its cells as stored. -/
@[simp] theorem stagedPlane_cells (pl : Plane) : (stagedPlane pl).cells = pl.cells := by
  unfold stagedPlane
  split <;> rfl

/-- R134, R138: a plane that is VERIFIED in staging was VERIFIED with the same pair. -/
theorem stagedPlane_pair {pl : Plane} {c : CheckPair} (h : (stagedPlane pl).pair? = some c) : pl.pair? = some c := by
  unfold stagedPlane at h
  split at h
  · cases h
  · exact h

theorem stagedBank_shaped {b : Bank} (h : bankShaped b) : bankShaped (stagedBank b) := by
  intro p
  unfold stagedBank
  rw [PerPlane.get_build, stagedPlane_cells]
  exact h p

theorem stagedBank_intact {b : Bank} (h : bankIntact b) : bankIntact (stagedBank b) := by
  intro p c hc
  unfold stagedBank at hc ⊢
  rw [PerPlane.get_build] at hc ⊢
  rw [stagedPlane_cells]
  exact h p c (stagedPlane_pair hc)

/-- R138, R139: a bank exchange finds both banks intact and begins the scrub anew. -/
theorem ScrubSound.swap {k : State} (h : ScrubSound k) : ScrubSound (swapBanks k) :=
  ⟨⟨h.tables.staging, stagedBank_shaped h.tables.active, h.tables.slots⟩, ⟨nofun, Nat.succ_pos 16⟩,
    ⟨h.intact.staging, stagedBank_intact h.intact.active, fun _ => rfl⟩⟩

/-- Each block's part of a completion keeps the scrub sound. -/
theorem ScrubSound.block {k : State} (h : ScrubSound k) (q : Int) (c : CompletionBlock) : ScrubSound (blockMoves q k c) := by
  cases c with
  | controlStateUnit =>
    obtain ⟨c, hc, -⟩ := controlMoves_eq q k
    show ScrubSound (controlMoves q k)
    rw [hc]
    exact h.congr rfl rfl rfl
  | mapBanks =>
    show ScrubSound (banksMove k)
    rcases banksMove_cases k with e | e <;> rw [e]
    · exact h
    · exact h.swap
  | scrubUnit =>
    obtain ⟨x, e, hrow, hsums⟩ := h.scrubMoves_eq
    show ScrubSound (scrubMoves k)
    rw [e]
    exact ⟨⟨h.tables.active, h.tables.staging, h.tables.slots⟩, ⟨h.positions.window, hrow⟩,
      ⟨h.intact.active, h.intact.staging, hsums⟩⟩

/-! ### The drag relief within the DRAG_MAX in force (R84) -/

/-- The relief depends on the evaluation unit and the active bank alone. -/
theorem ReliefLegal.congr {k u : State} (h : ReliefLegal k) (he : u.eval = k.eval) (hb : u.banks.active = k.banks.active) :
    ReliefLegal u := by
  refine ⟨?_, ?_⟩ <;> rw [he, hb]
  · exact h.running
  · exact h.record

/-- No relief is within every DRAG_MAX. -/
theorem reliefLegal_of_zero {k : State} (hrun : k.eval.relief = 0) (hrec : k.eval.record.relief = 0) : ReliefLegal k :=
  ⟨hrun ▸ Nat.zero_le _, hrec ▸ Nat.zero_le _⟩

theorem ReliefLegal.refresh {k : State} (h : ReliefLegal k) : ReliefLegal (lookupRefresh k) := by
  unfold lookupRefresh
  split
  · exact ⟨h.running, h.record⟩
  · exact h

theorem ReliefLegal.request {k : State} (h : ReliefLegal k) : ReliefLegal (requestPass k) := by
  unfold requestPass
  split <;> exact ⟨h.running, h.record⟩

theorem ReliefLegal.beginWaiting {k : State} (h : ReliefLegal k) : ReliefLegal (beginWaiting k) := by
  unfold Machine.beginWaiting
  split <;> exact ⟨h.running, h.record⟩

/-- R84, R139: the exchange limits the relief by the DRAG_MAX of the bank that comes into force. -/
theorem swapBanks_reliefLegal (k : State) : ReliefLegal (swapBanks k) := ⟨min_le_right _ _, min_le_right _ _⟩

/-- Over an intact bank each block's part of a completion keeps the relief within DRAG_MAX: the scrub writes no cell. -/
theorem ReliefLegal.block {k : State} (h : ReliefLegal k) (hk : ScrubSound k) (q : Int) (c : CompletionBlock) :
    ReliefLegal (blockMoves q k c) := by
  cases c with
  | controlStateUnit =>
    obtain ⟨c, hc, -⟩ := controlMoves_eq q k
    show ReliefLegal (controlMoves q k)
    rw [hc]
    exact ⟨h.running, h.record⟩
  | mapBanks =>
    show ReliefLegal (banksMove k)
    rcases banksMove_cases k with e | e <;> rw [e]
    · exact h
    · exact swapBanks_reliefLegal k
  | scrubUnit =>
    obtain ⟨x, e, -⟩ := hk.scrubMoves_eq
    show ReliefLegal (scrubMoves k)
    rw [e]
    exact ⟨h.running, h.record⟩

/-- R52, R84: a completion leaves the relief within the DRAG_MAX of the bank then in force, in every order of the blocks. -/
theorem pass_reliefLegal {k : State} (hk : ScrubSound k) (p : Pass) (o : TakeOrder) :
    ReliefLegal (beginWaiting (o.blocks.foldl (blockMoves p.inputs.q) (recordPass p k))) := by
  have hrelief := passRecord_relief_le k.banks.active p (nextPassCount k.eval.passCount) (k.ctl.state == .roller)
  have hrecord : ReliefLegal (recordPass p k) := ⟨hrelief, hrelief⟩
  have hsound : ScrubSound (recordPass p k) := hk.congr rfl rfl rfl
  have hfold := List.foldlRecOn (motive := fun u : State => ReliefLegal u ∧ ScrubSound u) o.blocks
    (blockMoves p.inputs.q) ⟨hrecord, hsound⟩ fun u hu c _ => ⟨hu.1.block hu.2 _ c, hu.2.block _ c⟩
  exact hfold.1.beginWaiting

/-- R84: no step takes the relief out of the DRAG_MAX of the bank in force; a build that ends finds none. -/
theorem ReliefLegal.move {k u : State} (h : ReliefLegal k) (hk : ScrubSound k)
    (hb : k.phase = .building → k.eval = State.reset.eval) (m : Move k u) : ReliefLegal u := by
  cases m with
  | imu | held | lost =>
    refine ReliefLegal.refresh ?_
    exact h.congr rfl rfl
  | wheel =>
    refine ReliefLegal.request ?_
    exact h.congr rfl rfl
  | pass p o _ => exact pass_reliefLegal hk p o
  | passive | restart | hardReset => exact reliefLegal_of_zero rfl rfl
  | built t hp => exact reliefLegal_of_zero (congrArg Eval.relief (hb hp)) rfl
  | _ => exact h.congr rfl rfl

/-- Settles O9: both invariants go through the list of `Move`. -/
theorem recordsStayInRange : Obligations.RecordsStayInRange := by
  unfold Obligations.RecordsStayInRange
  constructor
  · intro s t hs h hstep
    rw [evalLegal_iff] at h ⊢
    obtain ⟨hx, he⟩ := h
    have hmove := step_moves hstep
    exact ⟨RecordsInRange.move (k := s.blocks) (u := t.blocks) hx hmove,
      EvalInRange.move (k := s.blocks) (u := t.blocks) he hx (fun hp => (hs.building hp).1) hmove⟩
  · rintro s t ⟨hs, htables, hpositions, hintact⟩ h hstep
    have hk : ScrubSound s.blocks := ScrubSound.congr ⟨htables, hpositions, hintact⟩ rfl rfl rfl
    have hmove := ReliefLegal.move (k := s.blocks) ⟨h.running, h.record⟩ hk (fun hp => (hs.building hp).1) (step_moves hstep)
    exact ⟨hmove.running, hmove.record⟩

end Sys2Proof.Machine

/-!
The timers against the lean source, the brake record, the wheel liveness and the status timer, through every step (R24 to R28,
R35, R104, R116).
-/

namespace Sys2Proof.Machine

/-- What `TimersLegal` says of the sensor record unit, on which alone it depends. -/
structure TimersAgree (x : Sensors) : Prop where
  lean  : leanTimersLegal x
  brake : x.brakeTimer = none → x.brakeFront = 0 ∧ x.brakeRear = 0

theorem timersLegal_iff (s : State) : TimersLegal s ↔ TimersAgree s.sensors :=
  ⟨fun h => ⟨h.lean, h.brake⟩, fun h => ⟨h.lean, h.brake⟩⟩

/-- The lean timers depend on the lean source, the count of the run and the two timers alone. -/
theorem leanTimersLegal_congr {x y : Sensors} (h : leanTimersLegal x) (hs : y.source = x.source)
    (hc : y.recoveryCount = x.recoveryCount) (hh : y.holdTimer = x.holdTimer) (hl : y.lostTimer = x.lostTimer) :
    leanTimersLegal y := by
  unfold leanTimersLegal
  rw [hs, hc, hh, hl]
  exact h

theorem leanTimersLegal_live {x : Sensors} (hs : x.source = .live) :
    leanTimersLegal x ↔ x.holdTimer ≠ none ∧ x.lostTimer ≠ none ∧ x.recoveryCount = 0 := by
  unfold leanTimersLegal
  rw [hs]

theorem leanTimersLegal_held {x : Sensors} (hs : x.source = .held) :
    leanTimersLegal x ↔ x.holdTimer = none ∧ x.lostTimer ≠ none ∧ x.recoveryCount = 0 := by
  unfold leanTimersLegal
  rw [hs]

theorem leanTimersLegal_lost {x : Sensors} (hs : x.source = .lost) :
    leanTimersLegal x ↔ x.holdTimer = none ∧ x.lostTimer = none ∧ x.recoveryCount = 0 := by
  unfold leanTimersLegal
  rw [hs]

theorem leanTimersLegal_recovering {x : Sensors} (hs : x.source = .recovering) :
    leanTimersLegal x ↔ x.holdTimer ≠ none ∧ x.lostTimer = none ∧ x.recoveryCount ≤ 3 := by
  unfold leanTimersLegal
  rw [hs]

/-- R25: a valid IMU arrival starts the timers of the source it leads to. -/
theorem leanTimersLegal_onValid {x : Sensors} (h : leanTimersLegal x) (hold lost : Nat) (t : Millis) :
    leanTimersLegal (sourceOnValid hold lost t x) := by
  unfold sourceOnValid
  split
  · rename_i hs
    obtain ⟨-, -, hcount⟩ := (leanTimersLegal_live hs).mp h
    exact (leanTimersLegal_live (by exact hs)).mpr ⟨nofun, nofun, hcount⟩
  · rename_i hs
    obtain ⟨-, -, hcount⟩ := (leanTimersLegal_held hs).mp h
    exact (leanTimersLegal_live rfl).mpr ⟨nofun, nofun, hcount⟩
  · rename_i hs
    obtain ⟨-, hlost, -⟩ := (leanTimersLegal_lost hs).mp h
    exact (leanTimersLegal_recovering rfl).mpr ⟨nofun, hlost, Nat.le_add_left 1 2⟩
  · rename_i hs
    obtain ⟨-, hlost, -⟩ := (leanTimersLegal_recovering hs).mp h
    split
    · rename_i hbelow
      exact (leanTimersLegal_recovering (by exact hs)).mpr ⟨nofun, hlost, hbelow⟩
    · exact (leanTimersLegal_live rfl).mpr ⟨nofun, nofun, rfl⟩

/-- R26: an invalid one moves no timer. -/
theorem leanTimersLegal_onInvalid {x : Sensors} (h : leanTimersLegal x) : leanTimersLegal (sourceOnInvalid x) := by
  unfold sourceOnInvalid
  split
  · rename_i hs
    obtain ⟨hhold, hlost, -⟩ := (leanTimersLegal_recovering hs).mp h
    exact (leanTimersLegal_recovering (by exact hs)).mpr ⟨hhold, hlost, Nat.zero_le 3⟩
  all_goals exact h

/-- The hold timer runs in LIVE and RECOVERING only (R25, R27). -/
theorem holdTimer_stopped {x : Sensors} (h : leanTimersLegal x) (hs : x.source = .held ∨ x.source = .lost) :
    x.holdTimer = none := by
  rcases hs with e | e
  · exact ((leanTimersLegal_held e).mp h).1
  · exact ((leanTimersLegal_lost e).mp h).1

/-- The lost timer runs in LIVE and HELD only (R25, R28). -/
theorem lostTimer_stopped {x : Sensors} (h : leanTimersLegal x) (hs : x.source = .recovering ∨ x.source = .lost) :
    x.lostTimer = none := by
  rcases hs with e | e
  · obtain ⟨-, hlost, -⟩ := (leanTimersLegal_recovering e).mp h
    exact hlost
  · obtain ⟨-, hlost, -⟩ := (leanTimersLegal_lost e).mp h
    exact hlost

/-- R28: entry into LOST stops both timers. -/
theorem leanTimersLegal_entersLost (x : Sensors) :
    leanTimersLegal { x with source := .lost, recoveryCount := 0, holdTimer := none, lostTimer := none } :=
  (leanTimersLegal_lost rfl).mpr ⟨rfl, rfl, rfl⟩

/-- R24 to R28, R35: every step keeps the timers of the lean source and the expired brake record. -/
theorem TimersAgree.move {k u : State} (h : TimersAgree k.sensors) (m : Move k u) : TimersAgree u.sensors := by
  have hlean := h.lean
  have same : ∀ x : Sensors, x.source = k.sensors.source → x.recoveryCount = k.sensors.recoveryCount →
      x.holdTimer = k.sensors.holdTimer → x.lostTimer = k.sensors.lostTimer → leanTimersLegal x :=
    fun _ => leanTimersLegal_congr hlean
  cases m with
  | imuBad x =>
    refine ⟨leanTimersLegal_onInvalid (same { k.sensors with lastCounters := x } rfl rfl rfl rfl), ?_⟩
    rw [sourceOnInvalid_eq]
    exact h.brake
  | imu l p x hold lost t =>
    rw [lookupRefresh_sensors]
    refine ⟨leanTimersLegal_onValid (same { k.sensors with imuLean := l, imuPitch := p, lastCounters := x } rfl rfl rfl rfl)
      _ _ _, ?_⟩
    rw [sourceOnValid_frame]
    exact h.brake
  | wheel =>
    rw [requestPass_sensors]
    exact ⟨same _ rfl rfl rfl rfl, h.brake⟩
  | brake => exact ⟨same _ rfl rfl rfl rfl, nofun⟩
  | held hs =>
    rw [lookupRefresh_sensors]
    obtain ⟨-, hlost, hcount⟩ := (leanTimersLegal_live hs).mp hlean
    exact ⟨(leanTimersLegal_held rfl).mpr ⟨rfl, hlost, hcount⟩, h.brake⟩
  | lost =>
    rw [lookupRefresh_sensors]
    exact ⟨leanTimersLegal_entersLost _, h.brake⟩
  | holdStops hs => exact ⟨same _ rfl rfl (holdTimer_stopped hlean hs).symm rfl, h.brake⟩
  | lostStops hs => exact ⟨same _ rfl rfl rfl (lostTimer_stopped hlean hs).symm, h.brake⟩
  | brakeStops => exact ⟨same _ rfl rfl rfl rfl, fun _ => ⟨rfl, rfl⟩⟩
  | pass p o _ =>
    rw [(pass_keeps p o k).sensors]
    exact h
  | restart | hardReset => exact ⟨leanTimersLegal_entersLost resetSensors, fun _ => ⟨rfl, rfl⟩⟩
  | _ => exact ⟨same _ rfl rfl rfl rfl, h.brake⟩

theorem LivenessLegal.refresh {k : State} (h : LivenessLegal k) : LivenessLegal (lookupRefresh k) := by
  unfold lookupRefresh
  split
  · exact ⟨h.wheel, h.status⟩
  · exact h

/-- R104, R116: every step keeps the liveness with the wheel timer, and the status timer running; the build's end starts
both timers with the liveness as a reset left it (R174). -/
theorem LivenessLegal.move {k u : State} (h : LivenessLegal k) (hb : k.phase = .building → k.ctl = State.reset.ctl)
    (m : Move k u) : LivenessLegal u := by
  cases m with
  | imuBad =>
    rw [sourceOnInvalid_eq]
    exact ⟨h.wheel, h.status⟩
  | imu =>
    rw [sourceOnValid_frame]
    refine LivenessLegal.refresh ?_
    exact ⟨h.wheel, h.status⟩
  | held | lost =>
    refine LivenessLegal.refresh ?_
    exact ⟨h.wheel, h.status⟩
  | wheel =>
    refine ⟨fun _ => ?_, ?_⟩
    · rw [requestPass_ctl, requestPass_sensors]
      exact ⟨nofun, fun _ => rfl⟩
    · rw [requestPass_phase, requestPass_ctl]
      exact h.status
  | wheelStops | passive => exact ⟨fun _ => ⟨nofun, fun hw => absurd rfl hw⟩, h.status⟩
  | status => exact ⟨h.wheel, fun _ => nofun⟩
  | pass p o _ =>
    have hp := pass_keeps p o k
    refine ⟨?_, ?_⟩
    · rw [hp.phase, hp.liveness, hp.sensors]
      exact h.wheel
    · rw [hp.phase, hp.status]
      exact h.status
  | restart => exact ⟨fun _ => ⟨nofun, fun _ => rfl⟩, fun _ => nofun⟩
  | hardReset => exact ⟨nofun, nofun⟩
  | built t hp =>
    refine ⟨fun _ => ⟨nofun, fun _ => ?_⟩, fun _ => nofun⟩
    exact congrArg Control.liveness (hb hp)
  | _ => exact ⟨h.wheel, h.status⟩

/-- Settles O10: both invariants go through the list of `Move`. -/
theorem timersAgreeWithTheirRecords : Obligations.TimersAgreeWithTheirRecords := by
  unfold Obligations.TimersAgreeWithTheirRecords
  constructor
  · intro s t h hstep
    rw [timersLegal_iff] at h ⊢
    exact TimersAgree.move (k := s.blocks) (u := t.blocks) h (step_moves hstep)
  · intro s t hs h hstep
    have hmove := LivenessLegal.move (k := s.blocks) ⟨h.wheel, h.status⟩ (fun hp => (hs.building hp).2) (step_moves hstep)
    exact ⟨hmove.wheel, hmove.status⟩

end Sys2Proof.Machine

/-!
The sensor record unit event by event (R21 to R37, R113), what a lookup refresh writes (R71, R72), and the expiry of each of its
timers with the control state unit's part in the wheel's (R27, R28, R33, R35, R104, R107).
-/

namespace Sys2Proof.Machine

/-! ### The lookup refresh (R71, R72) -/

theorem lookupRefresh_standby {s : State} (h : s.ctl.state = .start ∨ s.ctl.state = .passive) :
    lookupRefresh s = { s with eval := { s.eval with
      record := refreshedRecord s.eval.record s.leanUsed
        (gripLookup s.banks.active s.ctl.mode s.ctl.load s.leanUsed.natAbs) } } :=
  if_pos h

theorem lookupRefresh_of_not_standby {s : State} (h : ¬ (s.ctl.state = .start ∨ s.ctl.state = .passive)) :
    lookupRefresh s = s := if_neg h

/-- Settles O23, lean source by lean source and by the control state. -/
theorem refreshWritesOnlyTheLookup : Obligations.RefreshWritesOnlyTheLookup := by
  unfold Obligations.RefreshWritesOnlyTheLookup
  refine ⟨fun s => ⟨?_, ?_, fun h => ?_⟩, fun s => ⟨lookupRefresh_standby, fun h => lookupRefresh_of_not_standby ?_⟩⟩
  · unfold State.leanUsed
    cases s.sensors.source <;> rfl
  · unfold State.pitchUsed
    cases s.sensors.source <;> rfl
  · have hrange := leanUsed_range h
    omega
  · rcases h with h | h | h <;> simp [h]

/-! ### Frames that are read and forwarded (R4, R21) -/

/-- A frame forwarded leaves all but the queues and the management unit. -/
theorem forwardPlain_frame (p : Port) (f : Frame) (k : Bool) (s : State) : ∃ up act m,
    place p.other (plainContent f) .plain k s = { s with upstream := up, actuator := act, mgmt := m } :=
  ⟨_, _, _, (place_onlySent p.other (plainContent f) .plain k s).frame⟩

/-- R22: when an IMU frame with a right check is valid. -/
theorem imuValid_iff (d : List Byte) (last : Option Counter) : imuValid d last = true ↔
    (byteAt d 4).getLsbD 7 = true ∧ last ≠ some (counterAt d 4) ∧ (signedAt d 0).natAbs ≤ 900 := by
  simp [imuValid, and_assoc]

/-- R31: when a wheel frame with a right check is valid. -/
theorem wheelValid_iff (d : List Byte) (last : Option Counter) : wheelValid d last = true ↔
    last ≠ some (counterAt d 4) ∧ (byteAt d 4).getLsbD 7 = true ∧ (byteAt d 4).getLsbD 6 = true ∧
      unsignedAt d 0 ≠ 65535 ∧ unsignedAt d 2 ≠ 65535 := by
  simp [wheelValid, and_assoc]

/-- R22, R23, R25: a valid IMU arrival. -/
theorem imuArrival_valid {d : List Byte} {s : State} {t : Millis} (hc : checkRight 6 d = true)
    (hv : imuValid d s.sensors.lastCounters.imu = true) :
    imuArrival d t s = imuAccept d t (s.withSensors (s.sensors.noteImu (counterAt d 4))) := by
  unfold imuArrival
  rw [if_pos (show checkRight sensorLength d = true from hc)]
  exact if_pos hv

/-- R26: an invalid IMU arrival; the counter is kept when the check is right (R21). -/
theorem imuArrival_invalid {d : List Byte} {s : State} {t : Millis}
    (h : checkRight 6 d = false ∨ imuValid d s.sensors.lastCounters.imu = false) :
    imuArrival d t s = s.withSensors
      (sourceOnInvalid (if checkRight 6 d then s.sensors.noteImu (counterAt d 4) else s.sensors)) := by
  unfold imuArrival
  cases hc : checkRight 6 d with
  | false => exact if_neg (by simp [hc, sensorLength])
  | true =>
    have hv : imuValid d s.sensors.lastCounters.imu = false := by simpa [hc] using h
    rw [if_pos (show checkRight sensorLength d = true from hc)]
    exact if_neg (by simp [hv])

/-- Settles O24: the frame goes on, and the arrival's equation gives the record and the lean source. -/
theorem imuFramesMoveTheLeanSource : Obligations.ImuFramesMoveTheLeanSource := by
  unfold Obligations.ImuFramesMoveTheLeanSource
  constructor
  · intro p f t s k h hc hflag hcount hlean x hold lost y
    have hv := (imuValid_iff _ _).mpr ⟨hflag, hcount, hlean⟩
    rw [exec_classified h]
    show Host.Outcome.next (imuArrival f.data t (place p.other (plainContent (takenFrame f)) .plain k s)) = _
    obtain ⟨up, act, m, e⟩ := forwardPlain_frame p (takenFrame f) k s
    rw [e, imuArrival_valid (s := { s with upstream := up, actuator := act, mgmt := m }) hc hv]
    rfl
  · intro p f t s k h hbad
    have hinvalid : checkRight 6 f.data = false ∨ imuValid f.data s.sensors.lastCounters.imu = false := by
      rw [← Bool.not_eq_true (imuValid _ _), imuValid_iff]
      simp only [← Bool.not_eq_true, ← Nat.not_le] at hbad ⊢
      tauto
    rw [exec_classified h]
    show Host.Outcome.next (imuArrival f.data t (place p.other (plainContent (takenFrame f)) .plain k s)) = _
    obtain ⟨up, act, m, e⟩ := forwardPlain_frame p (takenFrame f) k s
    rw [e, imuArrival_invalid (s := { s with upstream := up, actuator := act, mgmt := m }) hinvalid, sourceOnInvalid_eq]
    cases checkRight 6 f.data <;> rfl

/-- R32, R39: a valid wheel arrival. -/
theorem wheelArrival_valid {d : List Byte} {s : State} {t : Millis} (hc : checkRight 6 d = true)
    (hv : wheelValid d s.sensors.lastCounters.wheel = true) :
    wheelArrival d t s = wheelAccept d t (s.withSensors (s.sensors.noteWheel (counterAt d 4))) := by
  unfold wheelArrival
  rw [if_pos (show checkRight sensorLength d = true from hc)]
  exact if_pos hv

/-- R31: an invalid wheel arrival leaves all but the last counter, kept when the check is right (R21). -/
theorem wheelArrival_invalid {d : List Byte} {s : State} {t : Millis}
    (h : checkRight 6 d = false ∨ wheelValid d s.sensors.lastCounters.wheel = false) :
    wheelArrival d t s = s.withSensors (if checkRight 6 d then s.sensors.noteWheel (counterAt d 4) else s.sensors) := by
  unfold wheelArrival
  cases hc : checkRight 6 d with
  | false => exact if_neg (by simp [hc, sensorLength])
  | true =>
    have hv : wheelValid d s.sensors.lastCounters.wheel = false := by simpa [hc] using h
    rw [if_pos (show checkRight sensorLength d = true from hc)]
    exact if_neg (by simp [hv])

/-- R39, R40, R41: a pass asked for begins, or is held as the waiting request while one is in flight. -/
theorem requestPass_eq (s : State) : requestPass s = { s with eval := match s.eval.inFlight with
    | none => { s.eval with
        inFlight := some { inputs := captureInputs s, ctl := s.ctl.state, mode := s.ctl.mode, load := s.ctl.load,
                           vref := s.eval.vref, cut := s.eval.cut, relief := s.eval.relief, marker := s.eval.marker } }
    | some _ => { s.eval with waiting := some (captureInputs s) } } := by
  unfold requestPass
  cases s.eval.inFlight <;> rfl

/-- Settles O25: the frame goes on, and the arrival's equation gives the record and the pass. -/
theorem wheelFramesAskForAPass : Obligations.WheelFramesAskForAPass := by
  unfold Obligations.WheelFramesAskForAPass
  constructor
  · intro p f t s k h hc hcount hfront hrear hvf hvr inputs pass
    have hv := (wheelValid_iff _ _).mpr ⟨hcount, hfront, hrear, hvf, hvr⟩
    rw [exec_classified h]
    show Host.Outcome.next (wheelArrival f.data t (place p.other (plainContent (takenFrame f)) .plain k s)) = _
    obtain ⟨up, act, m, e⟩ := forwardPlain_frame p (takenFrame f) k s
    rw [e, wheelArrival_valid (s := { s with upstream := up, actuator := act, mgmt := m }) hc hv]
    unfold wheelAccept
    rw [requestPass_eq]
    rfl
  · intro p f t s k h hbad
    have hinvalid : checkRight 6 f.data = false ∨ wheelValid f.data s.sensors.lastCounters.wheel = false := by
      rw [← Bool.not_eq_true (wheelValid _ _), wheelValid_iff]
      simp only [← Bool.not_eq_true] at hbad ⊢
      tauto
    rw [exec_classified h]
    show Host.Outcome.next (wheelArrival f.data t (place p.other (plainContent (takenFrame f)) .plain k s)) = _
    obtain ⟨up, act, m, e⟩ := forwardPlain_frame p (takenFrame f) k s
    rw [e, wheelArrival_invalid (s := { s with upstream := up, actuator := act, mgmt := m }) hinvalid]
    cases checkRight 6 f.data <;> rfl

/-- R113: a ride mode that is handed on becomes the pending one. -/
theorem handRideMode_eq (s : State) (m : Option RideMode) :
    s.handRideMode m = { s with ctl := { s.ctl with pendingMode := m.or s.ctl.pendingMode } } := by
  cases m <;> rfl

theorem handLoadState_eq (s : State) (l : Option LoadState) :
    s.handLoadState l = { s with ctl := { s.ctl with pendingLoad := l.or s.ctl.pendingLoad } } := by
  cases l <;> rfl

/-- R21, R37, R113: a ride-mode arrival with a right check. -/
theorem rideModeArrival_eq {d : List Byte} (s : State) (hc : checkRight 3 d = true) : rideModeArrival d s =
    { s with
      sensors := s.sensors.noteRideMode (counterAt d 1),
      ctl := if s.sensors.lastCounters.rideMode = some (counterAt d 1) then s.ctl
        else { s.ctl with pendingMode := (rideModeOf (byteAt d 0).toNat).or s.ctl.pendingMode } } := by
  unfold rideModeArrival
  rw [if_pos (show checkRight valueLength d = true from hc)]
  dsimp only
  split
  · rfl
  · rw [handRideMode_eq]
    rfl

theorem loadStateArrival_eq {d : List Byte} (s : State) (hc : checkRight 3 d = true) : loadStateArrival d s =
    { s with
      sensors := s.sensors.noteLoadState (counterAt d 1),
      ctl := if s.sensors.lastCounters.loadState = some (counterAt d 1) then s.ctl
        else { s.ctl with pendingLoad := (loadStateOf (byteAt d 0).toNat).or s.ctl.pendingLoad } } := by
  unfold loadStateArrival
  rw [if_pos (show checkRight valueLength d = true from hc)]
  dsimp only
  split
  · rfl
  · rw [handLoadState_eq]
    rfl

/-- R37: values 0 to 3 name a ride mode, and no other value does. -/
theorem rideModeOf_or (n : Nat) (m : Option RideMode) : (rideModeOf n).or m =
    (match n with | 0 => some .rain | 1 => some .road | 2 => some .tour | 3 => some .dynamic | _ => m) := by
  rcases n with _ | _ | _ | _ | n <;> rfl

theorem loadStateOf_or (n : Nat) (l : Option LoadState) : (loadStateOf n).or l =
    (match n with | 0 => some .solo | 1 => some .soloLuggage | 2 => some .pair | 3 => some .pairLuggage | _ => l) := by
  rcases n with _ | _ | _ | _ | n <;> rfl

/-- Settles O26: the frame goes on, and the arrival's equation gives the pending value. -/
theorem rideModeAndLoadArePending : Obligations.RideModeAndLoadArePending := by
  unfold Obligations.RideModeAndLoadArePending
  intro p f t s k c sent
  obtain ⟨up, act, m, e⟩ := forwardPlain_frame p (takenFrame f) k s
  refine ⟨fun h => ?_, fun h => ?_⟩
  · rw [exec_classified h]
    show Host.Outcome.next (rideModeArrival f.data sent) = _
    cases hc : checkRight 3 f.data with
    | false => exact congrArg _ (if_neg (by simp [hc, valueLength]))
    | true =>
      simp only [sent]
      rw [rideModeArrival_eq _ hc, rideModeOf_or, e]
      rfl
  · rw [exec_classified h]
    show Host.Outcome.next (loadStateArrival f.data sent) = _
    cases hc : checkRight 3 f.data with
    | false => exact congrArg _ (if_neg (by simp [hc, valueLength]))
    | true =>
      simp only [sent]
      rw [loadStateArrival_eq _ hc, loadStateOf_or, e]
      rfl

/-! ### Expiries (R27, R28, R33, R35) -/

/-- Log 3: when a timer's expiry may be taken. -/
theorem timerDue_iff (timer : Option Millis) (t : Millis) : timerDue timer t = true ↔ ∃ d, timer = some d ∧ d ≤ t := by
  cases timer <;> simp [timerDue]

theorem timerDue_of_le {timer : Option Millis} {d t : Millis} (h : timer = some d) (hd : d ≤ t) : timerDue timer t = true :=
  (timerDue_iff timer t).mpr ⟨d, h, hd⟩

theorem not_timerDue {timer : Option Millis} {d t : Millis} (h : timer = none ∨ timer = some d ∧ t < d) :
    ¬ timerDue timer t = true := by
  intro hdue
  obtain ⟨d', hd', hle⟩ := (timerDue_iff timer t).mp hdue
  rcases h with h | ⟨h, hlt⟩
  · rw [h] at hd'
    cases hd'
  · obtain rfl := Option.some.inj (h.symm.trans hd')
    exact absurd hle (not_le.mpr hlt)

/-- R27: the hold timer's expiry in LIVE. -/
theorem holdExpiry_live {s : State} (h : s.sensors.source = .live) :
    holdExpiry s = lookupRefresh (s.withSensors { s.sensors with source := .held, holdTimer := none }) := by
  unfold holdExpiry
  rw [h]

/-- R27: the hold timer's expiry in RECOVERING. -/
theorem holdExpiry_recovering {s : State} (h : s.sensors.source = .recovering) : holdExpiry s = enterLost s := by
  unfold holdExpiry
  rw [h]

/-- R28: the lost timer's expiry. -/
theorem lostExpiry_running {s : State} (h : s.sensors.source = .live ∨ s.sensors.source = .held) :
    lostExpiry s = enterLost s := by
  unfold lostExpiry
  rcases h with h | h <;> rw [h]

/-- Settles O27: an expiry is taken exactly when its timer is due, and its equation in the present source says the rest. -/
theorem sensorTimersExpire : Obligations.SensorTimersExpire := by
  unfold Obligations.SensorTimersExpire
  constructor
  · intro t d s gone
    refine ⟨fun hrun hdue => ⟨fun hs => ?_, fun hs => ?_⟩, fun hrun hdue hs => ?_, fun h => ?_, fun h => ?_⟩
    · exact congrArg _ ((if_pos (timerDue_of_le hrun hdue)).trans (holdExpiry_live hs))
    · exact congrArg _ ((if_pos (timerDue_of_le hrun hdue)).trans (holdExpiry_recovering hs))
    · exact congrArg _ ((if_pos (timerDue_of_le hrun hdue)).trans (lostExpiry_running hs))
    · exact congrArg _ (if_neg (not_timerDue h))
    · exact congrArg _ (if_neg (not_timerDue h))
  · intro t d s hrun
    exact ⟨fun hdue => congrArg _ (if_pos (timerDue_of_le hrun hdue)),
      fun hlt => congrArg _ (if_neg (not_timerDue (.inr ⟨hrun, hlt⟩)))⟩

/-- The wheel timer stopped and the liveness expired (R33, R104). -/
def wheelStopped (s : State) : State :=
  { s with sensors := { s.sensors with wheelTimer := none }, ctl := { s.ctl with liveness := .expired } }

/-- R107: the wheel timer's expiry in START. -/
theorem wheelExpiry_start {s : State} (h : s.ctl.state = .start) : wheelExpiry s = enterPassive (wheelStopped s) := by
  unfold wheelExpiry
  rw [h]
  rfl

/-- R107: the wheel timer's expiry in ACTIVE and ROLLER. -/
theorem wheelExpiry_moving {s : State} (h : s.ctl.state = .active ∨ s.ctl.state = .roller) :
    wheelExpiry s = raiseCondition .wheelTimeout (enterPassive (wheelStopped s)) := by
  unfold wheelExpiry
  rcases h with h | h <;> rw [h] <;> rfl

/-- R107: the wheel timer's expiry in LIMP. -/
theorem wheelExpiry_limp {s : State} (h : s.ctl.state = .limp) :
    wheelExpiry s = raiseCondition .wheelTimeout (wheelStopped s) := by
  unfold wheelExpiry
  rw [h]
  rfl

/-- Settles O39: the expiry is taken exactly when the timer is due, and the control state says the rest. -/
theorem wheelTimeoutBringsPassive : Obligations.WheelTimeoutBringsPassive := by
  unfold Obligations.WheelTimeoutBringsPassive
  intro t d s hrun r stopped passive
  refine ⟨fun hlt => congrArg _ (if_neg (not_timerDue (.inr ⟨hrun, hlt⟩))), fun hdue => ?_⟩
  have htaken : exec (.wheelTimeout t) s = .next (wheelExpiry s) := congrArg _ (if_pos (timerDue_of_le hrun hdue))
  rw [htaken]
  exact ⟨fun hs => congrArg _ (wheelExpiry_start hs), fun hs => congrArg _ (wheelExpiry_moving hs),
    fun hs => congrArg _ (wheelExpiry_limp hs)⟩

end Sys2Proof.Machine

/-!
The control state at a completion (R106, R110 to R112), and START and PASSIVE through every step (R40, R47, R106, R107).
-/

namespace Sys2Proof.Machine

/-! ### The control state at a completion (R106, R110 to R112) -/

/-- The control states that hold no cut and no relief (R106, R107). -/
def CtlState.Standby (c : CtlState) : Prop := c = .start ∨ c = .passive

theorem not_standby_active : ¬ CtlState.active.Standby := by rintro (h | h) <;> cases h

theorem not_standby_limp : ¬ CtlState.limp.Standby := by rintro (h | h) <;> cases h

theorem not_standby_roller : ¬ CtlState.roller.Standby := by rintro (h | h) <;> cases h

/-- R106, R110: the control state unit's transition leaves a state, or leads to ACTIVE. -/
theorem controlState_state (k : State) : (controlState k).ctl.state = .active ∨
    (controlState k).ctl.state = k.ctl.state ∧ ¬ k.ctl.state.Standby := by
  unfold controlState
  split
  · exact .inl rfl
  · exact .inl rfl
  · exact .inl ‹_›
  · rename_i hroller
    split
    · exact .inl rfl
    · exact .inr ⟨rfl, hroller ▸ not_standby_roller⟩
  · rename_i hlimp
    exact .inr ⟨rfl, hlimp ▸ not_standby_limp⟩

/-- R114: the pending values leave the control state. -/
theorem controlMoves_state (q : Int) (k : State) : (controlMoves q k).ctl.state = (controlState k).ctl.state := by
  unfold controlMoves
  dsimp only
  split <;> rfl

/-- R106: a completion taken by the control state unit ends START and PASSIVE. -/
theorem controlMoves_not_standby (q : Int) (k : State) : ¬ (controlMoves q k).ctl.state.Standby := by
  rw [controlMoves_state]
  rcases controlState_state k with h | ⟨h, hk⟩ <;> rw [h]
  · exact not_standby_active
  · exact hk

/-- R111, R146: the comparison at a plane's end leaves the control state, or leads to LIMP. -/
theorem compareMove_state (p : PlaneId) (sums : CheckPair) (k : State) :
    (compareMove p sums k).ctl.state = k.ctl.state ∨ (compareMove p sums k).ctl.state = .limp := by
  unfold compareMove
  split
  · exact .inl rfl
  · split
    · exact .inl rfl
    · split
      · exact .inl rfl
      · unfold faultyMove
        dsimp only
        split
        · exact .inr rfl
        · exact .inl rfl

/-- R106, R110 to R112, R146: a block that takes a completion leaves the control state, or leads to ACTIVE or LIMP. -/
theorem blockMoves_state (q : Int) (k : State) (c : CompletionBlock) : (blockMoves q k c).ctl.state = k.ctl.state ∨
    (blockMoves q k c).ctl.state = .active ∨ (blockMoves q k c).ctl.state = .limp := by
  cases c with
  | controlStateUnit =>
    show (controlMoves q k).ctl.state = _ ∨ (controlMoves q k).ctl.state = _ ∨ _
    rw [controlMoves_state]
    rcases controlState_state k with h | ⟨h, -⟩
    · exact .inr (.inl h)
    · exact .inl h
  | mapBanks =>
    show (banksMove k).ctl.state = _ ∨ (banksMove k).ctl.state = _ ∨ _
    rcases banksMove_cases k with h | h <;> rw [h]
    · exact .inl rfl
    · unfold swapBanks
      dsimp only
      split
      · exact .inr (.inl rfl)
      · exact .inl rfl
  | scrubUnit =>
    show (scrubMoves k).ctl.state = _ ∨ (scrubMoves k).ctl.state = _ ∨ (scrubMoves k).ctl.state = _
    unfold scrubMoves
    split
    · exact .inl rfl
    · dsimp only
      split
      · exact .inl rfl
      · exact (compareMove_state _ _ _).imp_right .inr

/-- A property of the control state that ACTIVE and LIMP have is kept by the blocks. -/
theorem blockMoves_state_induction {P : CtlState → Prop} (hactive : P .active) (hlimp : P .limp) (q : Int)
    (l : List CompletionBlock) {k : State} (h : P k.ctl.state) : P (l.foldl (blockMoves q) k).ctl.state := by
  refine List.foldlRecOn (motive := fun u : State => P u.ctl.state) l _ h fun u hu c _ => ?_
  rcases blockMoves_state q u c with e | e | e <;> rw [e]
  · exact hu
  · exact hactive
  · exact hlimp

theorem controlStateUnit_mem (o : TakeOrder) : .controlStateUnit ∈ o.blocks := by cases o <;> decide

/-- R54, R106: whatever the order of the blocks, a completion ends START and PASSIVE. -/
theorem completion_not_standby (o : TakeOrder) (q : Int) (k : State) :
    ¬ (o.blocks.foldl (blockMoves q) k).ctl.state.Standby := by
  obtain ⟨pre, post, h⟩ := List.append_of_mem (controlStateUnit_mem o)
  rw [h, List.foldl_append, List.foldl_cons]
  exact blockMoves_state_induction (P := fun c => ¬ c.Standby) not_standby_active not_standby_limp q post
    (controlMoves_not_standby q _)

/-! ### START and PASSIVE through every step (R40, R47, R106, R107) -/

/-- R71, R72: a refresh writes neither the cut nor the relief. -/
theorem StandbyLegal.refresh {k : State} (h : StandbyLegal k) : StandbyLegal (lookupRefresh k) := by
  unfold lookupRefresh
  split
  · exact ⟨h.standby, h.waiting⟩
  · exact h

/-- R39, R40: a request waits only where it finds a pass in flight. -/
theorem StandbyLegal.request {k : State} (h : StandbyLegal k) : StandbyLegal (requestPass k) := by
  unfold requestPass
  split
  · exact ⟨h.standby, nofun⟩
  · rename_i hflight
    exact ⟨h.standby, fun hnone => absurd (hflight.symm.trans hnone) nofun⟩

/-- R40, R54: after a completion no request is left waiting. -/
theorem beginWaiting_waiting (k : State) : (beginWaiting k).eval.waiting = none := by
  unfold beginWaiting
  split
  · assumption
  · rfl

@[simp] theorem beginWaiting_ctl (k : State) : (beginWaiting k).ctl = k.ctl := by
  unfold beginWaiting
  split <;> rfl

/-- R47, R106, R107: every step keeps the marker and the absence of cut and relief in START and PASSIVE; a build that ends
finds the evaluation unit as a reset left it. -/
theorem StandbyLegal.move {k u : State} (h : StandbyLegal k) (hb : k.phase = .building → k.eval = State.reset.eval)
    (m : Move k u) : StandbyLegal u := by
  cases m with
  | imu | held | lost =>
    refine StandbyLegal.refresh ?_
    exact ⟨h.standby, h.waiting⟩
  | wheel =>
    refine StandbyLegal.request ?_
    exact ⟨h.standby, h.waiting⟩
  | passive => exact ⟨fun _ => ⟨rfl, rfl, rfl, rfl, rfl⟩, h.waiting⟩
  | pass p o _ =>
    refine ⟨fun hstandby => ?_, fun _ => beginWaiting_waiting _⟩
    rw [beginWaiting_ctl] at hstandby
    exact absurd hstandby (completion_not_standby o _ _)
  | roller => exact ⟨fun hstandby => absurd hstandby not_standby_roller, h.waiting⟩
  | rollerLeft => exact ⟨fun hstandby => absurd hstandby not_standby_active, h.waiting⟩
  | restart | hardReset => exact ⟨fun _ => ⟨rfl, rfl, rfl, rfl, rfl⟩, fun _ => rfl⟩
  | built t hp =>
    have he := hb hp
    exact ⟨fun _ => ⟨congrArg Eval.marker he, congrArg Eval.cut he, congrArg Eval.relief he, rfl, rfl⟩,
      fun _ => congrArg Eval.waiting he⟩
  | _ => exact ⟨h.standby, h.waiting⟩

/-- Settles O11, through the list of `Move`. -/
theorem standbyHoldsNoCut : Obligations.StandbyHoldsNoCut := by
  unfold Obligations.StandbyHoldsNoCut
  intro s t hs h hstep
  have hmove := StandbyLegal.move (k := s.blocks) ⟨h.standby, h.waiting⟩ (fun hp => (hs.building hp).1) (step_moves hstep)
  exact ⟨hmove.standby, hmove.waiting⟩

end Sys2Proof.Machine

/-!
The completion of a pass (R40, R52 to R54): what it leaves of the evaluation unit, of the control state and of the rest of the
part, and, over an intact bank, that the order of the three blocks does not show (R147).
-/

namespace Sys2Proof.Machine

/-! ### What a completion leaves as it is (R52 to R54) -/

/-- What the three blocks leave as it is while no activation is pending, beside what they always leave. -/
structure CompletionKeeps (s u : State) : Prop extends PassKeeps s u where
  eval     : u.eval = s.eval
  ack      : u.ack = s.ack
  store    : u.store = s.store
  staging  : u.banks.staging = s.banks.staging
  window   : u.banks.window = s.banks.window
  pending  : u.banks.activationPending = s.banks.activationPending
  requests : u.mgmt.requests = s.mgmt.requests
  enabled  : u.mgmt.enabled = s.mgmt.enabled
  causes   : u.mgmt.causes = s.mgmt.causes

theorem CompletionKeeps.refl (s : State) : CompletionKeeps s s :=
  ⟨⟨rfl, rfl, rfl, rfl⟩, rfl, rfl, rfl, rfl, rfl, rfl, rfl, rfl, rfl⟩

theorem CompletionKeeps.trans {s u v : State} (h : CompletionKeeps s u) (h' : CompletionKeeps u v) : CompletionKeeps s v :=
  ⟨⟨h'.phase.trans h.phase, h'.sensors.trans h.sensors, h'.liveness.trans h.liveness, h'.status.trans h.status⟩,
    h'.eval.trans h.eval, h'.ack.trans h.ack, h'.store.trans h.store, h'.staging.trans h.staging, h'.window.trans h.window,
    h'.pending.trans h.pending, h'.requests.trans h.requests, h'.enabled.trans h.enabled, h'.causes.trans h.causes⟩

theorem CompletionKeeps.of_onlySent {s u : State} (h : OnlySent s u) : CompletionKeeps s u :=
  ⟨⟨h.phase, h.sensors, by rw [h.ctl], by rw [h.ctl]⟩, h.eval, h.ack, h.store, by rw [h.banks], by rw [h.banks],
    by rw [h.banks], h.requests, h.enabled, h.causes⟩

theorem CompletionKeeps.raise {s u : State} (h : CompletionKeeps s u) (c : Condition) :
    CompletionKeeps s (raiseCondition c u) := h.trans (.of_onlySent (raiseCondition_onlySent c u))

theorem CompletionKeeps.withCtl (s : State) (c : CtlState) : CompletionKeeps s (s.withCtl c) :=
  ⟨⟨rfl, rfl, rfl, rfl⟩, rfl, rfl, rfl, rfl, rfl, rfl, rfl, rfl, rfl⟩

theorem CompletionKeeps.withActive (s : State) (b : Bank) : CompletionKeeps s (s.withActive b) :=
  ⟨⟨rfl, rfl, rfl, rfl⟩, rfl, rfl, rfl, rfl, rfl, rfl, rfl, rfl, rfl⟩

theorem CompletionKeeps.withScrub (s : State) (x : Scrub) : CompletionKeeps s (s.withScrub x) :=
  ⟨⟨rfl, rfl, rfl, rfl⟩, rfl, rfl, rfl, rfl, rfl, rfl, rfl, rfl, rfl⟩

/-- R106, R110, R114: the control state unit writes its own block and may raise ROLLER_EXIT. -/
theorem controlTakes_keeps (q : Int) (s : State) : CompletionKeeps s (controlTakes q s) := by
  have htransition : CompletionKeeps s (controlTransition s) := by
    unfold controlTransition
    split
    · exact .withCtl s _
    · exact .withCtl s _
    · exact .refl s
    · split
      · exact (CompletionKeeps.withCtl s _).raise _
      · exact .refl s
    · exact .refl s
  refine htransition.trans ?_
  unfold controlTakes applyPending
  split
  · exact ⟨⟨rfl, rfl, rfl, rfl⟩, rfl, rfl, rfl, rfl, rfl, rfl, rfl, rfl, rfl⟩
  · exact .refl _

/-- R144 to R146: the comparison at a plane's end writes the active bank and, for a LIMP plane, the control state. -/
theorem comparePlane_keeps (p : PlaneId) (sums : CheckPair) (s : State) : CompletionKeeps s (comparePlane p sums s) := by
  unfold comparePlane
  split
  · exact .refl s
  · split
    · exact .refl s
    · split
      · exact (CompletionKeeps.withActive s _).raise _
      · refine CompletionKeeps.raise ?_ _
        dsimp only
        split
        · exact (CompletionKeeps.withActive s _).trans (.withCtl _ _)
        · exact .withActive s _

/-- R143: a scrub step writes its own block beside. -/
theorem scrubTakes_keeps (s : State) : CompletionKeeps s (scrubTakes s) := by
  unfold scrubTakes
  split
  · exact .refl s
  · dsimp only
    split
    · exact .withScrub s _
    · exact (CompletionKeeps.withScrub s _).trans (comparePlane_keeps _ _ _)

/-- R137: without an activation pending the map banks do nothing. -/
theorem banksTake_not_pending {s : State} (h : s.banks.activationPending = false) : banksTake s = s := by
  unfold banksTake
  rw [h]
  rfl

theorem blocksTake_keeps {s : State} (h : s.banks.activationPending = false) (o : TakeOrder) (q : Int) :
    CompletionKeeps s (blocksTake o q s) := by
  refine List.foldlRecOn (motive := fun u : State => CompletionKeeps s u) o.blocks _ (.refl s) fun u hu c _ => ?_
  cases c with
  | controlStateUnit => exact hu.trans (controlTakes_keeps q u)
  | mapBanks =>
    show CompletionKeeps s (banksTake u)
    rw [banksTake_not_pending (hu.pending.trans h)]
    exact hu
  | scrubUnit => exact hu.trans (scrubTakes_keeps u)

/-- R40: the three blocks do not touch the waiting request, a bank exchange included. -/
theorem blocksTake_waiting (o : TakeOrder) (q : Int) (s : State) : (blocksTake o q s).eval.waiting = s.eval.waiting := by
  refine List.foldlRecOn (motive := fun u : State => u.eval.waiting = s.eval.waiting) o.blocks _ rfl fun u hu c _ => ?_
  refine Eq.trans ?_ hu
  cases c with
  | controlStateUnit => exact congrArg Eval.waiting (controlTakes_keeps q u).eval
  | scrubUnit => exact congrArg Eval.waiting (scrubTakes_keeps u).eval
  | mapBanks =>
    show (banksTake u).eval.waiting = _
    unfold banksTake
    split
    · unfold exchangeBanks
      rw [raiseCondition_eval]
      rfl
    · rfl

/-- R106, R111: a completion taken in START or PASSIVE leads to ACTIVE, or to LIMP where the scrub finds a LIMP plane
FAULTY. -/
theorem completion_from_standby {s : State} (h : s.ctl.state.Standby) (o : TakeOrder) (q : Int) :
    (blocksTake o q s).ctl.state = .active ∨ (blocksTake o q s).ctl.state = .limp := by
  have hblocks := congrArg State.ctl (blocksTake_blocks q o.blocks s)
  have hstandby := completion_not_standby o q s.blocks
  have hstart : s.blocks.ctl.state ≠ .roller := fun e => not_standby_roller (e ▸ h)
  have hroller := blockMoves_state_induction (P := (· ≠ .roller)) nofun nofun q o.blocks hstart
  rw [← hblocks] at hstandby hroller
  cases hc : (blocksTake o q s).ctl.state with
  | start => exact absurd (.inl hc) hstandby
  | passive => exact absurd (.inr hc) hstandby
  | roller => exact absurd hc hroller
  | active => exact .inl rfl
  | limp => exact .inr rfl

/-! ### PASS_COMPLETION (R40, R52 to R54) -/

theorem exec_passCompletion {s : State} {p : Pass} (h : s.eval.inFlight = some p) (o : TakeOrder) :
    exec (.passCompletion o) s = .next (beginWaiting (blocksTake o p.inputs.q (recordPass p s))) := by
  show execPassCompletion o s = _
  unfold execPassCompletion
  rw [h]

theorem exec_passCompletion_idle {s : State} (h : s.eval.inFlight = none) (o : TakeOrder) :
    exec (.passCompletion o) s = .next s := by
  show execPassCompletion o s = _
  unfold execPassCompletion
  rw [h]

/-- R40, R54: with no pass in flight, the waiting request becomes the pass in flight. -/
theorem beginWaiting_eq {u : State} (h : u.eval.inFlight = none) : beginWaiting u = { u with eval := { u.eval with
    waiting := none,
    inFlight := u.eval.waiting.map fun i =>
      { inputs := i, ctl := u.ctl.state, mode := u.ctl.mode, load := u.ctl.load, vref := u.eval.vref, cut := u.eval.cut,
        relief := u.eval.relief, marker := u.eval.marker } } } := by
  unfold beginWaiting
  split
  · rename_i hnone
    rw [hnone, Option.map_none, ← h]
    conv_rhs => rw [← hnone]
  · rename_i i hsome
    rw [hsome]
    rfl

/-- R52: in ROLLER a pass leaves no cut and no relief. -/
theorem passRecord_roller (b : Bank) (p : Pass) (n : Nat) :
    (passRecord b p n true).cut = 0 ∧ (passRecord b p n true).relief = 0 ∧
      (passRecord b p n true).ceiling = (passRecord b p n true).torqueLimit := ⟨rfl, rfl, rfl⟩

/-- Settles O30: the completion is `recordPass`, the three blocks and `beginWaiting`; what the blocks leave, while no
activation is pending, is `CompletionKeeps`. -/
theorem passCompletionReplacesTheRecord : Obligations.PassCompletionReplacesTheRecord := by
  unfold Obligations.PassCompletionReplacesTheRecord
  refine ⟨fun o s p hp => ?_, fun o => ?_, fun o s hp => exec_passCompletion_idle hp o, fun o s p hp hpending => ?_⟩
  · refine (exec_passCompletion hp o).trans (congrArg _ ?_)
    have hwaiting : (blocksTake o p.inputs.q (recordPass p s)).eval.waiting = s.eval.waiting := blocksTake_waiting _ _ _
    unfold beginWaiting
    rw [hwaiting]
    cases s.eval.waiting <;> rfl
  · cases o <;> decide
  · have hkeeps := blocksTake_keeps (s := recordPass p s) hpending o p.inputs.q
    have hflight : (blocksTake o p.inputs.q (recordPass p s)).eval.inFlight = none := congrArg Eval.inFlight hkeeps.eval
    refine ⟨_, (exec_passCompletion hp o).trans (congrArg _ (beginWaiting_eq hflight)), ?_, fun hroller => ?_,
      fun hstandby => completion_from_standby (s := recordPass p s) hstandby o _, hkeeps.phase, hkeeps.sensors, hkeeps.ack,
      hkeeps.store, hkeeps.staging, hkeeps.window, hkeeps.pending.trans hpending, hkeeps.liveness, hkeeps.status,
      hkeeps.requests, hkeeps.enabled, hkeeps.causes⟩
    · dsimp only
      rw [hkeeps.eval]
      rfl
    · rw [hroller]
      exact passRecord_roller _ _ _

/-! ### The order of the three blocks (R54, R106, R147) -/

section Scrub

variable (s : State) (x : Scrub)

/-- Nothing that is sent looks at the scrub: a frame is placed as it would be at another scrub position. -/
theorem placeFrame_withScrub (c : Content) (o : Origin) (k : Bool) : placeFrame .upstream c o k (s.withScrub x) =
    ((placeFrame .upstream c o k s).1.withScrub x, (placeFrame .upstream c o k s).2) := by
  have hqueue : (s.withScrub x).queue .upstream = s.queue .upstream := rfl
  unfold placeFrame
  rw [hqueue]
  obtain ⟨q, _ | _ | e⟩ := queueFrame c o k (s.queue .upstream)
  · rfl
  · rfl
  · dsimp only [State.partLost]
    split <;> rfl

theorem enterCondition_withScrub (c : Condition) : enterCondition c (s.withScrub x) =
    ((enterCondition c s).1.withScrub x, (enterCondition c s).2) := by
  unfold enterCondition
  dsimp only
  rw [State.withScrub_mgmt]
  by_cases h : CondSet.has s.mgmt.enabled c = true
  · rw [if_pos h, if_pos h]
    exact placeFrame_withScrub { s with mgmt := { s.mgmt with conditions := s.mgmt.conditions ||| c.bit } } x _ .part true
  · rw [if_neg h, if_neg h]
    rfl

theorem raiseCondition_withScrub (c : Condition) : raiseCondition c (s.withScrub x) = (raiseCondition c s).withScrub x := by
  unfold raiseCondition
  rw [State.withScrub_mgmt, enterCondition_withScrub]
  dsimp only
  rw [State.withScrub_mgmt, enterCondition_withScrub, ← apply_ite (State.withScrub · x), ← apply_ite (State.withScrub · x)]

/-- R106, R110, R114: the control state unit takes a completion as it would at another scrub position. -/
theorem controlTakes_withScrub (q : Int) : controlTakes q (s.withScrub x) = (controlTakes q s).withScrub x := by
  have htransition : controlTransition (s.withScrub x) = (controlTransition s).withScrub x := by
    have hraise := raiseCondition_withScrub (s.withCtl .active) x .rollerExit
    unfold controlTransition
    rw [State.withScrub_ctl, State.withScrub_eval, State.withScrub_banks]
    cases s.ctl.state with
    | roller =>
      dsimp only
      rw [apply_ite (State.withScrub · x), ← hraise]
      rfl
    | _ => rfl
  have hstationary : ((controlTransition s).withScrub x).stationary = (controlTransition s).stationary := rfl
  unfold controlTakes applyPending
  rw [htransition, hstationary]
  split <;> rfl

end Scrub

/-- Where a scrub step over an intact bank leaves the scrub (R143). -/
def scrubPassed (b : Bank) (x : Scrub) : Scrub :=
  match findScrubPlane b x with
  | none => x
  | some y =>
    if y.row + 1 < y.plane.rows then { y with row := y.row + 1, sums := sumRow b y }
    else { plane := y.plane.next, row := 0, sums := ⟨0, 0⟩ }

/-- R143, R144: over an intact bank a scrub step moves its own position alone, and raises nothing. -/
theorem ScrubSound.scrubTakes_eq {s : State} (h : ScrubSound s) :
    scrubTakes s = s.withScrub (scrubPassed s.banks.active s.scrub) := by
  unfold scrubTakes scrubPassed
  cases hx : findScrubPlane s.banks.active s.scrub with
  | none => rfl
  | some x =>
    obtain ⟨hrow, hsums⟩ := h.row hx
    dsimp only
    split
    · rfl
    · rename_i hlast
      have hend : (x.row + 1) * x.plane.cols = (s.banks.active.get x.plane).cells.length := by
        rw [h.tables.active x.plane, show x.row + 1 = x.plane.rows by omega]
        rfl
      rw [hsums, hend, List.take_length]
      unfold comparePlane
      split
      · rfl
      · rename_i c hc
        exact if_pos (h.intact.active x.plane c hc)

/-- R106, R110, R114: the control state unit leaves the banks, the scrub and the map store. -/
theorem ScrubSound.control {s : State} (h : ScrubSound s) (q : Int) : ScrubSound (controlTakes q s) ∧
    (controlTakes q s).banks = s.banks ∧ (controlTakes q s).scrub = s.scrub := by
  obtain ⟨c, hc, -⟩ := controlMoves_eq q s.blocks
  have hblocks := (controlTakes_blocks q s).trans hc
  have hbanks := congrArg State.banks hblocks
  have hscrub := congrArg State.scrub hblocks
  exact ⟨h.congr hbanks hscrub (controlTakes_keeps q s).store, hbanks, hscrub⟩

/-- R54, R147: without an activation pending, over an intact bank, every order of the three blocks leaves what the control
state unit leaves, with the scrub one step on. -/
theorem blocksTake_eq {s : State} (h : ScrubSound s) (hpending : s.banks.activationPending = false) (o : TakeOrder) (q : Int) :
    blocksTake o q s = (controlTakes q s).withScrub (scrubPassed s.banks.active s.scrub) := by
  obtain ⟨hcontrol, hbanks, hscrub⟩ := h.control q
  have hidle : ∀ u : State, u.banks = s.banks → banksTake u = u := fun u hu => banksTake_not_pending (hu ▸ hpending)
  have hfirst := h.scrubTakes_eq
  have hthen := hcontrol.scrubTakes_eq
  have hcommute := controlTakes_withScrub s (scrubPassed s.banks.active s.scrub) q
  have hidle_end := hidle ((controlTakes q s).withScrub (scrubPassed s.banks.active s.scrub)) hbanks
  have hidle_first := hidle (s.withScrub (scrubPassed s.banks.active s.scrub)) rfl
  rw [hbanks, hscrub] at hthen
  unfold blocksTake
  cases o <;> simp only [TakeOrder.blocks, List.foldl_cons, List.foldl_nil, blockTakes, hfirst, hthen, hcommute, hidle_end,
    hidle_first, hidle s rfl, hidle _ hbanks]

/-- Settles O35: by `blocksTake_eq` the order does not enter. -/
theorem theThreeBlocksTakeNoOrder : Obligations.TheThreeBlocksTakeNoOrder := by
  unfold Obligations.TheThreeBlocksTakeNoOrder
  intro o o' s htables hpositions hintact hpending
  cases hp : s.eval.inFlight with
  | none => rw [exec_passCompletion_idle hp, exec_passCompletion_idle hp]
  | some p =>
    have hsound : ScrubSound (recordPass p s) := ScrubSound.congr ⟨htables, hpositions, hintact⟩ rfl rfl rfl
    rw [exec_passCompletion hp, exec_passCompletion hp, blocksTake_eq hsound hpending, blocksTake_eq hsound hpending]

end Sys2Proof.Machine

/-!
What is read of the active bank (R42, R60, R64, R65, R68 to R74) and the stages of a pass (R43 to R53, R79, R85): each value by
the rules' own arithmetic.
-/

namespace Sys2Proof.Machine

/-! ### Division truncating toward zero -/

/-- A share of a rise, truncated. -/
theorem sub_mul_tdiv_of_le {a b : Nat} (h : a ≤ b) (f n : Nat) :
    (((b : Int) - (a : Int)) * (f : Int)).tdiv (n : Int) = ((b - a) * f / n : Nat) := by
  rw [Int.ofNat_tdiv, Int.natCast_mul, Int.natCast_sub h]

/-- A share of a fall, truncated toward zero. -/
theorem sub_mul_tdiv_of_ge {a b : Nat} (h : b ≤ a) (f n : Nat) :
    (((b : Int) - (a : Int)) * (f : Int)).tdiv (n : Int) = -(((a - b) * f / n : Nat) : Int) := by
  rw [← sub_mul_tdiv_of_le h, ← Int.neg_tdiv, ← Int.neg_mul, Int.neg_sub]

/-- A share below the whole does not pass the whole. -/
theorem share_le {f n : Nat} (d : Nat) (h : f < n) : d * f / n ≤ d :=
  Nat.div_le_of_le_mul (Nat.mul_comm n d ▸ Nat.mul_le_mul_left d h.le)

/-! ### Interpolation (R44, R69, R70) -/

theorem interpolate_up {lo hi : Nat} (h : lo ≤ hi) (f n : Nat) : interpolate lo hi f n = lo + (hi - lo) * f / n := by
  unfold interpolate
  rw [sub_mul_tdiv_of_le h, ← Int.natCast_add, Int.toNat_natCast]

theorem interpolate_down {lo hi : Nat} (h : hi ≤ lo) (f n : Nat) : interpolate lo hi f n = lo - (lo - hi) * f / n := by
  unfold interpolate
  rw [sub_mul_tdiv_of_ge h]
  generalize (lo - hi) * f / n = share
  omega

theorem interpolate_zero (lo hi n : Nat) : interpolate lo hi 0 n = lo := by
  rcases Nat.le_total lo hi with h | h
  · rw [interpolate_up h, Nat.mul_zero, Nat.zero_div, Nat.add_zero]
  · rw [interpolate_down h, Nat.mul_zero, Nat.zero_div, Nat.sub_zero]

/-- R70: an interpolated value lies between its two ends. -/
theorem interpolate_between (lo hi : Nat) {f n : Nat} (hf : f < n) :
    min lo hi ≤ interpolate lo hi f n ∧ interpolate lo hi f n ≤ max lo hi := by
  rcases Nat.le_total lo hi with h | h
  · have hshare := share_le (hi - lo) hf
    rw [interpolate_up h]
    generalize (hi - lo) * f / n = share at hshare ⊢
    omega
  · have hshare := share_le (lo - hi) hf
    rw [interpolate_down h]
    generalize (lo - hi) * f / n = share at hshare ⊢
    omega

/-- The interpolated value is the formula's: it is never cut off at 0. -/
theorem interpolate_cast (lo hi : Nat) {f n : Nat} (hf : f < n) :
    (interpolate lo hi f n : Int) = (lo : Int) + (((hi : Int) - (lo : Int)) * (f : Int)).tdiv (n : Int) := by
  rcases Nat.le_total lo hi with h | h
  · rw [interpolate_up h, sub_mul_tdiv_of_le h, Int.natCast_add]
  · have hshare := share_le (lo - hi) hf
    rw [interpolate_down h, sub_mul_tdiv_of_ge h, Int.natCast_sub (by omega), Int.sub_eq_add_neg]

/-- R70: from a higher lower row the value stays on or above the straight line. -/
theorem line_le_interpolate {lo hi : Nat} (h : hi ≤ lo) (f n : Nat) :
    lo * n - (lo - hi) * f ≤ interpolate lo hi f n * n := by
  rw [interpolate_down h, Nat.sub_mul lo ((lo - hi) * f / n)]
  exact Nat.sub_le_sub_left (Nat.div_mul_le_self _ _) _

/-- R70: from a lower lower row the value stays on or below the straight line. -/
theorem interpolate_le_line {lo hi : Nat} (h : lo ≤ hi) (f n : Nat) :
    interpolate lo hi f n * n ≤ lo * n + (hi - lo) * f := by
  rw [interpolate_up h, Nat.add_mul]
  exact Nat.add_le_add_left (Nat.div_mul_le_self _ _) _

/-! ### Parameters (R60, R64, R65) -/

theorem param_stored {b : Bank} {p : Param} (hlow : p.entry.low ≤ cellAt b.parameter.cells p.entry.index)
    (hhigh : cellAt b.parameter.cells p.entry.index ≤ p.entry.high) : param b p = cellAt b.parameter.cells p.entry.index :=
  if_pos ⟨hlow, hhigh⟩

theorem param_default {b : Bank} {p : Param} (h : cellAt b.parameter.cells p.entry.index < p.entry.low ∨
    p.entry.high < cellAt b.parameter.cells p.entry.index) : param b p = p.entry.default :=
  if_neg fun ⟨hlow, hhigh⟩ => h.elim hlow.not_gt hhigh.not_gt

/-! ### The grip lookup (R60, R68, R69, R73, R74) -/

theorem gripColumn_faulty {b : Bank} (h : b.columnSelect.isFaulty = true) (m : RideMode) (l : LoadState) :
    gripColumn b m l = 0 := if_pos h

theorem gripColumn_verified {b : Bank} (h : b.columnSelect.isFaulty = false) (m : RideMode) (l : LoadState) :
    gripColumn b m l = if cellAt b.columnSelect.cells (m.code * 4 + l.code) ≤ 15
      then cellAt b.columnSelect.cells (m.code * 4 + l.code) else 0 := by
  unfold gripColumn
  rw [h]
  rfl

theorem gripLimit_faulty {pl : Plane} (h : pl.isFaulty = true) (p : PlaneId) (w a c : Nat) : gripLimit p pl w a c = w :=
  if_pos h

/-- R60: the cell of a grip plane at a row and column as it is used. -/
def gripCell (p : PlaneId) (pl : Plane) (c r : Nat) : Nat := usedCell p pl (r * 16 + c)

/-- The grip planes' ranges begin at 0. -/
theorem gripCell_eq {p : PlaneId} (h : p.range.1 = 0) (pl : Plane) (c r : Nat) :
    gripCell p pl c r = min p.range.2 (cellAt pl.cells (r * 16 + c)) := by
  unfold gripCell usedCell
  rw [h, Nat.zero_max]

/-- R69: the limit from the two rows around a lean index. -/
theorem gripLimit_verified {pl : Plane} (h : pl.isFaulty = false) (p : PlaneId) (w a c : Nat) : gripLimit p pl w a c =
    if a % 40 = 0 then gripCell p pl c (a / 40)
    else interpolate (gripCell p pl c (a / 40)) (gripCell p pl c (a / 40 + 1)) (a % 40) 40 := by
  unfold gripLimit gripValue gripCell
  rw [h, Nat.succ_mul]
  rfl

/-- R60, R69: the limit from the stored cells of a plane whose range begins at 0. -/
theorem gripLimit_cells {p : PlaneId} (hrange : p.range.1 = 0) {pl : Plane} (h : pl.isFaulty = false) (w a c : Nat) :
    gripLimit p pl w a c =
      if a % 40 = 0 then min p.range.2 (cellAt pl.cells (a / 40 * 16 + c))
      else interpolate (min p.range.2 (cellAt pl.cells (a / 40 * 16 + c)))
        (min p.range.2 (cellAt pl.cells ((a / 40 + 1) * 16 + c))) (a % 40) 40 := by
  rw [gripLimit_verified h, gripCell_eq hrange, gripCell_eq hrange]

/-- R70: at a row of the plane the limit is the row's own value. -/
theorem gripLimit_at_row {p : PlaneId} (hrange : p.range.1 = 0) {pl : Plane} (h : pl.isFaulty = false) (w r c : Nat)
    (hcell : cellAt pl.cells (r * 16 + c) ≤ p.range.2) : gripLimit p pl w (40 * r) c = cellAt pl.cells (r * 16 + c) := by
  rw [gripLimit_cells hrange h, if_pos (Nat.mul_mod_right 40 r), Nat.mul_div_cancel_left r (by decide), min_eq_right hcell]

/-- Settles O29: parameters by their range, interpolation by the sign of the step, the lookup plane by plane. -/
theorem readsOfTheActiveBankStayInRange : Obligations.ReadsOfTheActiveBankStayInRange := by
  unfold Obligations.ReadsOfTheActiveBankStayInRange
  refine ⟨fun b p => ⟨(param_range b p).1, (param_range b p).2, param_stored, param_default⟩, rfl, fun lo hi f n hf => ?_,
    fun b m l a => ?_⟩
  · obtain ⟨hmin, hmax⟩ := interpolate_between lo hi hf
    exact ⟨interpolate_cast lo hi hf, hmin, hmax, fun h => h ▸ interpolate_zero lo hi n, fun h => line_le_interpolate h f n,
      fun h => interpolate_le_line h f n⟩
  · have hg := gripLookup_inRange b m l a
    obtain ⟨hfront, hrear⟩ := hg.brakes
    refine ⟨hg.column, hg.slipTarget, hg.torqueLimit, hfront, hrear, fun h => gripColumn_faulty h m l,
      fun h => gripColumn_verified h m l, fun h => gripLimit_faulty h _ _ _ _, fun h => gripLimit_faulty h _ _ _ _,
      fun h => gripLimit_faulty h _ _ _ _, fun h => gripLimit_faulty h _ _ _ _,
      fun h => gripLimit_cells (p := .slipTarget) rfl h _ _ _, fun h => gripLimit_cells (p := .torqueCeiling) rfl h _ _ _,
      fun h => gripLimit_cells (p := .brakeFront) rfl h _ _ _, fun h => gripLimit_cells (p := .brakeRear) rfl h _ _ _, ?_⟩
    rintro r rfl h hcell
    exact gripLimit_at_row (p := .torqueCeiling) rfl h _ _ _ hcell

/-! ### The corrected speeds (R44, R45, R60, R62) -/

theorem radiusMultiplier_faulty {b : Bank} (h : b.radius.isFaulty = true) (a w : Nat) : radiusMultiplier b a w = 4096 :=
  if_pos h

/-- R60, R62: the cell of RADIUS at a row, for a wheel, as it is used. -/
def radiusCell (b : Bank) (w r : Nat) : Nat := max 3600 (min 4096 (cellAt b.radius.cells (2 * r + w)))

/-- R44: the multiplier from the two rows around a lean index. -/
theorem radiusMultiplier_verified {b : Bank} (h : b.radius.isFaulty = false) (a w : Nat) : radiusMultiplier b a w =
    if a % 20 = 0 then radiusCell b w (a / 20)
    else interpolate (radiusCell b w (a / 20)) (radiusCell b w (a / 20 + 1)) (a % 20) 20 := by
  unfold radiusMultiplier radiusCell
  rw [h, Nat.mul_succ]
  rfl

/-- R44, R60: a multiplier is at least 3600. -/
theorem le_radiusMultiplier (b : Bank) (a w : Nat) : 3600 ≤ radiusMultiplier b a w := by
  have hcell : ∀ r, 3600 ≤ radiusCell b w r := fun r => le_max_left _ _
  cases h : b.radius.isFaulty with
  | true =>
    rw [radiusMultiplier_faulty h]
    decide
  | false =>
    rw [radiusMultiplier_verified h]
    split
    · exact hcell _
    · exact le_trans (le_min (hcell _) (hcell _)) (interpolate_between _ _ (Nat.mod_lt a (by decide))).1

/-- R45: the product, rounded to the nearest, in 4096. -/
theorem correctedSpeed_rounds (v m : Nat) :
    4096 * correctedSpeed v m ≤ v * m + 2048 ∧ v * m < 4096 * correctedSpeed v m + 2048 := by
  unfold correctedSpeed
  omega

theorem correctedSpeed_unchanged (v : Nat) : correctedSpeed v 4096 = v := by
  unfold correctedSpeed
  omega

/-! ### The reference speed (R46 to R48) -/

theorem speedCandidate_braking {i : PassInputs} (h : 0 < i.dFront ∨ 0 < i.dRear) (vfc vrc : Nat) :
    speedCandidate i vfc vrc = max vfc vrc := if_pos h

theorem speedCandidate_coasting {i : PassInputs} (h : i.dFront = 0 ∧ i.dRear = 0) (vfc vrc : Nat) :
    speedCandidate i vfc vrc = vfc := if_neg (by omega)

/-- R48: a candidate that does not fall is taken. -/
theorem referenceSpeed_rising {candidate prev : Nat} (h : prev ≤ candidate) (fall : Nat) :
    referenceSpeed false candidate prev fall = candidate := if_pos h

/-- R48: a candidate that falls is followed at most REF_FALL_LIMIT down. -/
theorem referenceSpeed_falling {candidate prev : Nat} (h : candidate < prev) (fall : Nat) :
    referenceSpeed false candidate prev fall = max candidate (prev - fall) := if_neg h.not_ge

theorem referenceSpeed_between (candidate prev fall : Nat) :
    candidate ≤ referenceSpeed false candidate prev fall ∧ referenceSpeed false candidate prev fall ≤ max candidate prev ∧
      prev ≤ referenceSpeed false candidate prev fall + fall := by
  rcases Nat.lt_or_ge candidate prev with h | h
  · rw [referenceSpeed_falling h]
    omega
  · rw [referenceSpeed_rising h]
    omega

/-! ### Rear slip (R50) -/

/-- R50: a rear wheel not faster than the vehicle. -/
theorem rearSlip_slower {vrc vref : Nat} (h : vrc ≤ vref) :
    rearSlip vrc vref = -(((vref - vrc) * 1000 / vref : Nat) : Int) := by
  have hdiv : (((vrc : Int) - (vref : Int)) * 1000).tdiv (vref : Int) = _ := sub_mul_tdiv_of_ge h 1000 vref
  unfold rearSlip
  rw [hdiv]
  generalize (vref - vrc) * 1000 / vref = share
  omega

/-- R50: a rear wheel not slower than the vehicle. -/
theorem rearSlip_faster {vrc vref : Nat} (h : vref ≤ vrc) :
    rearSlip vrc vref = min 2000 (((vrc - vref) * 1000 / vref : Nat) : Int) :=
  congrArg (min 2000) (sub_mul_tdiv_of_le h 1000 vref)

/-- R50: the slip is −1000 exactly when the rear wheel stands. -/
theorem rearSlip_standing {vref : Nat} (hpos : 0 < vref) (vrc : Nat) : rearSlip vrc vref = -1000 ↔ vrc = 0 := by
  constructor
  · intro hslip
    by_contra hmoving
    rcases Nat.le_total vrc vref with h | h
    · have hbelow : (vref - vrc) * 1000 / vref < 1000 := Nat.div_lt_of_lt_mul (by omega)
      rw [rearSlip_slower h] at hslip
      omega
    · rw [rearSlip_faster h] at hslip
      generalize (vrc - vref) * 1000 / vref = share at hslip
      omega
  · rintro rfl
    rw [rearSlip_slower hpos.le, Nat.sub_zero, Nat.mul_div_cancel_left 1000 hpos]
    rfl

/-- R50: a difference below a thousandth of the speed is no slip. -/
theorem rearSlip_small {vrc vref : Nat} (h : (((vrc : Int) - vref) * 1000).natAbs < vref) : rearSlip vrc vref = 0 := by
  rcases Nat.le_total vrc vref with hle | hle
  · rw [rearSlip_slower hle, Nat.div_eq_of_lt (by omega)]
    rfl
  · rw [rearSlip_faster hle, Nat.div_eq_of_lt (by omega)]
    rfl

theorem rearSlip_nonpos {vrc vref : Nat} (h : vrc ≤ vref) : rearSlip vrc vref ≤ 0 := by
  rw [rearSlip_slower h]
  exact Int.neg_nonpos_of_nonneg (Int.natCast_nonneg _)

/-! ### The record of a pass (R43 to R53, R79, R85) -/

/-- R79: the lift excess is what the pitch has above LIFT_PITCH. -/
theorem liftExcess_eq (pitch : Int) (liftPitch : Nat) : liftExcess pitch liftPitch = max 0 (pitch - (liftPitch : Int)) := by
  unfold liftExcess
  split <;> omega

/-- R49: below control speed there is no slip. -/
theorem passRecord_below {b : Bank} {p : Pass} {n : Nat} {roller : Bool}
    (h : (passRecord b p n roller).vref < param b .ctrlMinSpeed) :
    (passRecord b p n roller).belowControlSpeed = true ∧ (passRecord b p n roller).slip = 0 :=
  ⟨decide_eq_true h, if_pos (decide_eq_true h)⟩

/-- R49, R50: at or above control speed. -/
theorem passRecord_above {b : Bank} {p : Pass} {n : Nat} {roller : Bool}
    (h : param b .ctrlMinSpeed ≤ (passRecord b p n roller).vref) :
    (passRecord b p n roller).belowControlSpeed = false ∧
      (passRecord b p n roller).slip = rearSlip (passRecord b p n roller).vrc (passRecord b p n roller).vref := by
  have hbelow : (passRecord b p n roller).belowControlSpeed = false := decide_eq_false h.not_gt
  exact ⟨hbelow, if_neg (by exact ne_true_of_eq_false hbelow)⟩

/-- R52, R79 to R83: outside ROLLER the cut and the relief grow or recover. -/
theorem passRecord_cut_relief (b : Bank) (p : Pass) (n : Nat) :
    let r := passRecord b p n false
    r.cut = newCut b p.ctl r.belowControlSpeed (r.slip - (r.slipTarget : Int))
        (max 0 (p.inputs.pitch - (param b .liftPitch : Int))) p.cut ∧
      r.relief = newRelief b p.ctl r.belowControlSpeed p.inputs.q r.slip p.relief := by
  intro r
  rw [← liftExcess_eq]
  exact ⟨rfl, rfl⟩

/-- R85: the ceiling is the limit less the cut, not below 0. -/
theorem passRecord_ceiling (b : Bank) (p : Pass) (n : Nat) (roller : Bool) :
    ((passRecord b p n roller).ceiling : Int) =
      max 0 (((passRecord b p n roller).torqueLimit : Int) - ((passRecord b p n roller).cut : Int)) := by
  have hceiling : (passRecord b p n roller).ceiling = (passRecord b p n roller).torqueLimit - (passRecord b p n roller).cut :=
    rfl
  omega

/-- Settles O31, stage by stage. -/
theorem passWorksItsStages : Obligations.PassWorksItsStages := by
  unfold Obligations.PassWorksItsStages
  refine ⟨fun b p n roller => ?_, fun b a w v => ?_, fun i vfc vrc prev fall => ?_, fun vrc vref hpos => ?_⟩
  · refine ⟨rfl, rfl, rfl, rfl, rfl, rfl, passRecord_below, passRecord_above, rfl, rfl, rfl, rfl, rfl, ?_, ?_,
      passRecord_ceiling b p n roller⟩
    · rintro rfl
      obtain ⟨hcut, hrelief, -⟩ := passRecord_roller b p n
      exact ⟨hcut, hrelief⟩
    · rintro rfl
      exact passRecord_cut_relief b p n
  · obtain ⟨hlow, hhigh⟩ := correctedSpeed_rounds v (radiusMultiplier b a w)
    have hmax := radiusMultiplier_le b a w
    refine ⟨fun h => radiusMultiplier_faulty h a w, fun h => radiusMultiplier_verified h a w, le_radiusMultiplier b a w, hmax,
      rfl, correctedSpeed_le (le_refl v) hmax, hlow, hhigh, fun h => ?_⟩
    exact (congrArg _ (radiusMultiplier_faulty h a w)).trans (correctedSpeed_unchanged v)
  · obtain ⟨hlow, hhigh, hfall⟩ := referenceSpeed_between (speedCandidate i vfc vrc) prev fall
    refine ⟨fun h => speedCandidate_braking h vfc vrc, fun h => speedCandidate_coasting h vfc vrc, rfl,
      fun h => referenceSpeed_rising h fall, fun h => ?_, hlow, hhigh, hfall⟩
    have hfalling := referenceSpeed_falling h fall
    omega
  · obtain ⟨hlow, hhigh⟩ := rearSlip_range vrc vref
    exact ⟨rfl, hlow, hhigh, rearSlip_standing hpos vrc, rearSlip_small, rearSlip_nonpos⟩

end Sys2Proof.Machine

/-!
The build of the active bank (R58, R118, R174 to R177).
-/

namespace Sys2Proof.Machine

/-- What a slot must hold for a plane to be taken from it: a VALID header, its pair, and no offending cell (R175). -/
def SlotGood (x : Slot) (p : PlaneId) : Prop :=
  x.complete = true ∧ pairOf (x.cells.get p) = x.pairs.get p ∧ firstOffending p (x.cells.get p) = none

theorem verifiedFrom_of_good {x : Slot} {p : PlaneId} (h : SlotGood x p) :
    verifiedFrom x p = some { cells := x.cells.get p, status := .verified (x.pairs.get p) } := by
  obtain ⟨-, hpair, hchecks⟩ := h
  exact if_pos ⟨hpair, Option.isNone_iff_eq_none.mpr hchecks⟩

theorem verifiedFrom_of_not_good {x : Slot} {p : PlaneId} (hvalid : x.complete = true) (h : ¬ SlotGood x p) :
    verifiedFrom x p = none :=
  if_neg fun ⟨hpair, hchecks⟩ => h ⟨hvalid, hpair, Option.isNone_iff_eq_none.mp hchecks⟩

/-- R175: a good plane is the slot's. -/
theorem bootPlane_of_good {x : Slot} {p : PlaneId} (h : SlotGood x p) :
    bootPlane x p = { cells := x.cells.get p, status := .verified (x.pairs.get p) } := by
  have hvalid : x.complete = true := h.1
  unfold bootPlane
  rw [if_pos hvalid, verifiedFrom_of_good h, Option.getD_some]

/-- R175, R176: another is replaced. -/
theorem bootPlane_of_not_good {x : Slot} {p : PlaneId} (h : ¬ SlotGood x p) : bootPlane x p = replacedPlane x p := by
  unfold bootPlane
  split
  · rename_i hvalid
    rw [verifiedFrom_of_not_good hvalid h, Option.getD_none]
  · rfl

/-- R177: the boot is degraded exactly when some plane was replaced. -/
theorem bootDegraded_iff (x : Slot) : bootDegraded x = true ↔ ∃ p, ¬ SlotGood x p := by
  unfold bootDegraded
  simp only [Bool.or_eq_true, Bool.not_eq_true', List.any_eq_true, Option.isNone_iff_eq_none]
  constructor
  · rintro (hinvalid | ⟨p, -, hp⟩)
    · exact ⟨.slipTarget, fun hgood => by simp [hgood.1] at hinvalid⟩
    · exact ⟨p, fun hgood => by simp [verifiedFrom_of_good hgood] at hp⟩
  · rintro ⟨p, hp⟩
    cases hvalid : x.complete with
    | false => exact .inl rfl
    | true => exact .inr ⟨p, mem_allPlanes p, verifiedFrom_of_not_good hvalid hp⟩

/-- Settles O59: the bank plane by plane, the condition by `bootDegraded_iff`. -/
theorem bootBuildsTheActiveBank : Obligations.BootBuildsTheActiveBank := by
  unfold Obligations.BootBuildsTheActiveBank
  intro time s hbuilding x good b g record built
  have hbank : bootBank x = b := by
    refine PerPlane.ext_get fun p => ?_
    unfold bootBank b
    rw [PerPlane.get_build, PerPlane.get_build]
    split
    · rename_i hgood
      exact bootPlane_of_good hgood
    · rename_i hgood
      rw [bootPlane_of_not_good hgood]
      cases p <;> rfl
  have hexec : exec (.bootBuildComplete time) s =
      .next (if bootDegraded x then raiseCondition .bootDegraded built else built) := by
    show execBootBuildComplete time s = _
    unfold execBootBuildComplete buildDone
    rw [if_pos hbuilding]
    dsimp only
    rw [show bootBank (s.store.slots.get s.store.bootSelector) = b from hbank]
    rfl
  refine ⟨fun hgood => ?_, fun p hp => ?_⟩
  · rw [hexec, if_neg fun hdegraded => ?_]
    obtain ⟨p, hp⟩ := (bootDegraded_iff x).mp hdegraded
    exact hp (hgood p)
  · rw [hexec, if_pos ((bootDegraded_iff x).mpr ⟨p, hp⟩)]

end Sys2Proof.Machine

/-!
Commit Plane: the check pair, the checks of a committed plane and the outcomes of the request (00 Conventions, R61 to R64,
R66, R67, R131 to R133).
-/

namespace Sys2Proof.Machine

/-! ### The check pair as two sums (00 Conventions) -/

theorem addCells_S_toNat (cells : List Word) : ∀ (acc : CheckPair) (n : Nat),
    (addCells acc n cells).S.toNat = (acc.S.toNat + (cells.map BitVec.toNat).sum) % 65536 := by
  induction cells with
  | nil => intro acc n; exact (Nat.mod_eq_of_lt acc.S.isLt).symm
  | cons c cs ih =>
    intro acc n
    rw [addCells, ih, List.map_cons, List.sum_cons, BitVec.toNat_add, Nat.mod_add_mod, Nat.add_assoc]

/-- The sum of the cells times their indices and 1, the first cell's taken out. -/
theorem weightedSum_cons (n : Nat) (c : Word) (cs : List Word) :
    ((List.range (c :: cs).length).map fun j => (n + j + 1) * cellAt (c :: cs) j).sum =
      (n + 1) * c.toNat + ((List.range cs.length).map fun j => (n + 1 + j + 1) * cellAt cs j).sum := by
  rw [List.length_cons, List.range_succ_eq_map, List.map_cons, List.map_map, List.sum_cons]
  congr 3
  funext j
  show (n + (j + 1) + 1) * cellAt cs j = _
  rw [Nat.add_right_comm n 1 j, Nat.add_assoc n j 1]

theorem addCells_W_toNat (cells : List Word) : ∀ (acc : CheckPair) (n : Nat),
    (addCells acc n cells).W.toNat =
      (acc.W.toNat + ((List.range cells.length).map fun j => (n + j + 1) * cellAt cells j).sum) % 65536 := by
  induction cells with
  | nil => intro acc n; exact (Nat.mod_eq_of_lt acc.W.isLt).symm
  | cons c cs ih =>
    intro acc n
    have hterm : (BitVec.ofNat 16 (n + 1) * c).toNat = (n + 1) * c.toNat % 65536 := by
      rw [BitVec.toNat_mul, BitVec.toNat_ofNat, Nat.mod_mul_mod]
    rw [addCells, ih, weightedSum_cons, BitVec.toNat_add, hterm, Nat.add_mod_mod, Nat.mod_add_mod, Nat.add_assoc]

/-! ### Which cells offend (R61 to R64, R66, R67, R132) -/

/-- R61 to R63: outside the plane's range. -/
theorem outOfRange_iff (lo hi x : Nat) : (!(decide (lo ≤ x) && decide (x ≤ hi))) = true ↔ x < lo ∨ hi < x := by
  simp only [Bool.not_eq_true', Bool.and_eq_false_iff, decide_eq_false_iff_not, Nat.not_le]

theorem mem_allParams (q : Param) : q ∈ allParams := by cases q <;> decide

/-- R64: the entry is out of its range, or it is IMU_LOST_MS and not above IMU_HOLD_MS. -/
theorem offendsParameter_iff (cells : List Word) (i : Nat) : offendsParameter cells i = true ↔
    (∃ q : Param, q.entry.index = i ∧ (cellAt cells i < q.entry.low ∨ q.entry.high < cellAt cells i)) ∨
      i = 12 ∧ cellAt cells 12 ≤ cellAt cells 11 := by
  unfold offendsParameter
  simp only [Bool.or_eq_true, List.any_eq_true, Bool.and_eq_true, beq_iff_eq, outOfRange_iff, mem_allParams, true_and]
  rw [Bool.not_eq_true', decide_eq_false_iff_not, Nat.not_lt]

section Action

variable (cells : List Word) (k : Nat)

/-- A test over the rows before row `k`. -/
theorem any_earlier_iff (f : ActionRow → Bool) :
    ((List.range k).map (actionRow cells)).any f = true ↔ ∃ j, j < k ∧ f (actionRow cells j) = true := by
  simp only [List.any_map, List.any_eq_true, List.mem_range, Function.comp_apply]

/-- Identifier column (R66, R67): out of range, or of a used row and in the management range or a second of the same port. -/
theorem offendsAction_id : offendsAction cells (4 * k) = true ↔
    2047 < cellAt cells (4 * k) ∨ cellAt cells (4 * k + 1) ≠ 0 ∧
      (1728 ≤ cellAt cells (4 * k) ∧ cellAt cells (4 * k) ≤ 1743 ∨
        ∃ j, j < k ∧ cellAt cells (4 * j + 1) ≠ 0 ∧ cellAt cells (4 * j) = cellAt cells (4 * k) ∧
          cellAt cells (4 * j + 2) = cellAt cells (4 * k + 2)) := by
  have hdiv : 4 * k / 4 = k := by omega
  have hmod : 4 * k % 4 = 0 := by omega
  unfold offendsAction
  rw [hdiv, hmod]
  simp only [Bool.or_eq_true, Bool.and_eq_true, any_earlier_iff, ActionRow.used, bne_iff_ne, beq_iff_eq, decide_eq_true_eq,
    and_assoc]
  rw [or_assoc, ← and_or_left, or_comm (a := ∃ j, _)]
  rfl

/-- Kind column (R66, R67): out of range, or a second row of one of the kinds 3 to 9. -/
theorem offendsAction_kind : offendsAction cells (4 * k + 1) = true ↔
    9 < cellAt cells (4 * k + 1) ∨
      3 ≤ cellAt cells (4 * k + 1) ∧ ∃ j, j < k ∧ cellAt cells (4 * j + 1) = cellAt cells (4 * k + 1) := by
  have hdiv : (4 * k + 1) / 4 = k := by omega
  have hmod : (4 * k + 1) % 4 = 1 := by omega
  unfold offendsAction
  rw [hdiv, hmod]
  simp only [Bool.or_eq_true, Bool.and_eq_true, any_earlier_iff, ActionRow.special, beq_iff_eq, decide_eq_true_eq]
  constructor
  · rintro (hrange | ⟨⟨hspecial, -⟩, hearlier⟩)
    · exact .inl hrange
    · exact .inr ⟨hspecial, hearlier⟩
  · rintro (hrange | ⟨hspecial, hearlier⟩)
    · exact .inl hrange
    · exact (Nat.lt_or_ge 9 _).imp_right fun hnine => ⟨⟨hspecial, hnine⟩, hearlier⟩

/-- Port column (R66, R67): out of range, or not the fixed port of one of the kinds 3 to 9. -/
theorem offendsAction_port : offendsAction cells (4 * k + 2) = true ↔
    1 < cellAt cells (4 * k + 2) ∨ 3 ≤ cellAt cells (4 * k + 1) ∧ cellAt cells (4 * k + 1) ≤ 9 ∧
      cellAt cells (4 * k + 2) ≠ (if cellAt cells (4 * k + 1) = 4 ∨ cellAt cells (4 * k + 1) = 6 then 1 else 0) := by
  have hdiv : (4 * k + 2) / 4 = k := by omega
  have hmod : (4 * k + 2) % 4 = 2 := by omega
  unfold offendsAction
  rw [hdiv, hmod]
  simp only [ActionRow.special, Bool.or_eq_true, Bool.and_eq_true, bne_iff_ne, decide_eq_true_eq, and_assoc]
  rfl

/-- Coalesce column (R66): out of range. -/
theorem offendsAction_coalesce : offendsAction cells (4 * k + 3) = true ↔ 1 < cellAt cells (4 * k + 3) := by
  have hdiv : (4 * k + 3) / 4 = k := by omega
  have hmod : (4 * k + 3) % 4 = 3 := by omega
  unfold offendsAction
  rw [hdiv, hmod]
  exact decide_eq_true_iff

end Action

/-- A cell of the 16 rows of four columns stands in one row and one column. -/
theorem exists_row_iff {k c : Nat} (hk : k < 16) (hc : c < 4) (A B C D : Nat → Prop) :
    (∃ r, r < 16 ∧ (4 * k + c = 4 * r ∧ A r ∨ 4 * k + c = 4 * r + 1 ∧ B r ∨ 4 * k + c = 4 * r + 2 ∧ C r ∨
      4 * k + c = 4 * r + 3 ∧ D r)) ↔ c = 0 ∧ A k ∨ c = 1 ∧ B k ∨ c = 2 ∧ C k ∨ c = 3 ∧ D k := by
  constructor
  · rintro ⟨r, -, hcell⟩
    obtain rfl : r = k := by omega
    simpa only [Nat.add_left_cancel_iff, Nat.add_eq_left] using hcell
  · intro hcell
    exact ⟨k, hk, by simpa only [Nat.add_left_cancel_iff, Nat.add_eq_left] using hcell⟩

/-- R66, R67: the four columns of the row that holds the cell. -/
theorem offendsAction_iff (cells : List Word) {i : Nat} (hi : i < 64) : offendsAction cells i = true ↔
    ∃ k, k < 16 ∧
      (i = 4 * k ∧ (2047 < cellAt cells i ∨ cellAt cells (4 * k + 1) ≠ 0 ∧ (1728 ≤ cellAt cells i ∧ cellAt cells i ≤ 1743 ∨
          ∃ j, j < k ∧ cellAt cells (4 * j + 1) ≠ 0 ∧ cellAt cells (4 * j) = cellAt cells i ∧
            cellAt cells (4 * j + 2) = cellAt cells (4 * k + 2))) ∨
        i = 4 * k + 1 ∧ (9 < cellAt cells i ∨ 3 ≤ cellAt cells i ∧ ∃ j, j < k ∧ cellAt cells (4 * j + 1) = cellAt cells i) ∨
        i = 4 * k + 2 ∧ (1 < cellAt cells i ∨ 3 ≤ cellAt cells (4 * k + 1) ∧ cellAt cells (4 * k + 1) ≤ 9 ∧
          cellAt cells i ≠ (if cellAt cells (4 * k + 1) = 4 ∨ cellAt cells (4 * k + 1) = 6 then 1 else 0)) ∨
        i = 4 * k + 3 ∧ 1 < cellAt cells i) := by
  obtain ⟨k, c, hk, hc, rfl⟩ : ∃ k c, k < 16 ∧ c < 4 ∧ i = 4 * k + c := ⟨i / 4, i % 4, by omega, by omega, by omega⟩
  rw [exists_row_iff hk hc]
  obtain rfl | rfl | rfl | rfl : c = 0 ∨ c = 1 ∨ c = 2 ∨ c = 3 := by omega
  · simpa using offendsAction_id cells k
  · simpa using offendsAction_kind cells k
  · simpa using offendsAction_port cells k
  · simpa using offendsAction_coalesce cells k

/-- R132: the first offending cell is the lowest, and there is none when no cell of the plane offends. -/
theorem firstOffending_iff {p : PlaneId} {cells : List Word} {bad : Nat → Prop}
    (hbad : ∀ i, i < p.size → (offends p cells i = true ↔ bad i)) :
    (∀ i, firstOffending p cells = some i ↔ i < p.size ∧ bad i ∧ ∀ j, j < i → ¬ bad j) ∧
      (firstOffending p cells = none ↔ ∀ i, i < p.size → ¬ bad i) := by
  refine ⟨fun i => ?_, ?_⟩
  · unfold firstOffending
    rw [List.find?_range_eq_some, List.mem_range, and_left_comm]
    refine and_congr_right fun hi => and_congr (hbad i hi) (forall₂_congr fun j hj => ?_)
    rw [Bool.not_eq_true', ← hbad j (hj.trans hi), Bool.not_eq_true]
  · unfold firstOffending
    rw [List.find?_range_eq_none]
    refine forall₂_congr fun i hi => ?_
    rw [Bool.not_eq_true', ← hbad i hi, Bool.not_eq_true]

/-! ### Commit Plane (R131 to R133) -/

section Commit

variable {p : PlaneId} {pl : Plane} {e : CheckPair}

theorem commitResult_empty (h : pl.status = .empty) : commitResult p pl e = (.notReady, [], pl) := if_pos h

/-- R132: with the pair, a cell that offends is reported. -/
theorem commitResult_range {i : Nat} (h : pl.status ≠ .empty) (he : pairOf pl.cells = e)
    (hi : firstOffending p pl.cells = some i) : commitResult p pl e = (.range, natBytes i, pl) := by
  simp only [commitResult, if_neg h, if_pos he, hi]

/-- R131: with the pair and no cell that offends the plane is VERIFIED. -/
theorem commitResult_ok (h : pl.status ≠ .empty) (he : pairOf pl.cells = e) (hnone : firstOffending p pl.cells = none) :
    commitResult p pl e = (.ok, [], { pl with status := .verified e }) := by
  subst he
  simp only [commitResult, if_neg h, if_true, hnone]

/-- R133: without the pair, a cell that alone explains the differences is reported. -/
theorem commitResult_located {i : Nat} (h : pl.status ≠ .empty) (he : pairOf pl.cells ≠ e)
    (hi : locate p.size ((pairOf pl.cells).S - e.S) ((pairOf pl.cells).W - e.W) = some i) :
    commitResult p pl e = (.checkLocated, natBytes i ++ wordBytes ((pairOf pl.cells).S - e.S), pl) := by
  simp only [commitResult, if_neg h, if_neg he, hi]

theorem commitResult_unlocatable (h : pl.status ≠ .empty) (he : pairOf pl.cells ≠ e)
    (hnone : locate p.size ((pairOf pl.cells).S - e.S) ((pairOf pl.cells).W - e.W) = none) :
    commitResult p pl e = (.checkUnlocatable, [], pl) := by
  simp only [commitResult, if_neg h, if_neg he, hnone]

end Commit

theorem stagingRefusal_none {s : State} (hbusy : s.storeBusy = false) (hpending : s.banks.activationPending = false) :
    stagingRefusal s = none := by
  simp only [stagingRefusal, hbusy, hpending, Bool.false_eq_true, if_false]

theorem planeOf_above {n : Nat} (h : 7 < n) : planeOf n = none := by
  unfold planeOf
  split <;> first | rfl | omega

section Answer

variable {r : Request} {s : State} (hfree : stagingRefusal s = none)
include hfree

/-- R120: no plane has a number above 7. -/
theorem answerCommitPlane_badPlane (h : 7 < requestArg r 2) : answerCommitPlane r s = respond r .badArgument [] s := by
  simp only [answerCommitPlane, hfree, planeOf_above h]

/-- The result of the commit is answered over the bank with the plane after it. -/
theorem answerCommitPlane_plane {p : PlaneId} {res : Result} {d : List Byte} {pl : Plane}
    (hp : planeOf (requestArg r 2) = some p)
    (hc : commitResult p (s.banks.staging.get p) ⟨fieldAt r 3, fieldAt r 5⟩ = (res, d, pl)) :
    answerCommitPlane r s = respond r res d (s.withStaging (s.banks.staging.set p pl)) := by
  simp only [answerCommitPlane, hfree, hp, hc]

end Answer

section Taken

variable {s : State} {r : Request} {rest : List Request} (h : Ready s (r :: rest)) (hq : QueuesLegal s)
  (hfree : stagingRefusal (endRun (takeHead r rest s)) = none)
include h hq hfree

/-- The result of the commit is the answer, over the state whose staging bank holds the plane after it. -/
theorem commitPlane_answered {p : PlaneId} {res : Result} {d : List Byte} {pl : Plane}
    (hp : planeOf (requestArg r 2) = some p)
    (hc : commitResult p (s.banks.staging.get p) ⟨fieldAt r 3, fieldAt r 5⟩ = (res, d, pl)) :
    Answered ((taken s rest).withStaging (s.banks.staging.set p pl))
      (handDone (answerCommitPlane r (endRun (takeHead r rest s)))) (byteAt r 0) (requestSeq r) res d := by
  rw [answerCommitPlane_plane hfree hp hc]
  exact respond_after (u := (endRun (takeHead r rest s)).withStaging (s.banks.staging.set p pl)) h hq rfl rfl rfl rfl r res d

/-- A commit that leaves the plane as it is leaves the staging bank as it is. -/
theorem commitPlane_answered_kept {p : PlaneId} {res : Result} {d : List Byte}
    (hp : planeOf (requestArg r 2) = some p)
    (hc : commitResult p (s.banks.staging.get p) ⟨fieldAt r 3, fieldAt r 5⟩ = (res, d, s.banks.staging.get p)) :
    Answered (taken s rest) (handDone (answerCommitPlane r (endRun (takeHead r rest s)))) (byteAt r 0) (requestSeq r) res
      d := by
  have ha := commitPlane_answered h hq hfree hp hc
  rw [PerPlane.set_get] at ha
  exact ha

end Taken

/-- Settles O49: the pair by `addCells_S_toNat` and `addCells_W_toNat`, the offending cells plane by plane by
`firstOffending_iff`, and the request by the outcomes of `commitResult`. -/
theorem commitVerifiesOnlyAMatchingPlane : Obligations.CommitVerifiesOnlyAMatchingPlane := by
  unfold Obligations.CommitVerifiesOnlyAMatchingPlane
  refine ⟨fun _ => rfl, fun acc n cells => ⟨addCells_S_toNat cells acc n, addCells_W_toNat cells acc n⟩,
    fun p cells => ?_, fun s seq pn sh sl wh wl rest h hq hbusy hpending => ?_⟩
  · refine firstOffending_iff fun i hi => ?_
    cases p with
    | slipTarget | torqueCeiling | brakeFront | brakeRear | columnSelect =>
      exact (outOfRange_iff _ _ _).trans (or_iff_right (Nat.not_lt_zero _))
    | radius => exact outOfRange_iff _ _ _
    | parameter => exact offendsParameter_iff cells i
    | action => exact offendsAction_iff cells hi
  · let r : Request := [0x15, seq, pn, sh, sl, wh, wl]
    let u : State := endRun (takeHead r rest s)
    have hx : exec .commitPlane s = .next (handDone (answerCommitPlane r u)) :=
      congrArg _ (takeRequest_ready h (some .commitPlane) rfl (withLength 7 answerCommitPlane))
    have hfree : stagingRefusal u = none := stagingRefusal_none (s := u) hbusy hpending
    refine ⟨_, hx, fun hnumber => ?_, fun p hp => ?_⟩
    · rw [answerCommitPlane_badPlane (r := r) hfree hnumber]
      exact respond_after (u := u) h hq rfl rfl rfl rfl r .badArgument []
    · have kept := fun {res d} => commitPlane_answered_kept h hq hfree (res := res) (d := d) hp
      refine ⟨fun hempty => kept (commitResult_empty hempty), fun hloaded hpair => ⟨fun i hi => ?_, fun hnone => ?_⟩,
        fun hloaded hpair => ⟨fun i hi => ?_, fun hnone => ?_⟩⟩
      · exact kept (commitResult_range hloaded hpair hi)
      · exact commitPlane_answered h hq hfree hp (commitResult_ok hloaded hpair hnone)
      · exact kept (commitResult_located hloaded hpair hi)
      · exact kept (commitResult_unlocatable hloaded hpair hnone)

end Sys2Proof.Machine

/-!
Torque and brake limiting (05): the growth and recovery of cut and relief, and the acknowledgement monitor through every
command.
-/

namespace Sys2Proof.Machine

/-! ### Cut and relief (R80 to R83) -/

/-- An excess that is not negative, rounded up to whole steps of 64. -/
theorem toNat_roundedUp {x : Int} (h : 0 ≤ x) : (((x + 63) / 64).toNat : Int) = (x + 63) / 64 :=
  Int.toNat_of_nonneg (by omega)

section Growth

variable {b : Bank} {ctl : CtlState} {below : Bool}

/-- R80: what the cut grows by, before its division, is not negative, and positive on a slip excess. -/
theorem cutExcess_nonneg (b : Bank) (e : Int) {p : Int} (hp : 0 ≤ p) :
    0 ≤ (param b .cutGain : Int) * max e 0 + (param b .liftGain : Int) * p ∧
      (0 < e → 0 < (param b .cutGain : Int) * max e 0 + (param b .liftGain : Int) * p) := by
  have hlift : 0 ≤ (param b .liftGain : Int) * p := Int.mul_nonneg (Int.natCast_nonneg _) hp
  have hslip : 0 ≤ (param b .cutGain : Int) * max e 0 := Int.mul_nonneg (Int.natCast_nonneg _) (le_max_right _ _)
  refine ⟨Int.add_nonneg hslip hlift, fun he => ?_⟩
  have hgain : 1 ≤ param b .cutGain := (param_range b .cutGain).1
  have hpos : 0 < (param b .cutGain : Int) * max e 0 := Int.mul_pos (by omega) (lt_max_of_lt_left he)
  omega

/-- R80: the cut's growth, rounded up and at most 400. -/
theorem newCut_grows {e p : Int} (cut : Nat) (hp : 0 ≤ p) (h : below = false ∧ ctl = .active ∧ (0 < e ∨ 0 < p)) :
    (newCut b ctl below e p cut : Int) =
      min 400 ((cut : Int) + ((param b .cutGain : Int) * max e 0 + (param b .liftGain : Int) * p + 63) / 64) := by
  unfold newCut
  rw [if_pos h, Nat.cast_min, Nat.cast_add, toNat_roundedUp (cutExcess_nonneg b e hp).1]
  rfl

/-- R81: the cut's recovery, not below 0. -/
theorem newCut_recovers {e p : Int} (cut : Nat) (h : below = true ∨ ctl ≠ .active ∨ (e ≤ 0 ∧ p ≤ 0)) :
    (newCut b ctl below e p cut : Int) = max 0 ((cut : Int) - (param b .cutRecovery : Int)) := by
  have hn : ¬ (below = false ∧ ctl = .active ∧ (e > 0 ∨ p > 0)) := by
    rintro ⟨hbelow, hactive, hexcess⟩
    rcases h with h | h | ⟨he, hp⟩
    · exact Bool.false_ne_true (hbelow.symm.trans h)
    · exact h hactive
    · omega
  unfold newCut
  rw [if_neg hn]
  omega

/-- R82: the relief's growth, rounded up and at most DRAG_MAX. -/
theorem newRelief_grows {q slip : Int} (relief : Nat)
    (h : ctl = .active ∧ below = false ∧ q ≤ 0 ∧ slip < -(param b .dragSlip : Int)) :
    (newRelief b ctl below q slip relief : Int) = min (param b .dragMax : Int)
      ((relief : Int) + ((param b .dragGain : Int) * (-(param b .dragSlip : Int) - slip) + 63) / 64) := by
  have hexcess : 0 ≤ (param b .dragGain : Int) * (-(param b .dragSlip : Int) - slip) :=
    Int.mul_nonneg (Int.natCast_nonneg _) (by omega)
  unfold newRelief
  rw [if_pos h, Nat.cast_min, Nat.cast_add, toNat_roundedUp hexcess]

/-- R83: the relief's recovery, not below 0 and at most DRAG_MAX. -/
theorem newRelief_recovers {q slip : Int} (relief : Nat)
    (h : ctl ≠ .active ∨ below = true ∨ 0 < q ∨ -(param b .dragSlip : Int) ≤ slip) :
    (newRelief b ctl below q slip relief : Int) =
      min (param b .dragMax : Int) (max 0 ((relief : Int) - (param b .dragRecovery : Int))) := by
  have hn : ¬ (ctl = .active ∧ below = false ∧ q ≤ 0 ∧ slip < -(param b .dragSlip : Int)) := by
    rintro ⟨hactive, hbelow, hq, hslip⟩
    rcases h with h | h | h | h
    · exact h hactive
    · exact Bool.false_ne_true (hbelow.symm.trans h)
    · omega
    · omega
  unfold newRelief
  rw [if_neg hn]
  omega

end Growth

/-- Settles O28: each of the two grows or recovers, and `cutExcess_nonneg` says that the cut grows on a slip excess. -/
theorem cutAndReliefGrowOrRecover : Obligations.CutAndReliefGrowOrRecover := by
  unfold Obligations.CutAndReliefGrowOrRecover
  refine ⟨fun b ctl below e p cut hp => ⟨fun h => ?_, newCut_recovers cut⟩, fun b ctl below q slip relief =>
    ⟨newRelief_le b ctl below q slip relief, newRelief_grows relief, newRelief_recovers relief⟩⟩
  have hgrown := newCut_grows (b := b) cut hp h
  obtain ⟨hnonneg, hpos⟩ := cutExcess_nonneg b e hp
  refine ⟨hgrown, fun he hroom => ?_, fun hcut => ?_⟩
  · have := hpos he
    omega
  · omega

end Sys2Proof.Machine

namespace Sys2Proof.Machine

/-! ### What a step can do to the acknowledgement monitor (R92 to R98) -/

/-- The limits of R92 on the monitor alone. -/
structure AckMonitor.Within (a : AckMonitor) : Prop where
  length   : a.records.length ≤ Config.ackPlaces
  counters : (a.records.map fun r => r.counter).Nodup
  torques  : ∀ r ∈ a.records, 0 ≤ r.torque ∧ r.torque < 400
  misses   : a.missCount ≤ Config.maxMissCount

theorem ackLegal_iff (s : State) : AckLegal s ↔ s.ack.Within :=
  ⟨fun ⟨hl, hc, ht, hm⟩ => ⟨hl, hc, ht, hm⟩, fun ⟨hl, hc, ht, hm⟩ => ⟨hl, hc, ht, hm⟩⟩

/-- The list without the record of a counter. -/
def withoutCounter (c : Counter) (l : List AckRecord) : List AckRecord := l.filter fun r => r.counter != c

/-- What a step can do to the monitor: nothing, a record opened for a reduced torque (R93, R94), a record closed as a miss
(R97, R98) or with a satisfied verdict (R96), or a reset (R92). -/
inductive AckStep (a : AckMonitor) : AckMonitor → Prop where
  | stay : AckStep a a
  | opened (r : AckRecord) : 0 ≤ r.torque → r.torque < 400 →
      AckStep a { a with records := makeRoom r.counter a.records ++ [r] }
  | missed (c : Counter) (b : Bool) :
      AckStep a ⟨withoutCounter c a.records, min Config.maxMissCount (a.missCount + 1), b⟩
  | satisfied (c : Counter) : AckStep a ⟨withoutCounter c a.records, 0, false⟩
  | reset : AckStep a resetAck

theorem AckStep.of_eq {a a' : AckMonitor} (h : a' = a) : AckStep a a' := h ▸ .stay

theorem withoutCounter_sublist (c : Counter) (l : List AckRecord) : (withoutCounter c l).Sublist l := List.filter_sublist

theorem makeRoom_sublist (c : Counter) (l : List AckRecord) : (makeRoom c l).Sublist (withoutCounter c l) := by
  unfold makeRoom
  dsimp only
  split
  · exact List.drop_sublist _ _
  · exact .refl _

/-- R94: no record of the new one's counter is left. -/
theorem makeRoom_counter {c : Counter} {l : List AckRecord} {r : AckRecord} (h : r ∈ makeRoom c l) : r.counter ≠ c := by
  have hr := (makeRoom_sublist c l).subset h
  simpa [withoutCounter] using (List.mem_filter.mp hr).2

/-- R94: a place is free for the new record. -/
theorem makeRoom_length (c : Counter) {l : List AckRecord} (h : l.length ≤ Config.ackPlaces) :
    (makeRoom c l).length < Config.ackPlaces := by
  have hle := (withoutCounter_sublist c l).length_le
  unfold withoutCounter at hle
  unfold makeRoom
  dsimp only
  split
  · rw [List.length_drop]
    simp only [Config.ackPlaces] at h ⊢
    omega
  · omega

/-- Fewer records, and a miss count within its bound. -/
theorem AckMonitor.Within.fewer {a : AckMonitor} (h : a.Within) {l : List AckRecord} (hl : l.Sublist a.records) {n : Nat}
    (hn : n ≤ Config.maxMissCount) (b : Bool) : AckMonitor.Within ⟨l, n, b⟩ :=
  ⟨hl.length_le.trans h.length, h.counters.sublist (hl.map _), fun r hr => h.torques r (hl.subset hr), hn⟩

/-- R93, R94: a record opened keeps the limits. -/
theorem AckMonitor.Within.opened {a : AckMonitor} (h : a.Within) {r : AckRecord} (hr : 0 ≤ r.torque ∧ r.torque < 400) :
    AckMonitor.Within { a with records := makeRoom r.counter a.records ++ [r] } := by
  have hroom : AckMonitor.Within { a with records := makeRoom r.counter a.records } :=
    h.fewer ((makeRoom_sublist _ _).trans (withoutCounter_sublist _ _)) h.misses a.fault
  refine ⟨?_, ?_, fun x hx => ?_, h.misses⟩
  · simpa using makeRoom_length r.counter h.length
  · rw [List.map_append]
    refine hroom.counters.append (List.nodup_singleton _) ?_
    simpa using fun x hx => makeRoom_counter (c := r.counter) hx
  · rcases List.mem_append.mp hx with hx | hx
    · exact hroom.torques x hx
    · exact List.mem_singleton.mp hx ▸ hr

/-- The limits are kept by all that a step can do to the monitor. -/
theorem AckMonitor.Within.step {a a' : AckMonitor} (h : a.Within) (m : AckStep a a') : a'.Within := by
  cases m with
  | stay => exact h
  | opened r hlow hhigh => exact h.opened ⟨hlow, hhigh⟩
  | missed c b => exact h.fewer (withoutCounter_sublist _ _) (min_le_left _ _) b
  | satisfied c => exact h.fewer (withoutCounter_sublist _ _) (Nat.zero_le _) false
  | reset => exact ⟨Nat.zero_le _, List.nodup_nil, by simp [resetAck], Nat.zero_le _⟩

end Sys2Proof.Machine

namespace Sys2Proof.Machine

/-! ### The monitor's own events (R93 to R98) -/

/-- R98: a miss raises the count, whatever becomes of the flag. -/
theorem ackMiss_ack (s : State) :
    ∃ b, (ackMiss s).ack = ⟨s.ack.records, min Config.maxMissCount (s.ack.missCount + 1), b⟩ := by
  rw [ackMiss_eq (u := s) rfl]
  split
  · exact ⟨true, raiseCondition_ack _ _⟩
  · exact ⟨s.ack.fault, rfl⟩

/-- R95 to R98: an acknowledgement closes its record or is ignored. -/
theorem ackArrival_ackStep (d : List Byte) (s : State) : AckStep s.ack (ackArrival d s).ack := by
  unfold ackArrival
  split
  · split
    · exact .stay
    · unfold ackVerdict
      split
      · exact .satisfied (counterAt d 2)
      · obtain ⟨b, hb⟩ := ackMiss_ack (raiseCondition .ackOverrun (removeRecord (counterAt d 2) s))
        rw [hb, raiseCondition_ack]
        exact .missed (counterAt d 2) b
  · exact .stay

/-- R97: the expiry of a record is a miss. -/
theorem ackExpiry_ackStep (c : Counter) (s : State) : AckStep s.ack (ackMiss (removeRecord c s)).ack := by
  obtain ⟨b, hb⟩ := ackMiss_ack (removeRecord c s)
  rw [hb]
  exact .missed c b

theorem nextPart_ack (s : State) : (nextPart s).ack = s.ack := by
  fun_cases nextPart s <;> simp [placePart]

/-- R15, R93: an entry of a legal queue that has been sent opens a record with a torque of 0 to 399, or none. -/
theorem sendDone_ackStep {s : State} (h : QueuesLegal s) {p : Port} {e : Entry} (he : e ∈ s.queue p) (t : Millis) :
    AckStep s.ack (sendDone p e t s).ack := by
  have hlegal : contentLegal e.origin e.content := by
    cases p with
    | upstream => exact (h.upstream.entries e he).content
    | actuator => exact (h.actuator.entries e he).content
  have hsent : (sendDone p e t s).ack = (reducedSent e.content t s).ack := by
    simp only [sendDone, partSent, State.offerAt, State.setQueue_ack]
    split <;> simp [nextPart_ack]
  rw [hsent]
  unfold reducedSent
  split
  · rename_i ft hft
    obtain ⟨-, -, htorque⟩ := hlegal
    obtain ⟨-, hlow, hhigh⟩ := htorque ft hft
    exact .opened ⟨ft.counter, ft.torque, _⟩ hlow hhigh
  · exact .stay

theorem sendFailed_ack (p : Port) (e : Entry) (s : State) : (sendFailed p e s).ack = s.ack := by
  have hlost : ∀ (c : Content) (u : State), (u.partLost c).ack = u.ack := fun c u => (u.partLost_onlySent c).ack
  fun_cases sendFailed p e s <;> simp +zetaDelta [State.offerAt, hlost]

/-! ### What leaves the monitor as it is -/

@[simp] theorem lookupRefresh_ack (s : State) : (lookupRefresh s).ack = s.ack := by
  fun_cases lookupRefresh s <;> rfl

@[simp] theorem requestPass_ack (s : State) : (requestPass s).ack = s.ack := by
  fun_cases requestPass s <;> rfl

@[simp] theorem beginWaiting_ack (s : State) : (beginWaiting s).ack = s.ack := by
  fun_cases beginWaiting s <;> rfl

@[simp] theorem forwardPlain_ack (p : Port) (f : Frame) (k : Bool) (s : State) : (forwardPlain p f k s).ack = s.ack :=
  place_ack _ _ _ _ _

@[simp] theorem imuArrival_ack (d : List Byte) (t : Millis) (s : State) : (imuArrival d t s).ack = s.ack := by
  fun_cases imuArrival d t s <;> simp +zetaDelta [imuAccept]

@[simp] theorem wheelArrival_ack (d : List Byte) (t : Millis) (s : State) : (wheelArrival d t s).ack = s.ack := by
  fun_cases wheelArrival d t s <;> simp +zetaDelta [wheelAccept]

@[simp] theorem brakeArrival_ack (d : List Byte) (t : Millis) (s : State) : (brakeArrival d t s).ack = s.ack := by
  fun_cases brakeArrival d t s <;> rfl

@[simp] theorem torqueArrival_ack (d : List Byte) (s : State) : (torqueArrival d s).ack = s.ack := by
  fun_cases torqueArrival d s <;> rfl

@[simp] theorem rideModeArrival_ack (d : List Byte) (s : State) : (rideModeArrival d s).ack = s.ack := by
  have hand : ∀ (m : Option RideMode) (u : State), (u.handRideMode m).ack = u.ack := fun m u => by cases m <;> rfl
  fun_cases rideModeArrival d s <;> simp +zetaDelta [hand]

@[simp] theorem loadStateArrival_ack (d : List Byte) (s : State) : (loadStateArrival d s).ack = s.ack := by
  have hand : ∀ (l : Option LoadState) (u : State), (u.handLoadState l).ack = u.ack := fun l u => by cases l <;> rfl
  fun_cases loadStateArrival d s <;> simp +zetaDelta [hand]

@[simp] theorem torqueRequestFrame_ack (p : Port) (f : Frame) (s : State) : (torqueRequestFrame p f s).ack = s.ack := by
  fun_cases torqueRequestFrame p f s <;> simp [forwardBadCheck]

@[simp] theorem brakeDemandFrame_ack (p : Port) (f : Frame) (t : Millis) (s : State) :
    (brakeDemandFrame p f t s).ack = s.ack := by
  fun_cases brakeDemandFrame p f t s <;> simp [forwardBadCheck]

@[simp] theorem requestArrival_ack (r : Request) (s : State) : (requestArrival r s).ack = s.ack := by
  fun_cases requestArrival r s <;> simp

/-- R4: of the frames that a port takes, an acknowledgement alone reaches the monitor. -/
theorem receive_ackStep (p : Port) (f : Frame) (t : Millis) (s : State) : AckStep s.ack (receive p f t s).ack := by
  unfold receive
  split
  · exact .of_eq (requestArrival_ack _ _)
  · obtain ⟨a, k⟩ := classify s.banks.active p f
    cases a with
    | torqueAck =>
      rw [← forwardPlain_ack p f k s]
      exact ackArrival_ackStep _ _
    | _ => exact .of_eq (by simp [actOn])

theorem enterLost_ack (s : State) : (enterLost s).ack = s.ack := by simp [enterLost]

theorem holdExpiry_ack (s : State) : (holdExpiry s).ack = s.ack := by
  fun_cases holdExpiry s <;> simp [enterLost_ack]

theorem lostExpiry_ack (s : State) : (lostExpiry s).ack = s.ack := by
  fun_cases lostExpiry s <;> simp [enterLost_ack]

theorem wheelExpiry_ack (s : State) : (wheelExpiry s).ack = s.ack := by
  fun_cases wheelExpiry s <;> simp +zetaDelta [enterPassive]

theorem statusFrame_ack (t : Millis) (s : State) :
    (startStatusTimer t (place .upstream (plainContent (statusFrame s)) .part true s)).ack = s.ack := place_ack _ _ _ _ _

theorem planePhaseDone_ack (i : SlotId) (p : PlaneId) (l : List (Nat × Word)) (s : State) :
    (planePhaseDone i p l s).ack = s.ack := by
  fun_cases planePhaseDone i p l s <;> simp +zetaDelta [failStore]

theorem headerPhaseDone_ack (i : SlotId) (r : HeaderReadBack) (s : State) : (headerPhaseDone i r s).ack = s.ack := by
  cases r <;> simp [headerPhaseDone, failStore]

theorem buildDone_ack (t : Millis) (s : State) : (buildDone t s).ack = s.ack := by
  fun_cases buildDone t s <;> simp +zetaDelta

/-- R54: the three blocks do not reach the monitor, a bank exchange included. -/
theorem blocksTake_ack (o : TakeOrder) (q : Int) (s : State) : (blocksTake o q s).ack = s.ack := by
  refine List.foldlRecOn (motive := fun u : State => u.ack = s.ack) o.blocks _ rfl fun u hu c _ => Eq.trans ?_ hu
  cases c with
  | controlStateUnit => exact (controlTakes_keeps q u).ack
  | scrubUnit => exact (scrubTakes_keeps u).ack
  | mapBanks =>
    show (banksTake u).ack = u.ack
    fun_cases banksTake u <;> simp [exchangeBanks, swapBanks]

theorem passCompletion_ack (o : TakeOrder) (p : Pass) (s : State) :
    (beginWaiting (blocksTake o p.inputs.q (recordPass p s))).ack = s.ack := by
  rw [beginWaiting_ack, blocksTake_ack]
  rfl

end Sys2Proof.Machine

namespace Sys2Proof.Machine

/-! ### Requests: Restart alone resets the monitor (R92, R159) -/

@[simp] theorem respond_ack (r : Request) (res : Result) (d : List Byte) (s : State) : (respond r res d s).ack = s.ack := by
  obtain ⟨q, x, c, h⟩ := placeResponse_frame (numberParts (byteAt r 0) (requestSeq r) res 0 (divideData d)) s
  unfold respond
  rw [h]

@[simp] theorem endRun_ack (s : State) : (endRun s).ack = s.ack := rfl

/-- An answer does to the monitor what a step can do. -/
def StepsAck (answer : Request → State → State) : Prop := ∀ r s, AckStep s.ack (answer r s).ack

/-- An answer that leaves the monitor as it is. -/
theorem StepsAck.of_eq {answer : Request → State → State} (h : ∀ r s, (answer r s).ack = s.ack) : StepsAck answer :=
  fun r s => .of_eq (h r s)

theorem StepsAck.withLength {n : Nat} {body : Request → State → State} (h : StepsAck body) :
    StepsAck (withLength n body) := by
  intro r s
  fun_cases Machine.withLength n body r s with
  | case1 u hlen => exact h r (endRun s)
  | case2 u hlen => exact .of_eq (respond_ack _ _ _ _)

/-- A request of one allowed length whose answer leaves the monitor as it is. -/
theorem StepsAck.fixedLength {n : Nat} {body : Request → State → State} (h : ∀ r s, (body r s).ack = s.ack) :
    StepsAck (Machine.withLength n body) := (StepsAck.of_eq h).withLength

theorem takeRequest_ackStep {answer : Request → State → State} (h : StepsAck answer) (code : Option RequestCode)
    (s : State) : AckStep s.ack (takeRequest code answer s).ack := by
  rcases takeRequest_cases code answer s with e | ⟨r, rest, -, -, e⟩
  · rw [e]; exact .stay
  · rw [e]; exact h r (takeHead r rest s)

/-- A command that takes a request does to the monitor what its answer does. -/
theorem StepsAck.taken {answer : Request → State → State} (h : StepsAck answer) {code : Option RequestCode} {s t : State}
    (hx : (.next (takeRequest code answer s) : Host.Outcome State Fault Refusal) = .next t) : AckStep s.ack t.ack :=
  Host.Outcome.next.inj hx ▸ takeRequest_ackStep h code s

theorem answerIdentify_ack (r : Request) (s : State) : (answerIdentify r s).ack = s.ack := respond_ack _ _ _ _

theorem answerReadStatus_ack (r : Request) (s : State) : (answerReadStatus r s).ack = s.ack := by
  fun_cases answerReadStatus r s <;> simp

theorem answerEnableNotices_ack (r : Request) (s : State) : (answerEnableNotices r s).ack = s.ack := by
  fun_cases answerEnableNotices r s <;> simp

theorem answerDisableNotices_ack (r : Request) (s : State) : (answerDisableNotices r s).ack = s.ack := by
  fun_cases answerDisableNotices r s <;> simp

theorem answerClearConditions_ack (r : Request) (s : State) : (answerClearConditions r s).ack = s.ack := by
  fun_cases answerClearConditions r s <;> simp

theorem answerClearResetCause_ack (r : Request) (s : State) : (answerClearResetCause r s).ack = s.ack := respond_ack _ _ _ _

theorem answerEnterRoller_ack (r : Request) (s : State) : (answerEnterRoller r s).ack = s.ack := by
  fun_cases answerEnterRoller r s <;> simp

theorem answerLeaveRoller_ack (r : Request) (s : State) : (answerLeaveRoller r s).ack = s.ack := by
  fun_cases answerLeaveRoller r s <;> simp

theorem answerOpenWindow_ack (r : Request) (s : State) : (answerOpenWindow r s).ack = s.ack := by
  fun_cases answerOpenWindow r s <;> simp

theorem answerLoadData_ack (r : Request) (s : State) : (answerLoadData r s).ack = s.ack := by
  fun_cases answerLoadData r s <;> simp [loadValues]

theorem answerResumeWindow_ack (r : Request) (s : State) : (answerResumeWindow r s).ack = s.ack := by
  fun_cases answerResumeWindow r s <;> simp

theorem answerReadData_ack (r : Request) (s : State) : (answerReadData r s).ack = s.ack := by
  fun_cases answerReadData r s <;> simp [readValues]

theorem answerFillWindow_ack (r : Request) (s : State) : (answerFillWindow r s).ack = s.ack := by
  fun_cases answerFillWindow r s <;> simp +zetaDelta

theorem answerCommitPlane_ack (r : Request) (s : State) : (answerCommitPlane r s).ack = s.ack := by
  fun_cases answerCommitPlane r s <;> simp

theorem answerStageCopy_ack (r : Request) (s : State) : (answerStageCopy r s).ack = s.ack := by
  fun_cases answerStageCopy r s <;> simp

theorem answerActivate_ack (r : Request) (s : State) : (answerActivate r s).ack = s.ack := by
  fun_cases answerActivate r s <;> simp +zetaDelta

theorem answerCancelActivation_ack (r : Request) (s : State) : (answerCancelActivation r s).ack = s.ack :=
  respond_ack _ _ _ _

theorem answerStoreImage_ack (r : Request) (s : State) : (answerStoreImage r s).ack = s.ack := by
  fun_cases answerStoreImage r s <;> simp

theorem answerLoadImage_ack (r : Request) (s : State) : (answerLoadImage r s).ack = s.ack := by
  fun_cases answerLoadImage r s <;> simp

theorem answerSelectBootSlot_ack (r : Request) (s : State) : (answerSelectBootSlot r s).ack = s.ack := by
  fun_cases answerSelectBootSlot r s <;> simp

/-- R159: an accepted Restart empties the monitor. -/
theorem answerRestart_stepsAck (t : Millis) : StepsAck (answerRestart t) := by
  intro r s
  fun_cases answerRestart t r s with
  | case1 => exact .of_eq (respond_ack _ _ _ _)
  | case2 => rw [respond_ack]; exact .reset
  | case3 => exact .of_eq (respond_ack _ _ _ _)

/-! ### Every command -/

/-- A command that acts only when its event has come and leaves the monitor as it is. -/
theorem AckStep.when {s u t : State} {P : Prop} [Decidable P] (h : u.ack = s.ack)
    (hx : (.next (if P then u else s) : Host.Outcome State Fault Refusal) = .next t) : AckStep s.ack t.ack := by
  injection hx with hx
  rw [← hx]
  split
  · exact .of_eq h
  · exact .stay

/-- What every command does to the monitor is in the list. -/
theorem exec_ackStep {c : Instr} {s t : State} (h : QueuesLegal s) (hx : exec c s = .next t) : AckStep s.ack t.ack := by
  cases c with
  | frameReceive p f t =>
    injection hx with hx; rw [← hx]
    split
    · exact receive_ackStep _ _ _ _
    · exact .stay
  | transmitComplete p t =>
    injection hx with hx; rw [← hx]
    split
    · exact .stay
    · exact sendDone_ackStep h (List.mem_of_find?_eq_some ‹_›) t
  | transmitError p =>
    injection hx with hx; rw [← hx]
    split
    · exact .stay
    · exact .of_eq (sendFailed_ack _ _ _)
  | staleTransmitReport p r => exact Host.Outcome.next.inj hx ▸ .stay
  | passCompletion o =>
    injection hx with hx; rw [← hx]
    split
    · exact .stay
    · exact .of_eq (passCompletion_ack _ _ _)
  | ackDeadlineExpiry k t =>
    injection hx with hx; rw [← hx]
    split
    · exact .stay
    · split
      · exact ackExpiry_ackStep k s
      · exact .stay
  | storePlanePhaseComplete l =>
    injection hx with hx; rw [← hx]
    split
    · exact .of_eq (planePhaseDone_ack _ _ _ _)
    · exact .stay
    · exact .stay
  | storeHeaderPhaseComplete r =>
    injection hx with hx; rw [← hx]
    split
    · exact .of_eq (headerPhaseDone_ack _ _ _)
    · exact .stay
    · exact .stay
  | powerOn n => exact Host.Outcome.next.inj hx ▸ .reset
  | resetLine n => exact Host.Outcome.next.inj hx ▸ .reset
  | holdTimerExpiry t => exact .when (holdExpiry_ack s) hx
  | lostTimerExpiry t => exact .when (lostExpiry_ack s) hx
  | wheelTimeout t => exact .when (wheelExpiry_ack s) hx
  | brakeTimerExpiry t => exact .when (State.withSensors_ack s _) hx
  | statusTimerExpiry t => exact .when (statusFrame_ack t s) hx
  | bootBuildComplete t => exact .when (buildDone_ack t s) hx
  | identify => exact (StepsAck.fixedLength answerIdentify_ack).taken hx
  | readStatus => exact (StepsAck.of_eq answerReadStatus_ack).taken hx
  | enableNotices => exact (StepsAck.fixedLength answerEnableNotices_ack).taken hx
  | disableNotices => exact (StepsAck.fixedLength answerDisableNotices_ack).taken hx
  | clearConditions => exact (StepsAck.fixedLength answerClearConditions_ack).taken hx
  | clearResetCause => exact (StepsAck.fixedLength answerClearResetCause_ack).taken hx
  | enterRoller => exact (StepsAck.fixedLength answerEnterRoller_ack).taken hx
  | leaveRoller => exact (StepsAck.fixedLength answerLeaveRoller_ack).taken hx
  | restart t => exact (answerRestart_stepsAck t).withLength.taken hx
  | openWindow => exact (StepsAck.fixedLength answerOpenWindow_ack).taken hx
  | loadData => exact (StepsAck.of_eq answerLoadData_ack).taken hx
  | resumeWindow => exact (StepsAck.fixedLength answerResumeWindow_ack).taken hx
  | readData => exact (StepsAck.of_eq answerReadData_ack).taken hx
  | fillWindow => exact (StepsAck.fixedLength answerFillWindow_ack).taken hx
  | commitPlane => exact (StepsAck.fixedLength answerCommitPlane_ack).taken hx
  | stageCopy => exact (StepsAck.fixedLength answerStageCopy_ack).taken hx
  | activate => exact (StepsAck.fixedLength answerActivate_ack).taken hx
  | cancelActivation => exact (StepsAck.fixedLength answerCancelActivation_ack).taken hx
  | storeImage => exact (StepsAck.fixedLength answerStoreImage_ack).taken hx
  | loadImage => exact (StepsAck.fixedLength answerLoadImage_ack).taken hx
  | selectBootSlot => exact (StepsAck.fixedLength answerSelectBootSlot_ack).taken hx
  | unknownRequest => exact (StepsAck.of_eq fun _ => endRun_ack).taken hx

/-- Settles O6: the limits go through the list of `AckStep`; the queues' limits bound the torque of a record that opens. -/
theorem ackListStaysWithinItsLimits : Obligations.AckListStaysWithinItsLimits := by
  unfold Obligations.AckListStaysWithinItsLimits KeptUnder
  rintro s t ⟨hqueues, -⟩ h hstep
  rw [ackLegal_iff] at h ⊢
  unfold step at hstep
  split at hstep
  · injection hstep with e
    exact e ▸ h
  · rename_i c rest _
    refine h.step (exec_ackStep (s := { s with pending := rest }) ?_ hstep)
    exact hqueues.congr rfl rfl rfl rfl

end Sys2Proof.Machine

/-!
The plane states of both banks (R119, R135, R169) and LIMP against the LIMP planes (R111, R112, R118), through every step.
-/

namespace Sys2Proof.Machine

/-! ### Planes of either bank (R134, R135, R138, R173, R175) -/

/-- The planes an active bank may hold: VERIFIED or FAULTY (R119, R175). -/
def activeLegal (b : Bank) : Prop := ∀ p, (b.get p).isVerified = true ∨ (b.get p).isFaulty = true

/-- The planes a staging bank may hold: none is FAULTY (R119, R138). -/
def stagingLegal (b : Bank) : Prop := ∀ p, (b.get p).isFaulty = false

theorem Plane.isVerified_of_status {x y : Plane} (h : x.status = y.status) : x.isVerified = y.isVerified := by
  unfold Plane.isVerified
  rw [h]

theorem Plane.isFaulty_of_status {x y : Plane} (h : x.status = y.status) : x.isFaulty = y.isFaulty := by
  unfold Plane.isFaulty
  rw [h]

theorem Plane.not_faulty_of_verified {x : Plane} (h : x.isVerified = true) : x.isFaulty = false := by
  obtain ⟨c, hc⟩ := x.isVerified_iff.mp h
  unfold Plane.isFaulty
  rw [hc]
  rfl

theorem activeLegal_of_allVerified {b : Bank} (h : allVerified b = true) : activeLegal b :=
  fun p => .inl ((allVerified_iff b).mp h p)

/-- The legality of an active bank depends on the plane states alone. -/
theorem activeLegal.of_status {b c : Bank} (h : activeLegal b) (hs : ∀ p, (c.get p).status = (b.get p).status) :
    activeLegal c := fun p =>
  (h p).imp ((Plane.isVerified_of_status (hs p)).trans ·) ((Plane.isFaulty_of_status (hs p)).trans ·)

theorem activeLegal.set {b : Bank} (h : activeLegal b) (p : PlaneId) {x : Plane}
    (hx : x.isVerified = true ∨ x.isFaulty = true) : activeLegal (b.set p x) := by
  intro q
  rw [PerPlane.get_set]
  split
  · exact hx
  · exact h q

theorem stagingLegal.set {b : Bank} (h : stagingLegal b) (p : PlaneId) {x : Plane} (hx : x.isFaulty = false) :
    stagingLegal (b.set p x) := by
  intro q
  rw [PerPlane.get_set]
  split
  · exact hx
  · exact h q

theorem stagingLegal_build {f : PlaneId → Plane} (h : ∀ p, (f p).isFaulty = false) : stagingLegal (PerPlane.build f) := by
  intro p
  rw [PerPlane.get_build]
  exact h p

theorem emptyBank_stagingLegal : stagingLegal emptyBank := reset_planesLegal.staging

/-- R134, R138: a FAULTY plane comes into staging LOADING. -/
theorem stagedPlane_not_faulty (pl : Plane) : (stagedPlane pl).isFaulty = false := by
  unfold stagedPlane
  split
  · rfl
  · exact Bool.eq_false_of_not_eq_true ‹_›

theorem verifiedFrom_verified {x : Slot} {p : PlaneId} {pl : Plane} (h : verifiedFrom x p = some pl) :
    pl.isVerified = true := by
  unfold verifiedFrom at h
  split at h
  · obtain rfl := Option.some.inj h
    rfl
  · cases h

/-- R173: a plane loaded from a slot is VERIFIED or LOADING. -/
theorem loadedPlane_not_faulty (x : Slot) (p : PlaneId) : (loadedPlane x p).isFaulty = false := by
  unfold loadedPlane
  cases h : verifiedFrom x p with
  | none => rfl
  | some pl => exact Plane.not_faulty_of_verified (verifiedFrom_verified h)

/-- R135, step 3: the recomputation makes no plane FAULTY. -/
theorem recheckedPlane_not_faulty {pl : Plane} (h : pl.isFaulty = false) : (recheckedPlane pl).isFaulty = false := by
  unfold recheckedPlane
  split
  case h_1 =>
    split
    · exact h
    · rfl
  all_goals exact h

/-- R175, R176: a plane replaced at boot is a built-in one or FAULTY. -/
theorem replacedPlane_inForce (x : Slot) (p : PlaneId) :
    (replacedPlane x p).isVerified = true ∨ (replacedPlane x p).isFaulty = true := by
  cases p with
  | parameter | action => exact .inl rfl
  | _ => exact .inr rfl

/-- R175, R176: the bank built at boot holds planes that are VERIFIED or FAULTY. -/
theorem bootBank_activeLegal (x : Slot) : activeLegal (bootBank x) := by
  intro p
  unfold bootBank
  rw [PerPlane.get_build]
  by_cases h : SlotGood x p
  · rw [bootPlane_of_good h]
    exact .inl rfl
  · rw [bootPlane_of_not_good h]
    exact replacedPlane_inForce x p

/-! ### What a move writes -/

theorem lookupRefresh_writes_eval (s : State) : ∃ e, lookupRefresh s = { s with eval := e } := by
  unfold lookupRefresh
  split <;> exact ⟨_, rfl⟩

theorem requestPass_writes_eval (s : State) : ∃ e, requestPass s = { s with eval := e } := ⟨_, requestPass_eq s⟩

theorem beginWaiting_writes_eval (s : State) : ∃ e, beginWaiting s = { s with eval := e } := by
  unfold beginWaiting
  split <;> exact ⟨_, rfl⟩

theorem State.storeBusy_iff (s : State) : s.storeBusy = true ↔ s.store.state ≠ .idle := by
  unfold State.storeBusy
  cases s.store.state <;> simp

theorem State.not_storeBusy_iff (s : State) : s.storeBusy = false ↔ s.store.state = .idle := by
  rw [← Bool.not_eq_true, s.storeBusy_iff, not_not]

/-- R172: a power-on or reset line leaves no store in progress. -/
theorem abandonStore_idle (n : Nat) (b : Bank) (x : Store) : (abandonStore n b x).state = .idle := by
  unfold abandonStore
  split
  · assumption
  · rfl
  · rfl

/-- R136, R137: the map banks exchange the banks only while all eight staging planes are VERIFIED and no store is in
progress. -/
theorem banksMove_due (k : State) : banksMove k = k ∨
    banksMove k = swapBanks k ∧ k.storeBusy = false ∧ allVerified k.banks.staging = true := by
  unfold banksMove
  split
  · rename_i h
    simp only [Bool.and_eq_true, Bool.not_eq_true'] at h
    exact .inr ⟨rfl, h.1.1.2, h.2⟩
  · exact .inl rfl

/-- What a scrub step can do to the states of the active planes and to the control state. -/
inductive Scrubbed (k u : State) : Prop where
  /-- Every plane keeps its state; cells may have been corrected (R144, R145). -/
  | kept (state : u.ctl.state = k.ctl.state) (planes : ∀ p, (u.banks.active.get p).status = (k.banks.active.get p).status)
  /-- One plane is found FAULTY, and a LIMP plane brings LIMP (R111, R146). -/
  | marked (p : PlaneId) (state : u.ctl.state = if p.isLimpPlane then .limp else k.ctl.state)
      (bank : u.banks.active = k.banks.active.set p { k.banks.active.get p with status := .faulty })

/-- R145: a corrected plane keeps its state. -/
theorem correctedMove_status (p : PlaneId) (i : Nat) (dS : Word) (k : State) (q : PlaneId) :
    ((correctedMove p i dS k).banks.active.get q).status = (k.banks.active.get q).status := by
  unfold correctedMove
  dsimp only [State.withActive, State.withBanks]
  rw [PerPlane.get_set]
  split
  · rename_i hq
    rw [hq]
  · rfl

theorem compareMove_scrubbed (p : PlaneId) (sums : CheckPair) (k : State) : Scrubbed k (compareMove p sums k) := by
  unfold compareMove
  split
  · exact .kept rfl fun _ => rfl
  · split
    · exact .kept rfl fun _ => rfl
    · split
      · exact .kept rfl (correctedMove_status _ _ _ k)
      · refine .marked p ?_ ?_ <;> unfold faultyMove <;> dsimp only <;> split <;> rfl

/-- R143 to R146: a scrub step keeps the planes' states or marks one plane FAULTY. -/
theorem scrubMoves_scrubbed (k : State) : Scrubbed k (scrubMoves k) := by
  unfold scrubMoves
  split
  · exact .kept rfl fun _ => rfl
  · rename_i x _
    dsimp only
    split
    · exact .kept rfl fun _ => rfl
    · cases compareMove_scrubbed x.plane (sumRow k.banks.active x) (k.withScrub ⟨x.plane.next, 0, ⟨0, 0⟩⟩) with
      | kept state planes => exact .kept state planes
      | marked p state bank => exact .marked p state bank

/-! ### The plane states through every step (R119, R135, R169) -/

/-- With no store in progress and no activation pending, staging may be anything legal. -/
theorem PlanesLegal.of_free {u : State} (ha : activeLegal u.banks.active) (hs : stagingLegal u.banks.staging)
    (hp : u.banks.activationPending = false) (hi : u.storeBusy = false) : PlanesLegal u :=
  ⟨ha, hs, fun h => absurd (hp.symm.trans h) nofun, fun h => absurd (hi.symm.trans h) nofun⟩

/-- R137 to R139: the bank that comes into force is VERIFIED whole, and the other comes into staging without a FAULTY
plane. -/
theorem swapBanks_planesLegal {k : State} (hi : k.storeBusy = false) (hv : allVerified k.banks.staging = true) :
    PlanesLegal (swapBanks k) :=
  .of_free (activeLegal_of_allVerified hv) (stagingLegal_build fun p => stagedPlane_not_faulty (k.banks.active.get p)) rfl hi

theorem PlanesLegal.scrub {k : State} (h : PlanesLegal k) : PlanesLegal (scrubMoves k) := by
  have hactive : activeLegal (scrubMoves k).banks.active := by
    cases scrubMoves_scrubbed k with
    | kept _ planes => exact activeLegal.of_status h.active planes
    | marked p _ bank =>
      rw [bank]
      exact activeLegal.set h.active p (.inr rfl)
  rw [scrubMoves_frame]
  exact ⟨hactive, h.staging, h.pending, h.storing⟩

theorem PlanesLegal.block {k : State} (h : PlanesLegal k) (q : Int) (c : CompletionBlock) :
    PlanesLegal (blockMoves q k c) := by
  cases c with
  | controlStateUnit =>
    obtain ⟨c, hc, -⟩ := controlMoves_eq q k
    show PlanesLegal (controlMoves q k)
    rw [hc]
    exact ⟨h.active, h.staging, h.pending, h.storing⟩
  | mapBanks =>
    show PlanesLegal (banksMove k)
    rcases banksMove_due k with e | ⟨e, hi, hv⟩ <;> rw [e]
    · exact h
    · exact swapBanks_planesLegal hi hv
  | scrubUnit => exact h.scrub

theorem PlanesLegal.pass {k : State} (h : PlanesLegal k) (p : Pass) (o : TakeOrder) :
    PlanesLegal (beginWaiting (o.blocks.foldl (blockMoves p.inputs.q) (recordPass p k))) := by
  obtain ⟨e, he⟩ := beginWaiting_writes_eval (o.blocks.foldl (blockMoves p.inputs.q) (recordPass p k))
  rw [he]
  have hfold := List.foldlRecOn (motive := PlanesLegal) o.blocks (blockMoves p.inputs.q) (b := recordPass p k)
    ⟨h.active, h.staging, h.pending, h.storing⟩ fun u hu c _ => hu.block _ c
  exact ⟨hfold.active, hfold.staging, hfold.pending, hfold.storing⟩

/-- R119, R135, R138, R169: every step keeps the legal plane states; a build that ends finds no store in progress (R174). -/
theorem PlanesLegal.move {k u : State} (h : PlanesLegal k) (hb : k.phase = .building → k.store.state = .idle)
    (m : Move k u) : PlanesLegal u := by
  cases m with
  | imu | held | lost =>
    obtain ⟨e, he⟩ := lookupRefresh_writes_eval (k.withSensors _)
    rw [he]
    exact ⟨h.active, h.staging, h.pending, h.storing⟩
  | wheel =>
    obtain ⟨e, he⟩ := requestPass_writes_eval _
    rw [he]
    exact ⟨h.active, h.staging, h.pending, h.storing⟩
  | pass p o _ => exact h.pass p o
  | restart w t hi => exact .of_free h.active h.staging rfl rfl
  | written w p cells _ hfree _ => exact .of_free h.active (stagingLegal.set h.staging p rfl) hfree.pending hfree.idle
  | committed w p _ hfree => exact .of_free h.active (stagingLegal.set h.staging p rfl) hfree.pending hfree.idle
  | copied hfree =>
    exact .of_free h.active (stagingLegal_build fun p => stagedPlane_not_faulty (k.banks.active.get p)) hfree.pending hfree.idle
  | loaded i hfree _ => exact .of_free h.active (stagingLegal_build (loadedPlane_not_faulty _)) hfree.pending hfree.idle
  | activated w b _ hfree hb =>
    exact ⟨h.active, stagingLegal_build fun p => recheckedPlane_not_faulty (h.staging p), hb,
      fun hbusy => absurd (hfree.idle.symm.trans hbusy) nofun⟩
  | cancelled => exact ⟨h.active, h.staging, nofun, h.storing⟩
  | storeBegun w i _ _ hv => exact ⟨h.active, h.staging, h.pending, fun _ => hv⟩
  | programmed i p cells hs _ _ =>
    exact ⟨h.active, h.staging, h.pending, fun _ => h.storing (k.storeBusy_iff.mpr (hs ▸ nofun))⟩
  | unprogrammed | storeDone | storeUndone => exact ⟨h.active, h.staging, h.pending, nofun⟩
  | hardReset n =>
    exact .of_free reset_planesLegal.active reset_planesLegal.staging rfl
      ((State.not_storeBusy_iff _).mpr (abandonStore_idle n k.banks.staging k.store))
  | built t hp =>
    exact .of_free (bootBank_activeLegal _) emptyBank_stagingLegal rfl (k.not_storeBusy_iff.mpr (hb hp))
  | _ => exact ⟨h.active, h.staging, h.pending, h.storing⟩

/-- What a part that is building holds of the map store (R172, R174). -/
theorem Settled.store_idle {s : State} (h : Settled s) (hp : s.phase = .building) : s.store.state = .idle := by
  rw [(h hp).rest]
  rfl

/-! ### LIMP through every step (R111, R112, R118) -/

theorem limpCondition_of_status {b c : Bank} (h : ∀ p, (c.get p).status = (b.get p).status) :
    limpCondition c = limpCondition b := by
  rw [Bool.eq_iff_iff, limpCondition_iff, limpCondition_iff]
  simp only [Plane.isFaulty_of_status (h _)]

/-- R111: a plane marked FAULTY brings the LIMP condition exactly where it is a LIMP plane. -/
theorem limpCondition_marked (b : Bank) (p : PlaneId) :
    limpCondition (b.set p { b.get p with status := .faulty }) = (p.isLimpPlane || limpCondition b) := by
  cases p <;> simp [limpCondition, PlaneId.isLimpPlane, PerPlane.set, Plane.isFaulty]

theorem limpCondition_of_allVerified {b : Bank} (h : allVerified b = true) : limpCondition b = false := by
  refine Bool.eq_false_of_not_eq_true fun hlimp => ?_
  obtain ⟨p, -, hp⟩ := (limpCondition_iff b).mp hlimp
  exact absurd ((Plane.not_faulty_of_verified ((allVerified_iff b).mp h p)).symm.trans hp) nofun

theorem stateAfterReset_limp_iff (b : Bank) : stateAfterReset b = .limp ↔ limpCondition b = true := by
  unfold stateAfterReset
  split <;> simp [*]

/-- R106, R110: the control state unit's transition neither enters nor leaves LIMP. -/
theorem controlMoves_limp_iff (q : Int) (k : State) : (controlMoves q k).ctl.state = .limp ↔ k.ctl.state = .limp := by
  rw [controlMoves_state]
  unfold controlState
  split <;> rename_i hs
  case h_4 => split <;> simp [hs]
  all_goals simp [hs]

theorem LimpLegal.of_iff {k u : State} (h : LimpLegal k) (hs : u.ctl.state = .limp ↔ k.ctl.state = .limp)
    (hb : limpCondition u.banks.active = limpCondition k.banks.active) : LimpLegal u := by
  unfold LimpLegal at h ⊢
  rw [hs, hb]
  exact h

/-- Neither LIMP nor its condition. -/
theorem limpLegal_of_neither {u : State} (hs : u.ctl.state ≠ .limp) (hb : limpCondition u.banks.active = false) :
    LimpLegal u := by
  unfold LimpLegal
  rw [hb]
  exact ⟨fun h => absurd h hs, nofun⟩

/-- R112, R139: an exchange leaves LIMP, for the bank that comes into force is VERIFIED whole. -/
theorem swapBanks_limpLegal {k : State} (hv : allVerified k.banks.staging = true) : LimpLegal (swapBanks k) := by
  refine limpLegal_of_neither ?_ (limpCondition_of_allVerified hv)
  unfold swapBanks
  dsimp only
  split
  · nofun
  · assumption

theorem LimpLegal.scrub {k : State} (h : LimpLegal k) : LimpLegal (scrubMoves k) := by
  cases scrubMoves_scrubbed k with
  | kept state planes => exact h.of_iff (by rw [state]) (limpCondition_of_status planes)
  | marked p state bank =>
    unfold LimpLegal at h ⊢
    rw [state, bank, limpCondition_marked]
    cases p.isLimpPlane with
    | true => simp
    | false => simpa using h

theorem LimpLegal.block {k : State} (h : LimpLegal k) (q : Int) (c : CompletionBlock) : LimpLegal (blockMoves q k c) := by
  cases c with
  | controlStateUnit =>
    obtain ⟨c, hc, -⟩ := controlMoves_eq q k
    have hbanks : (controlMoves q k).banks = k.banks := by rw [hc]
    exact h.of_iff (controlMoves_limp_iff q k) (congrArg (fun b : Banks => limpCondition b.active) hbanks)
  | mapBanks =>
    show LimpLegal (banksMove k)
    rcases banksMove_due k with e | ⟨e, -, hv⟩ <;> rw [e]
    · exact h
    · exact swapBanks_limpLegal hv
  | scrubUnit => exact h.scrub

theorem LimpLegal.pass {k : State} (h : LimpLegal k) (p : Pass) (o : TakeOrder) :
    LimpLegal (beginWaiting (o.blocks.foldl (blockMoves p.inputs.q) (recordPass p k))) := by
  obtain ⟨e, he⟩ := beginWaiting_writes_eval (o.blocks.foldl (blockMoves p.inputs.q) (recordPass p k))
  rw [he]
  exact List.foldlRecOn (motive := LimpLegal) o.blocks (blockMoves p.inputs.q) (b := recordPass p k) h
    fun u hu c _ => hu.block _ c

/-- R111, R112, R118: every step keeps LIMP with its condition. -/
theorem LimpLegal.move {k u : State} (h : LimpLegal k) (m : Move k u) : LimpLegal u := by
  cases m with
  | imu | held | lost =>
    obtain ⟨e, he⟩ := lookupRefresh_writes_eval (k.withSensors _)
    rw [he]
    exact h
  | wheel =>
    obtain ⟨e, he⟩ := requestPass_writes_eval _
    rw [he]
    exact h
  | passive _ hs => exact h.of_iff ⟨nofun, fun e => absurd e hs⟩ rfl
  | pass p o _ => exact h.pass p o
  | roller w _ hs _ => exact h.of_iff ⟨nofun, fun e => by rcases hs with hs | hs <;> cases hs.symm.trans e⟩ rfl
  | rollerLeft w _ hs => exact h.of_iff ⟨nofun, fun e => nomatch hs.symm.trans e⟩ rfl
  | restart => exact stateAfterReset_limp_iff _
  | hardReset => exact ⟨fun _ => rfl, fun _ => rfl⟩
  | built => exact stateAfterReset_limp_iff _
  | _ => exact h

/-- Settles O8: both invariants go through the list of `Move`. -/
theorem planeStatesStayLegal : Obligations.PlaneStatesStayLegal := by
  unfold Obligations.PlaneStatesStayLegal
  constructor
  · intro s t hs h hstep
    have hmove := PlanesLegal.move (k := s.blocks) ⟨h.active, h.staging, h.pending, h.storing⟩
      (fun hp => hs.store_idle hp) (step_moves hstep)
    exact ⟨hmove.active, hmove.staging, hmove.pending, hmove.storing⟩
  · intro s t h hstep
    exact LimpLegal.move (k := s.blocks) (u := t.blocks) h (step_moves hstep)

end Sys2Proof.Machine

/-!
The control state unit, the map banks and the scrub at a completion, each by an equation per case (R106, R110 to R112, R114,
R136 to R139, R143 to R147).
-/

namespace Sys2Proof.Machine

/-! ### The control state unit at a completion (R106, R110, R114) -/

/-- R106: a completion leads from START and PASSIVE to ACTIVE. -/
theorem controlTransition_standby {s : State} (h : s.ctl.state.Standby) : controlTransition s = s.withCtl .active := by
  unfold controlTransition
  rcases h with h | h <;> rw [h]

/-- R106, R111: ACTIVE and LIMP stay. -/
theorem controlTransition_stays {s : State} (h : s.ctl.state = .active ∨ s.ctl.state = .limp) : controlTransition s = s := by
  unfold controlTransition
  rcases h with h | h <;> rw [h]

/-- R110: ROLLER stays up to ROLLER_EXIT_SPEED. -/
theorem controlTransition_roller_slow {s : State} (h : s.ctl.state = .roller)
    (hv : s.eval.record.vfc ≤ param s.banks.active .rollerExitSpeed) : controlTransition s = s := by
  unfold controlTransition
  rw [h]
  exact if_neg (not_lt.mpr hv)

/-- R110: above ROLLER_EXIT_SPEED a completion ends ROLLER. -/
theorem controlTransition_roller_fast {s : State} (h : s.ctl.state = .roller)
    (hv : param s.banks.active .rollerExitSpeed < s.eval.record.vfc) :
    controlTransition s = raiseCondition .rollerExit (s.withCtl .active) := by
  unfold controlTransition
  rw [h]
  exact if_pos hv

/-- R105: the transition does not bear on the standstill. -/
theorem controlTransition_stationary (s : State) : (controlTransition s).stationary = s.stationary := by
  unfold controlTransition
  split
  case h_4 =>
    split
    · unfold State.stationary
      rw [raiseCondition_ctl, raiseCondition_eval, raiseCondition_banks]
      rfl
    · rfl
  all_goals rfl

/-- R114: the transition leaves the values in force and the pending ones. -/
theorem controlTransition_ctl (s : State) : ∃ c, (controlTransition s).ctl = { s.ctl with state := c } := by
  unfold controlTransition
  split
  case h_4 =>
    split
    · exact ⟨.active, raiseCondition_ctl _ _⟩
    · exact ⟨_, rfl⟩
  all_goals exact ⟨_, rfl⟩

/-- R114: after the transition the pending values are applied by the captured request and the standstill. -/
theorem controlTakes_eq (q : Int) (s : State) : controlTakes q s =
    if q ≤ 0 ∨ s.stationary = true then
      { controlTransition s with ctl := { (controlTransition s).ctl with
        mode := s.ctl.pendingMode.getD s.ctl.mode, load := s.ctl.pendingLoad.getD s.ctl.load,
        pendingMode := none, pendingLoad := none } }
    else controlTransition s := by
  obtain ⟨c, hc⟩ := controlTransition_ctl s
  unfold controlTakes applyPending Control.applyPending
  rw [controlTransition_stationary, hc]

/-- Settles O32: `controlTakes_eq` applies the pending values over the transition of the state in force. -/
theorem controlUnitTakesACompletion : Obligations.ControlUnitTakesACompletion := by
  unfold Obligations.ControlUnitTakesACompletion
  intro q s applied
  have happlied : controlTakes q s = applied (controlTransition s) := controlTakes_eq q s
  rw [happlied]
  exact ⟨fun h => congrArg applied (controlTransition_standby h), fun h => congrArg applied (controlTransition_stays h),
    fun h hv => congrArg applied (controlTransition_roller_slow h hv),
    fun h hv => congrArg applied (controlTransition_roller_fast h hv)⟩

/-! ### The map banks at a completion (R136 to R139) -/

/-- R137: when the swap point is reached. -/
theorem State.swapPoint_iff (s : State) : s.swapPoint = true ↔
    (s.eval.record.lean.natAbs ≤ param s.banks.active .swapLean ∧ s.eval.record.cut = 0 ∧ s.eval.record.relief = 0) ∨
      s.stationary = true := by
  simp [State.swapPoint, and_assoc]

/-- R136, R137: when a completion brings the bank exchange. -/
theorem swapDue_iff (s : State) :
    (s.banks.activationPending && !s.storeBusy && s.swapPoint && allVerified s.banks.staging) = true ↔
      s.banks.activationPending = true ∧ s.store.state = .idle ∧ allVerified s.banks.staging = true ∧
        ((s.eval.record.lean.natAbs ≤ param s.banks.active .swapLean ∧ s.eval.record.cut = 0 ∧
            s.eval.record.relief = 0) ∨ s.stationary = true) := by
  rw [← s.swapPoint_iff, ← s.not_storeBusy_iff]
  simp only [Bool.and_eq_true, Bool.not_eq_true']
  tauto

/-- Settles O33: the exchange is due by `swapDue_iff`, and is `swapBanks` with SWAP_DONE. -/
theorem banksExchangeAtTheSwapPoint : Obligations.BanksExchangeAtTheSwapPoint := by
  unfold Obligations.BanksExchangeAtTheSwapPoint
  intro s r upright due f
  refine ⟨fun hdue => if_neg (mt (swapDue_iff s).mp hdue), fun hdue => ?_⟩
  refine (if_pos ((swapDue_iff s).mpr hdue)).trans ?_
  have hctl : (if s.ctl.state = .limp then { s.ctl with state := .active } else s.ctl) =
      { s.ctl with state := if s.ctl.state = .limp then .active else s.ctl.state } := by split <;> rfl
  unfold exchangeBanks swapBanks
  rw [hctl]
  rfl

/-! ### The scrub at a completion (R143 to R146) -/

theorem PlaneId.number_injective {p q : PlaneId} (h : p.number = q.number) : p = q := by
  cases p <;> cases q <;> first | rfl | cases h

theorem PlaneId.number_lt (p : PlaneId) : p.number < 8 := by cases p <;> decide

/-- R143: the planes looked at follow in the order of their numbers, 0 after 7. -/
theorem planesAfter_number (p : PlaneId) (i : Nat) (h : i < (planesAfter p).length) :
    (planesAfter p)[i].number = (p.number + (i + 1)) % 8 := by
  cases p <;> revert i <;> decide

/-- R143, step 1: a VERIFIED scrub plane is kept. -/
theorem findScrubPlane_verified {b : Bank} {x : Scrub} (h : (b.get x.plane).isVerified = true) :
    findScrubPlane b x = some x := if_pos h

/-- R143, step 1: with no VERIFIED plane in the bank there is none to go to. -/
theorem findScrubPlane_none {b : Bank} (h : ∀ p, (b.get p).isVerified = false) (x : Scrub) : findScrubPlane b x = none := by
  have hfind : (planesAfter x.plane).find? (fun p => (b.get p).isVerified) = none := by simp [h]
  unfold findScrubPlane
  rw [if_neg (by simp [h]), hfind]

/-- R143, step 1: from a scrub plane that is not VERIFIED the position goes to row 0 of the first VERIFIED plane after it. -/
theorem findScrubPlane_next {b : Bank} {x : Scrub} {k : Nat} {p : PlaneId} (hx : (b.get x.plane).isVerified = false)
    (hk : k < 8) (hp : p.number = (x.plane.number + k) % 8) (hv : (b.get p).isVerified = true)
    (hskip : ∀ j q, j < k → q.number = (x.plane.number + j) % 8 → (b.get q).isVerified = false) :
    findScrubPlane b x = some { plane := p, row := 0, sums := ⟨0, 0⟩ } := by
  have hpos : k ≠ 0 := by
    rintro rfl
    rw [Nat.add_zero, Nat.mod_eq_of_lt x.plane.number_lt] at hp
    rw [PlaneId.number_injective hp, hx] at hv
    cases hv
  obtain ⟨i, rfl⟩ := Nat.exists_eq_succ_of_ne_zero hpos
  have hi : i < (planesAfter x.plane).length := Nat.lt_of_succ_lt_succ hk
  have hfind : (planesAfter x.plane).find? (fun p => (b.get p).isVerified) = some p := by
    refine List.find?_eq_some_iff_getElem.mpr ⟨hv, i, hi, ?_, fun j hj => ?_⟩
    · exact PlaneId.number_injective ((planesAfter_number _ i hi).trans hp.symm)
    · rw [hskip (j + 1) _ (Nat.succ_lt_succ hj) (planesAfter_number _ j (hj.trans hi))]
      rfl
  unfold findScrubPlane
  rw [if_neg (by simp [hx]), hfind]

/-- R143: a scrub step goes on from the position that step 1 finds. -/
theorem scrubTakes_of_find {s : State} {x : Scrub} (h : findScrubPlane s.banks.active s.scrub = some x) :
    scrubTakes s =
      if x.row + 1 < x.plane.rows then s.withScrub { x with row := x.row + 1, sums := sumRow s.banks.active x }
      else comparePlane x.plane (sumRow s.banks.active x)
        (s.withScrub { plane := x.plane.next, row := 0, sums := ⟨0, 0⟩ }) := by
  unfold scrubTakes
  rw [h]

/-- R143: only the position found bears on the step. -/
theorem scrubTakes_moved {s : State} {x : Scrub} (h : findScrubPlane s.banks.active s.scrub = some x) :
    scrubTakes s = scrubTakes (s.withScrub x) := by
  have hx : findScrubPlane (s.withScrub x).banks.active (s.withScrub x).scrub = some x :=
    findScrubPlane_verified (findScrubPlane_some h).1
  rw [scrubTakes_of_find h, scrubTakes_of_find hx]
  rfl

section Compare

variable {p : PlaneId} {sums c : CheckPair} {s : State} (hc : (s.banks.active.get p).status = .verified c)
include hc

/-- R144: equal sums change nothing. -/
theorem comparePlane_equal (h : sums = c) : comparePlane p sums s = s := by
  unfold comparePlane
  rw [(Plane.pair?_iff _ _).mpr hc]
  exact if_pos h

/-- R144, R145: a difference that one cell explains corrects that cell. -/
theorem comparePlane_located (h : sums ≠ c) {i : Nat} (hi : locate p.size (sums.S - c.S) (sums.W - c.W) = some i) :
    comparePlane p sums s = correctCell p i (sums.S - c.S) s := by
  unfold comparePlane
  rw [(Plane.pair?_iff _ _).mpr hc]
  dsimp only
  rw [if_neg h, hi]

/-- R144, R146: any other difference marks the plane FAULTY. -/
theorem comparePlane_unlocatable (h : sums ≠ c) (hi : locate p.size (sums.S - c.S) (sums.W - c.W) = none) :
    comparePlane p sums s = markFaulty p s := by
  unfold comparePlane
  rw [(Plane.pair?_iff _ _).mpr hc]
  dsimp only
  rw [if_neg h, hi]

end Compare

/-- R111: the four LIMP planes by name. -/
theorem PlaneId.isLimpPlane_iff (p : PlaneId) :
    p.isLimpPlane = true ↔ p = .slipTarget ∨ p = .torqueCeiling ∨ p = .parameter ∨ p = .action := by
  cases p <;> decide

/-- R111, R146: the marking in one state: the plane FAULTY, and LIMP for a LIMP plane. -/
theorem markFaulty_eq (p : PlaneId) (s : State) : markFaulty p s = raiseCondition .planeFaulty { s with
    banks := { s.banks with active := s.banks.active.set p { s.banks.active.get p with status := .faulty } },
    ctl := { s.ctl with state :=
      if p = .slipTarget ∨ p = .torqueCeiling ∨ p = .parameter ∨ p = .action then .limp else s.ctl.state } } := by
  unfold markFaulty
  simp only [p.isLimpPlane_iff]
  split <;> rfl

/-- Settles O34: step 1 by `findScrubPlane`, the row by `scrubTakes_of_find`, the comparison by its three outcomes. -/
theorem scrubSumsOneRowAndCompares : Obligations.ScrubSumsOneRowAndCompares := by
  unfold Obligations.ScrubSumsOneRowAndCompares
  refine ⟨?_, ?_, ?_⟩
  · intro s hnone
    unfold scrubTakes
    rw [findScrubPlane_none hnone]
  · intro s k p n hx hk hp hv hskip
    exact scrubTakes_moved (findScrubPlane_next hx hk hp hv hskip)
  · intro s c x pl sums moved hc
    have hstep := scrubTakes_of_find (findScrubPlane_verified (x := s.scrub) ((Plane.isVerified_iff _).mpr ⟨c, hc⟩))
    refine ⟨fun hrow => hstep.trans (if_pos hrow), fun hlast => ?_⟩
    have hcompare : scrubTakes s = comparePlane x.plane sums moved := hstep.trans (if_neg (not_lt.mpr hlast))
    have hmoved : (moved.banks.active.get x.plane).status = .verified c := hc
    rw [hcompare]
    exact ⟨comparePlane_equal hmoved, fun hne => ⟨fun i hi => comparePlane_located hmoved hne hi,
      fun hnone => (comparePlane_unlocatable hmoved hne hnone).trans (markFaulty_eq x.plane moved)⟩⟩

end Sys2Proof.Machine

/-!
The status frame (R115 to R117) and the roller requests (R105, R108, R109).
-/

namespace Sys2Proof.Machine

/-! ### The status frame (R115 to R117) -/

/-- 11.4: the control state in bits 3 to 0 and the lean source in bits 7 to 4. -/
theorem statusByte_states (c : CtlState) (l : LeanSource) :
    BitVec.ofNat 8 c.code ||| (BitVec.ofNat 8 l.code <<< 4) = BitVec.ofNat 8 (c.code + 16 * l.code) := by
  cases c <;> cases l <;> rfl

/-- R115: when the intervention indication is lit. -/
theorem State.interventionLit_eq (s : State) :
    s.interventionLit = decide (0 < s.eval.record.cut ∨ 0 < s.eval.record.relief) := (Bool.decide_or _ _).symm

/-- R115: when the fault indication is lit, the lean source's part taken together. -/
theorem State.faultLit_eq (s : State) : s.faultLit =
    (s.ctl.state == .limp || (s.sensors.source == .lost || s.sensors.source == .recovering) || s.ack.fault
      || allPlanes.any fun p => (s.banks.active.get p).status == .faulty) :=
  congrArg (· || s.ack.fault || anyFaulty s.banks.active) (Bool.or_assoc _ _ _)

/-- Settles O40: the expiry is taken exactly when the timer is due; the frame byte by byte. -/
theorem statusFrameIsQueued : Obligations.StatusFrameIsQueued := by
  unfold Obligations.StatusFrameIsQueued
  intro t d s hrun r bit lost data frame sent
  refine ⟨fun hdue => ?_, fun hlt => congrArg _ (if_neg (not_timerDue (.inr ⟨hrun, hlt⟩)))⟩
  have hdata : statusData s = data := by
    unfold statusData
    rw [statusByte_states, s.interventionLit_eq, s.faultLit_eq]
    rfl
  have hframe : statusFrame s = frame := congrArg (fun x => dataFrame (s.nodeId Config.statusBase) (withCheck x)) hdata
  have hsent : place .upstream (plainContent (statusFrame s)) .part true s = sent := by rw [hframe]
  refine (congrArg _ (if_pos (timerDue_of_le hrun hdue))).trans (congrArg _ ?_)
  rw [hsent]
  unfold startStatusTimer
  rw [show sent.ctl = s.ctl from place_ctl _ _ _ _ _, show sent.banks = s.banks from place_banks _ _ _ _ _]

/-! ### The roller requests (R105, R108, R109) -/

/-- R105: when the vehicle is stationary. -/
theorem State.stationary_iff (s : State) : s.stationary = true ↔ s.ctl.liveness = .running ∧ s.eval.record.passNo ≠ 0 ∧
    s.eval.record.vref < param s.banks.active .stationarySpeed := by
  simp [State.stationary, and_assoc]

section EnterRoller

variable {r : Request} {u : State}

/-- R108: at standstill ACTIVE and PASSIVE lead to ROLLER. -/
theorem answerEnterRoller_still (h : u.ctl.state = .active ∨ u.ctl.state = .passive) (hs : u.stationary = true) :
    answerEnterRoller r u = respond r .ok [] (u.withCtl .roller) := by
  unfold answerEnterRoller
  rcases h with h | h <;> rw [h] <;> exact if_pos hs

/-- R108: away from standstill they are kept. -/
theorem answerEnterRoller_moving (h : u.ctl.state = .active ∨ u.ctl.state = .passive) (hs : ¬ u.stationary = true) :
    answerEnterRoller r u = respond r .notStationary [] u := by
  unfold answerEnterRoller
  rcases h with h | h <;> rw [h] <;> exact if_neg hs

end EnterRoller

/-- R109: Leave Roller leads from ROLLER to ACTIVE and is accepted in every state. -/
theorem answerLeaveRoller_eq (r : Request) (u : State) : answerLeaveRoller r u =
    respond r .ok [] (u.withCtl (if u.ctl.state = .roller then .active else u.ctl.state)) := by
  unfold answerLeaveRoller
  split <;> rename_i h
  case h_1 => rw [if_pos h]
  all_goals
    rw [if_neg (by rw [h]; nofun)]
    rfl

/-- Settles O41: the request is taken whole and answered by the control state, at standstill or not. -/
theorem rollerIsEnteredAtStandstillOnly : Obligations.RollerIsEnteredAtStandstillOnly := by
  unfold Obligations.RollerIsEnteredAtStandstillOnly
  refine ⟨fun s seq rest h hq => ?_, fun s seq rest h hq => ?_⟩
  · let r : Request := [0x07, seq]
    let u : State := endRun (takeHead r rest s)
    have hx : exec .enterRoller s = .next (handDone (answerEnterRoller r u)) :=
      congrArg _ (takeRequest_ready h (some .enterRoller) rfl (withLength 2 answerEnterRoller))
    have answered := fun res => respond_after (u := u) h hq rfl rfl rfl rfl r res []
    have entering (hs : u.ctl.state = .active ∨ u.ctl.state = .passive) :
        if s.ctl.liveness = .running ∧ s.eval.record.passNo ≠ 0 ∧
            s.eval.record.vref < param s.banks.active .stationarySpeed then
          Answered { taken s rest with ctl := { s.ctl with state := .roller } } (handDone (answerEnterRoller r u)) 0x07 seq
            .ok []
        else Answered (taken s rest) (handDone (answerEnterRoller r u)) 0x07 seq .notStationary [] := by
      split
      · rename_i hstill
        rw [answerEnterRoller_still hs (u.stationary_iff.mpr hstill)]
        exact respond_after (u := u.withCtl .roller) h hq rfl rfl rfl rfl r .ok []
      · rename_i hmoving
        rw [answerEnterRoller_moving hs (mt u.stationary_iff.mp hmoving)]
        exact answered .notStationary
    refine ⟨_, hx, ?_⟩
    split <;> rename_i hs
    · exact entering (.inl hs)
    · exact entering (.inr hs)
    all_goals
      unfold answerEnterRoller
      rw [show u.ctl.state = _ from hs]
      exact answered _
  · let r : Request := [0x08, seq]
    let u : State := endRun (takeHead r rest s)
    have hx : exec .leaveRoller s = .next (handDone (answerLeaveRoller r u)) :=
      congrArg _ (takeRequest_ready h (some .leaveRoller) rfl (withLength 2 answerLeaveRoller))
    refine ⟨_, hx, ?_⟩
    rw [answerLeaveRoller_eq]
    exact respond_after (u := u.withCtl (if s.ctl.state = .roller then .active else s.ctl.state)) h hq rfl rfl rfl rfl r .ok []

end Sys2Proof.Machine

/-!
The shapes of the tables, the positions of the window and of the scrub, and the recorded pairs, through every step (R119, R121,
R123, R142 to R145, R166).
-/

namespace Sys2Proof.Machine

/-! ### Tables written plane by plane and slot by slot -/

theorem PlaneId.rows_pos (p : PlaneId) : 0 < p.rows := by cases p <;> decide

theorem shaped.set {x : PerPlane (List Word)} (h : shaped x) {p : PlaneId} {cells : List Word}
    (hc : cells.length = p.size) : shaped (x.set p cells) := by
  intro q
  rw [PerPlane.get_set]
  split
  · rename_i hq
    rw [hq, hc]
  · exact h q

theorem bankShaped.set {b : Bank} (h : bankShaped b) {p : PlaneId} {pl : Plane} (hc : pl.cells.length = p.size) :
    bankShaped (b.set p pl) := by
  intro q
  rw [PerPlane.get_set]
  split
  · rename_i hq
    rw [hq, hc]
  · exact h q

theorem bankShaped_build {f : PlaneId → Plane} (h : ∀ p, (f p).cells.length = p.size) : bankShaped (PerPlane.build f) := by
  intro p
  rw [PerPlane.get_build]
  exact h p

/-- Every slot has the shapes of the chapter table (R166). -/
def slotsShaped (x : Slots) : Prop := ∀ i, shaped (x.get i).cells

theorem slotsShaped.set {x : Slots} (h : slotsShaped x) (i : SlotId) {y : Slot} (hy : shaped y.cells) :
    slotsShaped (x.set i y) := by
  intro j
  rw [Slots.get_set]
  split
  · exact hy
  · exact h j

/-! ### What the operations write into the tables -/

/-- R173, R175: a plane taken from a slot has the slot's cells and pair, and the pair is that of the cells. -/
theorem verifiedFrom_some {x : Slot} {p : PlaneId} {pl : Plane} (h : verifiedFrom x p = some pl) :
    pl = { cells := x.cells.get p, status := .verified (x.pairs.get p) } ∧ pairOf (x.cells.get p) = x.pairs.get p := by
  unfold verifiedFrom at h
  split at h
  · rename_i hgood
    exact ⟨(Option.some.inj h).symm, hgood.1⟩
  · cases h

/-- R173: Load Image copies the slot's cells. -/
theorem loadedPlane_cells (x : Slot) (p : PlaneId) : (loadedPlane x p).cells = x.cells.get p := by
  unfold loadedPlane
  cases h : verifiedFrom x p with
  | none => rfl
  | some pl => rw [Option.getD_some, (verifiedFrom_some h).1]

/-- R135, step 3: the recomputation writes no cell. -/
theorem recheckedPlane_cells (pl : Plane) : (recheckedPlane pl).cells = pl.cells := by
  unfold recheckedPlane
  split
  case h_1 => split <;> rfl
  all_goals rfl

theorem replacedPlane_length {x : Slot} (h : shaped x.cells) (p : PlaneId) : (replacedPlane x p).cells.length = p.size := by
  have hslot := h p
  cases p with
  | action | parameter => rfl
  | _ => exact hslot

/-- R175, R176: the bank built at boot has the shapes of the slot it is built from. -/
theorem bootBank_shaped {x : Slot} (h : shaped x.cells) : bankShaped (bootBank x) := by
  refine bankShaped_build fun p => ?_
  by_cases hgood : SlotGood x p
  · rw [bootPlane_of_good hgood]
    exact h p
  · rw [bootPlane_of_not_good hgood]
    exact replacedPlane_length h p

/-- R172: an interrupted plane keeps the number of its cells. -/
theorem mixedCells_length (n : Nat) (old new : List Word) : (mixedCells n old new).length = old.length := by
  simp only [mixedCells, List.length_map, List.length_range]

theorem abandonStore_shaped {x : Store} (h : slotsShaped x.slots) (n : Nat) (b : Bank) :
    slotsShaped (abandonStore n b x).slots := by
  unfold abandonStore
  split
  · exact h
  · exact h
  · rename_i i p _
    exact h.set i ((h i).set ((mixedCells_length _ _ _).trans (h i p)))

/-- R144 to R146: the comparison at a plane's end corrects a cell or a plane's state. -/
theorem compareMove_shaped {k : State} (h : bankShaped k.banks.active) (p : PlaneId) (sums : CheckPair) :
    bankShaped (compareMove p sums k).banks.active := by
  unfold compareMove
  split
  · exact h
  · split
    · exact h
    · split
      · exact h.set ((List.length_set ..).trans (h p))
      · unfold faultyMove
        dsimp only
        split <;> exact h.set (h p)

theorem scrubMoves_shaped {k : State} (h : bankShaped k.banks.active) : bankShaped (scrubMoves k).banks.active := by
  unfold scrubMoves
  split
  · exact h
  · dsimp only
    split
    · exact h
    · exact compareMove_shaped (k := k.withScrub ⟨_, 0, ⟨0, 0⟩⟩) h _ _

/-! ### A completion and what it does not touch (R40, R54) -/

/-- What each block of a completion keeps, and what does not look at the evaluation unit, the whole completion keeps. -/
theorem pass_invariant {P : State → Prop} (heval : ∀ (k : State) (e : Eval), P k → P { k with eval := e })
    (hblock : ∀ (k : State) (q : Int) (c : CompletionBlock), P k → P (blockMoves q k c)) {k : State} (h : P k) (p : Pass)
    (o : TakeOrder) : P (beginWaiting (o.blocks.foldl (blockMoves p.inputs.q) (recordPass p k))) := by
  obtain ⟨e, he⟩ := beginWaiting_writes_eval (o.blocks.foldl (blockMoves p.inputs.q) (recordPass p k))
  rw [he]
  exact heval _ e (List.foldlRecOn o.blocks (blockMoves p.inputs.q) (heval k _ h) fun u hu c _ => hblock u _ c hu)

/-! ### The shapes through every step (04, R166) -/

theorem TablesShaped.block {k : State} (h : TablesShaped k) (q : Int) (c : CompletionBlock) :
    TablesShaped (blockMoves q k c) := by
  cases c with
  | controlStateUnit =>
    obtain ⟨c, hc, -⟩ := controlMoves_eq q k
    show TablesShaped (controlMoves q k)
    rw [hc]
    exact ⟨h.active, h.staging, h.slots⟩
  | mapBanks =>
    show TablesShaped (banksMove k)
    rcases banksMove_cases k with e | e <;> rw [e]
    · exact h
    · exact ⟨h.staging, stagedBank_shaped h.active, h.slots⟩
  | scrubUnit =>
    have hactive := scrubMoves_shaped h.active
    show TablesShaped (scrubMoves k)
    rw [scrubMoves_frame]
    exact ⟨hactive, h.staging, h.slots⟩

/-- 04, R166: no step changes the shape of a table. -/
theorem TablesShaped.move {k u : State} (h : TablesShaped k) (m : Move k u) : TablesShaped u := by
  have hslots : slotsShaped k.store.slots := h.slots
  cases m with
  | imu | held | lost =>
    obtain ⟨e, he⟩ := lookupRefresh_writes_eval (k.withSensors _)
    rw [he]
    exact ⟨h.active, h.staging, h.slots⟩
  | wheel =>
    obtain ⟨e, he⟩ := requestPass_writes_eval _
    rw [he]
    exact ⟨h.active, h.staging, h.slots⟩
  | pass p o _ => exact pass_invariant (fun _ _ h => ⟨h.active, h.staging, h.slots⟩) (fun _ q c h => h.block q c) h p o
  | written w p cells _ _ hlen => exact ⟨h.active, bankShaped.set h.staging (hlen.trans (h.staging p)), h.slots⟩
  | committed w p => exact ⟨h.active, bankShaped.set h.staging (h.staging p), h.slots⟩
  | copied => exact ⟨h.active, stagedBank_shaped h.active, h.slots⟩
  | loaded i =>
    exact ⟨h.active, bankShaped_build fun p => (congrArg List.length (loadedPlane_cells _ p)).trans (h.slots i p), h.slots⟩
  | activated =>
    exact ⟨h.active, bankShaped_build fun p => (congrArg List.length (recheckedPlane_cells _)).trans (h.staging p), h.slots⟩
  | storeBegun w i | storeDone i | storeUndone i => exact ⟨h.active, h.staging, hslots.set i (h.slots i)⟩
  | programmed i p cells _ hlen _ | unprogrammed i p cells _ hlen =>
    exact ⟨h.active, h.staging, hslots.set i ((h.slots i).set (hlen.trans (h.staging p)))⟩
  | hardReset n =>
    exact ⟨reset_tablesShaped.active, reset_tablesShaped.staging, abandonStore_shaped hslots n k.banks.staging⟩
  | built => exact ⟨bootBank_shaped (h.slots _), reset_tablesShaped.staging, h.slots⟩
  | _ => exact ⟨h.active, h.staging, h.slots⟩

/-! ### The positions through every step (R121, R123, R142) -/

/-- R143: the row the scrub goes to lies in its plane. -/
theorem scrubMoves_row {k : State} (h : k.scrub.row < k.scrub.plane.rows) :
    (scrubMoves k).scrub.row < (scrubMoves k).scrub.plane.rows := by
  unfold scrubMoves
  split
  · exact h
  · dsimp only
    split
    · assumption
    · rw [compareMove_frame]
      exact PlaneId.rows_pos _

theorem PositionsLegal.block {k : State} (h : PositionsLegal k) (q : Int) (c : CompletionBlock) :
    PositionsLegal (blockMoves q k c) := by
  cases c with
  | controlStateUnit =>
    obtain ⟨c, hc, -⟩ := controlMoves_eq q k
    show PositionsLegal (controlMoves q k)
    rw [hc]
    exact ⟨h.window, h.scrub⟩
  | mapBanks =>
    show PositionsLegal (banksMove k)
    rcases banksMove_cases k with e | e <;> rw [e]
    · exact h
    · exact ⟨nofun, PlaneId.rows_pos _⟩
  | scrubUnit =>
    have hrow := scrubMoves_row h.scrub
    show PositionsLegal (scrubMoves k)
    rw [scrubMoves_frame]
    exact ⟨h.window, hrow⟩

/-- R121, R123, R142: no step takes the window out of its plane or the scrub row out of its plane's rows. -/
theorem PositionsLegal.move {k u : State} (h : PositionsLegal k) (m : Move k u) : PositionsLegal u := by
  cases m with
  | imu | held | lost =>
    obtain ⟨e, he⟩ := lookupRefresh_writes_eval (k.withSensors _)
    rw [he]
    exact ⟨h.window, h.scrub⟩
  | wheel =>
    obtain ⟨e, he⟩ := requestPass_writes_eval _
    rw [he]
    exact ⟨h.window, h.scrub⟩
  | pass p o _ => exact pass_invariant (fun _ _ h => ⟨h.window, h.scrub⟩) (fun _ q c h => h.block q c) h p o
  | window w hw | roller w hw | rollerLeft w hw | written w _ _ hw | committed w _ hw | activated w _ hw | cancelled w hw
  | storeBegun w _ hw | selected w _ hw => exact ⟨hw h.window, h.scrub⟩
  | restart | hardReset => exact ⟨nofun, PlaneId.rows_pos _⟩
  | copied | loaded | built => exact ⟨nofun, h.scrub⟩
  | _ => exact ⟨h.window, h.scrub⟩

/-- Settles O7: both invariants go through the list of `Move`. -/
theorem tablesAndPositionsKeepTheirShapes : Obligations.TablesAndPositionsKeepTheirShapes := by
  unfold Obligations.TablesAndPositionsKeepTheirShapes
  constructor
  · intro s t h hstep
    have hmove := TablesShaped.move (k := s.blocks) ⟨h.active, h.staging, h.slots⟩ (step_moves hstep)
    exact ⟨hmove.active, hmove.staging, hmove.slots⟩
  · intro s t h hstep
    have hmove := PositionsLegal.move (k := s.blocks) ⟨h.window, h.scrub⟩ (step_moves hstep)
    exact ⟨hmove.window, hmove.scrub⟩

/-! ### The recorded pairs through every step (R119, R131, R135, R138, R143 to R145, R173, R175) -/

theorem bankIntact.set {b : Bank} (h : bankIntact b) {p : PlaneId} {pl : Plane}
    (hpl : ∀ c, pl.pair? = some c → pairOf pl.cells = c) : bankIntact (b.set p pl) := by
  intro q c hc
  by_cases hq : q = p
  · rw [hq, PerPlane.get_set_same] at hc ⊢
    exact hpl c hc
  · rw [PerPlane.get_set_other _ _ hq] at hc ⊢
    exact h q c hc

theorem bankIntact_build {f : PlaneId → Plane} (h : ∀ p c, (f p).pair? = some c → pairOf (f p).cells = c) :
    bankIntact (PerPlane.build f) := by
  intro p c hc
  rw [PerPlane.get_build] at hc ⊢
  exact h p c hc

/-- R173, R175: a plane taken from a slot gives its pair. -/
theorem verifiedFrom_intact {x : Slot} {p : PlaneId} {pl : Plane} (h : verifiedFrom x p = some pl) {c : CheckPair}
    (hc : pl.pair? = some c) : pairOf pl.cells = c := by
  obtain ⟨rfl, hpair⟩ := verifiedFrom_some h
  exact hpair.trans (Option.some.inj hc)

theorem loadedPlane_intact (x : Slot) (p : PlaneId) (c : CheckPair) (hc : (loadedPlane x p).pair? = some c) :
    pairOf (loadedPlane x p).cells = c := by
  unfold loadedPlane at hc ⊢
  cases h : verifiedFrom x p with
  | none =>
    rw [h] at hc
    cases hc
  | some pl =>
    rw [h] at hc
    exact verifiedFrom_intact h hc

/-- R135, step 3: a plane that is VERIFIED after the recomputation gives its pair. -/
theorem recheckedPlane_intact (pl : Plane) (c : CheckPair) (hc : (recheckedPlane pl).pair? = some c) :
    pairOf (recheckedPlane pl).cells = c := by
  rw [recheckedPlane_cells]
  rw [Plane.pair?_iff] at hc
  unfold recheckedPlane at hc
  split at hc
  case h_1 d hd =>
    split at hc
    · rename_i hpair
      exact hpair.trans (PlaneStatus.verified.inj (hd.symm.trans hc))
    · cases hc
  all_goals
    rename_i hd
    cases hd.symm.trans hc

/-- R176: a plane replaced at boot gives its pair. -/
theorem replacedPlane_intact (x : Slot) (p : PlaneId) (c : CheckPair) (hc : (replacedPlane x p).pair? = some c) :
    pairOf (replacedPlane x p).cells = c := by
  cases p with
  | action => exact blankBank_intact .action c hc
  | parameter => exact blankBank_intact .parameter c hc
  | _ => cases hc

theorem bootBank_intact (x : Slot) : bankIntact (bootBank x) := by
  refine bankIntact_build fun p c hc => ?_
  by_cases hgood : SlotGood x p
  · rw [bootPlane_of_good hgood] at hc ⊢
    exact verifiedFrom_intact (verifiedFrom_of_good hgood) hc
  · rw [bootPlane_of_not_good hgood] at hc ⊢
    exact replacedPlane_intact x p c hc

/-- R142, R147: at the beginning of a plane's row 0 no row has been passed. -/
theorem banksIntact_of_begun {u : State} (ha : bankIntact u.banks.active) (hs : bankIntact u.banks.staging)
    (hx : u.scrub = resetScrub) : BanksIntact u := by
  refine ⟨ha, hs, fun _ => ?_⟩
  rw [hx]
  rfl

/-- R119: a step that leaves the active bank and the scrub, and leaves staging intact, keeps the recorded pairs. -/
theorem BanksIntact.staged {k u : State} (h : BanksIntact k) (ha : u.banks.active = k.banks.active)
    (hx : u.scrub = k.scrub) (hs : bankIntact u.banks.staging) : BanksIntact u := by
  refine ⟨ha ▸ h.active, hs, ?_⟩
  rw [ha, hx]
  exact h.sums

/-- R119, R131, R135, R143, R144: no step changes a cell of a VERIFIED plane without its pair; a build that ends finds the scrub
at its beginning. -/
theorem BanksIntact.move {k u : State} (h : ScrubSound k) (hb : k.phase = .building → k.scrub = resetScrub)
    (m : Move k u) : BanksIntact u := by
  have hk := h.intact
  cases m with
  | imu | held | lost =>
    obtain ⟨e, he⟩ := lookupRefresh_writes_eval (k.withSensors _)
    rw [he]
    exact hk.staged rfl rfl hk.staging
  | wheel =>
    obtain ⟨e, he⟩ := requestPass_writes_eval _
    rw [he]
    exact hk.staged rfl rfl hk.staging
  | pass p o _ => exact (pass_invariant (fun _ _ h => h.congr rfl rfl rfl) (fun _ q c h => h.block q c) h p o).intact
  | restart => exact banksIntact_of_begun hk.active hk.staging rfl
  | written => exact hk.staged rfl rfl (bankIntact.set hk.staging nofun)
  | committed => exact hk.staged rfl rfl (bankIntact.set hk.staging fun _ => Option.some.inj)
  | copied => exact hk.staged rfl rfl (stagedBank_intact hk.active)
  | loaded => exact hk.staged rfl rfl (bankIntact_build (loadedPlane_intact _))
  | activated => exact hk.staged rfl rfl (bankIntact_build fun p => recheckedPlane_intact _)
  | hardReset => exact banksIntact_of_begun blankBank_intact emptyBank_intact rfl
  | built t hp => exact banksIntact_of_begun (bootBank_intact _) emptyBank_intact (hb hp)
  | _ => exact hk.staged rfl rfl hk.staging

/-- Settles O13: the recorded pairs go through the list of `Move`. -/
theorem banksStayIntact : Obligations.BanksStayIntact := by
  unfold Obligations.BanksStayIntact
  rintro s t ⟨hsettled, htables, hpositions⟩ hintact hstep
  have hsound : ScrubSound s := ⟨htables, hpositions, hintact⟩
  have hbuilding : s.phase = .building → s.scrub = resetScrub := by
    intro hp
    rw [(hsettled hp).rest]
    rfl
  have hmove := BanksIntact.move (k := s.blocks) (hsound.congr rfl rfl rfl) hbuilding (step_moves hstep)
  exact hmove.staged rfl rfl hmove.staging

end Sys2Proof.Machine

/-!
Windows (R121, R123): the cell that a position names, in both orders, and the cells that Load Data and Fill Window write.
-/

namespace Sys2Proof.Machine

/-! ### Positions and cells (R123) -/

/-- The row and the column of position `p`, counted from the window's first (R123). -/
def Window.offset (w : Window) (p : Nat) : Nat × Nat :=
  match w.order with
  | .rowFirst => (p / w.width, p % w.width)
  | .columnFirst => (p % w.height, p / w.height)

theorem Window.cellIndex_eq_offset (w : Window) (p : Nat) :
    w.cellIndex p = (w.firstRow + (w.offset p).1) * w.plane.cols + (w.firstCol + (w.offset p).2) := by
  unfold Window.cellIndex Window.offset
  cases w.order <;> rfl

/-- R123: a position of the window is a row and a column of it. -/
theorem Window.offset_lt {w : Window} {p : Nat} (h : p < w.size) :
    (w.offset p).1 < w.height ∧ (w.offset p).2 < w.width := by
  unfold Window.offset
  cases w.order with
  | rowFirst => exact ⟨Nat.div_lt_of_lt_mul h, Nat.mod_lt _ (Nat.succ_pos _)⟩
  | columnFirst => exact ⟨Nat.mod_lt _ (Nat.succ_pos _), Nat.div_lt_of_lt_mul (Nat.mul_comm w.width _ ▸ h)⟩

theorem Window.offset_injective {w : Window} {p q : Nat} (h : w.offset p = w.offset q) : p = q := by
  unfold Window.offset at h
  cases ho : w.order with
  | rowFirst =>
    simp only [ho, Prod.mk.injEq] at h
    exact Nat.ext_div_mod h.1 h.2
  | columnFirst =>
    simp only [ho, Prod.mk.injEq] at h
    exact Nat.ext_div_mod h.2 h.1

/-- A cell of a table is in one row and one column. -/
theorem row_column_unique {n r c r' c' : Nat} (hc : c < n) (hc' : c' < n) (h : r * n + c = r' * n + c') :
    r = r' ∧ c = c' := by
  have hmod := congrArg (· % n) h
  simp only [Nat.mul_add_mod_self_right, Nat.mod_eq_of_lt hc, Nat.mod_eq_of_lt hc'] at hmod
  subst hmod
  exact ⟨Nat.eq_of_mul_eq_mul_right (Nat.zero_lt_of_lt hc) (Nat.add_right_cancel h), rfl⟩

section Legal

variable {w : Window} (hw : WindowLegal w) {p q : Nat} (hp : p < w.size)
include hw hp

/-- R123: the row and the column of a position lie inside the plane. -/
theorem WindowLegal.offset_inside :
    w.firstRow + (w.offset p).1 < w.plane.rows ∧ w.firstCol + (w.offset p).2 < w.plane.cols := by
  obtain ⟨hrow, hcol⟩ := Window.offset_lt hp
  obtain ⟨hrows, hlastRow⟩ := hw.rows
  obtain ⟨hcols, hlastCol⟩ := hw.cols
  unfold Window.height at hrow
  unfold Window.width at hcol
  omega

/-- R123: the cell of a position lies inside the plane. -/
theorem WindowLegal.cellIndex_lt : w.cellIndex p < w.plane.size := by
  obtain ⟨hrow, hcol⟩ := hw.offset_inside hp
  rw [w.cellIndex_eq_offset]
  calc _ < (w.firstRow + (w.offset p).1) * w.plane.cols + w.plane.cols := Nat.add_lt_add_left hcol _
    _ = (w.firstRow + (w.offset p).1 + 1) * w.plane.cols := (Nat.succ_mul _ _).symm
    _ ≤ w.plane.size := Nat.mul_le_mul_right _ hrow

/-- R123: no two positions of the window name one cell. -/
theorem WindowLegal.cellIndex_injective (hq : q < w.size) (h : w.cellIndex p = w.cellIndex q) : p = q := by
  rw [w.cellIndex_eq_offset, w.cellIndex_eq_offset] at h
  obtain ⟨hrow, hcol⟩ := row_column_unique (hw.offset_inside hp).2 (hw.offset_inside hq).2 h
  exact Window.offset_injective (Prod.ext (Nat.add_left_cancel hrow) (Nat.add_left_cancel hcol))

end Legal

/-- Settles O44: a position is a row and a column of the window, and each pair of these is one cell. -/
theorem positionsVisitEachCellOnce : Obligations.PositionsVisitEachCellOnce := by
  unfold Obligations.PositionsVisitEachCellOnce
  intro w p q hw hp hq
  refine ⟨hw.cellIndex_lt hp, hw.cellIndex_injective hp hq, fun ho => ?_, fun ho => ?_⟩ <;>
    simp only [Window.cellIndex, ho]

/-! ### Cells written (R124, R126, R129) -/

theorem getD_set_same {cells : List Word} {i : Nat} (h : i < cells.length) (v : Word) : (cells.set i v).getD i 0 = v := by
  rw [List.getD_eq_getElem?_getD, List.getElem?_set_self h, Option.getD_some]

theorem getD_set_other {cells : List Word} {i j : Nat} (h : j ≠ i) (v : Word) :
    (cells.set i v).getD j 0 = cells.getD j 0 := by
  rw [List.getD_eq_getElem?_getD, List.getElem?_set_ne h.symm, List.getD_eq_getElem?_getD]

/-- R124, R126: as many values are written as fit. -/
theorem writeValues_count (w : Window) (vs : List Word) : ∀ (p : Nat) (cells : List Word),
    (writeValues w p cells vs).2 = min vs.length (w.size - p) := by
  induction vs with
  | nil => intro p cells; exact (Nat.zero_min _).symm
  | cons v vs ih =>
    intro p cells
    unfold writeValues
    split
    · simp only [ih, List.length_cons]
      omega
    · simp only [List.length_cons]
      omega

/-- R124: a cell that no written position names keeps its value. -/
theorem writeValues_other (w : Window) (vs : List Word) : ∀ (p : Nat) (cells : List Word) (j : Nat),
    (∀ i, i < min vs.length (w.size - p) → j ≠ w.cellIndex (p + i)) →
      (writeValues w p cells vs).1.getD j 0 = cells.getD j 0 := by
  induction vs with
  | nil => intro p cells j _; rfl
  | cons v vs ih =>
    intro p cells j hj
    unfold writeValues
    rw [List.length_cons] at hj
    split
    · have hhead := hj 0 (by omega)
      refine (ih (p + 1) _ j fun i hi => ?_).trans (getD_set_other hhead v)
      rw [Nat.add_assoc, Nat.add_comm 1]
      exact hj (i + 1) (by omega)
    · rfl

/-- R124: the values that fit stand in order at the positions from `p` on. -/
theorem writeValues_written {w : Window} (hw : WindowLegal w) (vs : List Word) : ∀ (p : Nat) (cells : List Word) (i : Nat),
    cells.length = w.plane.size → i < min vs.length (w.size - p) →
      (writeValues w p cells vs).1.getD (w.cellIndex (p + i)) 0 = vs.getD i 0 := by
  induction vs with
  | nil => intro p cells i _ hi; exact absurd hi (by simp)
  | cons v vs ih =>
    intro p cells i hlen hi
    rw [List.length_cons] at hi
    have hp : p < w.size := by omega
    unfold writeValues
    rw [if_pos hp]
    cases i with
    | zero =>
      refine (writeValues_other w vs (p + 1) _ (w.cellIndex p) fun i hi heq => ?_).trans ?_
      · have := hw.cellIndex_injective hp (by omega) heq
        omega
      · exact getD_set_same (hlen ▸ hw.cellIndex_lt hp) v
    | succ i =>
      rw [Nat.add_comm i 1, ← Nat.add_assoc, Nat.add_comm 1 i]
      exact ih (p + 1) _ i ((List.length_set ..).trans hlen) (by omega)

/-- One value written at the first `n` positions of a window. -/
def fillFirst (w : Window) (v : Word) (cells : List Word) (n : Nat) : List Word :=
  (List.range n).foldl (fun cs p => cs.set (w.cellIndex p) v) cells

theorem fillCells_eq_fillFirst (w : Window) (v : Word) (cells : List Word) :
    fillCells w v cells = fillFirst w v cells w.size := rfl

theorem fillFirst_succ (w : Window) (v : Word) (cells : List Word) (n : Nat) :
    fillFirst w v cells (n + 1) = (fillFirst w v cells n).set (w.cellIndex n) v := by
  unfold fillFirst
  rw [List.range_succ, List.foldl_append]
  rfl

/-- R129: a cell that no filled position names keeps its value. -/
theorem fillFirst_other (w : Window) (v : Word) (cells : List Word) (j : Nat) : ∀ n,
    (∀ i, i < n → j ≠ w.cellIndex i) → (fillFirst w v cells n).getD j 0 = cells.getD j 0 := by
  intro n
  induction n with
  | zero => intro _; rfl
  | succ n ih =>
    intro hj
    rw [fillFirst_succ, getD_set_other (hj n n.lt_succ_self)]
    exact ih fun i hi => hj i (hi.trans n.lt_succ_self)

/-- R129: every filled position holds the value, whatever later positions name the same cell. -/
theorem fillFirst_filled {w : Window} (hw : WindowLegal w) (v : Word) {cells : List Word}
    (hlen : cells.length = w.plane.size) : ∀ n, n ≤ w.size → ∀ i, i < n →
      (fillFirst w v cells n).getD (w.cellIndex i) 0 = v := by
  intro n
  induction n with
  | zero => intro _ i hi; exact absurd hi i.not_lt_zero
  | succ n ih =>
    intro hn i hi
    rw [fillFirst_succ]
    by_cases heq : w.cellIndex i = w.cellIndex n
    · rw [heq]
      refine getD_set_same ?_ v
      rw [fillFirst, foldl_set_length, hlen]
      exact hw.cellIndex_lt hn
    · rw [getD_set_other heq]
      have hne : i ≠ n := fun h => heq (congrArg _ h)
      exact ih (by omega) i (by omega)

end Sys2Proof.Machine

/-!
The search for a single changed cell (R133, R144).
-/

namespace Sys2Proof.Machine

/-- Cell `i` explains both differences: `i + 1` times the one is the other, mod 65536 (R133, R144). -/
def cellExplains (dS dW : Word) (i : Nat) : Bool := BitVec.ofNat 16 (i + 1) * dS == dW

theorem cellExplains_iff (dS dW : Word) (i : Nat) :
    cellExplains dS dW i = true ↔ ((i + 1) * dS.toNat) % 65536 = dW.toNat := by
  unfold cellExplains
  rw [beq_iff_eq, ← BitVec.toNat_inj, BitVec.toNat_mul, BitVec.toNat_ofNat, Nat.mod_mul_mod]

/-- A search over a range finds one index exactly when it is the only one that passes. -/
theorem filter_range_singleton_iff (n : Nat) (f : Nat → Bool) (i : Nat) :
    (List.range n).filter f = [i] ↔ i < n ∧ f i = true ∧ ∀ j, j < n → f j = true → j = i := by
  have hmem : ∀ j, j ∈ (List.range n).filter f ↔ j < n ∧ f j = true := by simp
  constructor
  · intro h
    rw [h] at hmem
    obtain ⟨hi, hf⟩ := (hmem i).mp (List.mem_singleton_self i)
    exact ⟨hi, hf, fun j hj hfj => List.mem_singleton.mp ((hmem j).mpr ⟨hj, hfj⟩)⟩
  · rintro ⟨hi, hf, honly⟩
    refine List.perm_singleton.mp ((List.perm_ext_iff_of_nodup (List.nodup_range.filter f) (List.nodup_singleton i)).mpr
      fun j => ?_)
    rw [hmem, List.mem_singleton]
    exact ⟨fun ⟨hj, hfj⟩ => honly j hj hfj, fun h => h ▸ ⟨hi, hf⟩⟩

/-- R133, R144: with no excess there is nothing to locate. -/
theorem locate_zero (n : Nat) (dW : Word) : locate n 0 dW = none := if_pos rfl

/-- R133, R144: a cell is named when it alone explains the differences. -/
theorem locate_iff (n : Nat) (dS dW : Word) (i : Nat) : locate n dS dW = some i ↔
    dS ≠ 0 ∧ i < n ∧ cellExplains dS dW i = true ∧ ∀ j, j < n → cellExplains dS dW j = true → j = i := by
  rw [← filter_range_singleton_iff]
  show (if dS = 0 then none else match (List.range n).filter (cellExplains dS dW) with
    | [i] => some i
    | _ => none) = some i ↔ _
  by_cases hd : dS = 0
  · simp [hd]
  · rw [if_neg hd, and_iff_right hd]
    generalize (List.range n).filter (cellExplains dS dW) = l
    match l with
    | [] => simp
    | [j] => simp
    | _ :: _ :: _ => simp

/-- An odd excess times two different factors below 65536 gives two different products mod 65536. -/
theorem odd_multiple_injective {d a b : Nat} (hd : d % 2 = 1) (ha : a < 65536) (hb : b < 65536)
    (h : (a * d) % 65536 = (b * d) % 65536) : a = b := by
  have hcoprime : Nat.Coprime 65536 d := (Nat.coprime_two_left.mpr (Nat.odd_iff.mpr hd)).pow_left 16
  exact (Nat.ModEq.cancel_right_of_coprime hcoprime h).eq_of_lt_of_lt ha hb

/-- Settles O48: `locate_iff` in factors from 1, and an odd excess is explained by one factor alone. -/
theorem locationNamesTheOnlyCellThatExplains : Obligations.LocationNamesTheOnlyCellThatExplains := by
  unfold Obligations.LocationNamesTheOnlyCellThatExplains
  intro n dS dW hn explains
  refine ⟨fun h => h ▸ locate_zero n dW, fun i => ?_, fun i hi hW hodd => ?_⟩
  · rw [locate_iff, cellExplains_iff]
    refine and_congr_right fun _ => ⟨fun ⟨hi, hexp, honly⟩ => ⟨⟨i.succ_pos, hi, hexp⟩, ?_⟩, fun ⟨⟨_, hi, hexp⟩, honly⟩ =>
      ⟨hi, hexp, fun j hj hexp' => ?_⟩⟩
    · rintro k ⟨hpos, hle, hk⟩
      obtain ⟨j, rfl⟩ := Nat.exists_eq_succ_of_ne_zero (Nat.ne_of_gt hpos)
      rw [honly j hle ((cellExplains_iff dS dW j).mpr hk)]
    · exact Nat.succ_injective (honly (j + 1) ⟨j.succ_pos, hj, (cellExplains_iff dS dW j).mp hexp'⟩)
  · refine (locate_iff n dS dW i).mpr ⟨?_, hi, (cellExplains_iff dS dW i).mpr hW.symm, fun j hj hexp => ?_⟩
    · rintro rfl
      cases hodd
    · have hproducts := ((cellExplains_iff dS dW j).mp hexp).trans hW
      exact Nat.succ_injective (odd_multiple_injective hodd (by omega) (by omega) hproducts)

end Sys2Proof.Machine

/-!
The requests on windows (R120 to R122, R124 to R130, R171): each request by its outcomes, and the guard of the staging bank.
-/

namespace Sys2Proof.Machine

/-! ### The taking of a request by its code and length (R127, R152, R153) -/

/-- R153, step 2: a request of two bytes or more is of its first byte's code. -/
theorem requestCode_of_length {r : Request} (h : 2 ≤ r.length) : requestCode r = requestCodeOf (byteAt r 0) :=
  if_neg (Nat.not_lt.mpr h)

/-- R127: without a window there is no run to end. -/
theorem endRun_of_no_window {s : State} (h : s.banks.window = none) : endRun s = s := by
  unfold endRun
  rw [h, Option.map_none, ← h]
  rfl

section Taking

variable {s : State} {r : Request} {rest : List Request} (h : Ready s (r :: rest))
include h

/-- R127, R153: a request of the length allowed ends an open run and is answered. -/
theorem exec_withLength {c : Instr} {code : RequestCode} {n : Nat} {body : Request → State → State}
    (hx : exec c s = .next (takeRequest (some code) (withLength n body) s)) (hc : requestCode r = some code)
    (hn : r.length = n) : exec c s = .next (handDone (body r (endRun (takeHead r rest s)))) := by
  rw [hx, takeRequest_ready h _ hc]
  unfold withLength
  rw [if_pos hn]

variable (hq : QueuesLegal s)
include hq

/-- An answer that changes nothing but that an open run ends (R127). -/
theorem respond_over_taken (res : Result) (d : List Byte) : Answered (taken s rest)
    (handDone (respond r res d (endRun (takeHead r rest s)))) (byteAt r 0) (byteAt r 1) res d :=
  respond_after (u := endRun (takeHead r rest s)) h hq rfl rfl rfl rfl r res d

end Taking

/-! ### The guard of the staging bank (R120, R171) -/

/-- R120: a store in progress is tested before a pending activation. -/
theorem stagingRefusal_guarded {s : State} {res : Result}
    (h : s.storeBusy = true ∧ res = .busyStore ∨
      s.storeBusy = false ∧ s.banks.activationPending = true ∧ res = .pendingActivation) : stagingRefusal s = some res := by
  rcases h with ⟨hbusy, rfl⟩ | ⟨hidle, hpending, rfl⟩
  · simp only [stagingRefusal, hbusy, if_true]
  · simp only [stagingRefusal, hidle, hpending, Bool.false_eq_true, if_false, if_true]

/-- R120: the tests on a window's bank are passed when the bank is active or staging is free. -/
theorem bankRefusal_none {bank : BankSel} {s : State}
    (h : bank = .staging → s.storeBusy = false ∧ s.banks.activationPending = false) : bankRefusal bank s = none := by
  cases bank with
  | active => rfl
  | staging => exact stagingRefusal_none (h rfl).1 (h rfl).2

section Guarded

variable {r : Request} {s : State} {res : Result} (h : stagingRefusal s = some res)
include h

theorem answerOpenWindow_guarded (hb : requestBank r = some .staging) : answerOpenWindow r s = respond r res [] s := by
  simp only [answerOpenWindow, hb, bankRefusal, h]

theorem answerLoadData_guarded : answerLoadData r s = respond r res [] (endRun s) := by
  simp only [answerLoadData, h]

theorem answerResumeWindow_guarded {w : Window} (hw : s.banks.window = some w) (hb : w.bank = .staging) :
    answerResumeWindow r s = respond r res [] s := by
  simp only [answerResumeWindow, hw, hb, bankRefusal, h]

theorem answerFillWindow_guarded {w : Window} (hw : s.banks.window = some w) (hb : w.bank = .staging) :
    answerFillWindow r s = respond r res [] s := by
  simp only [answerFillWindow, hw, hb, h]

theorem answerCommitPlane_guarded : answerCommitPlane r s = respond r res [] s := by
  simp only [answerCommitPlane, h]

theorem answerStageCopy_guarded : answerStageCopy r s = respond r res [] s := by
  simp only [answerStageCopy, h]

theorem answerLoadImage_guarded : answerLoadImage r s = respond r res [] s := by
  simp only [answerLoadImage, h]

end Guarded

/-- The window of a state whose run has been ended (R127). -/
theorem endRun_window_some {s : State} {w : Window} (h : s.banks.window = some w) :
    (endRun s).banks.window = some { w with openRun := none } := congrArg (Option.map _) h

/-- Settles O42: each request meets the guard before anything else it tests. -/
theorem stagingIsGuarded : Obligations.StagingIsGuarded := by
  unfold Obligations.StagingIsGuarded
  intro s c r rest res h hq hguard hrequest
  let u : State := endRun (takeHead r rest s)
  have hu : stagingRefusal u = some res := stagingRefusal_guarded (s := u) hguard
  have answered := respond_over_taken h hq res []
  have code (hlen : 2 ≤ r.length) {b : Byte} (hb : byteAt r 0 = b) : requestCode r = requestCodeOf b :=
    (requestCode_of_length hlen).trans (congrArg _ hb)
  have refused {c : Instr} {b : RequestCode} {n : Nat} {body : Request → State → State}
      (hx : exec c s = .next (takeRequest (some b) (withLength n body) s)) (hb : requestCode r = some b) (hn : r.length = n)
      (hbody : body r u = respond r res [] u) :
      ∃ t, exec c s = .next t ∧ Answered (taken s rest) t (byteAt r 0) (byteAt r 1) res [] :=
    ⟨_, exec_withLength h hx hb hn, by rw [hbody]; exact answered⟩
  rcases hrequest with ⟨rfl, hb, hn, hbank⟩ | ⟨rfl, hb, hn⟩ | ⟨rfl, hb, hn, w, hw, hbank⟩ | ⟨rfl, hb, hn, w, hw, hbank⟩ |
    ⟨rfl, hb, hn⟩ | ⟨rfl, hb, hn⟩ | ⟨rfl, hb, hn⟩
  · have hstaging : requestBank r = some .staging := by
      unfold requestBank
      rw [hbank]
      rfl
    exact refused rfl (code (by omega) hb) hn (answerOpenWindow_guarded hu hstaging)
  · have hu' : stagingRefusal (takeHead r rest s) = some res := hu
    refine ⟨_, congrArg Host.Outcome.next (takeRequest_ready h _ (code hn hb) answerLoadData), ?_⟩
    rw [answerLoadData_guarded hu']
    exact answered
  · have hwindow := endRun_window_some (s := takeHead r rest s) hw
    exact refused rfl (code (by omega) hb) hn (answerResumeWindow_guarded hu hwindow hbank)
  · have hwindow := endRun_window_some (s := takeHead r rest s) hw
    exact refused rfl (code (by omega) hb) hn (answerFillWindow_guarded hu hwindow hbank)
  · exact refused rfl (code (by omega) hb) hn (answerCommitPlane_guarded hu)
  · exact refused rfl (code (by omega) hb) hn (answerStageCopy_guarded hu)
  · exact refused rfl (code (by omega) hb) hn (answerLoadImage_guarded hu)

/-! ### Load Data (R124 to R127) -/

/-- A word is its two bytes, most significant first. -/
theorem wordBytes_append (v : Word) : v.extractLsb' 8 8 ++ v.extractLsb' 0 8 = v :=
  (BitVec.extractLsb'_append_extractLsb'_eq_extractLsb' (start₁ := 0) (len₁ := 8) (len₂ := 8) rfl).trans
    BitVec.extractLsb'_eq_self

/-- R124: the values of a Load Data request are those its bytes were made of. -/
theorem requestValues_flatMap (vs : List Word) : requestValues (vs.flatMap wordBytes) = vs := by
  induction vs with
  | nil => rfl
  | cons v vs ih =>
    rw [List.flatMap_cons]
    show (v.extractLsb' 8 8 ++ v.extractLsb' 0 8) :: requestValues (vs.flatMap wordBytes) = v :: vs
    rw [ih, wordBytes_append]

theorem length_flatMap_wordBytes (vs : List Word) : (vs.flatMap wordBytes).length = 2 * vs.length := by
  induction vs with
  | nil => rfl
  | cons v vs ih =>
    rw [List.flatMap_cons, List.length_append, ih, wordBytes_length, List.length_cons]
    omega

/-- A plane with the values that fit written from the window's position on, LOADING when there is one (R124, R126). -/
def loadInto (w : Window) (vs : List Word) (pl : Plane) : Plane :=
  writtenPlane pl (writeValues w w.position pl.cells vs).1 (min vs.length (w.size - w.position))

/-- R124, R126: what fits is written, and the position and the expected sequence move on. -/
theorem loadValues_eq (r : Request) (w : Window) (s : State) :
    let vs := requestValues (r.drop 2)
    let n := min vs.length (w.size - w.position)
    loadValues r w s = respond r (if n = vs.length then .ok else .windowFull) [BitVec.ofNat 8 n]
      ((s.withStaging (s.banks.staging.set w.plane (loadInto w vs (s.banks.staging.get w.plane)))).withWindow
        (some { w with position := w.position + n, expected := w.expected + 1 })) := by
  intro vs n
  have hn : (writeValues w w.position (s.banks.staging.get w.plane).cells vs).2 = n := writeValues_count w vs _ _
  unfold loadInto
  rw [show min vs.length (w.size - w.position) = n from rfl, ← hn]
  rfl

section LoadInto

variable (w : Window) (vs : List Word) (pl : Plane)

theorem loadInto_none (h : min vs.length (w.size - w.position) = 0) : loadInto w vs pl = pl := if_pos h

theorem loadInto_some (h : min vs.length (w.size - w.position) ≠ 0) :
    loadInto w vs pl = { cells := (writeValues w w.position pl.cells vs).1, status := .loading } := if_neg h

theorem loadInto_length : (loadInto w vs pl).cells.length = pl.cells.length := by
  by_cases h : min vs.length (w.size - w.position) = 0
  · rw [loadInto_none w vs pl h]
  · rw [loadInto_some w vs pl h]
    exact writeValues_length _ _ _ _

theorem loadInto_status :
    (loadInto w vs pl).status = if min vs.length (w.size - w.position) = 0 then pl.status else .loading := by
  split
  · rename_i h
    rw [loadInto_none w vs pl h]
  · rename_i h
    rw [loadInto_some w vs pl h]

theorem loadInto_other (j : Nat) (hj : ∀ i, i < min vs.length (w.size - w.position) → j ≠ w.cellIndex (w.position + i)) :
    (loadInto w vs pl).cells.getD j 0 = pl.cells.getD j 0 := by
  by_cases h : min vs.length (w.size - w.position) = 0
  · rw [loadInto_none w vs pl h]
  · rw [loadInto_some w vs pl h]
    exact writeValues_other w vs _ _ j hj

theorem loadInto_written {w : Window} (hw : WindowLegal w) {pl : Plane} (hlen : pl.cells.length = w.plane.size) {i : Nat}
    (hi : i < min vs.length (w.size - w.position)) :
    (loadInto w vs pl).cells.getD (w.cellIndex (w.position + i)) 0 = vs.getD i 0 := by
  rw [loadInto_some w vs pl (Nat.ne_zero_of_lt hi)]
  exact writeValues_written hw vs _ _ i hlen hi

end LoadInto

section LoadData

variable {r : Request} {s : State} (hfree : stagingRefusal s = none)
include hfree

/-- R125: no window, or one without an open LOAD run. -/
theorem answerLoadData_noWindow (h : ∀ w, s.banks.window = some w → w.openRun ≠ some .load) :
    answerLoadData r s = respond r .noWindow [] (endRun s) := by
  cases hw : s.banks.window with
  | none => simp only [answerLoadData, hfree, hw, endRun_of_no_window hw]
  | some w => simp only [answerLoadData, hfree, hw, if_pos (h w hw)]

variable {w : Window} (hw : s.banks.window = some w) (hrun : w.openRun = some .load)
include hw hrun

/-- R125: an odd length, or no value. -/
theorem answerLoadData_badLength (h : r.length % 2 = 1 ∨ r.length = 2) :
    answerLoadData r s = respond r .badArgument [] (endRun s) := by
  simp only [answerLoadData, hfree, hw, if_neg (not_not.mpr hrun), if_pos h]

variable (hlen : ¬ (r.length % 2 = 1 ∨ r.length = 2))
include hlen

/-- R125: a wrong sequence byte. -/
theorem answerLoadData_gap (h : requestSeq r ≠ w.expected) :
    answerLoadData r s = respond r .sequenceGap [w.expected] (endRun s) := by
  simp only [answerLoadData, hfree, hw, if_neg (not_not.mpr hrun), if_neg hlen, if_pos h]

/-- R124: a request in sequence. -/
theorem answerLoadData_inSequence (h : requestSeq r = w.expected) : answerLoadData r s = loadValues r w s := by
  simp only [answerLoadData, hfree, hw, if_neg (not_not.mpr hrun), if_neg hlen, if_neg (not_not.mpr h)]

end LoadData

/-- Settles O45: what is written by `loadInto`, the refusals by the outcomes of `answerLoadData`. -/
theorem loadDataWritesAtTheWindow : Obligations.LoadDataWritesAtTheWindow := by
  unfold Obligations.LoadDataWritesAtTheWindow
  constructor
  · intro s seq vs rest w hone _ h hq htables hlegal hidle hpending hw hrun hseq n pl
    let r : Request := 0x11 :: seq :: vs.flatMap wordBytes
    have hlen : r.length = 2 * vs.length + 2 := congrArg (· + 2) (length_flatMap_wordBytes vs)
    have hvalues : requestValues (r.drop 2) = vs := requestValues_flatMap vs
    have hx : exec .loadData s = .next (handDone (answerLoadData r (takeHead r rest s))) :=
      congrArg Host.Outcome.next (takeRequest_ready h _ (requestCode_of_length (r := r) (by omega)) answerLoadData)
    have hfree : stagingRefusal (takeHead r rest s) = none := stagingRefusal_none (s := takeHead r rest s) hidle hpending
    have hplane : pl.cells.length = w.plane.size := htables.staging w.plane
    refine ⟨_, loadInto w vs pl, hx, ?_, loadInto_length w vs pl, loadInto_status w vs pl,
      fun i hi => loadInto_written vs hlegal hplane hi, fun j hj => loadInto_other w vs pl j hj⟩
    rw [answerLoadData_inSequence (r := r) hfree hw hrun (by omega) hseq.symm, loadValues_eq, hvalues, hseq]
    exact respond_after
      (u := ((takeHead r rest s).withStaging (s.banks.staging.set w.plane (loadInto w vs pl))).withWindow _) h hq rfl rfl rfl
      rfl r _ _
  · intro s r rest h hq hb hlen hidle hpending
    have hx : exec .loadData s = .next (handDone (answerLoadData r (takeHead r rest s))) :=
      congrArg Host.Outcome.next
        (takeRequest_ready h _ ((requestCode_of_length hlen).trans (congrArg _ hb)) answerLoadData)
    have hfree : stagingRefusal (takeHead r rest s) = none := stagingRefusal_none (s := takeHead r rest s) hidle hpending
    have refused := fun res d => hb ▸ respond_over_taken h hq res d
    refine ⟨_, hx, fun hnone => ?_, fun w hw hrun => ⟨fun hbad => ?_, fun ⟨heven, htwo, hgap⟩ => ?_⟩⟩
    · rw [answerLoadData_noWindow (s := takeHead r rest s) hfree hnone]
      exact refused .noWindow []
    · rw [answerLoadData_badLength (s := takeHead r rest s) hfree hw hrun hbad]
      exact refused .badArgument []
    · rw [answerLoadData_gap (s := takeHead r rest s) hfree hw hrun (by omega) hgap]
      exact refused .sequenceGap [w.expected]

/-! ### Fill Window (R129) -/

theorem answerFillWindow_noWindow {r : Request} {s : State} (h : s.banks.window = none) :
    answerFillWindow r s = respond r .noWindow [] s := by
  simp only [answerFillWindow, h]

section FillWindow

variable {r : Request} {s : State} {w : Window} (hw : s.banks.window = some w)
include hw

theorem answerFillWindow_active (hb : w.bank = .active) : answerFillWindow r s = respond r .badArgument [] s := by
  simp only [answerFillWindow, hw, hb]

/-- R129: every cell of the window is written, and the window stands at its end. -/
theorem answerFillWindow_fills (hb : w.bank = .staging) (hfree : stagingRefusal s = none) : answerFillWindow r s =
    respond r .ok (natBytes w.size) ((s.withStaging (s.banks.staging.set w.plane
        { cells := fillCells w (fieldAt r 2) (s.banks.staging.get w.plane).cells, status := .loading })).withWindow
      (some { w with position := w.size, openRun := none })) := by
  simp only [answerFillWindow, hw, hb, hfree]

end FillWindow

/-- Settles O46: by the outcomes of `answerFillWindow`; the cells are those of `fillFirst` for all positions. -/
theorem fillWindowFillsExactlyTheWindow : Obligations.FillWindowFillsExactlyTheWindow := by
  unfold Obligations.FillWindowFillsExactlyTheWindow
  intro s seq hi lo rest h hq htables
  let r : Request := [0x14, seq, hi, lo]
  let u : State := endRun (takeHead r rest s)
  refine ⟨_, exec_withLength h rfl rfl rfl, fun hnone => ?_, fun w hw hlegal => ⟨fun hb => ?_, fun hb hidle hpending => ?_⟩⟩
  · have hu : u.banks.window = none := congrArg (Option.map _) hnone
    rw [answerFillWindow_noWindow hu]
    exact respond_over_taken h hq .noWindow []
  · rw [answerFillWindow_active (endRun_window_some (s := takeHead r rest s) hw) hb]
    exact respond_over_taken h hq .badArgument []
  · have hlen : (s.banks.staging.get w.plane).cells.length = w.plane.size := htables.staging w.plane
    refine ⟨fillCells w (hi ++ lo) (s.banks.staging.get w.plane).cells, ?_, fillCells_length _ _ _,
      fun i hi => fillFirst_filled hlegal _ hlen _ le_rfl i hi, fun j hj => fillFirst_other w _ _ j _ hj⟩
    rw [answerFillWindow_fills (endRun_window_some (s := takeHead r rest s) hw) hb
      (stagingRefusal_none (s := u) hidle hpending)]
    exact respond_after (u := (u.withStaging _).withWindow _) h hq rfl rfl rfl rfl r _ _

/-! ### Read Data (R127, R130) -/

section ReadData

variable {r : Request} {s : State} (hlen : r.length = 2)
include hlen

/-- R130: no window, or one without an open READ run. -/
theorem answerReadData_noWindow (h : ∀ w, s.banks.window = some w → w.openRun ≠ some .read) :
    answerReadData r s = respond r .noWindow [] (endRun s) := by
  cases hw : s.banks.window with
  | none => simp only [answerReadData, if_neg (not_not.mpr hlen), hw, endRun_of_no_window hw]
  | some w => simp only [answerReadData, if_neg (not_not.mpr hlen), hw, if_pos (h w hw)]

variable {w : Window} (hw : s.banks.window = some w) (hrun : w.openRun = some .read)
include hw hrun

/-- R127: a wrong sequence byte. -/
theorem answerReadData_gap (h : requestSeq r ≠ w.expected) :
    answerReadData r s = respond r .sequenceGap [w.expected] (endRun s) := by
  simp only [answerReadData, if_neg (not_not.mpr hlen), hw, if_neg (not_not.mpr hrun), if_pos h]

/-- R130: a request in sequence. -/
theorem answerReadData_inSequence (h : requestSeq r = w.expected) : answerReadData r s = readValues r w s := by
  simp only [answerReadData, if_neg (not_not.mpr hlen), hw, if_neg (not_not.mpr hrun), if_neg (not_not.mpr h)]

end ReadData

theorem readCells_length (w : Window) (cells : List Word) (n : Nat) :
    (readCells w cells n).length = min n (w.size - w.position) := by
  simp only [readCells, List.length_map, List.length_range]

/-- R130: the bytes read, cell by cell. -/
theorem readCells_bytes (w : Window) (cells : List Word) (n : Nat) : (readCells w cells n).flatMap wordBytes =
    (List.range (min n (w.size - w.position))).flatMap
      fun i => wordBytes (cells.getD (w.cellIndex (w.position + i)) 0) := List.flatMap_map ..

/-- Settles O47: by the outcomes of `answerReadData`. -/
theorem readDataReturnsTheNextCells : Obligations.ReadDataReturnsTheNextCells := by
  unfold Obligations.ReadDataReturnsTheNextCells
  intro s seq rest h hq
  let r : Request := [0x13, seq]
  have hx : exec .readData s = .next (handDone (answerReadData r (takeHead r rest s))) :=
    congrArg Host.Outcome.next (takeRequest_ready h (some .readData) rfl answerReadData)
  refine ⟨_, hx, fun hnone => ?_, fun w hw hrun => ⟨fun hgap => ?_, fun hseq => ?_⟩⟩
  · rw [answerReadData_noWindow (r := r) (s := takeHead r rest s) rfl hnone]
    exact respond_over_taken h hq .noWindow []
  · rw [answerReadData_gap (r := r) (s := takeHead r rest s) rfl hw hrun hgap]
    exact respond_over_taken h hq .sequenceGap [w.expected]
  · rw [answerReadData_inSequence (r := r) (s := takeHead r rest s) rfl hw hrun hseq]
    unfold readValues
    dsimp only
    rw [readCells_length, readCells_bytes, ← hseq]
    exact respond_after (u := (takeHead r rest s).withWindow _) h hq rfl rfl rfl rfl r _ _

/-! ### Open Window and Resume Window (R120 to R122, R128) -/

/-- A two-bit field of a byte as a number. -/
theorem twoBits_toNat (b : Byte) (i : Nat) : (b.extractLsb' i 2).toNat = b.toNat / 2 ^ i % 4 := by
  rw [BitVec.extractLsb'_toNat, Nat.shiftRight_eq_div_pow]

/-- R120: a bank field of 2 or 3 names no bank. -/
theorem requestBank_none {r : Request} (h : 2 ≤ (byteAt r 2).toNat % 4) : requestBank r = none := by
  have hfield : ((byteAt r 2).extractLsb' 0 2).toNat = (byteAt r 2).toNat % 4 := by
    rw [twoBits_toNat, pow_zero, Nat.div_one]
  unfold requestBank
  split <;> first | rfl | omega

section OpenWindow

variable {r : Request} {s : State}

theorem answerOpenWindow_noBank (h : requestBank r = none) : answerOpenWindow r s = respond r .badArgument [] s := by
  simp only [answerOpenWindow, h]

variable {bank : BankSel} (hb : requestBank r = some bank) (hfree : bankRefusal bank s = none)
include hb hfree

/-- R122: a plane, kind or order field that names none. -/
theorem answerOpenWindow_badField (h : planeOf (requestArg r 3) = none ∨ requestKind r = none ∨ requestOrder r = none) :
    answerOpenWindow r s = respond r .badArgument [] s := by
  simp only [answerOpenWindow, hb, hfree]
  split
  · rename_i hp hk ho
    rw [hp, hk, ho] at h
    simp at h
  · rfl

variable {p : PlaneId} {kind : WindowKind} {order : WindowOrder} (hp : planeOf (requestArg r 3) = some p)
  (hk : requestKind r = some kind) (ho : requestOrder r = some order)
include hp hk ho

/-- R122: a LOAD window is on the staging bank. -/
theorem answerOpenWindow_loadActive (h : kind = .load ∧ bank = .active) :
    answerOpenWindow r s = respond r .badArgument [] s := by
  simp only [answerOpenWindow, hb, hfree, hp, hk, ho, if_pos h]

variable (hkind : ¬ (kind = .load ∧ bank = .active))
include hkind

/-- R122: the window within its plane stands with its run open. -/
theorem answerOpenWindow_opens {w : Window} (hw : windowOf bank kind order p (requestArg r 4) (requestArg r 5)
    (requestArg r 6) (requestArg r 7) (requestSeq r) = some w) :
    answerOpenWindow r s = respond r .ok (natBytes w.size) (s.withWindow (some w)) := by
  simp only [answerOpenWindow, hb, hfree, hp, hk, ho, if_neg hkind, hw]

/-- R122: nothing is left of the window within its plane. -/
theorem answerOpenWindow_empty (hw : windowOf bank kind order p (requestArg r 4) (requestArg r 5) (requestArg r 6)
    (requestArg r 7) (requestSeq r) = none) : answerOpenWindow r s = respond r .badArgument [] s := by
  simp only [answerOpenWindow, hb, hfree, hp, hk, ho, if_neg hkind, hw]

end OpenWindow

/-- R121, R122: a window that is not empty within its plane. -/
theorem windowOf_some {bank : BankSel} {kind : WindowKind} {order : WindowOrder} {p : PlaneId} {r0 r1 c0 c1 : Nat} (seq : Byte)
    (hr : r0 ≤ min r1 (p.rows - 1)) (hc : c0 ≤ min c1 (p.cols - 1)) : windowOf bank kind order p r0 r1 c0 c1 seq =
      some ⟨bank, p, r0, min r1 (p.rows - 1), c0, min c1 (p.cols - 1), order, kind, some kind, 0, seq + 1⟩ :=
  if_neg (not_or.mpr ⟨Nat.not_lt.mpr hr, Nat.not_lt.mpr hc⟩)

/-- R122: a window that is empty within its plane. -/
theorem windowOf_none {bank : BankSel} {kind : WindowKind} {order : WindowOrder} {p : PlaneId} {r0 r1 c0 c1 : Nat} (seq : Byte)
    (h : min r1 (p.rows - 1) < r0 ∨ min c1 (p.cols - 1) < c0) : windowOf bank kind order p r0 r1 c0 c1 seq = none :=
  if_pos h

theorem answerResumeWindow_noWindow {r : Request} {s : State} (h : s.banks.window = none) :
    answerResumeWindow r s = respond r .noWindow [] s := by
  simp only [answerResumeWindow, h]

/-- R128: the run is opened again at the remembered position. -/
theorem answerResumeWindow_reopens {r : Request} {s : State} {w : Window} (hw : s.banks.window = some w)
    (hfree : bankRefusal w.bank s = none) : answerResumeWindow r s = respond r .ok (natBytes w.position)
      (s.withWindow (some { w with openRun := some w.kind, expected := requestSeq r + 1 })) := by
  simp only [answerResumeWindow, hw, hfree]

/-- Settles O43: by the outcomes of `answerOpenWindow` and `answerResumeWindow`. -/
theorem windowsAreOpenedAndResumed : Obligations.WindowsAreOpenedAndResumed := by
  unfold Obligations.WindowsAreOpenedAndResumed
  refine ⟨?_, ?_, ?_, ?_⟩
  · intro r fields
    have hbank : ((byteAt r 2).extractLsb' 0 2).toNat = fields % 4 := by rw [twoBits_toNat, pow_zero, Nat.div_one]
    have hkind : ((byteAt r 2).extractLsb' 2 2).toNat = fields / 4 % 4 := twoBits_toNat _ 2
    have horder : ((byteAt r 2).extractLsb' 4 2).toNat = fields / 16 % 4 := twoBits_toNat _ 4
    rw [← hbank, ← hkind, ← horder]
    exact ⟨rfl, rfl, rfl⟩
  · intro s seq b2 b3 r0 r1 c0 c1 rest h hq hbank
    refine ⟨_, exec_withLength h rfl rfl rfl, ?_⟩
    rw [answerOpenWindow_noBank (requestBank_none (r := [0x10, seq, b2, b3, r0, r1, c0, c1]) hbank)]
    exact respond_over_taken h hq .badArgument []
  · intro s seq b2 b3 r0 r1 c0 c1 rest bank r h hq hb hfree
    let u : State := endRun (takeHead r rest s)
    have hu : bankRefusal bank u = none := bankRefusal_none (s := u) hfree
    have refused := respond_over_taken h hq .badArgument []
    refine ⟨_, exec_withLength h rfl rfl rfl, ?_, fun hbad => ?_⟩
    · intro p kind order hp hk ho lastRow lastCol w
      refine ⟨fun ⟨hrow, hcol, hload⟩ => ?_, fun hbad => ?_⟩
      · have hkind : ¬ (kind = .load ∧ bank = .active) := fun ⟨hk, hb⟩ => nomatch (hload hk).symm.trans hb
        rw [answerOpenWindow_opens (r := r) (s := u) hb hu hp hk ho hkind (windowOf_some seq hrow hcol)]
        exact respond_after (u := u.withWindow (some w)) h hq rfl rfl rfl rfl r _ _
      · by_cases hkind : kind = .load ∧ bank = .active
        · rw [answerOpenWindow_loadActive (s := u) hb hu hp hk ho hkind]
          exact refused
        · have hempty : lastRow < r0.toNat ∨ lastCol < c0.toNat := by tauto
          rw [answerOpenWindow_empty (r := r) (s := u) hb hu hp hk ho hkind (windowOf_none seq hempty)]
          exact refused
    · rw [answerOpenWindow_badField (s := u) hb hu hbad]
      exact refused
  · intro s seq rest h hq
    let r : Request := [0x12, seq]
    let u : State := endRun (takeHead r rest s)
    refine ⟨_, exec_withLength h rfl rfl rfl, fun hnone => ?_, fun w hw hfree => ?_⟩
    · have hu : u.banks.window = none := congrArg (Option.map _) hnone
      rw [answerResumeWindow_noWindow hu]
      exact respond_over_taken h hq .noWindow []
    · have hu : bankRefusal w.bank u = none := bankRefusal_none (s := u) hfree
      rw [answerResumeWindow_reopens (endRun_window_some (s := takeHead r rest s) hw) hu]
      exact respond_after (u := u.withWindow _) h hq rfl rfl rfl rfl r _ _

end Sys2Proof.Machine

/-!
Stage Copy, Load Image, Activate and Cancel Activation (R134, R135, R140, R173), and requests of a wrong length or an unknown code
(R127, R152, R153).
-/

namespace Sys2Proof.Machine

/-! ### Stage Copy and Load Image (R134, R173) -/

/-- R173: no slot has a number above 3. -/
theorem slotOf_above {n : Nat} (h : 3 < n) : slotOf n = none := by
  unfold slotOf
  split <;> first | rfl | omega

/-- R134, R138: staging after a copy, by the states of the planes copied. -/
theorem stagedBank_eq (b : Bank) : stagedBank b = PerPlane.build fun p =>
    if (b.get p).status = .faulty then { b.get p with status := .loading } else b.get p := by
  refine PerPlane.ext_get fun p => ?_
  unfold stagedBank stagedPlane
  simp only [PerPlane.get_build, Plane.isFaulty_iff]

/-- R173: a plane of a VALID slot comes into staging VERIFIED exactly when it is good. -/
theorem loadedPlane_eq {x : Slot} {p : PlaneId} {good : Prop} [Decidable good] (h : good ↔ SlotGood x p)
    (hvalid : x.complete = true) :
    loadedPlane x p = { cells := x.cells.get p, status := if good then .verified (x.pairs.get p) else .loading } ∧
      (verifiedFrom x p).isNone = !decide good := by
  unfold loadedPlane
  by_cases hgood : good
  · rw [verifiedFrom_of_good (h.mp hgood), if_pos hgood, decide_eq_true hgood]
    exact ⟨rfl, rfl⟩
  · rw [verifiedFrom_of_not_good hvalid (mt h.mpr hgood), if_neg hgood, decide_eq_false hgood]
    exact ⟨rfl, rfl⟩

section Free

variable {r : Request} {s : State} (hfree : stagingRefusal s = none)
include hfree

theorem answerStageCopy_copies : answerStageCopy r s =
    respond r .ok [] (s.withBanks { s.banks with staging := stagedBank s.banks.active, window := none }) := by
  simp only [answerStageCopy, hfree]

theorem answerLoadImage_badSlot (h : slotOf (requestArg r 2) = none) :
    answerLoadImage r s = respond r .badArgument [] s := by
  simp only [answerLoadImage, hfree, h]

variable {i : SlotId} (hi : slotOf (requestArg r 2) = some i)
include hi

theorem answerLoadImage_invalid (h : (s.store.slots.get i).complete = false) :
    answerLoadImage r s = respond r .slotInvalid [] s := by
  simp only [answerLoadImage, hfree, hi, h, Bool.false_eq_true, if_false]

theorem answerLoadImage_loads (h : (s.store.slots.get i).complete = true) : answerLoadImage r s =
    respond r .ok [planeList fun p => (verifiedFrom (s.store.slots.get i) p).isNone]
      (s.withBanks { s.banks with staging := PerPlane.build (loadedPlane (s.store.slots.get i)), window := none }) := by
  simp only [answerLoadImage, hfree, hi, h, if_true]

end Free

/-- Settles O50: by the outcomes of `answerStageCopy` and `answerLoadImage`, the loaded planes by `loadedPlane_eq`. -/
theorem stagingIsReplacedWhole : Obligations.StagingIsReplacedWhole := by
  unfold Obligations.StagingIsReplacedWhole
  constructor
  · intro s seq rest h hq hidle hpending
    let r : Request := [0x16, seq]
    let u : State := endRun (takeHead r rest s)
    refine ⟨_, exec_withLength h rfl rfl rfl, ?_⟩
    intro b
    rw [answerStageCopy_copies (stagingRefusal_none (s := u) hidle hpending),
      show stagedBank u.banks.active = b from stagedBank_eq _]
    exact respond_after (u := u.withBanks { u.banks with staging := b, window := none }) h hq rfl rfl rfl rfl r _ _
  · intro s seq n rest h hq hidle hpending
    let r : Request := [0x21, seq, n]
    let u : State := endRun (takeHead r rest s)
    have hfree : stagingRefusal u = none := stagingRefusal_none (s := u) hidle hpending
    refine ⟨_, exec_withLength h rfl rfl rfl, fun hn => ?_, ?_⟩
    · rw [answerLoadImage_badSlot (r := r) hfree (slotOf_above hn)]
      exact respond_over_taken h hq .badArgument []
    · intro i hi x good
      refine ⟨fun hinvalid => ?_, fun hvalid => ?_⟩
      · rw [answerLoadImage_invalid (r := r) (s := u) hfree hi hinvalid]
        exact respond_over_taken h hq .slotInvalid []
      · have hgood (p : PlaneId) : good p ↔ SlotGood x p := (and_iff_right hvalid).symm
        rw [answerLoadImage_loads (r := r) (s := u) hfree hi hvalid,
          show (fun p => (verifiedFrom (u.store.slots.get i) p).isNone) = _ from
            funext fun p => (loadedPlane_eq (hgood p) hvalid).2,
          show loadedPlane (u.store.slots.get i) = _ from funext fun p => (loadedPlane_eq (hgood p) hvalid).1]
        exact respond_after (u := u.withBanks _) h hq rfl rfl rfl rfl r _ _

/-! ### Activate and Cancel Activation (R135, R140) -/

/-- R135, step 3: a VERIFIED plane stays so while its cells give its pair. -/
theorem recheckedPlane_verified {pl : Plane} {c : CheckPair} (h : pl.status = .verified c) :
    recheckedPlane pl = if pairOf pl.cells = c then pl else { pl with status := .loading } := by
  unfold recheckedPlane
  rw [h]

/-- R135, step 3: no other plane changes. -/
theorem recheckedPlane_unverified {pl : Plane} (h : ∀ c, pl.status ≠ .verified c) : recheckedPlane pl = pl := by
  unfold recheckedPlane
  split
  · exact absurd ‹_› (h _)
  all_goals rfl

section Activate

variable {r : Request} {s : State}

theorem answerActivate_pending (h : s.banks.activationPending = true) : answerActivate r s = respond r .ok [] s := if_pos h

variable (hpending : s.banks.activationPending = false)
include hpending

theorem answerActivate_busy (h : s.storeBusy = true) : answerActivate r s = respond r .busyStore [] s := by
  simp only [answerActivate, hpending, h, Bool.false_eq_true, if_false, if_true]

variable (hidle : s.storeBusy = false)
include hidle

/-- R135: all eight planes VERIFIED after the recomputation. -/
theorem answerActivate_ready (h : allVerified (recheckedBank s.banks.staging) = true) : answerActivate r s =
    respond r .ok [] (s.withBanks
      { s.banks with staging := recheckedBank s.banks.staging, activationPending := true }) := by
  simp only [answerActivate, hpending, hidle, h, Bool.false_eq_true, if_false, if_true]
  rfl

/-- R135: some plane not VERIFIED after the recomputation. -/
theorem answerActivate_notReady (h : allVerified (recheckedBank s.banks.staging) = false) : answerActivate r s =
    respond r .notReady [planeList fun p => !((recheckedBank s.banks.staging).get p).isVerified]
      (s.withStaging (recheckedBank s.banks.staging)) := by
  simp only [answerActivate, hpending, hidle, h, Bool.false_eq_true, if_false]

end Activate

/-- Settles O51: by the outcomes of `answerActivate`. -/
theorem activationIsCheckedAndCancelled : Obligations.ActivationIsCheckedAndCancelled := by
  unfold Obligations.ActivationIsCheckedAndCancelled
  constructor
  · intro s seq rest h hq b
    let r : Request := [0x17, seq]
    let u : State := endRun (takeHead r rest s)
    have hb : recheckedBank u.banks.staging = b := by
      refine PerPlane.ext_get fun p => ?_
      unfold recheckedBank b
      rw [PerPlane.get_build, PerPlane.get_build]
      split
      · rename_i hc
        exact recheckedPlane_verified hc
      · rename_i hnone
        exact recheckedPlane_unverified hnone
    refine ⟨_, exec_withLength h rfl rfl rfl, fun hpending => ?_, fun hpending hbusy => ?_, fun hpending hidle =>
      ⟨fun hall => ?_, fun p hp => ?_⟩⟩
    · rw [answerActivate_pending (s := u) hpending]
      exact respond_over_taken h hq .ok []
    · rw [answerActivate_busy (s := u) hpending hbusy]
      exact respond_over_taken h hq .busyStore []
    · rw [answerActivate_ready (s := u) hpending hidle (hb ▸ (allVerified_iff b).mpr hall), hb]
      exact respond_after (u := u.withBanks _) h hq rfl rfl rfl rfl r _ _
    · have hnot : allVerified (recheckedBank u.banks.staging) = false :=
        Bool.eq_false_of_not_eq_true fun hall => nomatch hp.symm.trans ((allVerified_iff b).mp (hb ▸ hall) p)
      rw [answerActivate_notReady (s := u) hpending hidle hnot, hb]
      exact respond_after (u := u.withStaging _) h hq rfl rfl rfl rfl r _ _
  · intro s seq rest h hq
    let r : Request := [0x18, seq]
    exact ⟨_, exec_withLength h rfl rfl rfl,
      respond_after (u := (endRun (takeHead r rest s)).withBanks _) h hq rfl rfl rfl rfl r .ok []⟩

/-! ### Requests by code and length (R127, R152, R153) -/

/-- The code byte of a request (11.3). -/
def RequestCode.byte : RequestCode → Byte
  | .identify => 0x01
  | .readStatus => 0x02
  | .enableNotices => 0x03
  | .disableNotices => 0x04
  | .clearConditions => 0x05
  | .clearResetCause => 0x06
  | .enterRoller => 0x07
  | .leaveRoller => 0x08
  | .restart => 0x09
  | .openWindow => 0x10
  | .loadData => 0x11
  | .resumeWindow => 0x12
  | .readData => 0x13
  | .fillWindow => 0x14
  | .commitPlane => 0x15
  | .stageCopy => 0x16
  | .activate => 0x17
  | .cancelActivation => 0x18
  | .storeImage => 0x20
  | .loadImage => 0x21
  | .selectBootSlot => 0x22

theorem requestCodeOf_byte (c : RequestCode) : requestCodeOf c.byte = some c := by cases c <;> rfl

/-- One line of the table of codes: it decides, or the rest does. -/
theorem code_or_rest {b x : Byte} {c d : RequestCode} {rest : Option RequestCode}
    (h : (if b = x then some d else rest) = some c) : b = x ∧ d = c ∨ rest = some c := by
  split at h
  · exact .inl ⟨‹_›, Option.some.inj h⟩
  · exact .inr h

/-- 11.3: a request has one code byte. -/
theorem byte_of_requestCodeOf {b : Byte} {c : RequestCode} (h : requestCodeOf b = some c) : b = c.byte := by
  unfold requestCodeOf at h
  repeat (obtain ⟨hb, rfl⟩ | h := code_or_rest h; · exact hb)
  cases h

theorem requestCode_eq_some {r : Request} {c : RequestCode} (h : requestCode r = some c) :
    2 ≤ r.length ∧ byteAt r 0 = c.byte := by
  unfold requestCode at h
  split at h
  · cases h
  · exact ⟨by omega, byte_of_requestCodeOf h⟩

/-- R153: the requests of one allowed length are taken by their code, and another length ends the run and is refused. -/
theorem fixedLength_taking {c : Instr} {b : Byte} {n : Nat} (h : fixedLength c = some (b, n)) :
    ∃ (code : RequestCode) (answer : Request → State → State),
      (∀ s, exec c s = .next (takeRequest (some code) answer s)) ∧ code.byte = b ∧
        ∀ r s, r.length ≠ n → answer r s = respond r .badArgument [] (endRun s) := by
  cases c with
  | readData =>
    cases h
    exact ⟨_, _, fun _ => rfl, rfl, fun _ _ hn => if_pos hn⟩
  | identify | enableNotices | disableNotices | clearConditions | clearResetCause | enterRoller | leaveRoller | restart
  | openWindow | resumeWindow | fillWindow | commitPlane | stageCopy | activate | cancelActivation | storeImage | loadImage
  | selectBootSlot =>
    cases h
    exact ⟨_, _, fun _ => rfl, rfl, fun _ _ hn => if_neg hn⟩
  | _ => cases h

/-- R153, steps 1 and 2: a request of length 0 or 1, or of a code that no request has, is of no known code. -/
theorem requestCode_eq_none {r : Request} (h : r.length < 2 ∨ ∀ c : RequestCode, byteAt r 0 ≠ c.byte) :
    requestCode r = none := by
  cases hc : requestCode r with
  | none => rfl
  | some c =>
    obtain ⟨hlen, hb⟩ := requestCode_eq_some hc
    rcases h with h | h
    · omega
    · exact absurd hb (h c)

/-- Log 1: where no request of the code can be taken, nothing is. -/
theorem takeRequest_not_taken {code : Option RequestCode} {answer : Request → State → State} {s : State}
    (h : ∀ r rest, Ready s (r :: rest) → requestCode r ≠ code) : takeRequest code answer s = s := by
  rcases takeRequest_cases code answer s with e | ⟨r, rest, hready, hc, -⟩
  · exact e
  · exact absurd hc (h r rest hready)

/-- Settles O52: the length by `fixedLength_taking`, the code by `requestCode_eq_some`. -/
theorem requestsAreTakenByCodeAndLength : Obligations.RequestsAreTakenByCodeAndLength := by
  unfold Obligations.RequestsAreTakenByCodeAndLength
  refine ⟨fun s c r rest h hq hlen => ⟨fun b n hfixed hb hn => ?_, fun hb hn => ?_⟩, fun s r rest h hunknown => ?_,
    fun c b n s hfixed hcannot => ?_⟩
  · obtain ⟨code, answer, hx, rfl, hrefused⟩ := fixedLength_taking hfixed
    have hcode : requestCode r = some code := by rw [requestCode_of_length hlen, hb, requestCodeOf_byte]
    refine ⟨_, (hx s).trans (congrArg Host.Outcome.next (takeRequest_ready h _ hcode answer)), ?_⟩
    rw [hrefused r _ hn, ← hb]
    exact respond_over_taken h hq .badArgument []
  · have hcode : requestCode r = some .readStatus := by rw [requestCode_of_length hlen, hb]; rfl
    refine ⟨_, congrArg Host.Outcome.next (takeRequest_ready h _ hcode answerReadStatus), ?_⟩
    rw [show answerReadStatus r (takeHead r rest s) = respond r .badArgument [] (takeHead r rest s) from if_pos hn, ← hb]
    exact respond_after (u := takeHead r rest s) h hq rfl rfl rfl rfl r .badArgument []
  · have hcode : requestCode r = none := by
      refine requestCode_eq_none (hunknown.imp_right fun hnot c hb => hnot ?_)
      rw [hb]
      cases c <;> decide
    exact congrArg Host.Outcome.next (takeRequest_ready h none hcode _)
  · obtain ⟨code, answer, hx, rfl, -⟩ := fixedLength_taking hfixed
    rw [hx, takeRequest_not_taken]
    intro r rest hready hc
    obtain ⟨hlen, hb⟩ := requestCode_eq_some hc
    obtain ⟨hrunning, hhand, hresponse, hrequests⟩ := hready
    rcases hcannot with hphase | hhand' | hresponse' | hempty | ⟨r', rest', hhead, hother⟩
    · exact nomatch hrunning.symm.trans hphase
    · exact hhand' hhand
    · exact hresponse' hresponse
    · exact nomatch hrequests.symm.trans hempty
    · obtain ⟨rfl, -⟩ := List.cons.inj (hrequests.symm.trans hhead)
      rcases hother with hshort | hother
      · omega
      · exact hother hb

end Sys2Proof.Machine

/-!
Power-on and the reset line over the map store (R166, R172, R174).
-/

namespace Sys2Proof.Machine

/-! ### An interrupted store (R172) -/

/-- R172: each cell of an interrupted plane is the old or the new one. -/
theorem mixedCells_getD (n : Nat) (old new : List Word) (k : Nat) :
    (mixedCells n old new).getD k 0 = old.getD k 0 ∨ (mixedCells n old new).getD k 0 = new.getD k 0 := by
  rcases Nat.lt_or_ge k old.length with hk | hk
  · have hcell : (mixedCells n old new).getD k 0 =
        if Config.programmedBefore n k then new.getD k 0 else old.getD k 0 := by
      rw [List.getD_eq_getElem _ _ (by rwa [mixedCells_length])]
      simp only [mixedCells, List.getElem_map, List.getElem_range]
    rw [hcell]
    exact (ite_eq_or_eq _ _ _).symm
  · left
    rw [List.getD_eq_default _ _ (by rwa [mixedCells_length]), List.getD_eq_default _ _ hk]

section AbandonStore

variable (n : Nat) (b : Bank) (x : Store)

/-- R172: an abandoned store changes no slot, or cells of the plane it was programming. -/
theorem abandonStore_slots : (abandonStore n b x).slots = x.slots ∨ ∃ i p, x.state = .inProgress i (.plane p) ∧
    (abandonStore n b x).slots = x.slots.set i { x.slots.get i with
      cells := (x.slots.get i).cells.set p (mixedCells n ((x.slots.get i).cells.get p) (b.get p).cells) } := by
  unfold abandonStore
  split
  · exact .inl rfl
  · exact .inl rfl
  · exact .inr ⟨_, _, ‹_›, rfl⟩

/-- R167: the boot selector stays. -/
theorem abandonStore_bootSelector : (abandonStore n b x).bootSelector = x.bootSelector := by
  unfold abandonStore
  split <;> rfl

/-- R166, R172: no header is written. -/
theorem abandonStore_header (i : SlotId) : ((abandonStore n b x).slots.get i).complete = (x.slots.get i).complete ∧
    ((abandonStore n b x).slots.get i).pairs = (x.slots.get i).pairs := by
  rcases abandonStore_slots n b x with hkept | ⟨j, p, -, hset⟩
  · rw [hkept]
    exact ⟨rfl, rfl⟩
  · rw [hset, Slots.get_set]
    split
    · rename_i hij
      rw [hij]
      exact ⟨rfl, rfl⟩
    · exact ⟨rfl, rfl⟩

/-- R172: a plane's cells stay, or it is the one in programming and they are mixed. -/
theorem abandonStore_cells (i : SlotId) (q : PlaneId) :
    ((abandonStore n b x).slots.get i).cells.get q = (x.slots.get i).cells.get q ∨
      x.state = .inProgress i (.plane q) ∧ ((abandonStore n b x).slots.get i).cells.get q =
        mixedCells n ((x.slots.get i).cells.get q) (b.get q).cells := by
  rcases abandonStore_slots n b x with hkept | ⟨j, p, hstate, hset⟩
  · exact .inl (by rw [hkept])
  · by_cases hi : i = j
    · subst hi
      by_cases hq : q = p
      · subst hq
        exact .inr ⟨hstate, by simp only [hset, Slots.get_set_same, PerPlane.get_set_same]⟩
      · exact .inl (by simp only [hset, Slots.get_set_same, PerPlane.get_set_other _ _ hq])
    · exact .inl (by simp only [hset, Slots.get_set_other _ _ hi])

end AbandonStore

/-! ### Power-on and the reset line (R174) -/

/-- R174: the build begins. -/
theorem hardReset_building (n : BitVec 2) (causes : ResetCauses) (s : State) : Building (hardReset n causes s) := by
  refine ⟨rfl, ?_⟩
  have hstore : abandonStore s.freeCount s.banks.staging s.store =
      { State.reset.store with slots := (abandonStore s.freeCount s.banks.staging s.store).slots,
                               bootSelector := (abandonStore s.freeCount s.banks.staging s.store).bootSelector } :=
    congrArg (fun st => ({ abandonStore s.freeCount s.banks.staging s.store with state := st } : Store))
      (abandonStore_idle s.freeCount s.banks.staging s.store)
  exact congrArg (fun st => { hardReset n causes s with store := st }) hstore

/-- Both events are a hard reset, each with its reset causes. -/
theorem exec_hardReset {c : Instr} {n : BitVec 2} (h : c = .powerOn n ∨ c = .resetLine n) (s : State) :
    ∃ causes, exec c s = .next (hardReset n causes s) := by
  rcases h with rfl | rfl
  · exact ⟨_, rfl⟩
  · exact ⟨_, rfl⟩

/-- Settles O58: the slots by what abandoning a store does to a header and to a plane. -/
theorem hardResetsKeepTheSlots : Obligations.HardResetsKeepTheSlots := by
  unfold Obligations.HardResetsKeepTheSlots
  intro c n s _ _ hc
  obtain ⟨causes, hx⟩ := exec_hardReset hc s
  refine ⟨_, hx, hardReset_building n causes s, rfl, rfl, rfl, rfl, rfl, abandonStore_bootSelector _ _ _, fun i q => ?_⟩
  obtain ⟨hcomplete, hpairs⟩ := abandonStore_header s.freeCount s.banks.staging s.store i
  refine ⟨hcomplete, hpairs, fun hother => ?_, fun k => ?_⟩
  · rcases abandonStore_cells s.freeCount s.banks.staging s.store i q with hkept | ⟨hstate, -⟩
    · exact hkept
    · exact absurd rfl (hother q hstate)
  · rcases abandonStore_cells s.freeCount s.banks.staging s.store i q with hkept | ⟨-, hmixed⟩
    · exact .inl (congrArg (fun l => l.getD k 0) hkept)
    · exact (mixedCells_getD _ _ _ k).imp (congrArg (fun l => l.getD k 0) hmixed).trans
        (congrArg (fun l => l.getD k 0) hmixed).trans

end Sys2Proof.Machine

/-!
Identify, Read Status, and the requests on conditions and reset causes (R156, R157, R162 to R164).
-/

namespace Sys2Proof.Machine

/-! ### The bytes of Identify and Read Status (11.4, R180) -/

/-- A flag as the value of its bit. -/
theorem flagBit_eq (b : Bool) (n : Nat) : flagBit b n = BitVec.ofNat 8 (if b then 2 ^ n else 0) := by
  cases b with
  | false => rfl
  | true =>
    rw [flagBit, if_pos rfl, if_pos rfl, ← BitVec.twoPow_eq]
    exact BitVec.eq_of_toNat_eq (by rw [BitVec.toNat_twoPow, BitVec.toNat_ofNat])

theorem RideMode.code_lt (m : RideMode) : m.code < 4 := by cases m <;> decide

theorem LoadState.code_lt (l : LoadState) : l.code < 4 := by cases l <;> decide

/-- 11.4: a value of two bits in bits 5 to 4 over one in bits 1 to 0. -/
theorem highPair_or {m l : Nat} (hm : m < 4) (hl : l < 4) :
    highPair m ||| BitVec.ofNat 8 l = BitVec.ofNat 8 (16 * m + l) := by
  have fields : ∀ m l : Fin 4, highPair m ||| BitVec.ofNat 8 l = BitVec.ofNat 8 (16 * m + l) := by decide
  exact fields ⟨m, hm⟩ ⟨l, hl⟩

/-- 11.4: the pending byte as a sum of its four fields. -/
theorem pendingByte_eq (c : Control) : pendingByte c = BitVec.ofNat 8
    ((if c.pendingMode.isSome then 2 ^ 7 else 0) + 16 * (c.pendingMode.map RideMode.code).getD 0
      + (if c.pendingLoad.isSome then 2 ^ 3 else 0) + (c.pendingLoad.map LoadState.code).getD 0) := by
  have fields : ∀ (a b : Bool) (m l : Fin 4), flagBit a 7 ||| highPair m ||| flagBit b 3 ||| BitVec.ofNat 8 l =
      BitVec.ofNat 8 ((if a then 2 ^ 7 else 0) + 16 * m + (if b then 2 ^ 3 else 0) + l) := by decide
  have hm : (c.pendingMode.map RideMode.code).getD 0 < 4 := by
    cases c.pendingMode with
    | none => exact Nat.zero_lt_succ _
    | some m => exact m.code_lt
  have hl : (c.pendingLoad.map LoadState.code).getD 0 < 4 := by
    cases c.pendingLoad with
    | none => exact Nat.zero_lt_succ _
    | some l => exact l.code_lt
  exact fields _ _ ⟨_, hm⟩ ⟨_, hl⟩

/-- 11.4: four plane states, the lower plane number in the higher bits. -/
theorem statesByte_eq (b : Bank) (p0 p1 p2 p3 : PlaneId) : statesByte b p0 p1 p2 p3 =
    BitVec.ofNat 8 ([p0, p1, p2, p3].foldl (fun n p => 4 * n + (b.get p).status.code) 0) := by
  refine congrArg (BitVec.ofNat 8) ?_
  simp only [List.foldl_cons, List.foldl_nil]
  omega

/-- 11.4: the activation and store flags. -/
theorem flags_eq (a b : Bool) :
    flagBit a 0 ||| flagBit b 1 = BitVec.ofNat 8 ((if a then 2 ^ 0 else 0) + if b then 2 ^ 1 else 0) := by
  cases a <;> cases b <;> rfl

/-- 11.4: the reset cause byte as a sum of its flags. -/
theorem causeByte_eq (c : ResetCauses) : causeByte c = BitVec.ofNat 8
    ((if c.powerOn then 2 ^ 0 else 0) + (if c.resetLine then 2 ^ 1 else 0) + if c.restart then 2 ^ 2 else 0) := by
  obtain ⟨a, b, d⟩ := c
  cases a <;> cases b <;> cases d <;> rfl

/-- 11.4: the boot selector and the slot validities as a sum of their fields. -/
theorem slotByte_eq (x : Store) : slotByte x = BitVec.ofNat 8 (x.bootSelector.code
    + (if x.slots.slot0.complete then 2 ^ 4 else 0) + (if x.slots.slot1.complete then 2 ^ 5 else 0)
    + (if x.slots.slot2.complete then 2 ^ 6 else 0) + if x.slots.slot3.complete then 2 ^ 7 else 0) := by
  have fields : ∀ a b c d : Bool, ∀ i : Fin 4,
      BitVec.ofNat 8 i ||| flagBit a 4 ||| flagBit b 5 ||| flagBit c 6 ||| flagBit d 7 =
        BitVec.ofNat 8 (i + (if a then 2 ^ 4 else 0) + (if b then 2 ^ 5 else 0) + (if c then 2 ^ 6 else 0)
          + if d then 2 ^ 7 else 0) := by decide
  have hcode : x.bootSelector.code < 4 := by cases x.bootSelector <;> decide
  exact fields _ _ _ _ ⟨_, hcode⟩

/-- 11.4: the store byte with its mark and its slot added. -/
theorem storeByte_eq (x : StoreState) :
    storeByte x = match x with
      | .idle => 0
      | .inProgress i _ => BitVec.ofNat 8 (128 + i.code) := by
  cases x with
  | idle => rfl
  | inProgress i ph => cases i <;> rfl

/-- 11.4: the revision over the node number. -/
theorem revisionByte_eq (node : BitVec 2) :
    (BitVec.ofNat 8 Config.revision <<< 4) ||| node.setWidth 8 = BitVec.ofNat 8 (3 * 16 + node.toNat) := by
  revert node
  decide

/-! ### Read Status (R127, R157) -/

/-- R157: there are five selectors. -/
theorem statusValues_above (s : State) (n : Nat) : statusValues s (n + 5) = none := rfl

section ReadStatus

variable {r : Request} {u : State} (hlen : r.length = 3)
include hlen

/-- R157: the values of a selector are answered. -/
theorem answerReadStatus_values {d : List Byte} (h : statusValues u (requestArg r 2) = some d) :
    answerReadStatus r u = respond r .ok d u := by
  unfold answerReadStatus
  rw [if_neg (not_not.mpr hlen), h]

/-- R157: a selector without values is refused. -/
theorem answerReadStatus_refused (h : statusValues u (requestArg r 2) = none) :
    answerReadStatus r u = respond r .badArgument [] u := by
  unfold answerReadStatus
  rw [if_neg (not_not.mpr hlen), h]

end ReadStatus

/-- Settles O54: Read Status selector by selector, from the bytes of each. -/
theorem identifyAndReadStatusReport : Obligations.IdentifyAndReadStatusReport := by
  unfold Obligations.IdentifyAndReadStatusReport
  refine ⟨fun s seq rest h hq => ?_, fun s seq sel rest h hq => ?_⟩
  · refine ⟨_, exec_withLength h rfl rfl rfl, ?_⟩
    rw [← revisionByte_eq]
    exact respond_over_taken h hq .ok _
  · intro bit states record c
    let r : Request := [0x02, seq, sel]
    let u : State := takeHead r rest s
    have answered : ∀ res d, Answered (takenOpen s rest) (handDone (respond r res d u)) 0x02 seq res d :=
      respond_after (u := u) h hq rfl rfl rfl rfl r
    have reported {n : Nat} {d : List Byte} (hsel : sel.toNat = n) (hd : statusValues s n = some d) :
        Answered (takenOpen s rest) (handDone (answerReadStatus r u)) 0x02 seq .ok d := by
      rw [answerReadStatus_values rfl ((congrArg (statusValues u) hsel).trans hd)]
      exact answered .ok d
    refine ⟨_, congrArg Host.Outcome.next (takeRequest_ready h (some .readStatus) rfl answerReadStatus), ?_⟩
    match hsel : sel.toNat with
    | 0 =>
      refine reported hsel (congrArg some ?_)
      rw [highPair_or c.mode.code_lt c.load.code_lt, pendingByte_eq, flagBit_eq]
      rfl
    | 1 => exact reported hsel rfl
    | 2 =>
      refine reported hsel (congrArg some ?_)
      simp only [bankStates, statesByte_eq, flags_eq]
      rfl
    | 3 =>
      refine reported hsel (congrArg some ?_)
      rw [causeByte_eq, slotByte_eq]
      exact congrArg (fun b => [_, _, b]) (storeByte_eq s.store.state)
    | 4 =>
      refine reported hsel (congrArg some ?_)
      rw [Nat.add_comm]
      rfl
    | n + 5 =>
      rw [answerReadStatus_refused rfl ((congrArg (statusValues u) hsel).trans (statusValues_above u n))]
      exact answered .badArgument []

end Sys2Proof.Machine

namespace Sys2Proof.Machine

/-! ### Notice enables and cleared conditions (R162, R163) -/

/-- R162, R163: a condition list whose sixteenth place is named is none. -/
theorem requestConditions_eq (code seq hi lo : Byte) : requestConditions [code, seq, hi, lo] =
    if hi.getLsbD 7 then none else some ((hi ++ lo : BitVec 16).setWidth 15) := by
  have hplace : (hi ++ lo : BitVec 16).getLsbD 15 = hi.getLsbD 7 := by rw [BitVec.getLsbD_append]; rfl
  exact congrArg (fun b : Bool => if b then none else some ((hi ++ lo : BitVec 16).setWidth 15)) hplace

/-- The state with its condition set and its notice enable set replaced. -/
def State.withConditions (s : State) (conditions enabled : CondSet) : State :=
  s.withMgmt { s.mgmt with conditions := conditions, enabled := enabled }

/-- What a request with a condition list does: without a list it is refused, and a list `l` edits the condition set by `f l`
and the notice enable set by `g l`. -/
structure EditsConditions (f g : CondSet → CondSet → CondSet) (answer : Request → State → State) : Prop where
  refused : ∀ r u, requestConditions r = none → answer r u = respond r .badArgument [] u
  edited  : ∀ r u l, requestConditions r = some l → answer r u =
    respond r .ok [] (u.withConditions (f l u.mgmt.conditions) (g l u.mgmt.enabled))

theorem answerEnableNotices_edits : EditsConditions (fun _ x => x) (fun l x => x ||| l) answerEnableNotices :=
  ⟨fun _ _ h => by simp only [answerEnableNotices, h], fun _ _ _ h => by simp only [answerEnableNotices, h]; rfl⟩

theorem answerDisableNotices_edits : EditsConditions (fun _ x => x) (fun l x => x &&& ~~~l) answerDisableNotices :=
  ⟨fun _ _ h => by simp only [answerDisableNotices, h], fun _ _ _ h => by simp only [answerDisableNotices, h]; rfl⟩

theorem answerClearConditions_edits : EditsConditions (fun l x => x &&& ~~~l) (fun _ x => x) answerClearConditions :=
  ⟨fun _ _ h => by simp only [answerClearConditions, h], fun _ _ _ h => by simp only [answerClearConditions, h]; rfl⟩

/-- R162, R163: such a request taken whole. -/
theorem EditsConditions.answered {f g : CondSet → CondSet → CondSet} {answer : Request → State → State}
    (ha : EditsConditions f g answer) {s : State} {code seq hi lo : Byte} {rest : List Request} {c : Instr} {k : RequestCode}
    (h : Ready s ([code, seq, hi, lo] :: rest)) (hq : QueuesLegal s)
    (hx : exec c s = .next (takeRequest (some k) (withLength 4 answer) s)) (hk : requestCodeOf code = some k) :
    let l : CondSet := (hi ++ lo : BitVec 16).setWidth 15
    ∃ t, exec c s = .next t ∧
      if hi.getLsbD 7 then Answered (taken s rest) t code seq .badArgument []
      else Answered ((taken s rest).withConditions (f l s.mgmt.conditions) (g l s.mgmt.enabled)) t code seq .ok [] := by
  intro l
  let r : Request := [code, seq, hi, lo]
  let u : State := endRun (takeHead r rest s)
  have hlist := requestConditions_eq code seq hi lo
  refine ⟨_, exec_withLength h hx hk rfl, ?_⟩
  split <;> rename_i hplace
  · rw [ha.refused r u (hlist.trans (if_pos hplace))]
    exact respond_over_taken h hq .badArgument []
  · rw [ha.edited r u l (hlist.trans (if_neg hplace))]
    exact respond_after (u := u.withConditions (f l u.mgmt.conditions) (g l u.mgmt.enabled)) h hq rfl rfl rfl rfl r .ok []

/-! ### Reset causes (R164) -/

theorem respond_causes (r : Request) (res : Result) (d : List Byte) (s : State) :
    (respond r res d s).mgmt.causes = s.mgmt.causes := by
  obtain ⟨q, x, c, h⟩ := placeResponse_frame (numberParts (byteAt r 0) (requestSeq r) res 0 (divideData d)) s
  unfold respond
  rw [h]

/-- R159: outside a store and at standstill, Restart is accepted. -/
theorem answerRestart_accepted {s : State} (hidle : s.storeBusy = false) (hstill : s.stationary = true) (t : Millis)
    (r : Request) : answerRestart t r s = respond r .ok [] (restartReset t s) := by
  simp only [answerRestart, hidle, hstill, Bool.false_eq_true, if_false, if_true]

/-- Settles O55: the condition lists by what they edit, the reset causes event by event. -/
theorem conditionsAndResetCausesAreKept : Obligations.ConditionsAndResetCausesAreKept := by
  unfold Obligations.ConditionsAndResetCausesAreKept
  refine ⟨fun s code seq hi lo rest h hq => ⟨?_, ?_, ?_⟩, fun s n time seq rest => ⟨⟨_, rfl, rfl⟩, ⟨_, rfl, rfl⟩, ?_, ?_⟩⟩
  · rintro rfl
    exact answerEnableNotices_edits.answered h hq rfl rfl
  · rintro rfl
    exact answerDisableNotices_edits.answered h hq rfl rfl
  · rintro rfl
    exact answerClearConditions_edits.answered h hq rfl rfl
  · intro h hidle hstill
    let r : Request := [0x09, seq]
    let u : State := endRun (takeHead r rest s)
    have haccepted := answerRestart_accepted (s := u) hidle hstill time r
    have hcauses := respond_causes r .ok [] (restartReset time u)
    exact ⟨_, exec_withLength h rfl rfl rfl, (congrArg (fun v => v.mgmt.causes) haccepted).trans hcauses⟩
  · intro h hq
    let r : Request := [0x06, seq]
    let u : State := endRun (takeHead r rest s)
    let cleared : State := u.withMgmt { u.mgmt with causes := ⟨false, false, false⟩ }
    exact ⟨_, exec_withLength h rfl rfl rfl, respond_after (u := cleared) h hq rfl rfl rfl rfl r .ok []⟩

end Sys2Proof.Machine

/-!
The slots and the store in progress, through every step (R166, R168 to R170, R172).
-/

namespace Sys2Proof.Machine

/-! ### Slots (R166) -/

/-- What `StoreLegal` says of a slot alone. -/
structure SlotLegal (x : Slot) : Prop where
  valid  : x.complete = true → ∀ p, pairOf (x.cells.get p) = x.pairs.get p
  erased : x.complete = false → x.pairs = erasedPairs

/-- Every slot is legal. -/
def slotsLegal (x : Slots) : Prop := ∀ i, SlotLegal (x.get i)

theorem StoreLegal.slots {s : State} (h : StoreLegal s) : slotsLegal s.store.slots := fun i => ⟨h.valid i, h.erased i⟩

theorem slotsLegal.set {x : Slots} (h : slotsLegal x) (i : SlotId) {y : Slot} (hy : SlotLegal y) :
    slotsLegal (x.set i y) := by
  intro j
  rw [Slots.get_set]
  split
  · exact hy
  · exact h j

/-- R166: an erased header is legal over any cells. -/
theorem slotLegal_of_erased {x : Slot} (hc : x.complete = false) (hp : x.pairs = erasedPairs) : SlotLegal x :=
  ⟨fun h => (nomatch hc.symm.trans h), fun _ => hp⟩

/-- R166, R168: the slot of a store in progress keeps an erased header, whatever is programmed into it. -/
theorem StoreLegal.programmed_slot {s : State} (h : StoreLegal s) {i : SlotId} {ph : StorePhase}
    (hs : s.store.state = .inProgress i ph) (cells : PerPlane (List Word)) :
    SlotLegal { s.store.slots.get i with cells := cells } := by
  obtain ⟨hinvalid, -, -⟩ := h.storing i ph hs
  exact slotLegal_of_erased hinvalid (h.erased i hinvalid)

/-! ### The store in progress (R168, R169) -/

/-- With no store in progress, legal slots are all. -/
theorem storeLegal_of_idle {s : State} (h : slotsLegal s.store.slots) (hs : s.store.state = .idle) : StoreLegal s :=
  ⟨fun i => (h i).valid, fun i => (h i).erased, fun _ _ hbusy => nomatch hs.symm.trans hbusy⟩

/-- The legality of the store depends on the store and, while one is in progress, on the staging bank. -/
theorem StoreLegal.congr {k u : State} (h : StoreLegal k) (hs : u.store = k.store)
    (hb : k.store.state ≠ .idle → u.banks.staging = k.banks.staging) : StoreLegal u := by
  refine ⟨hs ▸ h.valid, hs ▸ h.erased, fun i ph hbusy => ?_⟩
  rw [hs] at hbusy ⊢
  rw [hb (hbusy ▸ nofun)]
  exact h.storing i ph hbusy

/-- R120: what is staged while no store is in progress does not touch the store. -/
theorem StoreLegal.staged {k u : State} (h : StoreLegal k) (hi : k.storeBusy = false) (hs : u.store = k.store) :
    StoreLegal u := h.congr hs fun hbusy => absurd (k.not_storeBusy_iff.mp hi) hbusy

/-- R169: the planes passed before a phase, and the plane of the phase itself, are those passed before the next. -/
theorem programmed_phaseAfter {p q : PlaneId} (h : programmed (phaseAfter p) q = true) :
    q = p ∨ programmed (.plane p) q = true := by
  revert h
  cases p <;> cases q <;> decide

/-- R168: before plane 0 no plane has been passed. -/
theorem not_programmed_first (p : PlaneId) : programmed (.plane .slipTarget) p = false := by cases p <;> rfl

/-- R168: a store begins with an erased header and no plane passed. -/
theorem StoreLegal.begun {k : State} (h : StoreLegal k) (hv : allVerified k.banks.staging = true) (i : SlotId) :
    StoreLegal (k.withStore { k.store with
      slots := k.store.slots.set i (k.store.slots.get i).erased, state := .inProgress i (.plane .slipTarget) }) := by
  have hslots := h.slots.set i (y := (k.store.slots.get i).erased) (slotLegal_of_erased rfl rfl)
  refine ⟨fun j => (hslots j).valid, fun j => (hslots j).erased, ?_⟩
  rintro _ _ ⟨⟩
  refine ⟨?_, hv, fun p hp => (nomatch (not_programmed_first p).symm.trans hp)⟩
  rw [State.withStore_store, Slots.get_set_same]
  rfl

/-- R169: a plane read back with its pair joins the planes passed. -/
theorem StoreLegal.advanced {k : State} (h : StoreLegal k) {i : SlotId} {p : PlaneId} {cells : List Word}
    (hs : k.store.state = .inProgress i (.plane p)) (hpair : (k.banks.staging.get p).pair? = some (pairOf cells)) :
    StoreLegal (k.withStore { k.store with
      slots := k.store.slots.set i { k.store.slots.get i with cells := (k.store.slots.get i).cells.set p cells },
      state := .inProgress i (phaseAfter p) }) := by
  obtain ⟨hinvalid, hverified, hpassed⟩ := h.storing i _ hs
  have hslots := h.slots.set i (h.programmed_slot hs ((k.store.slots.get i).cells.set p cells))
  refine ⟨fun j => (hslots j).valid, fun j => (hslots j).erased, ?_⟩
  rintro _ _ ⟨⟩
  rw [State.withStore_store, State.withStore_banks, Slots.get_set_same]
  refine ⟨hinvalid, hverified, fun q hq => ?_⟩
  rw [PerPlane.get_set]
  split
  · rename_i hqp
    exact hqp ▸ hpair
  · rename_i hqp
    exact hpassed q ((programmed_phaseAfter hq).resolve_left hqp)

/-- R170: the header written at the end gives the pairs of the cells read back. -/
theorem StoreLegal.finished_slot {k : State} (h : StoreLegal k) {i : SlotId} (hs : k.store.state = .inProgress i .header) :
    SlotLegal { k.store.slots.get i with
      pairs := PerPlane.build fun p => recordedPair (k.banks.staging.get p), complete := true } := by
  obtain ⟨-, -, hpassed⟩ := h.storing i _ hs
  refine ⟨fun _ p => ?_, nofun⟩
  rw [PerPlane.get_build, recordedPair, hpassed p rfl, Option.getD_some]

/-- R172: abandoning a store writes no header, and cells of the slot in progress alone. -/
theorem StoreLegal.abandoned_slots {k : State} (h : StoreLegal k) (n : Nat) :
    slotsLegal (abandonStore n k.banks.staging k.store).slots := by
  rcases abandonStore_slots n k.banks.staging k.store with hkept | ⟨i, p, hs, hset⟩
  · rw [hkept]
    exact h.slots
  · rw [hset]
    exact h.slots.set i (h.programmed_slot hs _)

/-! ### The store through every step -/

theorem StoreLegal.block {k : State} (h : StoreLegal k) (q : Int) (c : CompletionBlock) : StoreLegal (blockMoves q k c) := by
  cases c with
  | controlStateUnit =>
    obtain ⟨c, hc, -⟩ := controlMoves_eq q k
    show StoreLegal (controlMoves q k)
    rw [hc]
    exact h.congr rfl fun _ => rfl
  | mapBanks =>
    show StoreLegal (banksMove k)
    rcases banksMove_due k with e | ⟨e, hi, -⟩ <;> rw [e]
    · exact h
    · exact h.staged hi rfl
  | scrubUnit =>
    show StoreLegal (scrubMoves k)
    rw [scrubMoves_frame]
    exact h.congr rfl fun _ => rfl

/-- R166, R168 to R170, R172: every step keeps the store legal; a build that ends finds no store in progress (R174). -/
theorem StoreLegal.move {k u : State} (h : StoreLegal k) (hb : k.phase = .building → k.store.state = .idle)
    (m : Move k u) : StoreLegal u := by
  cases m with
  | imu | held | lost =>
    obtain ⟨e, he⟩ := lookupRefresh_writes_eval (k.withSensors _)
    rw [he]
    exact h.congr rfl fun _ => rfl
  | wheel =>
    obtain ⟨e, he⟩ := requestPass_writes_eval _
    rw [he]
    exact h.congr rfl fun _ => rfl
  | pass p o _ => exact pass_invariant (fun _ _ h => h.congr rfl fun _ => rfl) (fun _ q c h => h.block q c) h p o
  | restart => exact storeLegal_of_idle h.slots rfl
  | written _ _ _ _ hfree _ | committed _ _ _ hfree | copied hfree | loaded _ hfree _ | activated _ _ _ hfree _ =>
    exact h.staged hfree.idle rfl
  | storeBegun _ i _ _ hv => exact (h.begun hv i).congr rfl fun _ => rfl
  | selected _ _ _ hi => exact storeLegal_of_idle h.slots (k.not_storeBusy_iff.mp hi)
  | programmed i p cells hs _ hpair => exact h.advanced hs hpair
  | unprogrammed i => exact storeLegal_of_idle (h.slots.set i (slotLegal_of_erased rfl rfl)) rfl
  | storeDone i hs => exact storeLegal_of_idle (h.slots.set i (h.finished_slot hs)) rfl
  | storeUndone i => exact storeLegal_of_idle (h.slots.set i (slotLegal_of_erased rfl rfl)) rfl
  | hardReset n => exact storeLegal_of_idle (h.abandoned_slots n) (abandonStore_idle n k.banks.staging k.store)
  | built t hp => exact storeLegal_of_idle h.slots (hb hp)
  | _ => exact h.congr rfl fun _ => rfl

/-- Settles O12: the store goes through the list of `Move`. -/
theorem slotsAreValidOnlyWithTheirPairs : Obligations.SlotsAreValidOnlyWithTheirPairs := by
  unfold Obligations.SlotsAreValidOnlyWithTheirPairs
  intro s t hsettled h hstep
  have hmove := StoreLegal.move (k := s.blocks) (h.congr rfl fun _ => rfl) (fun hp => hsettled.store_idle hp)
    (step_moves hstep)
  exact hmove.congr rfl fun _ => rfl

end Sys2Proof.Machine

/-!
The build of the active bank against every other command (R172, R174).
-/

namespace Sys2Proof.Machine

/-! ### What a building part holds -/

section Building

variable {s : State} (h : Building s)
include h

theorem Building.queue (p : Port) : s.queue p = [] := by
  rw [h.rest]
  cases p <;> rfl

theorem Building.sensors : s.sensors = resetSensors := by rw [h.rest]; rfl

theorem Building.inFlight : s.eval.inFlight = none := by rw [h.rest]; rfl

theorem Building.ack : s.ack = resetAck := by rw [h.rest]; rfl

theorem Building.statusTimer : s.ctl.statusTimer = none := by rw [h.rest]; rfl

theorem Building.store_idle : s.store.state = .idle := Settled.store_idle (fun _ => h) h.phase

/-- The queue of commands is the model's own, and no part of the build (log 2). -/
theorem Building.with_pending (l : List Instr) : Building { s with pending := l } :=
  ⟨h.phase, congrArg (fun u : State => { u with pending := l }) h.rest⟩

/-! ### The commands whose event has not arisen (R174; log 1) -/

/-- R152, R174: no request is taken. -/
theorem Building.takeRequest (code : Option RequestCode) (answer : Request → State → State) :
    takeRequest code answer s = s :=
  takeRequest_not_taken fun _ _ hready => (nomatch h.phase.symm.trans hready.running)

/-- R15 to R17: no entry is in offer. -/
theorem Building.offeredEntry (p : Port) : offeredEntry (s.queue p) = none := by
  rw [h.queue]
  rfl

/-- R97: no acknowledgement is awaited. -/
theorem Building.findRecord (c : Counter) : findRecord c s = none := by
  unfold Machine.findRecord
  rw [h.ack]
  rfl

/-- R174: no frame is taken. -/
theorem Building.not_running (f : RxFrame) : ¬ (s.phase = .running ∧ f.complete = true) :=
  fun ⟨hrunning, _⟩ => nomatch h.phase.symm.trans hrunning

end Building

/-- A timer that stands still does not expire. -/
theorem expiry_stopped {timer : Option Millis} (h : timer = none) (t : Millis) (u s : State) :
    (if timerDue timer t then u else s) = s := by
  rw [h]
  rfl

/-- The commands that a building part answers to (R172, R174). -/
def ActsOnBuild (c : Instr) : Prop :=
  (∃ n, c = .powerOn n) ∨ (∃ n, c = .resetLine n) ∨ ∃ t, c = .bootBuildComplete t

/-- R174: every other command finds that its event has not arisen. -/
theorem Building.exec_unmoved {c : Instr} {s : State} (h : Building s) (hc : ¬ ActsOnBuild c) : exec c s = .next s := by
  cases c with
  | powerOn n => exact absurd (.inl ⟨n, rfl⟩) hc
  | resetLine n => exact absurd (.inr (.inl ⟨n, rfl⟩)) hc
  | bootBuildComplete t => exact absurd (.inr (.inr ⟨t, rfl⟩)) hc
  | frameReceive p f t => exact congrArg _ (if_neg (h.not_running f))
  | transmitComplete p t =>
    show execTransmitComplete p t s = _
    rw [execTransmitComplete, h.offeredEntry]
  | transmitError p =>
    show execTransmitError p s = _
    rw [execTransmitError, h.offeredEntry]
  | staleTransmitReport p r => rfl
  | passCompletion o => exact exec_passCompletion_idle h.inFlight o
  | holdTimerExpiry t => exact congrArg _ (expiry_stopped (congrArg Sensors.holdTimer h.sensors) t _ s)
  | lostTimerExpiry t => exact congrArg _ (expiry_stopped (congrArg Sensors.lostTimer h.sensors) t _ s)
  | wheelTimeout t => exact congrArg _ (expiry_stopped (congrArg Sensors.wheelTimer h.sensors) t _ s)
  | brakeTimerExpiry t => exact congrArg _ (expiry_stopped (congrArg Sensors.brakeTimer h.sensors) t _ s)
  | statusTimerExpiry t => exact congrArg _ (expiry_stopped h.statusTimer t _ s)
  | ackDeadlineExpiry k t =>
    show execAckDeadlineExpiry k t s = _
    rw [execAckDeadlineExpiry, h.findRecord]
  | storePlanePhaseComplete l =>
    show execStorePlanePhaseComplete l s = _
    rw [execStorePlanePhaseComplete, h.store_idle]
  | storeHeaderPhaseComplete r =>
    show execStoreHeaderPhaseComplete r s = _
    rw [execStoreHeaderPhaseComplete, h.store_idle]
  | _ => exact congrArg _ (h.takeRequest _ _)

/-! ### The end of the build (R174) -/

theorem buildDone_phase (t : Millis) (s : State) : (buildDone t s).phase = .running := by
  unfold buildDone
  dsimp only
  split
  · exact raiseCondition_phase _ _
  · rfl

theorem exec_bootBuildComplete {s : State} (h : s.phase = .building) (t : Millis) :
    exec (.bootBuildComplete t) s = .next (buildDone t s) := congrArg _ (if_pos h)

/-- R174: after a command a building part still builds, or has completed the build. -/
theorem Building.exec_phase {c : Instr} {s t : State} (h : Building s) (hx : exec c s = .next t) :
    Building t ∨ (∃ n, c = .bootBuildComplete n) ∧ t.phase = .running := by
  by_cases hc : ActsOnBuild c
  · rcases hc with ⟨n, rfl⟩ | ⟨n, rfl⟩ | ⟨n, rfl⟩
    · obtain rfl := Host.Outcome.next.inj hx
      exact .inl (hardReset_building n _ s)
    · obtain rfl := Host.Outcome.next.inj hx
      exact .inl (hardReset_building n _ s)
    · obtain rfl := Host.Outcome.next.inj ((exec_bootBuildComplete h.phase n).symm.trans hx)
      exact .inr ⟨⟨n, rfl⟩, buildDone_phase n s⟩
  · obtain rfl := Host.Outcome.next.inj ((h.exec_unmoved hc).symm.trans hx)
    exact .inl h

/-! ### What leaves the phase as it is -/

/-- The operations that leave the blocks leave the phase. -/
theorem phase_of_blocks {s u : State} (h : u.blocks = s.blocks) : u.phase = s.phase :=
  (congrArg State.phase h :)

@[simp] theorem respond_phase (r : Request) (res : Result) (d : List Byte) (s : State) :
    (respond r res d s).phase = s.phase := phase_of_blocks (respond_blocks r res d s)

@[simp] theorem endRun_phase (s : State) : (endRun s).phase = s.phase := rfl

@[simp] theorem lookupRefresh_phase (s : State) : (lookupRefresh s).phase = s.phase := by
  fun_cases lookupRefresh s <;> rfl

@[simp] theorem requestArrival_phase (r : Request) (s : State) : (requestArrival r s).phase = s.phase :=
  phase_of_blocks (requestArrival_blocks r s)

@[simp] theorem ackArrival_phase (d : List Byte) (s : State) : (ackArrival d s).phase = s.phase :=
  phase_of_blocks (ackArrival_blocks d s)

@[simp] theorem forwardPlain_phase (p : Port) (f : Frame) (k : Bool) (s : State) : (forwardPlain p f k s).phase = s.phase :=
  place_phase _ _ _ _ _

@[simp] theorem imuArrival_phase (d : List Byte) (t : Millis) (s : State) : (imuArrival d t s).phase = s.phase := by
  fun_cases imuArrival d t s <;> simp +zetaDelta [imuAccept]

@[simp] theorem wheelArrival_phase (d : List Byte) (t : Millis) (s : State) : (wheelArrival d t s).phase = s.phase := by
  fun_cases wheelArrival d t s <;> simp +zetaDelta [wheelAccept]

@[simp] theorem brakeArrival_phase (d : List Byte) (t : Millis) (s : State) : (brakeArrival d t s).phase = s.phase := by
  fun_cases brakeArrival d t s <;> rfl

@[simp] theorem torqueArrival_phase (d : List Byte) (s : State) : (torqueArrival d s).phase = s.phase := by
  fun_cases torqueArrival d s <;> rfl

@[simp] theorem handRideMode_phase (m : Option RideMode) (s : State) : (s.handRideMode m).phase = s.phase := by
  cases m <;> rfl

@[simp] theorem handLoadState_phase (l : Option LoadState) (s : State) : (s.handLoadState l).phase = s.phase := by
  cases l <;> rfl

@[simp] theorem rideModeArrival_phase (d : List Byte) (s : State) : (rideModeArrival d s).phase = s.phase := by
  fun_cases rideModeArrival d s <;> simp +zetaDelta

@[simp] theorem loadStateArrival_phase (d : List Byte) (s : State) : (loadStateArrival d s).phase = s.phase := by
  fun_cases loadStateArrival d s <;> simp +zetaDelta

@[simp] theorem torqueRequestFrame_phase (p : Port) (f : Frame) (s : State) :
    (torqueRequestFrame p f s).phase = s.phase := by
  fun_cases torqueRequestFrame p f s <;> simp [forwardBadCheck]

@[simp] theorem brakeDemandFrame_phase (p : Port) (f : Frame) (t : Millis) (s : State) :
    (brakeDemandFrame p f t s).phase = s.phase := by
  fun_cases brakeDemandFrame p f t s <;> simp [forwardBadCheck]

theorem receive_phase (p : Port) (f : Frame) (t : Millis) (s : State) : (receive p f t s).phase = s.phase := by
  unfold receive
  split
  · exact requestArrival_phase _ _
  · obtain ⟨a, k⟩ := classify s.banks.active p f
    cases a <;> simp [actOn]

@[simp] theorem enterLost_phase (s : State) : (enterLost s).phase = s.phase := by simp [enterLost]

theorem holdExpiry_phase (s : State) : (holdExpiry s).phase = s.phase := by
  fun_cases holdExpiry s <;> simp

theorem lostExpiry_phase (s : State) : (lostExpiry s).phase = s.phase := by
  fun_cases lostExpiry s <;> simp

theorem wheelExpiry_phase (s : State) : (wheelExpiry s).phase = s.phase := by
  fun_cases wheelExpiry s <;> simp +zetaDelta [enterPassive]

theorem statusFrame_phase (t : Millis) (s : State) :
    (startStatusTimer t (place .upstream (plainContent (statusFrame s)) .part true s)).phase = s.phase :=
  place_phase _ _ _ _ _

theorem planePhaseDone_phase (i : SlotId) (p : PlaneId) (l : List (Nat × Word)) (s : State) :
    (planePhaseDone i p l s).phase = s.phase := by
  fun_cases planePhaseDone i p l s <;> simp +zetaDelta [failStore]

theorem headerPhaseDone_phase (i : SlotId) (r : HeaderReadBack) (s : State) :
    (headerPhaseDone i r s).phase = s.phase := by
  cases r <;> simp [headerPhaseDone, failStore]

/-- R54: a completion neither begins nor ends a build. -/
theorem passCompletion_phase (o : TakeOrder) (p : Pass) (s : State) :
    (beginWaiting (blocksTake o p.inputs.q (recordPass p s))).phase = s.phase := by
  rw [← State.blocks_phase, beginWaiting_blocks, blocksTake, blocksTake_blocks]
  exact (pass_keeps p o s.blocks).phase

/-! ### Requests (R152, R159) -/

/-- An answer that neither begins nor ends a build. -/
def KeepsPhase (answer : Request → State → State) : Prop := ∀ r s, (answer r s).phase = s.phase

theorem KeepsPhase.withLength {n : Nat} {body : Request → State → State} (h : KeepsPhase body) :
    KeepsPhase (withLength n body) := by
  intro r s
  fun_cases Machine.withLength n body r s with
  | case1 u hlen => exact h r (endRun s)
  | case2 u hlen => exact respond_phase _ _ _ _

/-- A command that takes a request keeps the phase when its answer does. -/
theorem phase_of_taken {s t : State} {code : Option RequestCode} {answer : Request → State → State}
    (hx : (.next (takeRequest code answer s) : Host.Outcome State Fault Refusal) = .next t) (h : KeepsPhase answer) :
    t.phase = s.phase := by
  obtain rfl := Host.Outcome.next.inj hx
  rcases takeRequest_cases code answer s with e | ⟨r, rest, -, -, e⟩
  · rw [e]
  · rw [e]
    exact h r (takeHead r rest s)

/-- The same for a request of one allowed length. -/
theorem phase_of_fixedLength {s t : State} {code : Option RequestCode} {n : Nat} {body : Request → State → State}
    (hx : (.next (takeRequest code (withLength n body) s) : Host.Outcome State Fault Refusal) = .next t)
    (h : KeepsPhase body) : t.phase = s.phase := phase_of_taken hx h.withLength

/-! ### Every command -/

/-- A command that acts only when its event has come. -/
theorem phase_when {s u t : State} {P : Prop} [Decidable P] (h : u.phase = s.phase)
    (hx : (.next (if P then u else s) : Host.Outcome State Fault Refusal) = .next t) : t.phase = s.phase := by
  obtain rfl := Host.Outcome.next.inj hx
  split
  · exact h
  · rfl

/-- R174: no other command begins or ends a build. -/
theorem exec_phase {c : Instr} {s t : State} (hc : ¬ ActsOnBuild c) (hx : exec c s = .next t) : t.phase = s.phase := by
  cases c with
  | powerOn n => exact absurd (.inl ⟨n, rfl⟩) hc
  | resetLine n => exact absurd (.inr (.inl ⟨n, rfl⟩)) hc
  | bootBuildComplete t => exact absurd (.inr (.inr ⟨t, rfl⟩)) hc
  | frameReceive p f t => exact phase_when (receive_phase p (takenFrame f) t s) hx
  | transmitComplete p t => exact phase_of_blocks (transmitComplete_moves p t s _ hx)
  | transmitError p => exact phase_of_blocks (transmitError_moves p s _ hx)
  | staleTransmitReport p r => exact congrArg State.phase (Host.Outcome.next.inj hx).symm
  | passCompletion o =>
    obtain rfl := Host.Outcome.next.inj hx
    split
    · rfl
    · exact passCompletion_phase o _ s
  | holdTimerExpiry t => exact phase_when (holdExpiry_phase s) hx
  | lostTimerExpiry t => exact phase_when (lostExpiry_phase s) hx
  | wheelTimeout t => exact phase_when (wheelExpiry_phase s) hx
  | brakeTimerExpiry t => exact phase_when (State.withSensors_phase s _) hx
  | statusTimerExpiry t => exact phase_when (statusFrame_phase t s) hx
  | ackDeadlineExpiry k t =>
    obtain rfl := Host.Outcome.next.inj hx
    split
    · rfl
    · split
      · exact phase_of_blocks (ackMiss_blocks _)
      · rfl
  | storePlanePhaseComplete l =>
    obtain rfl := Host.Outcome.next.inj hx
    split
    · exact planePhaseDone_phase _ _ l s
    · rfl
    · rfl
  | storeHeaderPhaseComplete r =>
    obtain rfl := Host.Outcome.next.inj hx
    split
    · exact headerPhaseDone_phase _ r s
    · rfl
    · rfl
  | identify => exact phase_of_fixedLength hx fun r u => by simp [answerIdentify]
  | readStatus => exact phase_of_taken hx fun r u => by fun_cases answerReadStatus r u <;> simp
  | enableNotices => exact phase_of_fixedLength hx fun r u => by fun_cases answerEnableNotices r u <;> simp
  | disableNotices => exact phase_of_fixedLength hx fun r u => by fun_cases answerDisableNotices r u <;> simp
  | clearConditions => exact phase_of_fixedLength hx fun r u => by fun_cases answerClearConditions r u <;> simp
  | clearResetCause => exact phase_of_fixedLength hx fun r u => by simp [answerClearResetCause]
  | enterRoller => exact phase_of_fixedLength hx fun r u => by fun_cases answerEnterRoller r u <;> simp
  | leaveRoller => exact phase_of_fixedLength hx fun r u => by fun_cases answerLeaveRoller r u <;> simp
  | restart t => exact phase_of_fixedLength hx fun r u => by fun_cases answerRestart t r u <;> simp [restartReset]
  | openWindow => exact phase_of_fixedLength hx fun r u => by fun_cases answerOpenWindow r u <;> simp
  | loadData => exact phase_of_taken hx fun r u => by fun_cases answerLoadData r u <;> simp [loadValues]
  | resumeWindow => exact phase_of_fixedLength hx fun r u => by fun_cases answerResumeWindow r u <;> simp
  | readData => exact phase_of_taken hx fun r u => by fun_cases answerReadData r u <;> simp [readValues]
  | fillWindow => exact phase_of_fixedLength hx fun r u => by fun_cases answerFillWindow r u <;> simp +zetaDelta
  | commitPlane => exact phase_of_fixedLength hx fun r u => by fun_cases answerCommitPlane r u <;> simp
  | stageCopy => exact phase_of_fixedLength hx fun r u => by fun_cases answerStageCopy r u <;> simp
  | activate => exact phase_of_fixedLength hx fun r u => by fun_cases answerActivate r u <;> simp +zetaDelta
  | cancelActivation => exact phase_of_fixedLength hx fun r u => by simp [answerCancelActivation]
  | storeImage => exact phase_of_fixedLength hx fun r u => by fun_cases answerStoreImage r u <;> simp
  | loadImage => exact phase_of_fixedLength hx fun r u => by fun_cases answerLoadImage r u <;> simp +zetaDelta
  | selectBootSlot => exact phase_of_fixedLength hx fun r u => by fun_cases answerSelectBootSlot r u <;> simp
  | unknownRequest => exact phase_of_taken hx fun _ => endRun_phase

/-! ### A part that is building has nothing else going on -/

/-- R172, R174: a command that leads into a build from outside it is a hard reset. -/
theorem exec_begins_build {c : Instr} {s t : State} (hs : s.phase ≠ .building) (hx : exec c s = .next t)
    (ht : t.phase = .building) : Building t := by
  by_cases hc : ActsOnBuild c
  · rcases hc with ⟨n, rfl⟩ | ⟨n, rfl⟩ | ⟨n, rfl⟩
    · obtain rfl := Host.Outcome.next.inj hx
      exact hardReset_building n _ s
    · obtain rfl := Host.Outcome.next.inj hx
      exact hardReset_building n _ s
    · have hkept : exec (.bootBuildComplete n) s = .next s := congrArg _ (if_neg hs)
      obtain rfl := Host.Outcome.next.inj (hkept.symm.trans hx)
      exact absurd ht hs
  · exact absurd ((exec_phase hc hx).symm.trans ht) hs

theorem Settled.exec {c : Instr} {s t : State} (h : Settled s) (hx : exec c s = .next t) : Settled t := by
  intro ht
  by_cases hs : s.phase = .building
  · rcases (h hs).exec_phase hx with hbuilding | ⟨-, hrunning⟩
    · exact hbuilding
    · exact nomatch hrunning.symm.trans ht
  · exact exec_begins_build hs hx ht

theorem Settled.with_pending {s : State} (h : Settled s) (l : List Instr) : Settled { s with pending := l } :=
  fun hs => (h hs).with_pending l

/-- Settles O14: a building part by `Building.exec_unmoved` and `Building.exec_phase`, every other by `exec_begins_build`. -/
theorem duringTheBuildNothingElseMoves : Obligations.DuringTheBuildNothingElseMoves := by
  unfold Obligations.DuringTheBuildNothingElseMoves
  refine ⟨fun c s h => ⟨?_, fun t hx => h.exec_phase hx⟩, fun s t h hstep => ?_⟩
  · split
    · trivial
    · trivial
    · trivial
    · rename_i hpower hline hboot
      exact h.exec_unmoved fun hc => by
        rcases hc with ⟨n, rfl⟩ | ⟨n, rfl⟩ | ⟨n, rfl⟩
        · exact hpower n rfl
        · exact hline n rfl
        · exact hboot n rfl
  · unfold step at hstep
    split at hstep
    · exact Host.Outcome.next.inj hstep ▸ h
    · exact (h.with_pending _).exec hstep

end Sys2Proof.Machine

/-!
Store Image and Select Boot Slot (R166 to R168), and the phases of a store (R169, R170).
-/

namespace Sys2Proof.Machine

/-! ### Store Image and Select Boot Slot (R166 to R168) -/

/-- R168: a store in progress is tested first. -/
theorem answerStoreImage_busy {r : Request} {s : State} (h : s.storeBusy = true) :
    answerStoreImage r s = respond r .busyStore [] s := if_pos h

/-- R167: a store in progress is tested first. -/
theorem answerSelectBootSlot_busy {r : Request} {s : State} (h : s.storeBusy = true) :
    answerSelectBootSlot r s = respond r .busyStore [] s := if_pos h

section Idle

variable {r : Request} {s : State} (hidle : s.storeBusy = false)
include hidle

theorem answerStoreImage_badSlot (h : slotOf (requestArg r 2) = none) :
    answerStoreImage r s = respond r .badArgument [] s := by
  simp only [answerStoreImage, hidle, h, Bool.false_eq_true, if_false]

theorem answerSelectBootSlot_badSlot (h : slotOf (requestArg r 2) = none) :
    answerSelectBootSlot r s = respond r .badArgument [] s := by
  simp only [answerSelectBootSlot, hidle, h, Bool.false_eq_true, if_false]

variable {i : SlotId} (hi : slotOf (requestArg r 2) = some i)
include hi

theorem answerStoreImage_notReady (h : allVerified s.banks.staging = false) :
    answerStoreImage r s = respond r .notReady [] s := by
  simp only [answerStoreImage, hidle, hi, h, Bool.false_eq_true, if_false]

theorem answerStoreImage_begins (h : allVerified s.banks.staging = true) : answerStoreImage r s =
    respond r .ok [] (s.withStore { s.store with
      slots := s.store.slots.set i (s.store.slots.get i).erased, state := .inProgress i (.plane .slipTarget) }) := by
  simp only [answerStoreImage, hidle, hi, h, Bool.false_eq_true, if_false, if_true]

theorem answerSelectBootSlot_selects :
    answerSelectBootSlot r s = respond r .ok [] (s.withStore { s.store with bootSelector := i }) := by
  simp only [answerSelectBootSlot, hidle, hi, Bool.false_eq_true, if_false]

end Idle

/-- Settles O56: by the outcomes of `answerStoreImage` and `answerSelectBootSlot`. -/
theorem storeImageErasesTheHeaderFirst : Obligations.StoreImageErasesTheHeaderFirst := by
  unfold Obligations.StoreImageErasesTheHeaderFirst
  constructor
  · intro s seq n rest h hq
    let r : Request := [0x20, seq, n]
    let u : State := endRun (takeHead r rest s)
    refine ⟨_, exec_withLength h rfl rfl rfl, fun hbusy => ?_, fun hidle hn => ?_, fun i hidle hi =>
      ⟨fun ⟨p, hp⟩ => ?_, fun hall => ?_⟩⟩
    · rw [answerStoreImage_busy (s := u) hbusy]
      exact respond_over_taken h hq .busyStore []
    · rw [answerStoreImage_badSlot (r := r) (s := u) hidle (slotOf_above hn)]
      exact respond_over_taken h hq .badArgument []
    · have hnot : allVerified u.banks.staging = false :=
        Bool.eq_false_of_not_eq_true fun hall => nomatch hp.symm.trans ((allVerified_iff _).mp hall p)
      rw [answerStoreImage_notReady (r := r) (s := u) hidle hi hnot]
      exact respond_over_taken h hq .notReady []
    · rw [answerStoreImage_begins (r := r) (s := u) hidle hi ((allVerified_iff _).mpr hall)]
      exact respond_after (u := u.withStore _) h hq rfl rfl rfl rfl r .ok []
  · intro s seq n rest h hq
    let r : Request := [0x22, seq, n]
    let u : State := endRun (takeHead r rest s)
    refine ⟨_, exec_withLength h rfl rfl rfl, fun hbusy => ?_, fun hidle hn => ?_, fun i hidle hi => ?_⟩
    · rw [answerSelectBootSlot_busy (s := u) hbusy]
      exact respond_over_taken h hq .busyStore []
    · rw [answerSelectBootSlot_badSlot (r := r) (s := u) hidle (slotOf_above hn)]
      exact respond_over_taken h hq .badArgument []
    · rw [answerSelectBootSlot_selects (r := r) (s := u) hidle hi]
      exact respond_after (u := u.withStore _) h hq rfl rfl rfl rfl r .ok []

/-! ### The phases of a store (R169, R170) -/

theorem Slots.set_set (x : Slots) (i : SlotId) (y z : Slot) : (x.set i y).set i z = x.set i z := by cases i <;> rfl

theorem phaseAfter_eq (p : PlaneId) : phaseAfter p = if p = .action then .header else .plane p.next := by cases p <;> rfl

theorem recordedPair_of_verified {pl : Plane} {c : CheckPair} (h : pl.status = .verified c) : recordedPair pl = c := by
  rw [recordedPair, (pl.pair?_iff c).mpr h, Option.getD_some]

theorem exec_storePlanePhaseComplete {s : State} {i : SlotId} {p : PlaneId} (hs : s.store.state = .inProgress i (.plane p))
    (l : List (Nat × Word)) : exec (.storePlanePhaseComplete l) s = .next (planePhaseDone i p l s) := by
  show execStorePlanePhaseComplete l s = _
  rw [execStorePlanePhaseComplete, hs]

theorem exec_storeHeaderPhaseComplete {s : State} {i : SlotId} (hs : s.store.state = .inProgress i .header)
    (r : HeaderReadBack) : exec (.storeHeaderPhaseComplete r) s = .next (headerPhaseDone i r s) := by
  show execStoreHeaderPhaseComplete r s = _
  rw [execStoreHeaderPhaseComplete, hs]

section ReadBack

variable {s : State} {p : PlaneId} {c : CheckPair} (hc : (s.banks.staging.get p).status = .verified c) (i : SlotId)
  {l : List (Nat × Word)}
include hc

/-- R169: the read-back compares the recorded pair with that of the cells taken. -/
theorem readBack_iff : (s.banks.staging.get p).pair? = some (pairOf (takenCells (s.banks.staging.get p).cells l)) ↔
    pairOf (takenCells (s.banks.staging.get p).cells l) = c := by
  rw [(Plane.pair?_iff _ c).mpr hc, Option.some.injEq, eq_comm]

/-- R169: the slot's plane holds what it took, and the store goes on. -/
theorem planePhaseDone_match (h : pairOf (takenCells (s.banks.staging.get p).cells l) = c) : planePhaseDone i p l s =
    s.withStore { s.store with
      slots := s.store.slots.set i { s.store.slots.get i with
        cells := (s.store.slots.get i).cells.set p (takenCells (s.banks.staging.get p).cells l) },
      state := .inProgress i (phaseAfter p) } := if_pos ((readBack_iff hc).mpr h)

/-- R169, R170: the slot's plane holds what it took, and the store ends with the header erased. -/
theorem planePhaseDone_mismatch (h : pairOf (takenCells (s.banks.staging.get p).cells l) ≠ c) : planePhaseDone i p l s =
    raiseCondition .storeFailed (s.withStore { s.store with
      slots := s.store.slots.set i
        { cells := (s.store.slots.get i).cells.set p (takenCells (s.banks.staging.get p).cells l), pairs := erasedPairs,
          complete := false },
      state := .idle }) := by
  refine (if_neg (mt (readBack_iff hc).mp h)).trans ?_
  simp only [failStore, State.withStore_store, Slots.get_set_same, Slots.set_set]
  rfl

end ReadBack

/-- Settles O57: a plane phase by its read-back, the header by what the staging planes record. -/
theorem storePhasesProgramAndReadBack : Obligations.StorePhasesProgramAndReadBack := by
  unfold Obligations.StorePhasesProgramAndReadBack
  constructor
  · intro s l i p c hs hc x cells y
    have hexec := exec_storePlanePhaseComplete hs l
    refine ⟨fun hmatch => ?_, fun hmismatch => ?_⟩
    · rw [hexec, planePhaseDone_match hc i hmatch, phaseAfter_eq]
      rfl
    · rw [hexec, planePhaseDone_mismatch hc i hmismatch]
      rfl
  · intro s i hs x
    refine ⟨fun pairs hpairs => ?_, exec_storeHeaderPhaseComplete hs .differently⟩
    have hheader : (PerPlane.build fun p => recordedPair (s.banks.staging.get p)) = pairs := by
      refine PerPlane.ext_get fun p => ?_
      rw [PerPlane.get_build]
      exact recordedPair_of_verified (hpairs p)
    rw [exec_storeHeaderPhaseComplete hs, headerPhaseDone, hheader]
    rfl

end Sys2Proof.Machine

/-!
The queue of commands (log 1, log 2): a step takes the command at its front, every command answers a next state, and none
touches the commands behind it.
-/

namespace Sys2Proof.Machine

/-! ### The front of the queue -/

theorem step_of_pending {s : State} {c : Instr} {rest : List Instr} (h : s.pending = c :: rest) :
    step s = exec c { s with pending := rest } := by
  unfold step
  rw [h]

theorem step_of_idle {s : State} (h : s.pending = []) : step s = .next s := by
  unfold step
  rw [h]

/-- Settles O1: the two equations of `step`. -/
theorem stepRunsTheFrontCommand : Obligations.StepRunsTheFrontCommand := by
  unfold Obligations.StepRunsTheFrontCommand
  exact ⟨fun c rest s => step_of_pending (s := { s with pending := c :: rest }) rfl, fun s h => step_of_idle h⟩

/-! ### What the shared operations leave of the queue of commands -/

/-- A command whose event has not arisen leaves the state (log 1). -/
theorem pending_when {s u : State} {P : Prop} [Decidable P] (h : u.pending = s.pending) :
    (if P then u else s).pending = s.pending := by
  split
  · exact h
  · rfl

@[simp] theorem State.offerAt_pending (s : State) (p : Port) : (s.offerAt p).pending = s.pending :=
  s.setQueue_pending p _

@[simp] theorem State.partLost_pending (s : State) (c : Content) : (s.partLost c).pending = s.pending :=
  (s.partLost_onlySent c).pending

@[simp] theorem respond_pending (r : Request) (res : Result) (d : List Byte) (s : State) :
    (respond r res d s).pending = s.pending := by
  obtain ⟨q, x, c, h⟩ := placeResponse_frame (numberParts (byteAt r 0) (requestSeq r) res 0 (divideData d)) s
  unfold respond
  rw [h]

@[simp] theorem endRun_pending (s : State) : (endRun s).pending = s.pending := rfl

@[simp] theorem nextPart_pending (s : State) : (nextPart s).pending = s.pending := by
  fun_cases nextPart s <;> simp [placePart]

@[simp] theorem lookupRefresh_pending (s : State) : (lookupRefresh s).pending = s.pending := by
  fun_cases lookupRefresh s <;> rfl

@[simp] theorem requestPass_pending (s : State) : (requestPass s).pending = s.pending := by
  fun_cases requestPass s <;> rfl

@[simp] theorem removeRecord_pending (c : Counter) (s : State) : (removeRecord c s).pending = s.pending := rfl

@[simp] theorem ackMiss_pending (s : State) : (ackMiss s).pending = s.pending := by
  fun_cases ackMiss s <;> simp

/-! ### The arrival of a frame (R1 to R8) -/

@[simp] theorem requestArrival_pending (r : Request) (s : State) : (requestArrival r s).pending = s.pending := by
  fun_cases requestArrival r s <;> simp

@[simp] theorem forwardPlain_pending (p : Port) (f : Frame) (k : Bool) (s : State) :
    (forwardPlain p f k s).pending = s.pending := place_pending _ _ _ _ _

@[simp] theorem forwardBadCheck_pending (p : Port) (f : Frame) (s : State) :
    (forwardBadCheck p f s).pending = s.pending :=
  (raiseCondition_pending _ _).trans (place_pending _ _ _ _ _)

@[simp] theorem imuArrival_pending (d : List Byte) (t : Millis) (s : State) : (imuArrival d t s).pending = s.pending := by
  fun_cases imuArrival d t s <;> simp +zetaDelta [imuAccept]

@[simp] theorem wheelArrival_pending (d : List Byte) (t : Millis) (s : State) :
    (wheelArrival d t s).pending = s.pending := by
  fun_cases wheelArrival d t s <;> simp +zetaDelta [wheelAccept]

@[simp] theorem brakeArrival_pending (d : List Byte) (t : Millis) (s : State) :
    (brakeArrival d t s).pending = s.pending := by
  fun_cases brakeArrival d t s <;> rfl

@[simp] theorem torqueArrival_pending (d : List Byte) (s : State) : (torqueArrival d s).pending = s.pending := by
  fun_cases torqueArrival d s <;> rfl

@[simp] theorem handRideMode_pending (m : Option RideMode) (s : State) : (s.handRideMode m).pending = s.pending := by
  cases m <;> rfl

@[simp] theorem handLoadState_pending (l : Option LoadState) (s : State) : (s.handLoadState l).pending = s.pending := by
  cases l <;> rfl

@[simp] theorem rideModeArrival_pending (d : List Byte) (s : State) : (rideModeArrival d s).pending = s.pending := by
  fun_cases rideModeArrival d s <;> simp +zetaDelta

@[simp] theorem loadStateArrival_pending (d : List Byte) (s : State) : (loadStateArrival d s).pending = s.pending := by
  fun_cases loadStateArrival d s <;> simp +zetaDelta

@[simp] theorem ackVerdict_pending (r : AckRecord) (applied : Int) (s : State) :
    (ackVerdict r applied s).pending = s.pending := by
  fun_cases ackVerdict r applied s <;> simp

@[simp] theorem ackArrival_pending (d : List Byte) (s : State) : (ackArrival d s).pending = s.pending := by
  fun_cases ackArrival d s <;> simp

@[simp] theorem torqueRequestFrame_pending (p : Port) (f : Frame) (s : State) :
    (torqueRequestFrame p f s).pending = s.pending := by
  fun_cases torqueRequestFrame p f s <;> simp

@[simp] theorem brakeDemandFrame_pending (p : Port) (f : Frame) (t : Millis) (s : State) :
    (brakeDemandFrame p f t s).pending = s.pending := by
  fun_cases brakeDemandFrame p f t s <;> simp

theorem receive_pending (p : Port) (f : Frame) (t : Millis) (s : State) : (receive p f t s).pending = s.pending := by
  unfold receive
  split
  · exact requestArrival_pending _ _
  · obtain ⟨a, k⟩ := classify s.banks.active p f
    cases a <;> simp [actOn]

/-! ### Transmit reports (R15, R16) -/

@[simp] theorem reducedSent_pending (c : Content) (t : Millis) (s : State) : (reducedSent c t s).pending = s.pending := by
  fun_cases reducedSent c t s <;> simp [openAckRecord]

@[simp] theorem partSent_pending (c : Content) (s : State) : (partSent c s).pending = s.pending := by
  fun_cases partSent c s <;> simp

theorem sendDone_pending (p : Port) (e : Entry) (t : Millis) (s : State) : (sendDone p e t s).pending = s.pending := by
  simp [sendDone]

theorem sendFailed_pending (p : Port) (e : Entry) (s : State) : (sendFailed p e s).pending = s.pending := by
  fun_cases sendFailed p e s <;> simp +zetaDelta

/-! ### Expiries (R27, R28, R107, R116) -/

@[simp] theorem enterLost_pending (s : State) : (enterLost s).pending = s.pending := by simp [enterLost]

theorem holdExpiry_pending (s : State) : (holdExpiry s).pending = s.pending := by
  fun_cases holdExpiry s <;> simp

theorem lostExpiry_pending (s : State) : (lostExpiry s).pending = s.pending := by
  fun_cases lostExpiry s <;> simp

theorem wheelExpiry_pending (s : State) : (wheelExpiry s).pending = s.pending := by
  fun_cases wheelExpiry s <;> simp +zetaDelta [enterPassive]

theorem statusFrame_pending (t : Millis) (s : State) :
    (startStatusTimer t (place .upstream (plainContent (statusFrame s)) .part true s)).pending = s.pending :=
  place_pending _ _ _ _ _

/-! ### The completion of a pass (R54) -/

@[simp] theorem controlTransition_pending (s : State) : (controlTransition s).pending = s.pending := by
  fun_cases controlTransition s <;> simp

theorem controlTakes_pending (q : Int) (s : State) : (controlTakes q s).pending = s.pending := by
  unfold controlTakes
  fun_cases applyPending q (controlTransition s) <;> simp

theorem banksTake_pending (s : State) : (banksTake s).pending = s.pending := by
  fun_cases banksTake s <;> simp [exchangeBanks, swapBanks]

@[simp] theorem markFaulty_pending (p : PlaneId) (s : State) : (markFaulty p s).pending = s.pending := by
  cases hp : p.isLimpPlane <;> simp [markFaulty, hp]

@[simp] theorem comparePlane_pending (p : PlaneId) (sums : CheckPair) (s : State) :
    (comparePlane p sums s).pending = s.pending := by
  fun_cases comparePlane p sums s <;> simp [correctCell]

theorem scrubTakes_pending (s : State) : (scrubTakes s).pending = s.pending := by
  fun_cases scrubTakes s <;> simp

theorem blockTakes_pending (q : Int) (s : State) (b : CompletionBlock) : (blockTakes q s b).pending = s.pending := by
  cases b with
  | controlStateUnit => exact controlTakes_pending q s
  | mapBanks => exact banksTake_pending s
  | scrubUnit => exact scrubTakes_pending s

/-- In whatever order the blocks take it, since each of them leaves the queue. -/
theorem blocksTake_pending (o : TakeOrder) (q : Int) (s : State) : (blocksTake o q s).pending = s.pending := by
  unfold blocksTake
  induction o.blocks generalizing s with
  | nil => rfl
  | cons b l ih => exact (ih (blockTakes q s b)).trans (blockTakes_pending q s b)

theorem beginWaiting_pending (s : State) : (beginWaiting s).pending = s.pending := by
  fun_cases beginWaiting s <;> rfl

theorem passCompletion_pending (o : TakeOrder) (p : Pass) (s : State) :
    (beginWaiting (blocksTake o p.inputs.q (recordPass p s))).pending = s.pending :=
  (beginWaiting_pending _).trans (blocksTake_pending _ _ _)

/-! ### The map store and the boot build (R169, R170, R174) -/

theorem planePhaseDone_pending (i : SlotId) (p : PlaneId) (l : List (Nat × Word)) (s : State) :
    (planePhaseDone i p l s).pending = s.pending := by
  fun_cases planePhaseDone i p l s <;> simp +zetaDelta [failStore]

theorem headerPhaseDone_pending (i : SlotId) (r : HeaderReadBack) (s : State) :
    (headerPhaseDone i r s).pending = s.pending := by
  cases r <;> simp [headerPhaseDone, failStore]

theorem buildDone_pending (t : Millis) (s : State) : (buildDone t s).pending = s.pending := by
  fun_cases buildDone t s <;> simp +zetaDelta

/-! ### Requests (R152, R153) -/

/-- An answer that leaves the queue of commands. -/
def KeepsPending (answer : Request → State → State) : Prop := ∀ r s, (answer r s).pending = s.pending

theorem KeepsPending.withLength {n : Nat} {body : Request → State → State} (h : KeepsPending body) :
    KeepsPending (withLength n body) := by
  intro r s
  fun_cases Machine.withLength n body r s with
  | case1 u hlen => exact h r (endRun s)
  | case2 u hlen => exact respond_pending _ _ _ _

/-- A request that is not taken changes nothing, and one that is taken is answered. -/
theorem KeepsPending.taken {answer : Request → State → State} (h : KeepsPending answer) (code : Option RequestCode)
    (s : State) : (takeRequest code answer s).pending = s.pending := by
  rcases takeRequest_cases code answer s with e | ⟨r, rest, -, -, e⟩
  · rw [e]
  · rw [e]
    exact h r (takeHead r rest s)

theorem KeepsPending.fixedLength {n : Nat} {body : Request → State → State} (h : KeepsPending body)
    (code : Option RequestCode) (s : State) : (takeRequest code (Machine.withLength n body) s).pending = s.pending :=
  h.withLength.taken code s

theorem keepsPending_answerIdentify : KeepsPending answerIdentify := fun _ _ => respond_pending _ _ _ _

theorem keepsPending_answerReadStatus : KeepsPending answerReadStatus := fun r s => by
  fun_cases answerReadStatus r s <;> simp

theorem keepsPending_answerEnableNotices : KeepsPending answerEnableNotices := fun r s => by
  fun_cases answerEnableNotices r s <;> simp

theorem keepsPending_answerDisableNotices : KeepsPending answerDisableNotices := fun r s => by
  fun_cases answerDisableNotices r s <;> simp

theorem keepsPending_answerClearConditions : KeepsPending answerClearConditions := fun r s => by
  fun_cases answerClearConditions r s <;> simp

theorem keepsPending_answerClearResetCause : KeepsPending answerClearResetCause := fun _ _ => respond_pending _ _ _ _

theorem keepsPending_answerEnterRoller : KeepsPending answerEnterRoller := fun r s => by
  fun_cases answerEnterRoller r s <;> simp

theorem keepsPending_answerLeaveRoller : KeepsPending answerLeaveRoller := fun r s => by
  fun_cases answerLeaveRoller r s <;> simp

/-- R159: the queue of commands is the model's own, and an accepted Restart leaves it (log 2). -/
theorem keepsPending_answerRestart (t : Millis) : KeepsPending (answerRestart t) := fun r s => by
  fun_cases answerRestart t r s <;> simp [restartReset]

theorem keepsPending_answerOpenWindow : KeepsPending answerOpenWindow := fun r s => by
  fun_cases answerOpenWindow r s <;> simp

theorem keepsPending_answerLoadData : KeepsPending answerLoadData := fun r s => by
  fun_cases answerLoadData r s <;> simp [loadValues]

theorem keepsPending_answerResumeWindow : KeepsPending answerResumeWindow := fun r s => by
  fun_cases answerResumeWindow r s <;> simp

theorem keepsPending_answerReadData : KeepsPending answerReadData := fun r s => by
  fun_cases answerReadData r s <;> simp [readValues]

theorem keepsPending_answerFillWindow : KeepsPending answerFillWindow := fun r s => by
  fun_cases answerFillWindow r s <;> simp +zetaDelta

theorem keepsPending_answerCommitPlane : KeepsPending answerCommitPlane := fun r s => by
  fun_cases answerCommitPlane r s <;> simp

theorem keepsPending_answerStageCopy : KeepsPending answerStageCopy := fun r s => by
  fun_cases answerStageCopy r s <;> simp

theorem keepsPending_answerActivate : KeepsPending answerActivate := fun r s => by
  fun_cases answerActivate r s <;> simp +zetaDelta

theorem keepsPending_answerCancelActivation : KeepsPending answerCancelActivation := fun _ _ => respond_pending _ _ _ _

theorem keepsPending_answerStoreImage : KeepsPending answerStoreImage := fun r s => by
  fun_cases answerStoreImage r s <;> simp

theorem keepsPending_answerLoadImage : KeepsPending answerLoadImage := fun r s => by
  fun_cases answerLoadImage r s <;> simp

theorem keepsPending_answerSelectBootSlot : KeepsPending answerSelectBootSlot := fun r s => by
  fun_cases answerSelectBootSlot r s <;> simp

/-! ### Every command -/

/-- Settles O2: the next state of each command is the one its meaning writes out, and the queue goes by the lemmas above. -/
theorem everyCommandCompletes : Obligations.EveryCommandCompletes := by
  unfold Obligations.EveryCommandCompletes
  intro c s
  cases c with
  | frameReceive p f t => exact ⟨_, rfl, pending_when (receive_pending p (takenFrame f) t s)⟩
  | transmitComplete p t =>
    refine ⟨_, rfl, ?_⟩
    split
    · rfl
    · exact sendDone_pending p _ t s
  | transmitError p =>
    refine ⟨_, rfl, ?_⟩
    split
    · rfl
    · exact sendFailed_pending p _ s
  | staleTransmitReport p r => exact ⟨s, rfl, rfl⟩
  | passCompletion o =>
    refine ⟨_, rfl, ?_⟩
    split
    · rfl
    · exact passCompletion_pending o _ s
  | holdTimerExpiry t => exact ⟨_, rfl, pending_when (holdExpiry_pending s)⟩
  | lostTimerExpiry t => exact ⟨_, rfl, pending_when (lostExpiry_pending s)⟩
  | wheelTimeout t => exact ⟨_, rfl, pending_when (wheelExpiry_pending s)⟩
  | brakeTimerExpiry t => exact ⟨_, rfl, pending_when (s.withSensors_pending _)⟩
  | ackDeadlineExpiry k t =>
    refine ⟨_, rfl, ?_⟩
    split
    · rfl
    · exact pending_when (ackMiss_pending (removeRecord k s))
  | statusTimerExpiry t => exact ⟨_, rfl, pending_when (statusFrame_pending t s)⟩
  | storePlanePhaseComplete l =>
    refine ⟨_, rfl, ?_⟩
    split
    · exact planePhaseDone_pending _ _ l s
    · rfl
    · rfl
  | storeHeaderPhaseComplete r =>
    refine ⟨_, rfl, ?_⟩
    split
    · exact headerPhaseDone_pending _ r s
    · rfl
    · rfl
  | powerOn n => exact ⟨_, rfl, rfl⟩
  | resetLine n => exact ⟨_, rfl, rfl⟩
  | bootBuildComplete t => exact ⟨_, rfl, pending_when (buildDone_pending t s)⟩
  | identify => exact ⟨_, rfl, keepsPending_answerIdentify.fixedLength _ s⟩
  | readStatus => exact ⟨_, rfl, keepsPending_answerReadStatus.taken _ s⟩
  | enableNotices => exact ⟨_, rfl, keepsPending_answerEnableNotices.fixedLength _ s⟩
  | disableNotices => exact ⟨_, rfl, keepsPending_answerDisableNotices.fixedLength _ s⟩
  | clearConditions => exact ⟨_, rfl, keepsPending_answerClearConditions.fixedLength _ s⟩
  | clearResetCause => exact ⟨_, rfl, keepsPending_answerClearResetCause.fixedLength _ s⟩
  | enterRoller => exact ⟨_, rfl, keepsPending_answerEnterRoller.fixedLength _ s⟩
  | leaveRoller => exact ⟨_, rfl, keepsPending_answerLeaveRoller.fixedLength _ s⟩
  | restart t => exact ⟨_, rfl, (keepsPending_answerRestart t).fixedLength _ s⟩
  | openWindow => exact ⟨_, rfl, keepsPending_answerOpenWindow.fixedLength _ s⟩
  | loadData => exact ⟨_, rfl, keepsPending_answerLoadData.taken _ s⟩
  | resumeWindow => exact ⟨_, rfl, keepsPending_answerResumeWindow.fixedLength _ s⟩
  | readData => exact ⟨_, rfl, keepsPending_answerReadData.taken _ s⟩
  | fillWindow => exact ⟨_, rfl, keepsPending_answerFillWindow.fixedLength _ s⟩
  | commitPlane => exact ⟨_, rfl, keepsPending_answerCommitPlane.fixedLength _ s⟩
  | stageCopy => exact ⟨_, rfl, keepsPending_answerStageCopy.fixedLength _ s⟩
  | activate => exact ⟨_, rfl, keepsPending_answerActivate.fixedLength _ s⟩
  | cancelActivation => exact ⟨_, rfl, keepsPending_answerCancelActivation.fixedLength _ s⟩
  | storeImage => exact ⟨_, rfl, keepsPending_answerStoreImage.fixedLength _ s⟩
  | loadImage => exact ⟨_, rfl, keepsPending_answerLoadImage.fixedLength _ s⟩
  | selectBootSlot => exact ⟨_, rfl, keepsPending_answerSelectBootSlot.fixedLength _ s⟩
  | unknownRequest => exact ⟨_, rfl, KeepsPending.taken (fun _ => endRun_pending) none s⟩

end Sys2Proof.Machine
